-- ==== Sys2Proof/Word.lean ====
section
/-!
DEFINITION. The word types of the GLV-BK768 and the sparse table type of the state.
-/
namespace Sys2Proof

/-- A general register, a control register or a generic pointer: 64 bits (R9, R15). -/
abbrev Word := BitVec 64
/-- The smallest addressable unit of every memory (R3). -/
abbrev Byte := BitVec 8
/-- A vector register: 64 lanes of 32 bits, lane j in bits 32j+31:32j (R12). -/
abbrev VReg := BitVec 2048

/-- A sparse table: pairs of a key and a value, keys strictly ascending. A key that is not listed
holds the table's default value, which every reader names. -/
abbrev Tab (α : Type) := List (Nat × α)

end Sys2Proof
end

