-- ==== Sys2Proof/Config.lean ====
section
/-!
DEFINITION. Free values: what the spec leaves open. Each is a constant with no body, so no proof can
know which value it has, and what is proved holds for every value.
-/
namespace Sys2Proof

/-- Which of the two FP32 numbers adjacent to the exact value VRCP (op 0), VRSQ (1), VEXP2 (2),
VLOG2 (3), VSIN (4) or VCOS (5) returns for an input, fixed per input (R199, R200): true is the upper
one. Free value, log 10. -/
opaque Config.approxUpper : (op : Nat) → (x : BitVec 32) → Bool

/-- Bytes that the spec does not define: the sections of a save frame in the device's own form (R487,
R488). The index is the model's counter of free values. Log 9. -/
opaque Config.freeByte : Nat → Byte

/-- The clk that a PLACE spends on the miss of a partial set (R460, R464): the latency of device memory, which the
spec gives as about 400 ns (R127). The index is the model's counter of free values. Log 9. -/
opaque Config.missClk : Nat → BitVec 64

/-- SHA3-256, named and not defined by the spec (R542). Uninterpreted, log 11. -/
opaque Config.sha3 : List Byte → BitVec 256

/-- ML-DSA-44 verification of a signature over a message under a public key (R542). Uninterpreted,
log 11. -/
opaque Config.mldsaVerify : (key message signature : List Byte) → Bool

/-- The ML-DSA-44 signature of a message by the device identity key, 2420 bytes (R544). Uninterpreted, log 11. -/
opaque Config.mldsaSign : List Byte → BitVec (8 * 2420)

/-- The device identity public key, 1312 bytes, generated at manufacture (R544). Log 11. -/
opaque Config.identityKey : BitVec (8 * 1312)

/-- The hash of the firmware public key in fuses (R542). Log 11. -/
opaque Config.keyHashFuse : BitVec 256

/-- A supply in mV is inside the window that the voltage monitor of an island allows at its operating point (R546, R547):
the spec gives no window. Free value, log 9. -/
opaque Config.voltageInWindow : (island : Nat) → (point mv : BitVec 16) → Bool

/-- Self-test results as the mailbox reports them (R543), from all that the self-test and training of the last reset
found (R540): every unit that failed, by kind and index, and the device at the far end of each port that trained. The
spec gives them no layout. Log 9. -/
opaque Config.selftestReport : (failed far : List (Nat × Nat)) → List Byte

/-- The Belvedere's numbering of the units that the self-test tries (R541), which the spec does not give: from the kind
of a unit and its index among that kind, one less than the number. Log 93. -/
opaque Config.unitNumber : (kind index : Nat) → Nat

/-- A byte of a conversion area that TSTAT or a handle access cannot read, by the area's pointer and the byte's offset
(R424, R429). Free value, log 95. -/
opaque Config.areaUnread : (area : BitVec 64) → (offset : Nat) → Byte

/-- The bytes, by address, that a memory holds after a trip (R547), which are not defined. The index is the model's
counter of free values. Logs 9, 68. -/
opaque Config.trippedBytes : Nat → List (Nat × Byte)

/-- The entries, by number, that an accumulator memory holds after a trip (R547), and the poisoned ones. Logs 9, 68. -/
opaque Config.trippedEntries : Nat → List (Nat × BitVec 32)
opaque Config.trippedPoison : Nat → List Nat

end Sys2Proof
end

