-- ==== Sys2Proof/Machine/Float.lean ====
section
/-!
DEFINITION. Number formats and rounding (R74-R104): the exact value of a code, the six rounding modes,
the delivery of an exact value into every format, and the arithmetic of R137-R141 on exact values.
-/
namespace Sys2Proof.Machine

/-- An exact value: a finite number (-1)^sign * mag * 2^exp (a zero keeps its sign), an infinity, or a NaN
with its fraction bits left-aligned in 64 bits (bit 63 is the quiet bit, R77). -/
inductive FVal where
  | fin (neg : Bool) (mag : Nat) (exp : Int)
  | inf (neg : Bool)
  | nan (neg : Bool) (pay : Nat)
  deriving DecidableEq, Repr

/-- A rounding mode (R87). Dither carries the matrix entry of the position, 0-255 (R91). -/
inductive Rnd where
  | rne | rtz | rdn | rup | rna
  | dith (d : Nat)
  deriving DecidableEq, Repr

/-- Flags in FPSTAT bit order (NV DZ OF UF NX, R102) and the three counts of R104. -/
structure Exc where
  flags : BitVec 5
  sat   : Nat
  nanr  : Nat
  bsov  : Nat
  deriving DecidableEq, Repr

def excNone : Exc := ⟨0, 0, 0, 0⟩
def excFlags (f : BitVec 5) : Exc := ⟨f, 0, 0, 0⟩
def excSat : Exc := ⟨0, 1, 0, 0⟩
def excNanr : Exc := ⟨0, 0, 1, 0⟩
def excBsov : Exc := ⟨0, 0, 0, 1⟩
def flagNV : BitVec 5 := 16
def flagDZ : BitVec 5 := 8
def flagOF : BitVec 5 := 4
def flagUF : BitVec 5 := 2
def flagNX : BitVec 5 := 1

/-- Flags are ORed, counts add (R103). -/
def excJoin (a b : Exc) : Exc := ⟨a.flags ||| b.flags, a.sat + b.sat, a.nanr + b.nanr, a.bsov + b.bsov⟩

def excJoinList (l : List Exc) : Exc := l.foldl excJoin excNone

/-! ## The dither matrix -/

/-- D[y][x], the Bayer matrix in closed form (R90). -/
def ditherMatrix (y x : Nat) : Nat :=
  (List.range 4).foldl (fun acc i =>
    let yi := (y >>> i) % 2
    let xi := (x >>> i) % 2
    acc + (2 * ((xi + yi) % 2) + yi) * 4 ^ (3 - i)) 0

/-- dith(row, col, phase) (R91). -/
def ditherAt (row col phase : Nat) : Nat := ditherMatrix ((row + phase) % 16) ((col + 3 * phase) % 16)

/-- The mode of a 3-bit code; the dither entry stands beside it (R87). Codes 6 and 7 never reach here:
an instruction with one is illegal, a record or word with one faults. -/
def rndOf (code : Nat) (d : Nat) : Rnd :=
  match code with
  | 0 => .rne | 1 => .rtz | 2 => .rdn | 3 => .rup | 4 => .rna
  | _ => .dith d

/-! ## Rounding a magnitude (R88) -/

/-- `mag * 2^-sh` rounded to an integer under the mode, and whether it was inexact. -/
def roundShift (neg : Bool) (mag sh : Nat) (m : Rnd) : Nat × Bool :=
  let q := mag >>> sh
  let r := mag - (q <<< sh)
  let half := 1 <<< sh
  let up : Nat :=
    match m with
    | .rne => if 2 * r > half ∨ (2 * r = half ∧ q % 2 = 1) then q + 1 else q
    | .rna => if 2 * r ≥ half ∧ r ≠ 0 then q + 1 else q
    | .rtz => q
    | .rdn => if neg ∧ r ≠ 0 then q + 1 else q
    | .rup => if ¬ neg ∧ r ≠ 0 then q + 1 else q
    | .dith d =>
      let t := (2 * d + 1) <<< sh
      let unit := 512 <<< sh
      if neg then (mag * 512 + (unit - 1) - t) / unit else (mag * 512 + t) / unit
  (up, r ≠ 0)

/-- The outcome of rounding to p significand bits: the magnitude `n * 2^ulp`, and inexactness. -/
structure Rounded where
  n       : Nat
  ulp     : Int
  inexact : Bool
  deriving DecidableEq, Repr

/-- Rounding with precision p and minimum exponent emin, no upper limit (R88). `mag` is not zero. -/
def roundMag (p : Nat) (emin : Int) (neg : Bool) (mag : Nat) (exp : Int) (m : Rnd) : Rounded :=
  let e0 : Int := (Nat.log2 mag : Int) + exp
  let e := if e0 < emin then emin else e0
  let ulp := e - (p : Int) + 1
  if ulp ≤ exp then ⟨mag <<< (exp - ulp).toNat, ulp, false⟩
  else
    let (n, ix) := roundShift neg mag (ulp - exp).toNat m
    ⟨n, ulp, ix⟩

/-- Rounding to an integer (R88 with ulp 1): the signed integer and inexactness. -/
def roundInt (neg : Bool) (mag : Nat) (exp : Int) (m : Rnd) : Int × Bool :=
  let (n, ix) :=
    if 0 ≤ exp then (mag <<< exp.toNat, false) else roundShift neg mag (-exp).toNat m
  (if neg then -(n : Int) else (n : Int), ix)

/-! ## Formats -/

/-- Exponent bits and fraction bits of a floating format code: IEEE (R77) and narrow (R79). -/
def fmtBits (code : Nat) : Nat × Nat :=
  match code with
  | 0x10 => (11, 52) | 0x11 => (8, 23) | 0x12 => (8, 7) | 0x13 => (5, 10)
  | 0x14 => (4, 3) | 0x15 => (5, 2) | 0x16 => (2, 3) | 0x17 => (3, 2) | 0x18 => (2, 1)
  | _ => (0, 0)

/-- Element bits of a format code (R74); block-scaled codes give their element's. -/
def fmtWidth (code : Nat) : Nat :=
  match code with
  | 0x00 => 8 | 0x01 => 8 | 0x02 => 16 | 0x03 => 16 | 0x04 => 32 | 0x05 => 32 | 0x06 => 64 | 0x07 => 64
  | 0x10 => 64 | 0x11 => 32 | 0x12 => 16 | 0x13 => 16 | 0x14 => 8 | 0x15 => 8 | 0x16 => 6 | 0x17 => 6
  | 0x18 => 4 | 0x20 => 8 | 0x21 => 8 | 0x22 => 6 | 0x23 => 6 | 0x24 => 4 | 0x25 => 8 | 0x28 => 4
  | 0x30 => 8 | 0x31 => 8
  | _ => 0

def fmtDefined (code : Nat) : Bool := fmtWidth code != 0
def fmtIsInt (code : Nat) : Bool := code < 8
def fmtIsIeee (code : Nat) : Bool := 0x10 ≤ code && code ≤ 0x13
def fmtIsNarrow (code : Nat) : Bool := 0x14 ≤ code && code ≤ 0x18
def fmtIsMx (code : Nat) : Bool := 0x20 ≤ code && code ≤ 0x25
def fmtIsBlock (code : Nat) : Bool := fmtIsMx code || code == 0x28
def fmtSigned (code : Nat) : Bool := code % 2 == 0
/-- An integer format's least and greatest values (R76). -/
def fmtIntMin (code : Nat) : Int := if fmtSigned code then -(2 ^ (fmtWidth code - 1) : Nat) else 0
def fmtIntMax (code : Nat) : Int :=
  if fmtSigned code then (2 ^ (fmtWidth code - 1) : Nat) - 1 else (2 ^ fmtWidth code : Nat) - 1

/-- The exponent bias (R77, R79). -/
def fmtBias (code : Nat) : Nat := 2 ^ ((fmtBits code).1 - 1) - 1

/-- The code without sign of the largest finite value (R77, R79). -/
def fmtMaxCode (code : Nat) : Nat :=
  match code with
  | 0x14 => 0x7E | 0x16 => 0x1F | 0x17 => 0x1F | 0x18 => 0x07
  | _ => ((2 ^ (fmtBits code).1 - 1) <<< (fmtBits code).2) - 1

/-- The default NaN (R77, R79); the code that stands for NaN where a format has none (R95). -/
def fmtDefaultNan (code : Nat) : Nat :=
  match code with
  | 0x10 => 0x7FF8000000000000 | 0x11 => 0x7FC00000 | 0x12 => 0x7FC0 | 0x13 => 0x7E00
  | 0x14 => 0x7F | 0x15 => 0x7E | 0x16 => 0x20 | 0x17 => 0x20 | 0x18 => 0x08
  | _ => 0

def nanPayload (frac fb : Nat) : Nat := frac <<< (64 - fb)
def quietBit : Nat := 1 <<< 63
def defaultNan : FVal := .nan false quietBit
def fzero (neg : Bool) : FVal := .fin neg 0 0

def isSignalling (v : FVal) : Bool :=
  match v with
  | .nan _ pay => pay.testBit 63 == false
  | _ => false
def isNan (v : FVal) : Bool :=
  match v with
  | .nan _ _ => true
  | _ => false
def signOf (v : FVal) : Bool :=
  match v with
  | .fin s _ _ => s
  | .inf s => s
  | .nan s _ => s
def isZero (v : FVal) : Bool :=
  match v with
  | .fin _ m _ => m == 0
  | _ => false
def isInf (v : FVal) : Bool :=
  match v with
  | .inf _ => true
  | _ => false
def withSign (v : FVal) (s : Bool) : FVal :=
  match v with
  | .fin _ m e => .fin s m e
  | .inf _ => .inf s
  | .nan _ p => .nan s p
def negate (v : FVal) : FVal := withSign v (!signOf v)

/-- An integer as an exact value. -/
def ofInt (i : Int) : FVal := .fin (i < 0) i.natAbs 0

/-- The n-bit two's complement reading of a bit pattern. -/
def signedOf (n bits : Nat) : Int :=
  let b := bits % 2 ^ n
  if b < 2 ^ (n - 1) then (b : Int) else (b : Int) - (2 ^ n : Nat)

/-- The low n bits that hold a signed integer. -/
def wrapInt (n : Nat) (i : Int) : Nat := (i % ((2 ^ n : Nat) : Int)).toNat

/-- The exact value of a code of an integer, IEEE, narrow or scale format (R76-R81). `carry` is the
NANCARRY reading of R96. -/
def widen (code bits : Nat) (carry : Bool := false) : FVal :=
  if fmtIsInt code then
    ofInt (if fmtSigned code then signedOf (fmtWidth code) bits else ((bits % 2 ^ fmtWidth code : Nat) : Int))
  else if code = 0x30 then
    let e := bits % 256
    if e = 255 then defaultNan else .fin false 1 ((e : Int) - 127)
  else if code = 0x31 then
    let e := (bits / 32) % 8
    let m := bits % 32
    if e = 0 then .fin false m (-8) else .fin false (32 + m) ((e : Int) - 4 - 5)
  else
    let (eb, fb) := fmtBits code
    let neg := bits.testBit (eb + fb)
    let e := (bits >>> fb) % 2 ^ eb
    let f := bits % 2 ^ fb
    let bias : Int := fmtBias code
    if code ≤ 0x13 ∨ code = 0x15 then
      if e = 2 ^ eb - 1 then (if f = 0 then .inf neg else .nan neg (nanPayload f fb))
      else if e = 0 then .fin neg f (1 - bias - fb)
      else .fin neg (2 ^ fb + f) ((e : Int) - bias - fb)
    else if code = 0x14 ∧ e = 15 ∧ f = 7 then .nan neg (nanPayload 7 3)
    else if carry ∧ code ≠ 0x14 ∧ neg ∧ e = 0 ∧ f = 0 then .nan true quietBit
    else if e = 0 then .fin neg f (1 - bias - fb)
    else .fin neg (2 ^ fb + f) ((e : Int) - bias - fb)

/-! ## Delivery (R93-R97, R100) -/

def withSignBit (code : Nat) (neg : Bool) (mag : Nat) : Nat :=
  if neg then mag ||| (1 <<< (fmtWidth code - 1)) else mag

/-- A NaN into an IEEE format, E4M3 or E5M2: sign kept, quiet bit set, leading fraction bits kept (R78, R95). -/
def encodeNan (code : Nat) (neg : Bool) (pay : Nat) : Nat :=
  let (eb, fb) := fmtBits code
  if code = 0x14 then withSignBit code neg 0x7F
  else withSignBit code neg (((2 ^ eb - 1) <<< fb) ||| ((pay ||| quietBit) >>> (64 - fb)))

/-- Code of a rounded magnitude, sign apart, with the exponent field unbounded (R88). -/
def packMag (code : Nat) (r : Rounded) : Nat :=
  let (_, fb) := fmtBits code
  let base : Int := 1 - (fmtBias code : Int) - fb
  ((r.ulp - base).toNat <<< fb) + r.n

/-- Whether a non-zero value is tiny: rounded with no lower exponent limit it is below 2^emin (R89). -/
def tinyMag (p : Nat) (emin : Int) (neg : Bool) (mag : Nat) (exp : Int) (m : Rnd) : Bool :=
  let r := roundMag p (-1000000) neg mag exp m
  r.n == 0 || decide ((Nat.log2 r.n : Int) + r.ulp < emin)

/-- A finite value into an IEEE format (R88, R89, R94). -/
def toIeee (code : Nat) (neg : Bool) (mag : Nat) (exp : Int) (m : Rnd) : Nat × Exc :=
  if mag = 0 then (withSignBit code neg 0, excNone)
  else
    let (eb, fb) := fmtBits code
    let emin : Int := 1 - (fmtBias code : Int)
    let r := roundMag (fb + 1) emin neg mag exp m
    let c := packMag code r
    let infCode := (2 ^ eb - 1) <<< fb
    if c > fmtMaxCode code then
      let toInf : Bool :=
        match m with
        | .rtz => false
        | .rdn => neg
        | .rup => !neg
        | _ => true
      (withSignBit code neg (if toInf then infCode else fmtMaxCode code), excFlags (flagOF ||| flagNX))
    else
      let tiny := r.inexact && tinyMag (fb + 1) emin neg mag exp m
      (withSignBit code neg c,
        excFlags ((if r.inexact then flagNX else 0) ||| (if tiny then flagUF else 0)))

/-- A finite value into a narrow float (R95). -/
def toNarrow (code : Nat) (neg : Bool) (mag : Nat) (exp : Int) (m : Rnd) : Nat × Exc :=
  let zeroCode := if code = 0x14 ∨ code = 0x15 then withSignBit code neg 0 else 0
  if mag = 0 then (zeroCode, excNone)
  else
    let (_, fb) := fmtBits code
    let r := roundMag (fb + 1) (1 - (fmtBias code : Int)) neg mag exp m
    let c := packMag code r
    if c > fmtMaxCode code then (withSignBit code neg (fmtMaxCode code), excSat)
    else if c = 0 then (zeroCode, excNone)
    else (withSignBit code neg c, excNone)

/-- Any value into an integer format. `intSource` selects the last column of R97. -/
def toInteger (code : Nat) (v : FVal) (m : Rnd) (intSource : Bool) : Nat × Exc :=
  let out (i : Int) := wrapInt (fmtWidth code) i
  let bad : Exc := if intSource then excSat else excFlags flagNV
  match v with
  | .nan _ _ => (0, excFlags flagNV)
  | .inf s => (out (if s then fmtIntMin code else fmtIntMax code), bad)
  | .fin s mag e =>
    let (i, ix) := roundInt s mag e m
    if i > fmtIntMax code then (out (fmtIntMax code), bad)
    else if i < fmtIntMin code then (out (fmtIntMin code), bad)
    else (out i, if ix then excFlags flagNX else excNone)

/-- Any value into E8M0 (R100). -/
def toE8M0 (v : FVal) (m : Rnd) : Nat × Exc :=
  match v with
  | .nan _ _ => (0xFF, excNanr)
  | .inf s => if s then (0xFF, excNanr) else (0xFE, excSat)
  | .fin s mag e =>
    if s then (0xFF, excNanr)
    else if mag = 0 then (0x00, excNanr)
    else if (Nat.log2 mag : Int) + e < -127 then (0x00, excNone)
    else
      let r := roundMag 1 (-127) false mag e m
      let c := (r.ulp + 127).toNat + (r.n - 1)
      if c > 0xFE then (0xFE, excSat) else (c, excNone)

/-- Any value into E3M5U (R100). -/
def toE3M5U (v : FVal) (m : Rnd) : Nat × Exc :=
  match v with
  | .nan _ _ => (0x00, excNanr)
  | .inf s => if s then (0x00, excNanr) else (0xFF, excSat)
  | .fin s mag e =>
    if s then (0x00, excNanr)
    else if mag = 0 then (0x00, excNone)
    else
      let r := roundMag 6 (-3) false mag e m
      let c := ((r.ulp + 8).toNat <<< 5) + r.n
      if c > 0xFF then (0xFF, excSat) else (c, excNone)

/-- Any value into a destination format that is not block-scaled (R93). A signalling NaN raises NV with
any destination: R144 says so of scalar conversions, and the model takes the same for VCVT, TST and VSTT into narrow and
scale formats, of which R95 and R205 do not say it (DESIGN CHOICE, log 76). -/
def deliver (code : Nat) (v : FVal) (m : Rnd) (intSource : Bool := false) : Nat × Exc :=
  let nv : Exc := if isSignalling v then excFlags flagNV else excNone
  if fmtIsInt code then toInteger code v m intSource
  else if code = 0x30 then let r := toE8M0 v m; (r.1, excJoin r.2 nv)
  else if code = 0x31 then let r := toE3M5U v m; (r.1, excJoin r.2 nv)
  else if fmtIsIeee code then
    match v with
    | .nan s pay => (encodeNan code s pay, nv)
    | .inf s => (withSignBit code s (fmtMaxCode code + 1), excNone)
    | .fin s mag e => toIeee code s mag e m
  else
    match v with
    | .nan s pay =>
      if code = 0x14 ∨ code = 0x15 then (encodeNan code s pay, nv)
      else (fmtDefaultNan code, excJoin excNanr nv)
    | .inf s =>
      if code = 0x15 then (withSignBit code s 0x7C, excNone)
      else (withSignBit code s (fmtMaxCode code), excSat)
    | .fin s mag e => toNarrow code s mag e m

/-- A conversion between these formats can raise an IEEE flag (R89, R93, R95, R97): its source has signalling NaNs, or a
value of it is not exact in an IEEE or integer destination; of the scale formats, only E8M0 in FP16 is not (R80, R81). -/
def cvtCanFlag (sfmt dfmt : Nat) : Bool :=
  if fmtIsInt sfmt then
    fmtIsIeee dfmt && decide (fmtWidth sfmt - (if fmtSigned sfmt then 1 else 0) > (fmtBits dfmt).2 + 1)
  else if fmtIsInt dfmt then true
  else fmtIsIeee sfmt || sfmt == 0x15 || (sfmt == 0x30 && dfmt == 0x13)

/-! ## Exact arithmetic -/

/-- A finite value over a common exponent, as a signed integer. -/
def scaled (neg : Bool) (mag : Nat) (exp base : Int) : Int :=
  let n : Int := ((mag <<< (exp - base).toNat : Nat) : Int)
  if neg then -n else n

def minExp (a b : Int) : Int := if a ≤ b then a else b

/-- The exact sum of two finite values; an exact zero takes the sign of R137. -/
def addFin (rdn : Bool) (s1 : Bool) (m1 : Nat) (e1 : Int) (s2 : Bool) (m2 : Nat) (e2 : Int) : FVal :=
  if m1 = 0 ∧ m2 = 0 then .fin (if s1 = s2 then s1 else rdn) 0 0
  else if m1 = 0 then .fin s2 m2 e2
  else if m2 = 0 then .fin s1 m1 e1
  else
    let b := minExp e1 e2
    let t := scaled s1 m1 e1 b + scaled s2 m2 e2 b
    if t = 0 then .fin rdn 0 0 else .fin (t < 0) t.natAbs b

/-- The sum of two values: `none` where it is invalid (opposite infinities). NaN operands are the caller's. -/
def addVal (rdn : Bool) (x y : FVal) : Option FVal :=
  match x, y with
  | .fin s1 m1 e1, .fin s2 m2 e2 => some (addFin rdn s1 m1 e1 s2 m2 e2)
  | .inf s1, .inf s2 => if s1 = s2 then some (.inf s1) else none
  | .inf s1, _ => some (.inf s1)
  | _, .inf s2 => some (.inf s2)
  | _, _ => none

/-- The exact product: `none` for 0 x infinity. -/
def mulVal (x y : FVal) : Option FVal :=
  match x, y with
  | .fin s1 m1 e1, .fin s2 m2 e2 => some (.fin (s1 != s2) (m1 * m2) (e1 + e2))
  | .inf s1, .inf s2 => some (.inf (s1 != s2))
  | .inf s1, .fin s2 m2 _ => if m2 = 0 then none else some (.inf (s1 != s2))
  | .fin s1 m1 _, .inf s2 => if m1 = 0 then none else some (.inf (s1 != s2))
  | _, _ => none

/-- A quotient of magnitudes to at least 140 significant bits, with a last bit that is set where the
division is inexact: every rounding of R88 of it is the rounding of the exact quotient. `m2` is not zero. -/
def divFin (s : Bool) (m1 : Nat) (e1 : Int) (m2 : Nat) (e2 : Int) : FVal :=
  let k := 140 + Nat.log2 m2
  let num := m1 <<< k
  let q := num / m2
  let sticky := if num % m2 = 0 then 0 else 1
  .fin s (2 * q + sticky) (e1 - e2 - k - 1)

/-- Integer square root, bit by bit from bit `k - 1`. -/
def isqrtGo (n : Nat) : (k : Nat) → (r : Nat) → Nat
  | 0, r => r
  | k + 1, r => let c := r + 2 ^ k; isqrtGo n k (if c * c ≤ n then c else r)
def isqrt (n : Nat) : Nat := isqrtGo n (Nat.log2 n / 2 + 1) 0

/-- The square root of a positive magnitude to at least 100 bits, with a sticky last bit. -/
def sqrtFin (m : Nat) (e : Int) : FVal :=
  let odd : Nat := if e % 2 = 0 then 0 else 1
  let n := m <<< (200 + odd)
  let r := isqrt n
  let sticky := if r * r = n then 0 else 1
  .fin false (2 * r + sticky) ((e - odd - 200) / 2 - 1)

/-- The value of the comparison x < y of two values that are not NaN; -0 equals +0. -/
def ltVal (x y : FVal) : Bool :=
  match x, y with
  | .inf s1, .inf s2 => s1 && !s2
  | .inf s1, _ => s1
  | _, .inf s2 => !s2
  | .fin s1 m1 e1, .fin s2 m2 e2 =>
    let b := minExp e1 e2
    decide (scaled s1 m1 e1 b < scaled s2 m2 e2 b)
  | _, _ => false
def eqVal (x y : FVal) : Bool := !isNan x && !isNan y && !ltVal x y && !ltVal y x

/-! ## Arithmetic of R137 -/

/-- The result where a NaN operand, or an invalid operation, decides it (R78, R137). -/
def nanOutcome (f : Nat) (ops : List FVal) (invalid : Bool) : Nat × Exc :=
  let nv : Exc := if invalid || ops.any isSignalling then excFlags flagNV else excNone
  match ops.find? isNan with
  | some (.nan s pay) => (encodeNan f s pay, nv)
  | _ => (fmtDefaultNan f, nv)

def roundVal (f : Nat) (v : FVal) (m : Rnd) : Nat × Exc := deliver f v m

def isRdn (m : Rnd) : Bool := m == .rdn

def fpAdd (f : Nat) (x y : FVal) (m : Rnd) : Nat × Exc :=
  if isNan x || isNan y then nanOutcome f [x, y] false
  else match addVal (isRdn m) x y with
    | none => nanOutcome f [x, y] true
    | some v => roundVal f v m

def fpSub (f : Nat) (x y : FVal) (m : Rnd) : Nat × Exc :=
  if isNan x || isNan y then nanOutcome f [x, y] false
  else fpAdd f x (negate y) m

def fpMul (f : Nat) (x y : FVal) (m : Rnd) : Nat × Exc :=
  if isNan x || isNan y then nanOutcome f [x, y] false
  else match mulVal x y with
    | none => nanOutcome f [x, y] true
    | some v => roundVal f v m

/-- 0 x infinity is invalid even when z is a quiet NaN (R137). -/
def fpFma (f : Nat) (x y z : FVal) (m : Rnd) : Nat × Exc :=
  if isNan x || isNan y then nanOutcome f [x, y, z] false
  else match mulVal x y with
    | none => nanOutcome f [x, y, z] true
    | some p =>
      if isNan z then nanOutcome f [x, y, z] false
      else match addVal (isRdn m) p z with
        | none => nanOutcome f [x, y, z] true
        | some v => roundVal f v m

def fpDiv (f : Nat) (x y : FVal) (m : Rnd) : Nat × Exc :=
  if isNan x || isNan y then nanOutcome f [x, y] false
  else
    let s := signOf x != signOf y
    match x, y with
    | .inf _, .inf _ => nanOutcome f [x, y] true
    | .inf _, _ => roundVal f (.inf s) m
    | _, .inf _ => roundVal f (fzero s) m
    | .fin _ m1 e1, .fin _ m2 e2 =>
      if m2 = 0 then
        if m1 = 0 then nanOutcome f [x, y] true
        else ((roundVal f (.inf s) m).1, excFlags flagDZ)
      else if m1 = 0 then roundVal f (fzero s) m
      else roundVal f (divFin s m1 e1 m2 e2) m
    | _, _ => nanOutcome f [x, y] true

def fpSqrt (f : Nat) (x : FVal) (m : Rnd) : Nat × Exc :=
  match x with
  | .nan _ _ => nanOutcome f [x] false
  | .inf s => if s then nanOutcome f [x] true else roundVal f x m
  | .fin s mag e =>
    if mag = 0 then roundVal f x m
    else if s then nanOutcome f [x] true
    else roundVal f (sqrtFin mag e) m

/-- The order of R138: -0 below +0. Neither is NaN. -/
def ltTotal (x y : FVal) : Bool := ltVal x y || (isZero x && isZero y && signOf x && !signOf y)

/-- FMIN, FMAX (R138) on codes a, b of format f. -/
def fpMinMax (f : Nat) (wantMax : Bool) (a b : Nat) : Nat × Exc :=
  let x := widen f a
  let y := widen f b
  let nv : Exc := if isSignalling x || isSignalling y then excFlags flagNV else excNone
  if isNan x && isNan y then (fmtDefaultNan f, nv)
  else if isNan x then (b, nv)
  else if isNan y then (a, nv)
  else if ltTotal x y == wantMax then (b, nv)
  else (a, nv)

/-- FCMP conditions 0-7 (R139): the truth value, and NV. -/
def fpCompare (cc : Nat) (x y : FVal) : Bool × Exc :=
  let un := isNan x || isNan y
  let nv := isSignalling x || isSignalling y || (un && 2 ≤ cc && cc ≤ 5)
  let t : Bool :=
    match cc with
    | 0 => eqVal x y
    | 1 => !eqVal x y
    | 2 => !un && ltVal x y
    | 3 => !un && !ltVal y x
    | 4 => !un && ltVal y x
    | 5 => !un && !ltVal x y
    | 6 => un
    | _ => !un
  (t, if nv then excFlags flagNV else excNone)

/-- FCLASS bit number (R140). -/
def fpClass (f : Nat) (x : FVal) : Nat :=
  match x with
  | .inf s => if s then 0 else 7
  | .nan _ pay => if pay.testBit 63 then 9 else 8
  | .fin s mag e =>
    if mag = 0 then (if s then 3 else 4)
    else if (Nat.log2 mag : Int) + e < 1 - (fmtBias f : Int) then (if s then 2 else 5)
    else (if s then 1 else 6)

/-- FSGN on codes of width w (R141): op 0 J, 1 JN, 2 JX. -/
def fpSign (f op a b : Nat) : Nat :=
  let w := fmtWidth f
  let sa := a.testBit (w - 1)
  let sb := b.testBit (w - 1)
  let s : Bool :=
    match op with
    | 0 => sb
    | 1 => !sb
    | _ => sa != sb
  withSignBit f s (a % 2 ^ (w - 1))

/-- AMOFADD (R133): the memory value first, RNE, no flags. -/
def fpAtomicAdd (f old b : Nat) : Nat := (fpAdd f (widen f old) (widen f b) .rne).1

/-! ## WIDE (R86) -/

def wideRound (v : FVal) : FVal :=
  match v with
  | .fin s mag e =>
    if mag = 0 then v
    else
      let r := roundMag 64 (-1022) s mag e .rne
      if r.n = 0 then .fin s 0 0
      else if (Nat.log2 r.n : Int) + r.ulp > 1023 then .inf s
      else .fin s r.n r.ulp
  | .inf _ => v
  | .nan s p => .nan s (p ||| quietBit)

/-- A sum in WIDE: the first NaN operand propagates quietened, an invalid sum gives the default NaN. -/
def wideAdd (x y : FVal) : FVal :=
  if isNan x then wideRound x
  else if isNan y then wideRound y
  else match addVal false x y with
    | none => defaultNan
    | some v => wideRound v

/-- An exact product; NaN as in `wideAdd`. -/
def exactMul (x y : FVal) : FVal :=
  if isNan x then wideRound x
  else if isNan y then wideRound y
  else match mulVal x y with
    | none => defaultNan
    | some v => v

def wideMul (x y : FVal) : FVal := wideRound (exactMul x y)

/-! ## Block scaling (R83-R85, R98, R99) -/

/-- The element format of an MX code (R83), and emax. -/
def mxElement (code : Nat) : Nat :=
  match code with
  | 0x20 => 0x14 | 0x21 => 0x15 | 0x22 => 0x16 | 0x23 => 0x17 | 0x24 => 0x18
  | _ => 0x00
def mxEmax (code : Nat) : Int :=
  match code with
  | 0x20 => 8 | 0x21 => 15 | 0x22 => 2 | 0x23 => 4 | 0x24 => 2
  | _ => 0

def shiftVal (v : FVal) (k : Int) : FVal :=
  match v with
  | .fin s m e => .fin s m (e + k)
  | _ => v

/-- The value of an MX element's code before scaling. -/
def mxElementValue (code bits : Nat) (carry : Bool) : FVal :=
  if code = 0x25 then shiftVal (ofInt (signedOf 8 bits)) (-6) else widen (mxElement code) bits carry

/-- The value of an MX element under its scale code (R83). Under scale 0xFF it is the default NaN without a flag, also
where the element's own code is a NaN (DESIGN CHOICE, log 103: R83 says only that the values are NaN). -/
def mxValue (code bits scale : Nat) (carry : Bool) : FVal :=
  if scale % 256 = 255 then defaultNan
  else shiftVal (mxElementValue code bits carry) ((scale % 256 : Nat) - (127 : Int))

/-- The value of an LB8 element under block scale s and BF16 band scale b (R85). -/
def lb8Value (bits scale band : Nat) (carry : Bool) : FVal :=
  if scale % 256 = 0 then fzero false
  else exactMul (exactMul (widen 0x18 bits carry) (widen 0x31 scale)) (widen 0x12 band)

/-- The LB8 element times its block scale, as the pool reads it (R85, R255). -/
def lb8Unbanded (bits scale : Nat) (carry : Bool) : FVal :=
  if scale % 256 = 0 then fzero false else exactMul (widen 0x18 bits carry) (widen 0x31 scale)

/-- An MXINT8 element (R97). -/
def toMxInt8 (v : FVal) (m : Rnd) : Nat × Exc :=
  match v with
  | .nan _ _ => (0, excNanr)
  | .inf s => (wrapInt 8 (if s then -127 else 127), excSat)
  | .fin s mag e =>
    let (i, _) := roundInt s mag (e + 6) m
    if i > 127 then (127, excSat) else if i < -127 then (wrapInt 8 (-127), excSat) else (wrapInt 8 i, excNone)

/-- |x| < |y| for finite magnitudes. -/
def ltMag (m1 : Nat) (e1 : Int) (m2 : Nat) (e2 : Int) : Bool :=
  let b := minExp e1 e2
  decide (scaled false m1 e1 b < scaled false m2 e2 b)

/-- The largest finite magnitude of a block, (0, 0) if none is non-zero. -/
def blockMax (xs : List FVal) : Nat × Int :=
  xs.foldl (fun acc v =>
    match v with
    | .fin _ m e => if ltMag acc.1 acc.2 m e then (m, e) else acc
    | _ => acc) (0, 0)

/-- A block into an MX format (R98): scale code, element codes, counts. `ms` gives each element's mode. -/
def toMx (code : Nat) (xs : List FVal) (ms : List Rnd) : Nat × List Nat × Exc :=
  let (am, ae) := blockMax xs
  let x0 : Int := if am = 0 then 0 else (Nat.log2 am : Int) + ae - mxEmax code
  let above := decide (x0 > 127)
  let x1 : Int := if above then 127 else if x0 < -127 then -127 else x0
  let es := (xs.zip ms).map (fun (v, m) =>
    let t := shiftVal v (-x1)
    if code = 0x25 then toMxInt8 t m else
      let r := deliver (mxElement code) t m
      (r.1, { r.2 with flags := 0 }))
  ((x1 + 127).toNat, es.map (·.1), excJoin (if above then excBsov else excNone) (excJoinList (es.map (·.2))))

/-- A band scale is a positive finite BF16 (R99). -/
def bandOk (band : Nat) : Bool :=
  match widen 0x12 band with
  | .fin s m _ => !s && m != 0
  | _ => false

def divVal (x : FVal) (m2 : Nat) (e2 : Int) : FVal :=
  match x with
  | .fin s m e => if m = 0 then x else divFin s m e m2 e2
  | _ => x

/-- A block of eight into LB8 under a valid band scale (R99). -/
def toLb8 (xs : List FVal) (band : Nat) (ms : List Rnd) : Nat × List Nat × Exc :=
  match widen 0x12 band with
  | .fin _ bm be =>
    let (am, ae) := blockMax xs
    if am = 0 then (0, xs.map (fun _ => 0), excNone)
    else
      let q := divFin false am ae (6 * bm) be
      let r := toE3M5U q .rup
      let above := r.2.sat != 0
      match widen 0x31 r.1 with
      | .fin _ sm se =>
        let es := (xs.zip ms).map (fun (v, m) =>
          let d := deliver 0x18 (divVal v (bm * sm) (be + se)) m
          (d.1, { d.2 with flags := 0 }))
        (r.1, es.map (·.1), excJoin (if above then excBsov else excNone) (excJoinList (es.map (·.2))))
      | _ => (r.1, xs.map (fun _ => 0), excNone)
  | _ => (0, xs.map (fun _ => 0), excNone)

end Sys2Proof.Machine
end

