-- ==== Sys2Proof/Machine/Tab.lean ====
section
/-!
DEFINITION. Sparse tables and byte memories: reading, writing, and the canonical form of a memory.
-/
namespace Sys2Proof.Machine

/-- The value of key `k`: the first pair with that key, else the default. -/
def tabGet {α : Type} (dflt : α) : Tab α → Nat → α
  | [], _ => dflt
  | (k, v) :: t, j => if k = j then v else tabGet dflt t j

/-- Every pair with key `k` removed. -/
def tabErase {α : Type} : Tab α → Nat → Tab α
  | [], _ => []
  | (k, v) :: t, j => if k = j then tabErase t j else (k, v) :: tabErase t j

/-- A pair inserted before the first greater key. -/
def tabInsert {α : Type} : Tab α → Nat → α → Tab α
  | [], k, v => [(k, v)]
  | (k', v') :: t, k, v => if k < k' then (k, v) :: (k', v') :: t else (k', v') :: tabInsert t k v

/-- Writing a key, listed whatever its value. -/
def tabPut {α : Type} (t : Tab α) (k : Nat) (v : α) : Tab α := tabInsert (tabErase t k) k v

/-- Writing a key of a table with a default: the default value is not listed. -/
def tabSet {α : Type} [DecidableEq α] (dflt : α) (t : Tab α) (k : Nat) (v : α) : Tab α :=
  if v = dflt then tabErase t k else tabInsert (tabErase t k) k v

/-- The value of key `k`, if it is listed. -/
def tabFind {α : Type} : Tab α → Nat → Option α
  | [], _ => none
  | (k, v) :: t, j => if k = j then some v else tabFind t j

def tabKeys {α : Type} (t : Tab α) : List Nat := t.map (·.1)

/-- Keys strictly ascending. -/
def tabSorted {α : Type} : Tab α → Bool
  | [] => true
  | [_] => true
  | (k, _) :: (k', v') :: t => decide (k < k') && tabSorted ((k', v') :: t)

/-- A byte memory: addresses strictly rising, no listed byte equal to what an unlisted address reads as. -/
abbrev Mem := List Host.Cell

/-- What an address that nothing has written reads as: 0 (log 1). -/
def memDefault : Byte := 0

def memRead (m : Mem) (a : Nat) : Byte := tabGet memDefault m a
def memWrite (m : Mem) (a : Nat) (b : Byte) : Mem := tabSet memDefault m a b

/-- The canonical form. -/
def memWf (m : Mem) : Bool := tabSorted m && m.all (fun c => c.2 != memDefault)

/-- Bytes at `a`, `a+1`, ... -/
def memReadBytes (m : Mem) (a n : Nat) : List Byte := (List.range n).map (fun i => memRead m (a + i))

def memWriteBytes : Mem → Nat → List Byte → Mem
  | m, _, [] => m
  | m, a, b :: bs => memWriteBytes (memWrite m a b) (a + 1) bs

/-- Little-endian value of bytes (R3). -/
def leNat : List Byte → Nat
  | [] => 0
  | b :: bs => b.toNat + 256 * leNat bs

/-- The low n bytes of a value, least significant first (R3). -/
def leBytes (n v : Nat) : List Byte :=
  match n with
  | 0 => []
  | n + 1 => BitVec.ofNat 8 v :: leBytes n (v / 256)

def memReadLe (m : Mem) (a n : Nat) : Nat := leNat (memReadBytes m a n)
def memWriteLe (m : Mem) (a n v : Nat) : Mem := memWriteBytes m a (leBytes n v)

/-- Bits hi..lo of a number (R6). -/
def bitsOf (x hi lo : Nat) : Nat := (x >>> lo) % 2 ^ (hi + 1 - lo)

/-- The signed reading of the low n bits (R6). -/
def sextNat (x n : Nat) : Int :=
  let b := x % 2 ^ n
  if b < 2 ^ (n - 1) then (b : Int) else (b : Int) - (2 ^ n : Nat)

end Sys2Proof.Machine
end

