-- ==== Sys2Proof/Syntax.lean ====
section
/-!
DEFINITION. The instruction set and the agents' steps as data: one constructor of `Instr` for each row
of spec/opcode_table.json, in the table's order, with the rows that share
a word with another row (told apart by an operand) after the others and the agents' steps last. Fields are the fields of the words (R42, R46, R53), so
that no bit of an encoding is dropped; the rows without an encoding are the steps of the package's
agents, and their arguments say which agent, and what the outside world gives.
-/
namespace Sys2Proof

/-- The guard and wait fields every first word carries (R42-R44). -/
structure Hdr where
  /-- GRD.SENSE: true runs when the predicate is false. -/
  sense : Bool
  /-- GRD.PRED. -/
  pred  : BitVec 3
  /-- WT.EN. -/
  wten  : Bool
  /-- WT.CNT. -/
  wtcnt : BitVec 5
  deriving DecidableEq, Repr

/-- OC, SCOPE and ORD of a memory access (R46, R48). -/
structure MemOrd where
  oc    : BitVec 2
  scope : BitVec 3
  ord   : BitVec 2
  deriving DecidableEq, Repr

/-- CNT, CNTEN and OC of a format E command that takes an optional counter (R46, R52). -/
structure CmdCtl where
  cnt   : BitVec 5
  cnten : Bool
  oc    : BitVec 2
  deriving DecidableEq, Repr

/-- One write of a copy beat, as it arrives at a link port (R528, R530). -/
inductive PeerOp where
  /-- read `n` bytes -/
  | read (n : Nat)
  /-- write the bytes -/
  | write (data : List Byte)
  /-- an atomic of R129 (`fn` is the FN value) with its operands, 4 or 8 bytes -/
  | atomic (fn : Nat) (dbl : Bool) (b c : BitVec 64)
  /-- a reduce-copy beat of R407: MAX or ADD, BF16 or FP32 -/
  | reduce (max bf16 : Bool) (data : List Byte)
  deriving DecidableEq, Repr

/-- A request that arrives from another module at a port (R523, R530). `rows` gives the ranges
that the sending command writes, from which the port knows whether blocks are whole. -/
structure PeerRequest where
  va    : BitVec 48
  op    : PeerOp
  rows  : List (Nat × Nat)
  deriving DecidableEq, Repr

/-- The answer to a PEER request of this module: the bytes, or the peer's cause (R523). -/
inductive PeerResponse where
  | ok (data : BitVec 1024)
  | failed (cause : BitVec 8)
  deriving DecidableEq, Repr

/-- A unit that the built-in self-test and training try (R540). -/
inductive TestedUnit where
  | poolLane (core : Nat)
  | scratchpadBank (core : Nat)
  | accumulatorBank (core : Nat)
  | cacheBank (core : Nat)
  | dieCache (die : Nat)
  | configCache (die : Nat)
  | scheduler (die : Nat)
  | layoutEngine (die : Nat)
  | translationUnit (die : Nat)
  | ucieEdge (die : Nat)
  | pseudoChannel (stack channel : Nat)
  | linkPort (port : Nat)
  deriving DecidableEq, Repr

/-- What the built-in self-test and training found (R540): the units that failed, and the device at the far end of each
port that trained. -/
structure SelftestResult where
  failed    : List TestedUnit
  far       : List (Nat × Nat)
  deriving DecidableEq, Repr

/-- What firmware writes in CONFIG (R539). Lists are by die where they differ by die. `withheld` is what the memory map
leaves out, as ranges of granules: the first and how many (R306). -/
structure FirmwareConfig where
  ttbase    : BitVec 64
  savebase  : List (BitVec 64)
  savetotal : List Nat
  devnum    : BitVec 64
  routes    : List (Nat × Nat)
  xpeer     : BitVec 64
  ltmo      : BitVec 32
  quantum   : BitVec 32
  withheld  : List (Nat × Nat)
  mhz       : List Nat
  /-- throttle points in 1/8 °C and operating points in mV, by island (R546) -/
  throttle  : List (BitVec 16)
  mv        : List (BitVec 16)
  deriving DecidableEq, Repr

/-- One refresh of an island's monitors (R549). -/
structure MonitorSample where
  rosc   : BitVec 16
  vmv    : BitVec 16
  temp   : BitVec 16
  modpwr : BitVec 32
  deriving DecidableEq, Repr

/-- Where the patrol scrubber finds an error it cannot correct (R546), or that it finds none. -/
inductive ScrubTarget where
  | clean
  | acc (core entry : Nat)
  | spad (core offset : Nat)
  | hbm (pa : Nat)
  /-- in the memory that holds a context's state -/
  | ctx (ctx : Nat)
  deriving DecidableEq, Repr

/-- One constructor for each row of the opcode table. -/
inductive Instr where
  /-- ADD: Writes the 64-bit sum of gA and gB to gD. (R108) -/
  | add (h : Hdr) (d : BitVec 6) (a : BitVec 6) (b : BitVec 6)
  /-- SUB: Writes gA minus gB, modulo 2^64, to gD. (R108) -/
  | sub (h : Hdr) (d : BitVec 6) (a : BitVec 6) (b : BitVec 6)
  /-- MUL: Writes the low 64 bits of gA times gB to gD. (R108) -/
  | mul (h : Hdr) (d : BitVec 6) (a : BitVec 6) (b : BitVec 6)
  /-- MULH: Writes the high 64 bits of the signed product of gA and gB. (R108) -/
  | mulh (h : Hdr) (d : BitVec 6) (a : BitVec 6) (b : BitVec 6)
  /-- MULHU: Writes the high 64 bits of the unsigned product of gA and gB. (R108) -/
  | mulhu (h : Hdr) (d : BitVec 6) (a : BitVec 6) (b : BitVec 6)
  /-- MULHSU: Writes the high 64 bits of signed gA times unsigned gB. (R108) -/
  | mulhsu (h : Hdr) (d : BitVec 6) (a : BitVec 6) (b : BitVec 6)
  /-- DIV: Writes the signed quotient, truncated towards zero, with defined results for division by zero and for overflow. (R108) -/
  | div (h : Hdr) (d : BitVec 6) (a : BitVec 6) (b : BitVec 6)
  /-- DIVU: Writes the unsigned quotient, or all ones for division by zero. (R108) -/
  | divu (h : Hdr) (d : BitVec 6) (a : BitVec 6) (b : BitVec 6)
  /-- REM: Writes the signed remainder, with defined results for division by zero and for overflow. (R108) -/
  | rem (h : Hdr) (d : BitVec 6) (a : BitVec 6) (b : BitVec 6)
  /-- REMU: Writes the unsigned remainder, or gA for division by zero. (R108) -/
  | remu (h : Hdr) (d : BitVec 6) (a : BitVec 6) (b : BitVec 6)
  /-- AND: Writes the bitwise AND of gA and gB. (R108) -/
  | and (h : Hdr) (d : BitVec 6) (a : BitVec 6) (b : BitVec 6)
  /-- OR: Writes the bitwise OR of gA and gB. (R108) -/
  | or (h : Hdr) (d : BitVec 6) (a : BitVec 6) (b : BitVec 6)
  /-- XOR: Writes the bitwise XOR of gA and gB. (R108) -/
  | xor (h : Hdr) (d : BitVec 6) (a : BitVec 6) (b : BitVec 6)
  /-- ANDN: Writes gA AND NOT gB. (R108) -/
  | andn (h : Hdr) (d : BitVec 6) (a : BitVec 6) (b : BitVec 6)
  /-- ORN: Writes gA OR NOT gB. (R108) -/
  | orn (h : Hdr) (d : BitVec 6) (a : BitVec 6) (b : BitVec 6)
  /-- XNOR: Writes NOT (gA XOR gB). (R108) -/
  | xnor (h : Hdr) (d : BitVec 6) (a : BitVec 6) (b : BitVec 6)
  /-- SHL: Shifts gA left by gB mod 64. (R108) -/
  | shl (h : Hdr) (d : BitVec 6) (a : BitVec 6) (b : BitVec 6)
  /-- SHR: Shifts gA right logically by gB mod 64. (R108) -/
  | shr (h : Hdr) (d : BitVec 6) (a : BitVec 6) (b : BitVec 6)
  /-- SAR: Shifts gA right arithmetically by gB mod 64. (R108) -/
  | sar (h : Hdr) (d : BitVec 6) (a : BitVec 6) (b : BitVec 6)
  /-- ROL: Rotates gA left by gB mod 64. (R108) -/
  | rol (h : Hdr) (d : BitVec 6) (a : BitVec 6) (b : BitVec 6)
  /-- ROR: Rotates gA right by gB mod 64. (R108) -/
  | ror (h : Hdr) (d : BitVec 6) (a : BitVec 6) (b : BitVec 6)
  /-- MIN: Writes the signed minimum of gA and gB. (R108) -/
  | min (h : Hdr) (d : BitVec 6) (a : BitVec 6) (b : BitVec 6)
  /-- MAX: Writes the signed maximum of gA and gB. (R108) -/
  | max (h : Hdr) (d : BitVec 6) (a : BitVec 6) (b : BitVec 6)
  /-- MINU: Writes the unsigned minimum of gA and gB. (R108) -/
  | minu (h : Hdr) (d : BitVec 6) (a : BitVec 6) (b : BitVec 6)
  /-- MAXU: Writes the unsigned maximum of gA and gB. (R108) -/
  | maxu (h : Hdr) (d : BitVec 6) (a : BitVec 6) (b : BitVec 6)
  /-- CLZ: Counts the leading zeros of the low w bits of gA. (R110) -/
  | clz (h : Hdr) (d : BitVec 6) (a : BitVec 6) (sz : BitVec 2)
  /-- CTZ: Counts the trailing zeros of the low w bits of gA. (R110) -/
  | ctz (h : Hdr) (d : BitVec 6) (a : BitVec 6) (sz : BitVec 2)
  /-- POPC: Counts the set bits among the low w bits of gA. (R110) -/
  | popc (h : Hdr) (d : BitVec 6) (a : BitVec 6) (sz : BitVec 2)
  /-- BREV: Reverses the order of the low w bits of gA. (R110) -/
  | brev (h : Hdr) (d : BitVec 6) (a : BitVec 6) (sz : BitVec 2)
  /-- BSWAP: Reverses the order of the bytes of the low w bits of gA. (R110) -/
  | bswap (h : Hdr) (d : BitVec 6) (a : BitVec 6) (sz : BitVec 2)
  /-- EXTS: Sign-extends the low n bits of gA. (R111) -/
  | exts (h : Hdr) (d : BitVec 6) (a : BitVec 6) (lenm1 : BitVec 6)
  /-- EXTZ: Zero-extends the low n bits of gA. (R111) -/
  | extz (h : Hdr) (d : BitVec 6) (a : BitVec 6) (lenm1 : BitVec 6)
  /-- BFX: Extracts a bit field of gA, zero-extended. (R111) -/
  | bfx (h : Hdr) (d : BitVec 6) (a : BitVec 6) (pos : BitVec 6) (lenm1 : BitVec 6)
  /-- BFI: Inserts the low bits of gA into a field of gB. (R111) -/
  | bfi (h : Hdr) (d : BitVec 6) (a : BitVec 6) (b : BitVec 6) (pos : BitVec 6) (lenm1 : BitVec 6)
  /-- SEL: Selects gA or gB according to predicate C. (R112) -/
  | sel (h : Hdr) (d : BitVec 6) (a : BitVec 6) (b : BitVec 6) (c : BitVec 3)
  /-- LEA: Writes gA plus gB scaled by 2^s plus a signed offset, with no memory access. (R112) -/
  | lea (h : Hdr) (d : BitVec 6) (a : BitVec 6) (b : BitVec 6) (s : BitVec 2) (off : BitVec 10)
  /-- ADDI: Adds a sign-extended immediate to gA. (R115) -/
  | addi (h : Hdr) (d : BitVec 6) (a : BitVec 6) (imm : BitVec 32)
  /-- MULI: Multiplies gA by a sign-extended immediate. (R115) -/
  | muli (h : Hdr) (d : BitVec 6) (a : BitVec 6) (imm : BitVec 32)
  /-- ANDI: ANDs gA with a sign-extended immediate. (R115) -/
  | andi (h : Hdr) (d : BitVec 6) (a : BitVec 6) (imm : BitVec 32)
  /-- ORI: ORs gA with a zero-extended immediate. (R115) -/
  | ori (h : Hdr) (d : BitVec 6) (a : BitVec 6) (imm : BitVec 32)
  /-- XORI: XORs gA with a sign-extended immediate. (R115) -/
  | xori (h : Hdr) (d : BitVec 6) (a : BitVec 6) (imm : BitVec 32)
  /-- SHLI: Shifts gA left by an immediate count. (R115) -/
  | shli (h : Hdr) (d : BitVec 6) (a : BitVec 6) (n : BitVec 6)
  /-- SHRI: Shifts gA right logically by an immediate count. (R115) -/
  | shri (h : Hdr) (d : BitVec 6) (a : BitVec 6) (n : BitVec 6)
  /-- SARI: Shifts gA right arithmetically by an immediate count. (R115) -/
  | sari (h : Hdr) (d : BitVec 6) (a : BitVec 6) (n : BitVec 6)
  /-- MOVI: Writes a sign-extended immediate to gD. (R115) -/
  | movi (h : Hdr) (d : BitVec 6) (imm : BitVec 32)
  /-- MOVHI: Writes the immediate into the high half of gD, over the low half of gA. (R115) -/
  | movhi (h : Hdr) (d : BitVec 6) (a : BitVec 6) (imm : BitVec 32)
  /-- CMP: Writes the integer condition on gA and gB to a predicate. (R117) -/
  | cmp (h : Hdr) (d : BitVec 3) (a : BitVec 6) (b : BitVec 6) (cc : BitVec 4)
  /-- TEST: Writes to a predicate whether gA AND gB is non-zero, or zero. (R117) -/
  | test (h : Hdr) (d : BitVec 3) (a : BitVec 6) (b : BitVec 6) (z : Bool)
  /-- PAND: ANDs two predicates, each optionally inverted. (R117) -/
  | pand (h : Hdr) (d : BitVec 3) (a : BitVec 3) (b : BitVec 3) (na : Bool) (nb : Bool)
  /-- POR: ORs two predicates, each optionally inverted. (R117) -/
  | por (h : Hdr) (d : BitVec 3) (a : BitVec 3) (b : BitVec 3) (na : Bool) (nb : Bool)
  /-- PXOR: XORs two predicates, each optionally inverted. (R117) -/
  | pxor (h : Hdr) (d : BitVec 3) (a : BitVec 3) (b : BitVec 3) (na : Bool) (nb : Bool)
  /-- PNOT: Writes the inverse of a predicate. (R117) -/
  | pnot (h : Hdr) (d : BitVec 3) (a : BitVec 3)
  /-- PMOV: Copies a predicate. (R117) -/
  | pmov (h : Hdr) (d : BitVec 3) (a : BitVec 3)
  /-- CMPI: Writes the integer condition on gA and a sign-extended immediate to a predicate. (R118) -/
  | cmpi (h : Hdr) (d : BitVec 3) (a : BitVec 6) (cc : BitVec 4) (imm : BitVec 32)
  /-- BR: Branches to pc plus 8 times the signed offset. (R51) -/
  | br (h : Hdr) (off : BitVec 42)
  /-- CALL: Branches and writes the link pc + 8 to gD. (R119) -/
  | call (h : Hdr) (d : BitVec 6) (off : BitVec 42)
  /-- JMPR: Jumps to the address held in gA. (R120) -/
  | jmpr (h : Hdr) (a : BitVec 6)
  /-- CALLR: Jumps to gA and links pc + 8 in gD. (R120) -/
  | callr (h : Hdr) (d : BitVec 6) (a : BitVec 6)
  /-- RET: Returns to the address held in gA (g1 by default). (R120) -/
  | ret (h : Hdr) (a : BitVec 6)
  /-- LOOP: Sets up hardware loop n, or skips the body when the count is zero. (R122) -/
  | loop (h : Hdr) (n : Bool) (b : BitVec 6) (len : BitVec 11)
  /-- LD: Loads 1, 2, 4 or 8 bytes, zero- or sign-extended, with its class, scope and order. (R124) -/
  | ld (h : Hdr) (d : BitVec 6) (a : BitVec 6) (b : BitVec 6) (o : MemOrd) (size : BitVec 2) (sgn : Bool) (off : BitVec 19)
  /-- PREF: Starts a fetch of a DEV line under its policy, without faulting. (R126) -/
  | pref (h : Hdr) (a : BitVec 6) (b : BitVec 6) (off : BitVec 19)
  /-- ST: Stores 1, 2, 4 or 8 bytes of gS. (R124) -/
  | st (h : Hdr) (s : BitVec 6) (a : BitVec 6) (b : BitVec 6) (o : MemOrd) (size : BitVec 2) (off : BitVec 19)
  /-- AMO_SWAP: Atomically swaps memory with gB and returns the old value. (R130) -/
  | amoSwap (h : Hdr) (d : BitVec 6) (a : BitVec 6) (b : BitVec 6) (o : MemOrd) (dbl : Bool)
  /-- AMO_ADD: Atomically adds gB to memory and returns the old value. (R130) -/
  | amoAdd (h : Hdr) (d : BitVec 6) (a : BitVec 6) (b : BitVec 6) (o : MemOrd) (dbl : Bool)
  /-- AMO_AND: Atomically ANDs gB into memory. (R130) -/
  | amoAnd (h : Hdr) (d : BitVec 6) (a : BitVec 6) (b : BitVec 6) (o : MemOrd) (dbl : Bool)
  /-- AMO_OR: Atomically ORs gB into memory. (R130) -/
  | amoOr (h : Hdr) (d : BitVec 6) (a : BitVec 6) (b : BitVec 6) (o : MemOrd) (dbl : Bool)
  /-- AMO_XOR: Atomically XORs gB into memory. (R130) -/
  | amoXor (h : Hdr) (d : BitVec 6) (a : BitVec 6) (b : BitVec 6) (o : MemOrd) (dbl : Bool)
  /-- AMO_MIN: Atomically writes the signed minimum of memory and gB. (R130) -/
  | amoMin (h : Hdr) (d : BitVec 6) (a : BitVec 6) (b : BitVec 6) (o : MemOrd) (dbl : Bool)
  /-- AMO_MAX: Atomically writes the signed maximum of memory and gB. (R130) -/
  | amoMax (h : Hdr) (d : BitVec 6) (a : BitVec 6) (b : BitVec 6) (o : MemOrd) (dbl : Bool)
  /-- AMO_MINU: Atomically writes the unsigned minimum of memory and gB. (R130) -/
  | amoMinu (h : Hdr) (d : BitVec 6) (a : BitVec 6) (b : BitVec 6) (o : MemOrd) (dbl : Bool)
  /-- AMO_MAXU: Atomically writes the unsigned maximum of memory and gB. (R130) -/
  | amoMaxu (h : Hdr) (d : BitVec 6) (a : BitVec 6) (b : BitVec 6) (o : MemOrd) (dbl : Bool)
  /-- AMOCAS: Atomically writes gC when memory equals gB, and returns the old value. (R132) -/
  | amocas (h : Hdr) (d : BitVec 6) (a : BitVec 6) (b : BitVec 6) (c : BitVec 6) (o : MemOrd) (dbl : Bool)
  /-- AMOFADD: Atomically adds gB to memory in FP32 or FP64 with RNE. (R133) -/
  | amofadd (h : Hdr) (d : BitVec 6) (a : BitVec 6) (b : BitVec 6) (o : MemOrd) (dbl : Bool)
  /-- FADD: Adds two scalar floating-point values with a single rounding. (R137) -/
  | fadd (h : Hdr) (d : BitVec 6) (a : BitVec 6) (b : BitVec 6) (f : BitVec 2) (rm : BitVec 4)
  /-- FSUB: Subtracts two scalar floating-point values with a single rounding. (R137) -/
  | fsub (h : Hdr) (d : BitVec 6) (a : BitVec 6) (b : BitVec 6) (f : BitVec 2) (rm : BitVec 4)
  /-- FMUL: Multiplies two scalar floating-point values with a single rounding. (R137) -/
  | fmul (h : Hdr) (d : BitVec 6) (a : BitVec 6) (b : BitVec 6) (f : BitVec 2) (rm : BitVec 4)
  /-- FFMA: Computes the fused product-sum x·y + z with a single rounding. (R137) -/
  | ffma (h : Hdr) (d : BitVec 6) (a : BitVec 6) (b : BitVec 6) (c : BitVec 6) (f : BitVec 2) (rm : BitVec 4)
  /-- FDIV: Divides two scalar floating-point values with a single rounding. (R137) -/
  | fdiv (h : Hdr) (d : BitVec 6) (a : BitVec 6) (b : BitVec 6) (f : BitVec 2) (rm : BitVec 4)
  /-- FSQRT: Computes a square root with a single rounding. (R137) -/
  | fsqrt (h : Hdr) (d : BitVec 6) (a : BitVec 6) (f : BitVec 2) (rm : BitVec 4)
  /-- FMIN: Returns the smaller operand, with −0 below +0. (R138) -/
  | fmin (h : Hdr) (d : BitVec 6) (a : BitVec 6) (b : BitVec 6) (f : BitVec 2)
  /-- FMAX: Returns the larger operand, with −0 below +0. (R138) -/
  | fmax (h : Hdr) (d : BitVec 6) (a : BitVec 6) (b : BitVec 6) (f : BitVec 2)
  /-- FCMP: Writes a floating-point comparison to a predicate. (R139) -/
  | fcmp (h : Hdr) (d : BitVec 3) (a : BitVec 6) (b : BitVec 6) (f : BitVec 2) (cc : BitVec 3)
  /-- FCLASS: Writes a one-hot class mask of the operand. (R140) -/
  | fclass (h : Hdr) (d : BitVec 6) (a : BitVec 6) (f : BitVec 2)
  /-- FSGN: Copies gA with a new sign bit. (R141) -/
  | fsgn (h : Hdr) (d : BitVec 6) (a : BitVec 6) (b : BitVec 6) (f : BitVec 2) (op : BitVec 2)
  /-- FCVT: Converts between floating and scale formats. (R144) -/
  | fcvt (h : Hdr) (d : BitVec 6) (a : BitVec 6) (dfmt : BitVec 8) (sfmt : BitVec 8) (rm : BitVec 4)
  /-- FCVTI: Converts a floating value to an integer format. (R144) -/
  | fcvti (h : Hdr) (d : BitVec 6) (a : BitVec 6) (dfmt : BitVec 8) (sfmt : BitVec 8) (rm : BitVec 4)
  /-- ICVTF: Converts an integer to a floating format. (R144) -/
  | icvtf (h : Hdr) (d : BitVec 6) (a : BitVec 6) (dfmt : BitVec 8) (sfmt : BitVec 8) (rm : BitVec 4)
  /-- NOP: Retires with no effect. (R145) -/
  | nop (h : Hdr)
  /-- CRD: Copies a control register into gD, after the checks of the access order. (R25) -/
  | crd (h : Hdr) (d : BitVec 6) (num : BitVec 12)
  /-- CWR: Writes gA into a control register that has no row of its own, after the checks of the access order. (R25) -/
  | cwr (h : Hdr) (a : BitVec 6) (num : BitVec 12)
  /-- HALT: Stops the context in the halted state after it retires. (R147) -/
  | halt (h : Hdr)
  /-- TRAP: Retires and then raises TRAP_INSTR with a code. (R148) -/
  | trap (h : Hdr) (code : BitVec 12)
  /-- ERET: Restores PC and the privilege level and clears ESTAT.INH. (R472) -/
  | eret (h : Hdr)
  /-- BRK: Raises BREAKPOINT without retiring. (R149) -/
  | brk (h : Hdr) (code : BitVec 12)
  /-- MOVX: Writes a 64-bit immediate to gD. (R151) -/
  | movx (h : Hdr) (d : BitVec 6) (imm : BitVec 64)
  /-- BRX: Jumps to a 64-bit absolute target, optionally linking. (R152) -/
  | brx (h : Hdr) (d : BitVec 6) (imm : BitVec 64)
  /-- BRX_REL: Jumps to pc plus a 64-bit offset, optionally linking. (R152) -/
  | brxRel (h : Hdr) (d : BitVec 6) (imm : BitVec 64)
  /-- LAUNCH: Reads a launch record, checks it and queues a cohort on its home die, or refuses it. (R164) -/
  | launch (h : Hdr) (d : BitVec 6) (a : BitVec 6)
  /-- EXIT: Moves the context to EXITED. (R167) -/
  | exit (h : Hdr)
  /-- YIELD: Gives up issue for 3 clk and, with .Q, ends the cohort's quantum. (R180) -/
  | yieldI (h : Hdr) (q : Bool)
  /-- PARK: Consumes a pending wake, or parks until a wake arrives or the timeout passes. (R181) -/
  | park (h : Hdr) (d : BitVec 6) (a : BitVec 6)
  /-- WAKE: Sends a wake to a named context. (R181) -/
  | wake (h : Hdr) (a : BitVec 6)
  /-- CSET: Sets a counter's value and clears its faulted flag. (R182) -/
  | cset (h : Hdr) (c : BitVec 5) (a : BitVec 6)
  /-- CADD: Adds a signed value to a counter. (R182) -/
  | cadd (h : Hdr) (c : BitVec 5) (a : BitVec 6)
  /-- CWAIT: Waits until a counter reads at or below a threshold, or raises ENGINE_FAULT. (R182) -/
  | cwait (h : Hdr) (c : BitVec 5) (a : BitVec 6)
  /-- CRDC: Reads a counter's value and faulted flag. (R182) -/
  | crdc (h : Hdr) (d : BitVec 6) (c : BitVec 5)
  /-- BARINIT: Sets a barrier's expected count and clears its arrivals and BROKEN. (R184) -/
  | barinit (h : Hdr) (a : BitVec 6) (b : BitVec 6)
  /-- BARA: Arrives at a barrier and returns its generation, advancing it on the last arrival. (R184) -/
  | bara (h : Hdr) (d : BitVec 6) (a : BitVec 6)
  /-- BARW: Waits until a barrier's generation changes, or raises BARRIER_BROKEN. (R184) -/
  | barw (h : Hdr) (a : BitVec 6) (b : BitVec 6)
  /-- GSET: Sets a launch gate. (R185) -/
  | gset (h : Hdr) (a : BitVec 6) (b : BitVec 6)
  /-- GADD: Adds a clamped value to a gate and returns the old value. (R185) -/
  | gadd (h : Hdr) (d : BitVec 6) (a : BitVec 6) (b : BitVec 6)
  /-- GRD: Reads a gate, with acquire semantics. (R185) -/
  | grd (h : Hdr) (d : BitVec 6) (a : BitVec 6)
  /-- FENCE: Orders earlier before later accesses of the chosen classes at a scope. (R349) -/
  | fence (h : Hdr) (scope : BitVec 3) (cset : BitVec 4)
  /-- VADD: Adds FP32 lanes. (R198) -/
  | vadd (h : Hdr) (d : BitVec 5) (a : BitVec 5) (b : BitVec 6) (bs : Bool) (msk : BitVec 3) (zi : Bool) (rm : BitVec 4)
  /-- VSUB: Subtracts FP32 lanes. (R198) -/
  | vsub (h : Hdr) (d : BitVec 5) (a : BitVec 5) (b : BitVec 6) (bs : Bool) (msk : BitVec 3) (zi : Bool) (rm : BitVec 4)
  /-- VMUL: Multiplies FP32 lanes. (R198) -/
  | vmul (h : Hdr) (d : BitVec 5) (a : BitVec 5) (b : BitVec 6) (bs : Bool) (msk : BitVec 3) (zi : Bool) (rm : BitVec 4)
  /-- VFMA: Computes a fused multiply-add in FP32 lanes. (R198) -/
  | vfma (h : Hdr) (d : BitVec 5) (a : BitVec 5) (b : BitVec 6) (bs : Bool) (c : BitVec 5) (msk : BitVec 3) (zi : Bool) (rm : BitVec 4)
  /-- VDIV: Divides FP32 lanes. (R198) -/
  | vdiv (h : Hdr) (d : BitVec 5) (a : BitVec 5) (b : BitVec 6) (bs : Bool) (msk : BitVec 3) (zi : Bool) (rm : BitVec 4)
  /-- VSQRT: Computes the square root of FP32 lanes. (R198) -/
  | vsqrt (h : Hdr) (d : BitVec 5) (a : BitVec 5) (msk : BitVec 3) (zi : Bool) (rm : BitVec 4)
  /-- VRCP: Approximates the reciprocal within 1 ulp. (R199) -/
  | vrcp (h : Hdr) (d : BitVec 5) (a : BitVec 5) (msk : BitVec 3) (zi : Bool)
  /-- VRSQ: Approximates the reciprocal square root within 1 ulp. (R199) -/
  | vrsq (h : Hdr) (d : BitVec 5) (a : BitVec 5) (msk : BitVec 3) (zi : Bool)
  /-- VMIN: Writes the FP32 minimum of each lane pair. (R198) -/
  | vmin (h : Hdr) (d : BitVec 5) (a : BitVec 5) (b : BitVec 6) (bs : Bool) (msk : BitVec 3) (zi : Bool)
  /-- VMAX: Writes the FP32 maximum of each lane pair. (R198) -/
  | vmax (h : Hdr) (d : BitVec 5) (a : BitVec 5) (b : BitVec 6) (bs : Bool) (msk : BitVec 3) (zi : Bool)
  /-- VSGN: Replaces the sign of each lane. (R198) -/
  | vsgn (h : Hdr) (d : BitVec 5) (a : BitVec 5) (b : BitVec 6) (bs : Bool) (op : BitVec 2) (msk : BitVec 3) (zi : Bool)
  /-- VEXP2: Computes 2^x in each lane. (R200) -/
  | vexp2 (h : Hdr) (d : BitVec 5) (a : BitVec 5) (msk : BitVec 3) (zi : Bool)
  /-- VLOG2: Computes log2 x in each lane. (R200) -/
  | vlog2 (h : Hdr) (d : BitVec 5) (a : BitVec 5) (msk : BitVec 3) (zi : Bool)
  /-- VSIN: Computes sin x in each lane. (R200) -/
  | vsin (h : Hdr) (d : BitVec 5) (a : BitVec 5) (msk : BitVec 3) (zi : Bool)
  /-- VCOS: Computes cos x in each lane. (R200) -/
  | vcos (h : Hdr) (d : BitVec 5) (a : BitVec 5) (msk : BitVec 3) (zi : Bool)
  /-- VSINPI: Computes sin(πx), correctly rounded. (R200) -/
  | vsinpi (h : Hdr) (d : BitVec 5) (a : BitVec 5) (msk : BitVec 3) (zi : Bool)
  /-- VCOSPI: Computes cos(πx), correctly rounded. (R200) -/
  | vcospi (h : Hdr) (d : BitVec 5) (a : BitVec 5) (msk : BitVec 3) (zi : Bool)
  /-- VIADD: Adds 32-bit integer lanes, optionally saturating. (R202) -/
  | viadd (h : Hdr) (d : BitVec 5) (a : BitVec 5) (b : BitVec 6) (bs : Bool) (sat : Bool) (u : Bool) (msk : BitVec 3) (zi : Bool)
  /-- VISUB: Subtracts 32-bit integer lanes, optionally saturating. (R202) -/
  | visub (h : Hdr) (d : BitVec 5) (a : BitVec 5) (b : BitVec 6) (bs : Bool) (sat : Bool) (u : Bool) (msk : BitVec 3) (zi : Bool)
  /-- VIMUL: Multiplies 32-bit integer lanes, low or high half. (R202) -/
  | vimul (h : Hdr) (d : BitVec 5) (a : BitVec 5) (b : BitVec 6) (bs : Bool) (hi : Bool) (u : Bool) (msk : BitVec 3) (zi : Bool)
  /-- VAND: ANDs lanes bitwise. (R202) -/
  | vand (h : Hdr) (d : BitVec 5) (a : BitVec 5) (b : BitVec 6) (bs : Bool) (msk : BitVec 3) (zi : Bool)
  /-- VOR: ORs lanes bitwise. (R202) -/
  | vor (h : Hdr) (d : BitVec 5) (a : BitVec 5) (b : BitVec 6) (bs : Bool) (msk : BitVec 3) (zi : Bool)
  /-- VXOR: XORs lanes bitwise. (R202) -/
  | vxor (h : Hdr) (d : BitVec 5) (a : BitVec 5) (b : BitVec 6) (bs : Bool) (msk : BitVec 3) (zi : Bool)
  /-- VSHL: Shifts lanes left. (R202) -/
  | vshl (h : Hdr) (d : BitVec 5) (a : BitVec 5) (b : BitVec 6) (bs : Bool) (msk : BitVec 3) (zi : Bool)
  /-- VSHR: Shifts lanes right logically. (R202) -/
  | vshr (h : Hdr) (d : BitVec 5) (a : BitVec 5) (b : BitVec 6) (bs : Bool) (msk : BitVec 3) (zi : Bool)
  /-- VSAR: Shifts lanes right arithmetically. (R202) -/
  | vsar (h : Hdr) (d : BitVec 5) (a : BitVec 5) (b : BitVec 6) (bs : Bool) (msk : BitVec 3) (zi : Bool)
  /-- VIMIN: Writes the integer minimum, signed or unsigned. (R202) -/
  | vimin (h : Hdr) (d : BitVec 5) (a : BitVec 5) (b : BitVec 6) (bs : Bool) (u : Bool) (msk : BitVec 3) (zi : Bool)
  /-- VIMAX: Writes the integer maximum, signed or unsigned. (R202) -/
  | vimax (h : Hdr) (d : BitVec 5) (a : BitVec 5) (b : BitVec 6) (bs : Bool) (u : Bool) (msk : BitVec 3) (zi : Bool)
  /-- VPOPC: Counts the set bits of each lane. (R202) -/
  | vpopc (h : Hdr) (d : BitVec 5) (a : BitVec 5) (msk : BitVec 3) (zi : Bool)
  /-- VCLMUL: Carry-less multiplies lanes, low or high half. (R202) -/
  | vclmul (h : Hdr) (d : BitVec 5) (a : BitVec 5) (b : BitVec 6) (bs : Bool) (hi : Bool) (msk : BitVec 3) (zi : Bool)
  /-- VCVT: Converts 64 elements of one part between formats, optionally advancing the dither phase. (R205) -/
  | vcvt (h : Hdr) (d : BitVec 5) (a : BitVec 5) (c : BitVec 3) (adv : Bool) (part : BitVec 3) (dfmt : BitVec 8) (sfmt : BitVec 8) (rm : BitVec 4)
  /-- VCMP: Writes an FP32 lane comparison to a mask. (R206) -/
  | vcmp (h : Hdr) (d : BitVec 3) (a : BitVec 5) (b : BitVec 6) (bs : Bool) (cc : BitVec 3) (msk : BitVec 3) (zi : Bool)
  /-- VICMP: Writes an integer lane comparison to a mask. (R206) -/
  | vicmp (h : Hdr) (d : BitVec 3) (a : BitVec 5) (b : BitVec 6) (bs : Bool) (cc : BitVec 4) (msk : BitVec 3) (zi : Bool)
  /-- MAND: ANDs two masks. (R206) -/
  | mand (h : Hdr) (d : BitVec 3) (a : BitVec 3) (b : BitVec 3) (na : Bool) (nb : Bool)
  /-- MOR: ORs two masks. (R206) -/
  | mor (h : Hdr) (d : BitVec 3) (a : BitVec 3) (b : BitVec 3) (na : Bool) (nb : Bool)
  /-- MXOR: XORs two masks. (R206) -/
  | mxor (h : Hdr) (d : BitVec 3) (a : BitVec 3) (b : BitVec 3) (na : Bool) (nb : Bool)
  /-- MNOT: Inverts a mask. (R206) -/
  | mnot (h : Hdr) (d : BitVec 3) (a : BitVec 3)
  /-- MPOPC: Writes a mask's popcount to gD. (R206) -/
  | mpopc (h : Hdr) (d : BitVec 6) (a : BitVec 3)
  /-- VMOV_VECTOR: Copies vector lanes (kind 0). (R208) -/
  | vmovVector (h : Hdr) (d : BitVec 5) (a : BitVec 5) (msk : BitVec 3) (zi : Bool)
  /-- VMOV_LANE_TO_GENERAL: Copies one vector lane to gD (kind 1). (R208) -/
  | vmovLaneToGeneral (h : Hdr) (d : BitVec 6) (a : BitVec 5) (b : BitVec 6)
  /-- VMOV_GENERAL_TO_LANE: Writes gA into one vector lane (kind 2). (R208) -/
  | vmovGeneralToLane (h : Hdr) (d : BitVec 5) (a : BitVec 6) (b : BitVec 6)
  /-- VMOV_GENERAL_TO_MASK: Writes gA to a mask (kind 3). (R208) -/
  | vmovGeneralToMask (h : Hdr) (d : BitVec 3) (a : BitVec 6)
  /-- VMOV_MASK_TO_GENERAL: Writes a mask to gD (kind 4). (R208) -/
  | vmovMaskToGeneral (h : Hdr) (d : BitVec 6) (a : BitVec 3)
  /-- VBCAST: Broadcasts a scalar or one lane to every lane. (R209) -/
  | vbcast (h : Hdr) (d : BitVec 5) (a : BitVec 6) (b : BitVec 6) (src : Bool) (msk : BitVec 3) (zi : Bool)
  /-- VEXT: Extracts 64 lanes from the concatenation of two vectors. (R209) -/
  | vext (h : Hdr) (d : BitVec 5) (a : BitVec 5) (b : BitVec 5) (k : BitVec 6) (msk : BitVec 3) (zi : Bool)
  /-- VPERM: Permutes lanes by an index vector. (R209) -/
  | vperm (h : Hdr) (d : BitVec 5) (a : BitVec 5) (b : BitVec 5) (c : BitVec 5) (t2 : Bool) (msk : BitVec 3) (zi : Bool)
  /-- VPSWAP: Swaps lanes j and j xor 2^n, optionally negating. (R209) -/
  | vpswap (h : Hdr) (d : BitVec 5) (a : BitVec 5) (n : BitVec 3) (neg : Bool) (msk : BitVec 3) (zi : Bool)
  /-- VSLIDE: Slides lanes up or down with a fill value. (R209) -/
  | vslide (h : Hdr) (d : BitVec 5) (a : BitVec 5) (b : BitVec 6) (c : BitVec 6) (dn : Bool) (msk : BitVec 3) (zi : Bool)
  /-- VCOMPRESS: Packs the active lanes into the low lanes. (R209) -/
  | vcompress (h : Hdr) (d : BitVec 5) (a : BitVec 5) (msk : BitVec 3) (zi : Bool)
  /-- VEXPAND: Spreads the low lanes into the active lanes. (R209) -/
  | vexpand (h : Hdr) (d : BitVec 5) (a : BitVec 5) (msk : BitVec 3) (zi : Bool)
  /-- VSEL: Selects lanes of vA or vB by a mask. (R209) -/
  | vsel (h : Hdr) (d : BitVec 5) (a : BitVec 5) (b : BitVec 5) (c : BitVec 3)
  /-- VIOTA: Writes to each lane the prefix popcount of a mask. (R209) -/
  | viota (h : Hdr) (d : BitVec 5) (a : BitVec 3) (msk : BitVec 3) (zi : Bool)
  /-- VRED: Reduces the active lanes over a fixed tree into gD. (R211) -/
  | vred (h : Hdr) (d : BitVec 6) (a : BitVec 5) (op : BitVec 4) (rm : BitVec 4) (msk : BitVec 3)
  /-- VSCAN: Computes an inclusive scan over the lanes. (R212) -/
  | vscan (h : Hdr) (d : BitVec 5) (a : BitVec 5) (op : BitVec 4) (rm : BitVec 4) (msk : BitVec 3) (zi : Bool)
  /-- VSCAN_EXCL: Computes an exclusive scan over the lanes. (R212) -/
  | vscanExcl (h : Hdr) (d : BitVec 5) (a : BitVec 5) (op : BitVec 4) (rm : BitVec 4) (msk : BitVec 3) (zi : Bool)
  /-- VLD: Loads 64 lanes, unit-stride or strided, from VSTART upwards. (R216) -/
  | vld (h : Hdr) (d : BitVec 5) (a : BitVec 6) (b : BitVec 6) (c : BitVec 6) (str : Bool) (o : MemOrd) (msk : BitVec 3) (skip : Bool)
  /-- VST: Stores 64 lanes, unit-stride or strided, from VSTART upwards. (R216) -/
  | vst (h : Hdr) (s : BitVec 5) (a : BitVec 6) (b : BitVec 6) (c : BitVec 6) (str : Bool) (o : MemOrd) (msk : BitVec 3) (skip : Bool)
  /-- VGATH: Gathers lanes through an index vector. (R217) -/
  | vgath (h : Hdr) (d : BitVec 5) (a : BitVec 6) (b : BitVec 5) (scale : BitVec 2) (sx : Bool) (o : MemOrd) (msk : BitVec 3) (skip : Bool)
  /-- VSCAT: Scatters lanes through an index vector (OP 0). (R217) -/
  | vscat (h : Hdr) (s : BitVec 5) (a : BitVec 6) (b : BitVec 5) (scale : BitVec 2) (sx : Bool) (o : MemOrd) (msk : BitVec 3) (skip : Bool)
  /-- VSCAT_ADD: Atomically adds FP32 lanes through an index vector. (R217) -/
  | vscatAdd (h : Hdr) (s : BitVec 5) (a : BitVec 6) (b : BitVec 5) (scale : BitVec 2) (sx : Bool) (o : MemOrd) (msk : BitVec 3) (skip : Bool)
  /-- VSCAT_IADD: Atomically adds integer lanes through an index vector. (R217) -/
  | vscatIadd (h : Hdr) (s : BitVec 5) (a : BitVec 6) (b : BitVec 5) (scale : BitVec 2) (sx : Bool) (o : MemOrd) (msk : BitVec 3) (skip : Bool)
  /-- VSCAT_IMIN: Atomically writes the signed minimum of lanes through an index vector. (R217) -/
  | vscatImin (h : Hdr) (s : BitVec 5) (a : BitVec 6) (b : BitVec 5) (scale : BitVec 2) (sx : Bool) (o : MemOrd) (msk : BitVec 3) (skip : Bool)
  /-- VSCAT_IMAX: Atomically writes the signed maximum of lanes through an index vector. (R217) -/
  | vscatImax (h : Hdr) (s : BitVec 5) (a : BitVec 6) (b : BitVec 5) (scale : BitVec 2) (sx : Bool) (o : MemOrd) (msk : BitVec 3) (skip : Bool)
  /-- VCONFL: Groups equal lanes and writes LEAD, CNT, RANK and LAST, and the leader mask. (R220) -/
  | vconfl (h : Hdr) (d : BitVec 5) (a : BitVec 5) (c : BitVec 3) (msk : BitVec 3) (zi : Bool)
  /-- VCOMB: Combines the values of lanes that share a leader into the leader lane. (R221) -/
  | vcomb (h : Hdr) (d : BitVec 5) (a : BitVec 5) (b : BitVec 5) (op : BitVec 3) (rm : BitVec 4) (msk : BitVec 3) (zi : Bool)
  /-- RPOP: Pops the head of the reply queue, waiting for it to be filled. (R224) -/
  | rpop (h : Hdr) (d : BitVec 6) (c : BitVec 3) (nb : Bool)
  /-- QFLUSH: Discards the context's unstarted entries of a selected queue. (R225) -/
  | qflush (h : Hdr) (d : BitVec 6) (a : BitVec 6)
  /-- QSTAT: Reports the depth and occupancy of a selected queue. (R225) -/
  | qstat (h : Hdr) (d : BitVec 6) (a : BitVec 6)
  /-- FRPOP: Moves the cohort's oldest fault record on the core to memory. (R475) -/
  | frpop (h : Hdr) (d : BitVec 6) (a : BitVec 6)
  /-- PPART: Creates a partition and binds the context to it. (R275) -/
  | ppart (h : Hdr) (d : BitVec 6) (a : BitVec 6) (b : BitVec 6)
  /-- PPART_REL: Once the partition's commands have settled, frees the partition and unbinds the context. (R276) -/
  | ppartRel (h : Hdr)
  /-- PCFG: Queues a load of a configuration set held in DEV memory. (R277) -/
  | pcfg (h : Hdr) (e : CmdCtl) (a : BitVec 6)
  /-- PCFG_PLC: Queues a load of a set composed by PLACE, named by its slot. (R455) -/
  | pcfgPlc (h : Hdr) (e : CmdCtl) (a : BitVec 6)
  /-- PCLR: Queues a clear of a range of accumulator entries. (R279) -/
  | pclr (h : Hdr) (e : CmdCtl) (a : BitVec 6) (b : BitVec 6)
  /-- PEXC_READ_COUNTERS: Reads the partition's exception counters (operation 0). (R292) -/
  | pexcReadCounters (h : Hdr) (d : BitVec 6) (a : BitVec 6) (b : BitVec 6)
  /-- PSWEEP: Queues a sweep of NF folds under the active configuration. (R281) -/
  | psweep (h : Hdr) (e : CmdCtl) (a : BitVec 6) (b : BitVec 6) (c : BitVec 6) (d : BitVec 6)
  /-- PSWEEPS: Queues a sparse sweep with a cap K on matched pairs per charged group. (R384) -/
  | psweeps (h : Hdr) (e : CmdCtl) (a : BitVec 6) (b : BitVec 6) (c : BitVec 6) (d : BitVec 6)
  /-- PSCAN: Queues a run of every scan chain over the accumulator entries. (R283) -/
  | pscan (h : Hdr) (e : CmdCtl) (a : BitVec 6) (b : BitVec 6)
  /-- PTOPK: Queues a top-k tournament of the compare groups, optionally setting routing bits. (R285) -/
  | ptopk (h : Hdr) (e : CmdCtl) (a : BitVec 6) (b : BitVec 6) (c : BitVec 6) (rb : Bool)
  /-- PDRAIN: Queues a drain of an accumulator rectangle into a scratchpad tensor, converting each element. (R288) -/
  | pdrain (h : Hdr) (e : CmdCtl) (a : BitVec 6) (b : BitVec 6) (c : BitVec 6) (d : BitVec 6) (rm : BitVec 3) (clr : Bool) (int : Bool) (bs : Bool)
  /-- PPROG: Returns a snapshot of the partition's progress. (R293) -/
  | pprog (h : Hdr) (d : BitVec 6)
  /-- PSTAT: Returns a selected partition status item. (R294) -/
  | pstat (h : Hdr) (d : BitVec 6) (a : BitVec 6)
  /-- SPCFG: Requests a new scratchpad bank grouping. (R301) -/
  | spcfg (h : Hdr) (a : BitVec 6)
  /-- TREG: Writes a tensor record from an image and returns its handle. (R326) -/
  | treg (h : Hdr) (d : BitVec 6) (a : BitVec 6) (b : BitVec 6)
  /-- TREL: Invalidates a tensor record and advances its generation. (R327) -/
  | trel (h : Hdr) (a : BitVec 6)
  /-- TINFO: Reads one double-word of a tensor record. (R328) -/
  | tinfo (h : Hdr) (d : BitVec 6) (a : BitVec 6) (k : BitVec 4)
  /-- TADDR: Returns the generic pointer of an element. (R328) -/
  | taddr (h : Hdr) (d : BitVec 6) (a : BitVec 6) (b : BitVec 6) (prom : Bool)
  /-- TLD: Reads one tensor element and widens it. (R329) -/
  | tld (h : Hdr) (d : BitVec 6) (a : BitVec 6) (b : BitVec 6) (raw : Bool) (prom : Bool) (o : MemOrd)
  /-- TST: Converts a value and writes it into one tensor element. (R330) -/
  | tst (h : Hdr) (s : BitVec 6) (a : BitVec 6) (b : BitVec 6) (raw : Bool) (prom : Bool) (rmen : Bool) (rm : BitVec 3) (o : MemOrd)
  /-- VLDT: Reads 64 consecutive tensor elements into lanes. (R332) -/
  | vldt (h : Hdr) (d : BitVec 5) (a : BitVec 6) (b : BitVec 6) (raw : Bool) (prom : Bool) (o : MemOrd) (msk : BitVec 3) (skip : Bool)
  /-- VSTT: Writes 64 lanes into consecutive tensor elements. (R332) -/
  | vstt (h : Hdr) (s : BitVec 5) (a : BitVec 6) (b : BitVec 6) (raw : Bool) (prom : Bool) (rmen : Bool) (rm : BitVec 3) (o : MemOrd) (msk : BitVec 3) (skip : Bool)
  /-- CPY: Queues a linear copy of LEN bytes, optionally reducing or multicasting. (R391) -/
  | cpy (h : Hdr) (cnt : BitVec 5) (oc : BitVec 2) (a : BitVec 6) (b : BitVec 6) (c : BitVec 6) (eng : Bool) (mc : Bool) (red : Bool) (rop : Bool) (rfmt : Bool)
  /-- CPY2: Queues a strided copy of NROWS rows. (R391) -/
  | cpy2 (h : Hdr) (cnt : BitVec 5) (oc : BitVec 2) (a : BitVec 6) (b : BitVec 6) (c : BitVec 6) (d : BitVec 6) (eng : Bool) (mc : Bool) (red : Bool) (rop : Bool) (rfmt : Bool)
  /-- CFILL: Queues a fill of a destination with a repeated pattern. (R391) -/
  | cfill (h : Hdr) (cnt : BitVec 5) (oc : BitVec 2) (a : BitVec 6) (b : BitVec 6) (c : BitVec 6) (eng : Bool) (mc : Bool) (p : BitVec 3)
  /-- ECHK: Sets the checker enable for early reads of pending destinations. (R412) -/
  | echk (h : Hdr) (d : BitVec 6) (a : BitVec 6)
  /-- CPYT: Queues a copy of a tensor tile to memory, widening or expanding. (R399) -/
  | cpyt (h : Hdr) (cnt : BitVec 5) (oc : BitVec 2) (a : BitVec 6) (b : BitVec 6) (c : BitVec 6) (d : BitVec 6) (eng : Bool) (mc : Bool) (zfill : Bool) (xc : Bool) (prom : Bool)
  /-- CPYTS: Queues a copy of a memory tile into a tensor, converting or compressing. (R400) -/
  | cpyts (h : Hdr) (cnt : BitVec 5) (oc : BitVec 2) (a : BitVec 6) (b : BitVec 6) (c : BitVec 6) (d : BitVec 6) (eng : Bool) (xc : Bool) (prom : Bool) (p : BitVec 3)
  /-- CPYG: Queues a gather of patches from a tensor. (R402) -/
  | cpyg (h : Hdr) (cnt : BitVec 5) (oc : BitVec 2) (a : BitVec 6) (b : BitVec 6) (c : BitVec 6) (d : BitVec 6) (eng : Bool) (mc : Bool)
  /-- CPYR: Queues a gather of indexed rows, optionally sum-pooling bags. (R404) -/
  | cpyr (h : Hdr) (cnt : BitVec 5) (oc : BitVec 2) (a : BitVec 6) (b : BitVec 6) (c : BitVec 6) (d : BitVec 6) (eng : Bool) (mc : Bool) (sum : Bool) (rfmt : Bool)
  /-- CPYS: Queues a scatter of rows to indexed positions, optionally reducing. (R406) -/
  | cpys (h : Hdr) (cnt : BitVec 5) (oc : BitVec 2) (a : BitVec 6) (b : BitVec 6) (c : BitVec 6) (d : BitVec 6) (eng : Bool) (red : Bool) (rop : Bool) (rfmt : Bool)
  /-- RELAYOUT: Starts a lazy conversion of a tensor to a new record image and region. (R421) -/
  | relayout (h : Hdr) (cnt : BitVec 5) (oc : BitVec 2) (d : BitVec 6) (a : BitVec 6) (b : BitVec 6) (c : BitVec 6)
  /-- RELAYOUT_RES_RETRY: Makes every HELD unit BUSY again, to be converted from its start. (R431) -/
  | relayoutResRetry (h : Hdr) (a : BitVec 6) (b : BitVec 6)
  /-- TSTAT: Reports a conversion's progress, total or counts. (R429) -/
  | tstat (h : Hdr) (d : BitVec 6) (a : BitVec 6) (sel : BitVec 2)
  /-- TSYNC: Waits until the record's conversion ends. (R429) -/
  | tsync (h : Hdr) (a : BitVec 6)
  /-- RBSET_CLR: Clears every routing bitmap of the descriptor. (R448) -/
  | rbsetClr (h : Hdr) (oc : BitVec 2) (a : BitVec 6)
  /-- RBSET_SET: Atomically sets one routing bit. (R448) -/
  | rbsetSet (h : Hdr) (oc : BitVec 2) (a : BitVec 6) (c : BitVec 6)
  /-- RBSET_UNSET: Atomically clears one routing bit. (R448) -/
  | rbsetUnset (h : Hdr) (oc : BitVec 2) (a : BitVec 6) (c : BitVec 6)
  /-- RBSET_SET_V: Sets one routing bit per active lane. (R452) -/
  | rbsetSetV (h : Hdr) (oc : BitVec 2) (a : BitVec 6) (c : BitVec 5) (msk : BitVec 3) (skip : Bool)
  /-- RBSET_UNSET_V: Clears one routing bit per active lane. (R452) -/
  | rbsetUnsetV (h : Hdr) (oc : BitVec 2) (a : BitVec 6) (c : BitVec 5) (msk : BitVec 3) (skip : Bool)
  /-- RIDX: Builds the rank directory of every bitmap. (R449) -/
  | ridx (h : Hdr) (oc : BitVec 2) (a : BitVec 6) (b : BitVec 6)
  /-- RRANK: Returns a token's rank within an expert's bitmap. (R450) -/
  | rrank (h : Hdr) (oc : BitVec 2) (d : BitVec 6) (a : BitVec 6) (b : BitVec 6) (c : BitVec 6)
  /-- RRANK_V: Returns the rank for each active lane's key. (R452) -/
  | rrankV (h : Hdr) (oc : BitVec 2) (d : BitVec 5) (a : BitVec 6) (b : BitVec 6) (c : BitVec 5) (msk : BitVec 3) (skip : Bool)
  /-- RSEL: Returns the position of the set bit of ordinal j. (R450) -/
  | rsel (h : Hdr) (oc : BitVec 2) (d : BitVec 6) (a : BitVec 6) (b : BitVec 6) (c : BitVec 6)
  /-- RSEL_V: Returns the select result for each active lane's key. (R452) -/
  | rselV (h : Hdr) (oc : BitVec 2) (d : BitVec 5) (a : BitVec 6) (b : BitVec 6) (c : BitVec 5) (msk : BitVec 3) (skip : Bool)
  /-- RHIST: Writes each expert's token count and returns the total. (R449) -/
  | rhist (h : Hdr) (oc : BitVec 2) (d : BitVec 6) (a : BitVec 6) (c : BitVec 6)
  /-- PLACE: Queues a composition of a configuration set from partials sized by a histogram. (R456) -/
  | place (h : Hdr) (cnt : BitVec 5) (oc : BitVec 2) (a : BitVec 6) (b : BitVec 6) (c : BitVec 6) (d : BitVec 6)
  /-- CTXSAVE: Writes a halted context's image to memory. (R497) -/
  | ctxsave (h : Hdr) (a : BitVec 6) (b : BitVec 6)
  /-- CTXLOAD: Checks an image and loads it into a halted context. (R497) -/
  | ctxload (h : Hdr) (a : BitVec 6) (b : BitVec 6)
  /-- TLBINV_ADDRESS: Drops the cached leaf of an ASID covering an address (OP 0). (R498) -/
  | tlbinvAddress (h : Hdr) (a : BitVec 6) (b : BitVec 6)
  /-- PREEMPT_STATUS: Returns a cohort's state with no effect (OP 0). (R499) -/
  | preemptStatus (h : Hdr) (d : BitVec 6) (a : BitVec 6) (b : BitVec 6)
  /-- LCFG_GANG: Joins partitions on 2, 4 or 8 cores into a gang. (R517) -/
  | lcfgGang (h : Hdr) (d : BitVec 6) (a : BitVec 6) (b : BitVec 6)
  /-- LCFG_UNGANG: Dissolves the gang once its commands have settled. (R521) -/
  | lcfgUngang (h : Hdr)
  /-- LCFG_WSET: Sets a receive window from a descriptor. (R529) -/
  | lcfgWset (h : Hdr) (a : BitVec 6) (b : BitVec 6)
  /-- LCFG_WCLR: Clears a receive window. (R532) -/
  | lcfgWclr (h : Hdr) (b : BitVec 6)
  /-- LSTAT: Returns a selected link, route, window or gang status item. (R533) -/
  | lstat (h : Hdr) (d : BitVec 6) (a : BitVec 6)
  /-- PEXC_READ_THRESHOLDS: Reads the thresholds (operation 1). (R292) -/
  | pexcReadThresholds (h : Hdr) (d : BitVec 6) (a : BitVec 6) (b : BitVec 6)
  /-- PEXC_SET_THRESHOLDS: Writes the thresholds and returns the previous ones (operation 2). (R292) -/
  | pexcSetThresholds (h : Hdr) (d : BitVec 6) (a : BitVec 6) (b : BitVec 6)
  /-- PEXC_READ_CLEAR_COUNTERS: Reads the counters and clears them (operation 3). (R292) -/
  | pexcReadClearCounters (h : Hdr) (d : BitVec 6) (a : BitVec 6) (b : BitVec 6)
  /-- PEXC_SET_DITHER_PHASE: Sets the partition's dither phase (operation 4). (R292) -/
  | pexcSetDitherPhase (h : Hdr) (d : BitVec 6) (a : BitVec 6) (b : BitVec 6)
  /-- PEXC_RESUME: Takes the partition out of STOP (operation 5). (R292) -/
  | pexcResume (h : Hdr) (d : BitVec 6) (a : BitVec 6) (b : BitVec 6)
  /-- RELAYOUT_RES_ABANDON: Abandons the conversion, poisoning the record. (R432) -/
  | relayoutResAbandon (h : Hdr) (a : BitVec 6) (b : BitVec 6)
  /-- TLBINV_ASID: Drops every translation entry of an ASID (OP 1). (R498) -/
  | tlbinvAsid (h : Hdr) (a : BitVec 6) (b : BitVec 6)
  /-- TLBINV_ALL: Drops every translation entry (OP 2). (R498) -/
  | tlbinvAll (h : Hdr) (a : BitVec 6) (b : BitVec 6)
  /-- PREEMPT_STOP: Stops and saves a cohort, or holds it in its queue (OP 1). (R499) -/
  | preemptStop (h : Hdr) (d : BitVec 6) (a : BitVec 6) (b : BitVec 6)
  /-- PREEMPT_HALT: Halts every running or parked member (OP 2). (R499) -/
  | preemptHalt (h : Hdr) (d : BitVec 6) (a : BitVec 6) (b : BitVec 6)
  /-- PREEMPT_RESUME: Resumes halted members or clears HOLD (OP 3). (R499) -/
  | preemptResume (h : Hdr) (d : BitVec 6) (a : BitVec 6) (b : BitVec 6)
  /-- PREEMPT_TERMINATE: Terminates a cohort in any state (OP 4). (R482) -/
  | preemptTerminate (h : Hdr) (d : BitVec 6) (a : BitVec 6) (b : BitVec 6)
  /-- LOAD_RETURN: A load's data returns from the level that answers it, and its destination becomes ready. (R127) -/
  | loadReturn (ctx : Nat) (reg : Nat)
  /-- ICACHE_FILL: An instruction-cache miss is filled through the die cache of the line's home die. (R13) -/
  | icacheFill (core : Nat) (line : Nat)
  /-- COHORT_COMPLETION: Once every member has exited and its work has settled, frees the cohort's resources, zeroes its counters and decrements DONEGATE. (R167) -/
  | cohortCompletion (coh : Nat)
  /-- SCHEDULER_PASS: Walks the level queues from 7 down to 0, placing, pre-empting or rotating cohorts. (R171) -/
  | schedulerPass (die : Nat)
  /-- QUANTUM_EXPIRY: A placed TSHARE cohort's run reaches QUANTUM clk, and a pass follows. (R174) -/
  | quantumExpiry (coh : Nat)
  /-- HEAD_WAIT_EXPIRY: A head's wait reaches 2^20 clk, which closes backfill behind it, and a pass follows. (R171) -/
  | headWaitExpiry (die : Nat) (level : Nat)
  /-- COHORT_SAVE_COMPLETE: Every frame write of a stopped cohort has been performed at PKG, so its resources are free. (R491) -/
  | cohortSaveComplete (coh : Nat)
  /-- COHORT_RESTORE_COMPLETE: Every frame has been read, the members run again and interrupted commands continue. (R491) -/
  | cohortRestoreComplete (coh : Nat)
  /-- PARK_TIMEOUT: A parked context's G[A] clk pass and it resumes with gD = 1. (R181) -/
  | parkTimeout (ctx : Nat)
  /-- WAKE_ARRIVAL: A wake reaches its target, which resumes from PARK or sets its pending bit. (R181) -/
  | wakeArrival (ctx : Nat)
  /-- VECTOR_START: The vector unit starts one queued vector instruction chosen by a rotating pointer. (R191) -/
  | vectorStart (core : Nat)
  /-- VECTOR_COMPLETE: A started vector instruction's results become ready and its memory lanes have been issued. (R550) -/
  | vectorComplete (ctx : Nat)
  /-- PARTITION_WINDOW_CLEARED: A freed partition's window has been zeroed and its poison bits cleared. (R276) -/
  | partitionWindowCleared (core : Nat) (base : Nat)
  /-- CONFIG_LOAD_START: The head configuration load enters LOADING and reads its set. (R263) -/
  | configLoadStart (core : Nat) (part : Nat)
  /-- CONFIG_READY: A loaded set finishes its checks and becomes READY, or fails and the load faults. (R265) -/
  | configReady (core : Nat) (part : Nat)
  /-- CONFIG_ACTIVATE: A READY shadow becomes the active configuration, and the load completes. (R264) -/
  | configActivate (core : Nat) (part : Nat)
  /-- CLEAR_START: A queued clear begins writing once the interlock with earlier operand commands allows. (R279) -/
  | clearStart (core : Nat) (part : Nat)
  /-- CLEAR_COMPLETE: A clear writes its last entry and completes. (R279) -/
  | clearComplete (core : Nat) (part : Nat)
  /-- OPERAND_COMMAND_START: The head operand command starts under the active configuration and checks its extents. (R278) -/
  | operandCommandStart (core : Nat) (part : Nat)
  /-- GANG_SET_START: The matched set of gang commands starts once every member's command can start. (R518) -/
  | gangSetStart (gang : Nat)
  /-- FOLD_BEGIN: A fold begins its operand cycles, with the sparse slot and cap checks made first. (R252) -/
  | foldBegin (core : Nat) (part : Nat)
  /-- FOLD_LAND: A fold's group updates land in accumulator memory and its counts are updated. (R256) -/
  | foldLand (core : Nat) (part : Nat)
  /-- PSCAN_COMPLETE: A scan finishes writing its chains, 20 + n clk after it starts. (R283) -/
  | pscanComplete (core : Nat) (part : Nat)
  /-- PTOPK_COMPLETE: A tournament's records have landed. (R286) -/
  | ptopkComplete (core : Nat) (part : Nat)
  /-- DRAIN_START: A drain begins reading entries once the interlock with earlier operand commands allows. (R266) -/
  | drainStart (core : Nat) (part : Nat)
  /-- DRAIN_COMPLETE: A drain writes its last element, advances the dither phase and completes. (R289) -/
  | drainComplete (core : Nat) (part : Nat)
  /-- CONFIG_CACHE_FILL: A set missing from the configuration cache is fetched from device memory and entered. (R247) -/
  | configCacheFill (die : Nat) (addr : Nat)
  /-- SPCFG_APPLY: Once earlier scratchpad work has drained, changes SPMAP.G and releases the held accesses. (R301) -/
  | spcfgApply (core : Nat)
  /-- COPY_COMMAND_START: A copy engine takes a queued command as one of its active commands. (R387) -/
  | copyCommandStart (core : Nat) (eng : Nat)
  /-- COPY_BEAT_LAND: A 64-byte beat lands, and its bytes are subtracted from the counter. (R395) -/
  | copyBeatLand (core : Nat) (eng : Nat) (slot : Nat)
  /-- LAYOUT_UNIT_TAKE: The layout engine takes the next unit, promoted or in rotation, and makes it BUSY. (R426) -/
  | layoutUnitTake (die : Nat)
  /-- LAYOUT_UNIT_COMPLETE: A unit's new mapping is fully written, so it becomes NEW, DONE increments and the counter is decremented. (R423) -/
  | layoutUnitComplete (die : Nat)
  /-- LAYOUT_UNIT_FAULT: A unit's conversion faults, so it becomes HELD and a record with an asynchronous trap follows. (R430) -/
  | layoutUnitFault (die : Nat)
  /-- PLACE_START: The composer takes the head PLACE once a slot is free. (R460) -/
  | placeStart (die : Nat)
  /-- PLACE_COMPLETE: Writes the allocation record, fills the reply with the name and decrements the counter, or faults. (R461) -/
  | placeComplete (die : Nat)
  /-- ASYNC_TRAP_DELIVER: A layout-engine or PEER-store record is taken as a trap at the target's next eligible boundary. (R476) -/
  | asyncTrapDeliver (ctx : Nat)
  /-- PEER_REQUEST_RECEIVE: A port receives a PEER request, translates it under XPEER and performs it, through a receive window where one matches. (R530) -/
  | peerRequestReceive (port : Nat) (req : PeerRequest)
  /-- PEER_RESPONSE_RECEIVE: An acknowledgement or failure of a PEER request returns to the sender. (R526) -/
  | peerResponseReceive (id : Nat) (resp : PeerResponse)
  /-- PEER_TIMEOUT: A PEER request gets no answer within LTMO clk and fails with LINK_FAULT. (R523) -/
  | peerTimeout (id : Nat)
  /-- HOST_LAUNCH_WINDOW_WRITE: The host writes a 64-byte launch record into a die's launch window. (R166) -/
  | hostLaunchWindowWrite (die : Nat) (offset : Nat) (data : List Byte)
  /-- LAUNCH_WINDOW_ACCEPT: A waiting window record enters its level's queue once that level has room. (R166) -/
  | launchWindowAccept (die : Nat) (level : Nat)
  /-- HOST_GATE_READ: A host read of a gate through BAR0 acts as GRD. (R535) -/
  | hostGateRead (gate : Nat)
  /-- HOST_GATE_WRITE: A host 4-byte write of a gate through BAR0 acts as GSET. (R535) -/
  | hostGateWrite (gate : Nat) (value : BitVec 32)
  /-- BAR0_REGISTER_WRITE: A host write to a BAR0 register with no row of its own, such as the default XSPACE, the default TVEC or HNOTIFY. (R535) -/
  | bar0RegisterWrite (offset : Nat) (size : Nat) (value : BitVec 64)
  /-- HOST_BAR2_READ: A host read of device memory through BAR2. (R536) -/
  | hostBar2Read (offset : Nat) (len : Nat)
  /-- HOST_BAR2_WRITE: A host write of device memory through BAR2. (R536) -/
  | hostBar2Write (offset : Nat) (data : List Byte)
  /-- MAILBOX_LOAD: Loads and verifies a firmware image from host memory (OP 1). (R542) -/
  | mailboxLoad
  /-- MAILBOX_ATTEST: Returns a signed attestation report over a nonce (OP 2). (R544) -/
  | mailboxAttest
  /-- MAILBOX_SETCAP: Sets the module power cap (OP 3). (R543) -/
  | mailboxSetcap
  /-- MAILBOX_TERMLOG: Returns and empties the termination log (OP 4). (R543) -/
  | mailboxTermlog
  /-- MAILBOX_SVNSET: Raises the fused SVN counter to the running image's SVN (OP 5). (R542) -/
  | mailboxSvnset
  /-- MAILBOX_SELFTEST: Returns the self-test results of the last reset (OP 6). (R543) -/
  | mailboxSelftest
  /-- POWER_ON_RESET: Power-on or a PCIe fundamental reset starts the boot ROM in RESET. (R539) -/
  | powerOnReset
  /-- SELFTEST_DONE: Built-in self-test ends, taking failed cores out of service and moving to LOADING or HELD. (R540) -/
  | selftestDone (result : SelftestResult)
  /-- FIRMWARE_VERIFY: The flash image is verified and accepted, moving to CONFIG, or rejected. (R542) -/
  | firmwareVerify (image : List Byte)
  /-- CONFIG_DONE: Firmware finishes setting the tables and clocks, and the module becomes READY. (R539) -/
  | configDone (cfg : FirmwareConfig)
  /-- TRIP: An over-temperature or out-of-window voltage stops every clock and moves the module to TRIPPED. (R547) -/
  | trip (island : Nat)
  /-- CURRENT_LIMIT_STRETCH: An over-current makes the limiter stretch clock periods. (R546) -/
  | currentLimitStretch (island : Nat)
  /-- MONITOR_REFRESH: The island monitor values refresh every 100 µs. (R549) -/
  | monitorRefresh (island : Nat) (sample : MonitorSample)
  /-- BARRIER_ARRIVAL: A BARA's arrival reaches its barrier after the latency of R179, takes its place in the barrier's order, is tested against BROKEN, counted and may advance GEN. (R184) -/
  | barrierArrival (ctx : Nat)
  /-- STORE_PERFORMED: An earlier write becomes performed at its scope, for example held by the home die cache of its line, which releases accesses that a FENCE or release holds back. (R350) -/
  | storePerformed (ctx : Nat) (index : Nat)
  /-- LINK_DOWN: A device-link port goes down, its LINKUP bit clears, and PEER requests over it fail with LINK_FAULT. (R523) -/
  | linkDown (port : Nat)
  /-- LINK_UP: A device-link port finishes training and is up, and its LINKUP bit sets. (R537) -/
  | linkUp (port : Nat) (device : Nat)
  /-- PATROL_SCRUB: The patrol scrubber reads HBM and SRAM check codes at the rate firmware sets, correcting errors and poisoning entries whose errors are uncorrectable. (R546) -/
  | patrolScrub (target : ScrubTarget)
  /-- ISLAND_CLOCK_CHANGE: Firmware changes an island's clock, within 800–3300 MHz, or throttles it at a temperature point, changing FREQ and the time of a clk. (R546) -/
  | islandClockChange (island : Nat) (mhz : Nat)
  /-- FIRMWARE_TERMINATE: Firmware terminates a cohort, which terminates every member with cause TERMINATED and frees its resources. (R482) -/
  | firmwareTerminate (coh : Nat)
  /-- POWER_OFF: The package supply is lost and every clock and all state stop until power returns. (R539) -/
  | powerOff
  deriving DecidableEq, Repr

/-- A step of an agent, with the data the outside world gives, or the context that issues next: what the
model's step does when no instruction is chosen by the arbiter (log 4). Each agent's step but the first four is the
constructor of the same name of `Instr`. -/
inductive Move where
  /-- the context that issues next -/
  | issue (ctx : Nat)
  /-- commands of a terminated context reach their stop points (R481) -/
  | agentsStopped (ctx : Nat)
  /-- a link sends a beat again after a CRC failure (R526, R533) -/
  | linkRetry (port : Nat)
  /-- the host reads BAR0 (R535) -/
  | bar0Read (offset : Nat) (len : Nat)

  | loadReturn (ctx : Nat) (reg : Nat)
  | icacheFill (core : Nat) (line : Nat)
  | cohortCompletion (coh : Nat)
  | schedulerPass (die : Nat)
  | quantumExpiry (coh : Nat)
  | headWaitExpiry (die : Nat) (level : Nat)
  | cohortSaveComplete (coh : Nat)
  | cohortRestoreComplete (coh : Nat)
  | parkTimeout (ctx : Nat)
  | wakeArrival (ctx : Nat)
  | vectorStart (core : Nat)
  | vectorComplete (ctx : Nat)
  | partitionWindowCleared (core : Nat) (base : Nat)
  | configLoadStart (core : Nat) (part : Nat)
  | configReady (core : Nat) (part : Nat)
  | configActivate (core : Nat) (part : Nat)
  | clearStart (core : Nat) (part : Nat)
  | clearComplete (core : Nat) (part : Nat)
  | operandCommandStart (core : Nat) (part : Nat)
  | gangSetStart (gang : Nat)
  | foldBegin (core : Nat) (part : Nat)
  | foldLand (core : Nat) (part : Nat)
  | pscanComplete (core : Nat) (part : Nat)
  | ptopkComplete (core : Nat) (part : Nat)
  | drainStart (core : Nat) (part : Nat)
  | drainComplete (core : Nat) (part : Nat)
  | configCacheFill (die : Nat) (addr : Nat)
  | spcfgApply (core : Nat)
  | copyCommandStart (core : Nat) (eng : Nat)
  | copyBeatLand (core : Nat) (eng : Nat) (slot : Nat)
  | layoutUnitTake (die : Nat)
  | layoutUnitComplete (die : Nat)
  | layoutUnitFault (die : Nat)
  | placeStart (die : Nat)
  | placeComplete (die : Nat)
  | asyncTrapDeliver (ctx : Nat)
  | peerRequestReceive (port : Nat) (req : PeerRequest)
  | peerResponseReceive (id : Nat) (resp : PeerResponse)
  | peerTimeout (id : Nat)
  | hostLaunchWindowWrite (die : Nat) (offset : Nat) (data : List Byte)
  | launchWindowAccept (die : Nat) (level : Nat)
  | hostGateRead (gate : Nat)
  | hostGateWrite (gate : Nat) (value : BitVec 32)
  | bar0RegisterWrite (offset : Nat) (size : Nat) (value : BitVec 64)
  | hostBar2Read (offset : Nat) (len : Nat)
  | hostBar2Write (offset : Nat) (data : List Byte)
  | mailboxLoad
  | mailboxAttest
  | mailboxSetcap
  | mailboxTermlog
  | mailboxSvnset
  | mailboxSelftest
  | powerOnReset
  | selftestDone (result : SelftestResult)
  | firmwareVerify (image : List Byte)
  | configDone (cfg : FirmwareConfig)
  | trip (island : Nat)
  | currentLimitStretch (island : Nat)
  | monitorRefresh (island : Nat) (sample : MonitorSample)
  | barrierArrival (ctx : Nat)
  | storePerformed (ctx : Nat) (index : Nat)
  | linkDown (port : Nat)
  | linkUp (port : Nat) (device : Nat)
  | patrolScrub (target : ScrubTarget)
  | islandClockChange (island : Nat) (mhz : Nat)
  | firmwareTerminate (coh : Nat)
  | powerOff
  deriving DecidableEq, Repr

end Sys2Proof
end

