-- ==== Sys2Proof/Machine/State.lean ====
section
/-!
DEFINITION. The state of the package as plain data, the reasons a step can stop, and the state after reset.
-/
namespace Sys2Proof.Machine

/-- Why a step of the model stops. Every fault of the spec is a next state (R466-R470); these are not. -/
inductive Fault where
  /-- Raised by an agent's step whose arguments name a core, die, context, port, partition, engine, island or
  gate that the package does not have (R8, R27). Safe: no agent of the package has that number. -/
  | noSuchAgent
  deriving DecidableEq, Repr

/-- Why a step is refused. -/
inductive Refusal where
  /-- Raised by the dispatch arm of an instruction that has no meaning yet. Safe: nothing is claimed of it. -/
  | notModelled (mnemonic : String)
  deriving DecidableEq, Repr

/-! ## Contexts -/

/-- Context states (R153). -/
inductive Phase where
  | free | running | parked | halted | stopped | exited
  deriving DecidableEq, Repr

/-- A fault record (R467), field by field. -/
structure FaultRec where
  cause : Nat
  async : Bool
  lane  : Option Nat
  agent : Nat
  ctx   : Nat
  cnt   : Option Nat
  part  : Nat
  pc    : Word
  addr  : Word
  tag   : Nat
  stag  : Nat
  prog  : Word
  info0 : Word
  info1 : Word
  info2 : Word
  deriving DecidableEq, Repr

/-- A reply slot (R222): its key names the producer. -/
inductive Reply where
  | reserved (key : Nat)
  | filled (v : Word)
  | faulted
  deriving DecidableEq, Repr

/-- A vector-queue entry (R190): the instruction, its address and length, the general registers it read at issue
(x, y, z: the values of the A, B and C or D operands), its reply key, whether the context waits for it, and, once it has
started, when its results are ready (R192). -/
structure VEntry where
  instr  : Instr
  pc     : Word
  x      : Word
  y      : Word
  z      : Word
  w      : Word
  key    : Option Nat
  blocks : Bool
  due    : Nat
  deriving DecidableEq, Repr

/-- A place that bytes can be read from and written to. -/
inductive Loc where
  | mem (pa : Nat)
  | spad (core off : Nat)
  | acc (core off : Nat)
  | peer (dev va : Nat)
  | host (a : Nat)
  deriving DecidableEq, Repr

/-- A write issued and not yet performed at its level (R350): its class, the classes of later accesses that it holds
back until it is (R349), for a store to a peer the request whose answer performs it (R351, R526), and for a
read-modify-write at scope CTX the bytes that it has still to write (R131). -/
structure OutAccess where
  cls   : BitVec 2
  holds : BitVec 4
  peer  : Option Nat
  late  : List (Loc × List Byte)
  deriving DecidableEq, Repr

/-- One context (R9, R153). `cr` holds the control registers by number (R25); `vq` the queued and `vrun` the
started vector instructions (R189, R550). -/
structure Ctx where
  phase   : Phase
  coh     : Option Nat
  rank    : Nat
  sv      : Bool
  pc      : Word
  g       : Tab Word
  p       : BitVec 8
  v       : Tab VReg
  m       : Tab Word
  cr      : Tab Word
  /-- destinations of loads that have not returned (R35, R127) -/
  loading : List Nat
  vq      : List VEntry
  vrun    : List VEntry
  replies : List Reply
  out     : List OutAccess
  /-- PARK's destination, and the time at which it ends (R181) -/
  parkD   : Nat
  parkEnd : Option Nat
  wakePend : Bool
  /-- a WAKE on its way to this context (R181): the wakes not yet arrived -/
  wakesIn : Nat
  /-- a BARA whose arrival has not reached its barrier (R184): barrier number on the home die, destination -/
  baraIn  : Option (Nat × Nat)
  /-- bound partition (R295) -/
  bind    : Option Nat
  /-- not ready before this time, after YIELD (R180) -/
  yieldEnd : Nat
  haltReq : Bool
  /-- a PEER request the context waits for (R523) -/
  peerWait : Option Nat
  /-- its data, once it has come: bytes, or the cause it failed with -/
  peerData : Option PeerResponse
  /-- a store handle access waits for its unit to leave BUSY (R424) -/
  handleStall : Bool
  /-- an uncorrectable error stands in the memory that holds its state (R493, R497; log 15) -/
  bad : Bool
  /-- it is terminated, and commands that it started have still to reach their stop points (R481; log 22) -/
  ending : Bool
  deriving DecidableEq, Repr

/-! ## Multiplier pool -/

/-- A configuration set as its bytes, with its DEV address, or its name where PLACE composed it (R240, R456). -/
structure PoolSet where
  composed : Bool
  addr  : Nat
  bytes : List Byte
  deriving DecidableEq, Repr

/-- A queued pool command (R270): the operands as they were read at issue. -/
inductive PoolOp where
  /-- a configuration load from a DEV pointer, or of a composed set's name (R277) -/
  | load (arg : Word) (plc : Bool)
  /-- PCLR: first entry and number of entries in the window (R279) -/
  | clear (first count : Nat)
  /-- PSWEEP, or PSWEEPS with its cap (R280, R383) -/
  | sweep (a b c : Word) (tag : Nat) (cap : Option Nat)
  /-- PSCAN (R283) -/
  | scan (alpha : BitVec 32) (off : Nat)
  /-- PTOPK, with the bitmap operand of RB (R284) -/
  | topk (a b : Word) (rb : Option Word)
  /-- PDRAIN: the handle and the record looked up at issue, coordinates, G[C], the band operand, mode and modifiers
  (R287) -/
  | drain (handle : Word) (record : List Word) (c0 c1 : Word) (rect : Word) (band : Option Nat) (rm : Nat)
      (clr int : Bool)
  deriving DecidableEq, Repr

/-- A pool command in a queue: who issued it, its counter, its numbers on its queue, in the partition and in its
gang's sequence (R518). -/
structure PoolCmd where
  op     : PoolOp
  ctx    : Nat
  sv     : Bool
  pc     : Word
  xspace : Word
  oc     : BitVec 2
  cnt    : Option Nat
  tag    : Nat
  seq    : Nat
  dit    : Bool
  gno    : Nat
  deriving DecidableEq, Repr

/-- The update of one entry by a fold (R256): entry, accumulate, I32, fold value. -/
structure FoldUpdate where
  entry : Nat
  group : Nat
  accum : Bool
  int32 : Bool
  value : FVal
  deriving DecidableEq, Repr

/-- A fold that has begun its operand cycles and not landed (R252), with the block steps of it that overflowed
(R290). -/
structure FoldRun where
  fold    : Nat
  updates : List FoldUpdate
  bsov    : Nat
  deriving DecidableEq, Repr

/-- A started operand command: folds begun, landed, in flight; the fault that stopped it, with the entries it poisons
at its end (R478); poisoned entries that updates met (R304); a threshold crossed while it ran (R291). -/
structure OpRun where
  cmd    : PoolCmd
  begun  : Nat
  done   : Nat
  flight : List FoldRun
  fault  : Option FaultRec
  poison : List Nat
  met    : List Nat
  thr    : Bool
  /-- no further fold begins -/
  halted : Bool
  deriving DecidableEq, Repr

/-- The shadow configuration (R263). -/
inductive Shadow where
  | empty
  | loading (cmd : PoolCmd) (set : Option PoolSet) (fault : Option FaultRec)
  | ready (cmd : PoolCmd) (set : PoolSet)
  deriving DecidableEq, Repr

/-- The three counts of R290. -/
structure Counts where
  sat  : Nat
  nanr : Nat
  bsov : Nat
  deriving DecidableEq, Repr

/-- One partition (R238, R275). -/
structure Part where
  ctx     : Nat
  coh     : Nat
  qbase   : Nat
  qsize   : Nat
  abase   : Nat
  asize   : Nat
  cfgq    : List PoolCmd
  opq     : List PoolCmd
  drq     : List PoolCmd
  shadow  : Shadow
  active  : Option PoolSet
  counts  : Counts
  thresh  : Counts
  phase   : Nat
  stop    : Bool
  misses  : Nat
  /-- started operand commands, oldest first -/
  runs    : List OpRun
  /-- the drain or clear in progress -/
  drRun   : Option PoolCmd
  /-- what PPROG shows with no command in progress (R293): TAG, DONE, NF, FLT -/
  progTag : Nat
  progDone : Nat
  progNf  : Nat
  progFlt : Bool
  /-- issue numbers on the three queues, and over the partition -/
  cfgNo   : Nat
  opNo    : Nat
  drNo    : Nat
  seqNo   : Nat
  /-- operand commands issued in the gang (R518) -/
  gangSeq : Nat
  gang    : Option Nat
  deriving DecidableEq, Repr

/-- A window kept in accumulator memory while its cohort is pre-empted (R490). -/
structure KeptWindow where
  coh   : Nat
  part  : Nat
  abase : Nat
  asize : Nat
  deriving DecidableEq, Repr

/-! ## Copy engines -/

/-- The work of a copy command with its operands resolved at issue (R391, R397, R402, R404). `rec` is the record
looked up at issue, `handle` its handle. -/
inductive CopyOp where
  | linear (dst src : Word) (rows rowLen : Nat) (spitch dpitch : Int)
  | fill (dst : Word) (pattern : Word) (size len : Nat)
  | tileOut (handle : Word) (c0 c1 : Word) (mem : Word) (desc : Word) (zfill expand promote : Bool)
  | tileIn (handle : Word) (c0 c1 : Word) (mem : Word) (desc : Word) (mode : Nat) (compress promote : Bool)
  | patches (handle : Word) (origins dst : Word) (desc : Word)
  | gatherRows (dst src list : Word) (pitch n rowb : Nat) (sum : Bool)
  | scatterRows (base src list : Word) (pitch n rowb : Nat)
  deriving DecidableEq, Repr

/-- A copy command (R386-R395). `red` is its reduction: maximum or sum, and BF16 or FP32. `targets` are the cores
of a multicast. `size` is the contribution to its counter. -/
structure CopyCmd where
  op      : CopyOp
  ctx     : Nat
  sv      : Bool
  pc      : Word
  xspace  : Word
  oc      : BitVec 2
  cnt     : Nat
  tag     : Nat
  red     : Option (Bool × Bool)
  bf16    : Bool
  targets : List Nat
  size    : Nat
  key     : Option Nat
  /-- the record as looked up at issue -/
  record  : List Word
  deriving DecidableEq, Repr

/-- A unit of a copy that has been read: bytes that land at `dst`, of the last of which `part` high bits stay; or, for a
tensor, n positions from `pos` on and the bytes of their source. One of no positions is of bytes. -/
structure Work where
  pos   : Nat
  n     : Nat
  dst   : Word
  bytes : List Byte
  part  : Nat
  deriving DecidableEq, Repr

/-- An active command (R387): the next position, the bytes that have landed, the destination bytes already counted where
units share bytes, its counts (R400), and its reply's figures (R401). -/
structure CopyRun where
  cmd    : CopyCmd
  pos    : Nat
  landed : Nat
  seen   : List Nat
  sat    : Nat
  nanr   : Nat
  slots  : Nat
  maxNnz : Nat
  total  : Nat
  /-- the PEER request it waits for, and what earlier requests of the unit, or of the command, have brought -/
  peer   : Option Nat
  buf    : List Byte
  /-- sum-pooling from a peer: list entries taken for the unit, and its elements' sums as FP32 codes (R405) -/
  sumAt  : Nat
  sumVal : BitVec 64
  /-- positions of the unit under way, 0 before it begins; destination bits done; the run stands at the end of a chunk
  (R387) -/
  unit   : Nat
  bits   : Nat
  edge   : Bool
  /-- a command whose words are not alike has read its source: what has still to land, what of it waits for the rest of
  its words, and the fault that the reading met behind it (R339, R392, R409, R411) -/
  loaded : Bool
  works  : List Work
  kept   : List Work
  bad    : Option (Nat × Word)
  deriving DecidableEq, Repr

/-- One copy engine (R386, R387). `queues` holds, by context of the core, its commands; `ptr` is the queue that started
last, `beat` the active slot that was served last. -/
structure CopyEngine where
  queues : Tab (List CopyCmd)
  active : Tab CopyRun
  ptr    : Nat
  beat   : Nat
  nextTag : Nat
  deriving DecidableEq, Repr

/-! ## Cores -/

/-- A completion counter (R177). -/
structure Counter where
  value   : Nat
  faulted : Bool
  deriving DecidableEq, Repr

/-- A cached translation (R315): address space, first address, size, target, and the rights of the leaf. -/
structure TlbEntry where
  asid : Nat
  va   : Nat
  size : Nat
  pa   : Nat
  u    : Bool
  x    : Bool
  w    : Bool
  r    : Bool
  deriving DecidableEq, Repr

/-- One core (R297, R302, R177, R474, R13). `spad` is keyed by bank, row and byte (R297); `acc` by entry. -/
structure Core where
  /-- taken out of service (R540) -/
  out     : Bool
  spad    : Mem
  spmapG  : Nat
  /-- SPCFGs that wait, oldest first: context and new G (R301) -/
  spcfgs  : List (Nat × Nat)
  acc     : Tab (BitVec 32)
  poison  : List Nat
  /-- entries whose check code shows an uncorrectable error (R302, R478; log 15) -/
  badAcc  : List Nat
  counters : Tab Counter
  last    : Nat
  vlast   : Nat
  faultq  : List FaultRec
  lost    : List Nat
  icache  : Tab (List Byte)
  /-- leaves cached by the core (R315) -/
  tlb     : List TlbEntry
  /-- 8-byte units of the scratchpad with an uncorrectable error, numbered as `spad` is keyed (log 15) -/
  badSpad : List Nat
  parts   : Tab Part
  kept    : List KeptWindow
  /-- accumulator windows of freed partitions that are being zeroed: first entry, size (R276) -/
  clearing : List (Nat × Nat)
  engines : Tab CopyEngine
  deriving DecidableEq, Repr

/-- A set in a configuration cache (R247): space and address, bytes, and where they lie in device memory. -/
structure CachedSet where
  asid  : Nat
  addr  : Nat
  bytes : List Byte
  spans : List (Nat × Nat)
  deriving DecidableEq, Repr

/-- A PLACE command with its operands as read at issue (R456): its reply key, its partition as cohort, core and
number, the experts, histogram, table, budget and allocation record. -/
structure PlaceCmd where
  ctx    : Nat
  sv     : Bool
  xspace : Word
  pc     : Word
  oc     : BitVec 2
  cnt    : Nat
  key    : Option Nat
  holder : Nat × Nat × Nat
  experts : Nat
  hoff   : Nat
  tptr   : Word
  quads  : Nat
  aoff   : Nat
  deriving DecidableEq, Repr

/-- A composed-set slot (R454): its generation, the partition that holds it, its set. -/
structure Slot where
  gen   : BitVec 9
  held  : Option (Nat × Nat × Nat)
  bytes : List Byte
  deriving DecidableEq, Repr

/-! ## Dies and cohorts -/

/-- A hardware barrier (R183). -/
structure Barrier where
  exp    : Nat
  arr    : Nat
  gen    : BitVec 32
  broken : Bool
  deriving DecidableEq, Repr

/-- Cohort states (R168), with the steps of a stop and of a resumption between them (R484, R491). -/
inductive CohState where
  | queued | placed | stopping | preempted | restoring | terminated
  deriving DecidableEq, Repr

/-- What a cohort holds on one core (R160): contexts, quad range, scratchpad window. -/
structure Seat where
  core   : Nat
  ctxs   : List Nat
  quad   : Nat
  page   : Nat
  deriving DecidableEq, Repr

/-- A launch record (R156-R158), as its eight double-words. -/
structure LaunchRec where
  entry : Word
  stack : Word
  argp  : Word
  lctl  : Word
  lres  : Word
  cmask : Word
  sel0  : Word
  sel1  : Word
  deriving DecidableEq, Repr

/-- A window in save frames (R489, R490): core, partition, first entry, size, the frames' physical addresses. -/
structure SavedWindow where
  core  : Nat
  part  : Nat
  abase : Nat
  asize : Nat
  pas   : List Nat
  deriving DecidableEq, Repr

/-- What a stopped cohort holds (R484-R491): the frames of its images by context and of its cores, its windows, and
the parts that are kept in the device's own form. `parts` is keyed by 4 * core + number, `queues` by 2 * context +
engine, `runs` by 2 * core + engine. -/
structure Saved where
  images  : List (Nat × List Nat)
  cframes : List (Nat × Nat)
  windows : List SavedWindow
  ctxs    : Tab Ctx
  parts   : Tab Part
  queues  : Tab (List CopyCmd)
  runs    : Tab (List CopyRun)
  places  : List PlaceCmd
  /-- what conversions abandoned meanwhile subtract from its counters: core, counter, units, context, PC (R432) -/
  owed    : List (Nat × Nat × Nat × Nat × Word)
  deriving DecidableEq, Repr

/-- What a save frame is for: a member's image, a core's cohort frame, a partition's window (R486). -/
inductive FrameItem where
  | image (ctx : Nat)
  | core (core : Nat)
  | window (core part : Nat)
  deriving DecidableEq, Repr

/-- A save frame in use: for what, its die and its number. -/
structure FrameUse where
  item : FrameItem
  die  : Nat
  num  : Nat
  deriving DecidableEq, Repr

/-- A cohort: its record, its handle's parts, and where it is (R164-R174). -/
structure Cohort where
  lrec    : LaunchRec
  st      : CohState
  qnum    : Nat
  hold    : Bool
  xspace  : Word
  tvec    : Word
  seats   : List Seat
  /-- first barrier of its NBAR on the home die -/
  bars    : List Nat
  placedAt : Nat
  /-- YIELD.Q has ended its quantum (R180) -/
  quantumOver : Bool
  /-- when it last became the head of its level (R171) -/
  headSince : Option Nat
  headExpired : Bool
  /-- PREEMPT with STOP: it is to be stopped, and then held (R499) -/
  stopReq : Bool
  /-- its resources are kept for this cohort; its windows on these cores are saved (R173, R490) -/
  reservedFor : Option Nat
  takeCores : List Nat
  /-- it is being rotated, and takes a new queue number (R169, R174) -/
  rotated : Bool
  /-- members terminated by a fault of their own (R482) -/
  termed  : List Nat
  /-- members that fit a save wait: HALT requests for a stopped cohort (R499) -/
  haltOnResume : Bool
  /-- save frames in use, in the order of R491 (R486) -/
  frames  : List FrameUse
  saved   : Option Saved
  deriving DecidableEq, Repr

/-- A conversion in progress (R417-R433): the record's index, who issued it, its counter, the number of units, the
units done, the units HELD, and the area's pointer. The engine knows its units' states; the area shows them to programs (R418). -/
structure Conv where
  rec_   : Nat
  ctx    : Nat
  coh    : Nat
  sv     : Bool
  xspace : Word
  pc     : Word
  cnt    : Nat
  oc     : BitVec 2
  area   : Word
  nu     : Nat
  done   : Nat
  held   : List Nat
  /-- BUSY units that wait to be converted again (R431) -/
  retry  : List Nat
  /-- the NEW units -/
  news   : List Nat
  paused : Bool
  deriving DecidableEq, Repr

/-- One die (R175-R187, R315). -/
structure Die where
  barriers : Tab Barrier
  accNo    : Nat
  gateErr  : BitVec 32
  quantum  : BitVec 32
  passDue  : Bool
  window   : List LaunchRec
  lwdrop   : BitVec 64
  lwbad    : BitVec 64
  defXspace : Word
  defTvec  : Word
  tlb      : List TlbEntry
  saveBase : Word
  saveTotal : Nat
  cfgCache : List CachedSet
  /-- the composer: slots, commands that wait, the one that has started with its slot (R454-R461) -/
  slots    : Tab Slot
  placeq   : List PlaceCmd
  placing  : Option (PlaceCmd × Nat)
  /-- the layout engine: conversions in rotation order, promotion list, unit in hand (R420, R426) -/
  convs    : List Conv
  plist    : List (Nat × Nat)
  unit     : Option (Nat × Nat)
  deriving DecidableEq, Repr

/-- Module states (R539). -/
inductive ModState where
  | reset | selftest | loading | config | ready | tripped | held | off
  deriving DecidableEq, Repr

/-- Who waits for a PEER answer (R524): a load or atomic of the context, a posted store, or a beat of a copy
engine's active command. -/
inductive PeerUser where
  | scalar
  | store
  | beat (core eng slot : Nat)
  deriving DecidableEq, Repr

/-- A PEER request on its way (R522-R526). -/
structure PeerReq where
  ctx  : Nat
  pc   : Word
  ptr  : Word
  op   : PeerOp
  port : Nat
  sent : Nat
  user : PeerUser
  deriving DecidableEq, Repr

/-- A device-link port (R533). -/
structure Port where
  far     : Nat
  retries : BitVec 32
  beats   : BitVec 64
  deriving DecidableEq, Repr

/-- A receive window: its four double-words and its counts (R529, R530). -/
structure Window where
  d0 : Word
  d1 : Word
  d2 : Word
  d3 : Word
  counts : Counts
  /-- bytes of blocks or fibre-folds that have not arrived whole, by offset in the range (R530) -/
  buf : Tab Byte
  deriving DecidableEq, Repr

/-- A gang (R516, R517): members as cores and partitions in ascending core id, its hop counts, its cohort. -/
structure Gang where
  first   : Nat
  nlog    : Nat
  col     : Bool
  members : List (Nat × Nat)
  hdie    : Nat
  hedge   : Nat
  coh     : Nat
  deriving DecidableEq, Repr

/-- An island's clock and monitors (R548, R549). -/
structure Island where
  mhz     : BitVec 12
  stretch : Word
  rosc    : BitVec 16
  vmv     : BitVec 16
  temp    : BitVec 16
  /-- throttle point in 1/8 °C and operating point in mV, set by firmware (R546) -/
  throttle : BitVec 16
  point   : BitVec 16
  /-- its monitors have been refreshed since reset (R541) -/
  fresh   : Bool
  deriving DecidableEq, Repr

/-- The package. -/
structure State where
  /-- the context whose slot executes (the model's own, log 4) -/
  cur      : Nat
  clk      : Nat
  inputs   : List Move
  /-- when the engines next perform a unit of work; none when they have none (the model's own, log 5) -/
  pace     : Option Nat
  ctxs     : Tab Ctx
  cores    : Tab Core
  dies     : Tab Die
  cohorts  : Tab Cohort
  /-- victims that have ended, by the cohort their resources stay reserved for (R173) -/
  reserves : List (Nat × Cohort)
  gates    : Tab (BitVec 32)
  hbm      : Mem
  badHbm   : List Nat
  /-- granules that firmware withholds from the memory map (R306), as ranges: the first and how many -/
  withheld : List (Nat × Nat)
  /-- stacks withheld as a whole (R540) -/
  stacksOut : BitVec 8
  ttbase   : Word
  hostMem  : Mem
  devnum   : Nat
  freeCount : Nat
  replyKey : Nat
  termLog  : List FaultRec
  modState : ModState
  /-- links (R522-R537) -/
  routes   : Tab Nat
  ports    : Tab Port
  linkUp   : BitVec 24
  windows  : Tab Window
  xpeer    : Word
  ltmo     : BitVec 32
  peers    : Tab PeerReq
  peerNext : Nat
  /-- the answers the ports have given to requests of other modules, by port (R523) -/
  answers  : List (Nat × PeerResponse)
  gangs    : Tab Gang
  /-- the context that issued the last conversion of a record, by record: whose SPAD its area may lie in (R429) -/
  lastConv : Tab Nat
  /-- periods an island has lost (R29): CYCLE is clk minus these -/
  lost     : Tab Nat
  /-- status block, firmware and limits (R541-R549) -/
  islands  : Tab Island
  seq      : BitVec 32
  failUnit : BitVec 16
  fwver    : Word
  meas     : BitVec 256
  svn      : Nat
  svnFuse  : Nat
  /-- the flash image has failed, and a LOAD is waited for (R542) -/
  flashBad : Bool
  pcap     : Nat
  modpwr   : BitVec 32
  selftest : Option SelftestResult
  /-- mailbox bytes by offset, BUSY, raised MSI-X vectors, HNOTIFY bits, what host reads have returned (R535, R543) -/
  mbReq    : Tab Byte
  /-- the request as it was when the doorbell posted it (R543, log 33) -/
  mbPost   : Tab Byte
  mbResp   : Tab Byte
  mbBusy   : Bool
  msix     : List Nat
  hnotify  : List Nat
  hostReads : List (List Byte)
  deriving DecidableEq, Repr

/-- Right after power-on (R38, R539): nothing runs, every table is empty, the clock reads 0. PCAP is 2800 W (R541),
LTMO 2^24 (R537). Registers and memory hold their default 0 (logs 1, 2, 12, 14). -/
def State.reset : State where
  cur := 0
  clk := 0
  inputs := []
  pace := none
  ctxs := []
  cores := []
  dies := []
  cohorts := []
  reserves := []
  gates := []
  hbm := []
  badHbm := []
  withheld := []
  stacksOut := 0
  ttbase := 0
  hostMem := []
  devnum := 0
  freeCount := 0
  replyKey := 0
  termLog := []
  modState := .reset
  routes := []
  ports := []
  linkUp := 0
  windows := []
  xpeer := 0
  ltmo := 16777216
  peers := []
  peerNext := 0
  answers := []
  gangs := []
  lastConv := []
  lost := []
  islands := []
  seq := 0
  failUnit := 0
  fwver := 0
  meas := 0
  svn := 0
  svnFuse := 0
  flashBad := false
  pcap := 2800
  modpwr := 0
  selftest := none
  mbReq := []
  mbPost := []
  mbResp := []
  mbBusy := false
  msix := []
  hnotify := []
  hostReads := []

end Sys2Proof.Machine
end

