-- ==== Sys2Proof/Machine/Base.lean ====
section
/-!
DEFINITION. The values of contexts, cores and dies that nothing has changed since reset, and the one way to
read and write each part of the state: contexts, registers, control registers, counters, cores, dies, cohorts.
-/
namespace Sys2Proof.Machine

/-! ## Values at reset -/

/-- A FREE context (R38). Registers hold 0 (log 2); EXCTL.AEN is 1 (R501). -/
def ctxReset : Ctx where
  phase := .free
  coh := none
  rank := 0
  sv := false
  pc := 0
  g := []
  p := 0
  v := []
  m := []
  cr := [(0x103, 1)]
  loading := []
  vq := []
  vrun := []
  replies := []
  out := []
  parkD := 0
  parkEnd := none
  wakePend := false
  wakesIn := 0
  baraIn := none
  bind := none
  yieldEnd := 0
  haltReq := false
  peerWait := none
  peerData := none
  handleStall := false
  bad := false
  ending := false

def counterReset : Counter := ⟨0, false⟩

def engineReset : CopyEngine := ⟨[], [], 3, 3, 0⟩

/-- A core after reset: the arbiter's pointer is 3 (R155), the counters read 0 (R38), SPMAP.G is 0 (R297). -/
def coreReset : Core where
  out := false
  spad := []
  spmapG := 0
  spcfgs := []
  acc := []
  poison := []
  badAcc := []
  counters := []
  last := 3
  vlast := 3
  faultq := []
  lost := []
  icache := []
  tlb := []
  badSpad := []
  parts := []
  kept := []
  clearing := []
  engines := []

def barrierReset : Barrier := ⟨0, 0, 0, false⟩

/-- A die after reset: QUANTUM is 2^20 (R187). -/
def dieReset : Die where
  barriers := []
  accNo := 0
  gateErr := 0
  quantum := 1048576
  passDue := false
  window := []
  lwdrop := 0
  lwbad := 0
  defXspace := 0
  defTvec := 0
  tlb := []
  saveBase := 0
  saveTotal := 0
  cfgCache := []
  slots := []
  placeq := []
  placing := none
  convs := []
  plist := []
  unit := none

/-! ## Contexts -/

def getCtx (s : State) (c : Nat) : Ctx := tabGet ctxReset s.ctxs c
def putCtx (s : State) (c : Nat) (x : Ctx) : State := { s with ctxs := tabPut s.ctxs c x }
/-- The context whose slot executes. -/
def me (s : State) : Ctx := getCtx s s.cur
def setMe (s : State) (x : Ctx) : State := putCtx s s.cur x
def modCtx (s : State) (c : Nat) (f : Ctx → Ctx) : State := putCtx s c (f (getCtx s c))

def coreOfCtx (c : Nat) : Nat := c / 4
def dieOfCore (k : Nat) : Nat := k / 32
def dieOfCtx (c : Nat) : Nat := dieOfCore (coreOfCtx c)
def myCore (s : State) : Nat := coreOfCtx s.cur

/-- The core's own contexts (R27). -/
def ctxsOfCore (k : Nat) : List Nat := [4 * k, 4 * k + 1, 4 * k + 2, 4 * k + 3]

/-! ## Registers (R9-R12) -/

/-- General register i: g0 reads zero (R9). -/
def ctxG (x : Ctx) (i : Nat) : Word := if i = 0 then 0 else tabGet 0 x.g i
/-- A write to g0 is discarded (R10). -/
def ctxSetG (x : Ctx) (i : Nat) (w : Word) : Ctx := if i = 0 then x else { x with g := tabSet 0 x.g i w }
/-- Predicate i: p0 reads true (R9). -/
def ctxP (x : Ctx) (i : Nat) : Bool := i == 0 || x.p.getLsbD i
def ctxSetP (x : Ctx) (i : Nat) (b : Bool) : Ctx :=
  if i = 0 then x
  else { x with p := (x.p &&& ~~~ (BitVec.ofNat 8 (2 ^ i))) ||| (if b then BitVec.ofNat 8 (2 ^ i) else 0) }
/-- Lane mask i: m0 reads all ones (R9). -/
def ctxM (x : Ctx) (i : Nat) : Word := if i = 0 then BitVec.allOnes 64 else tabGet 0 x.m i
def ctxSetM (x : Ctx) (i : Nat) (w : Word) : Ctx := if i = 0 then x else { x with m := tabSet 0 x.m i w }
def ctxV (x : Ctx) (i : Nat) : VReg := tabGet 0 x.v i
def ctxSetV (x : Ctx) (i : Nat) (w : VReg) : Ctx := { x with v := tabSet 0 x.v i w }

def rg (s : State) (i : BitVec 6) : Word := ctxG (me s) i.toNat
def wg (s : State) (i : BitVec 6) (w : Word) : State := setMe s (ctxSetG (me s) i.toNat w)
def rp (s : State) (i : BitVec 3) : Bool := ctxP (me s) i.toNat
def wp (s : State) (i : BitVec 3) (b : Bool) : State := setMe s (ctxSetP (me s) i.toNat b)

/-! ## Control registers held per context, by number (R25) -/

def ctxCr (x : Ctx) (n : Nat) : Word := tabGet 0 x.cr n
def ctxSetCr (x : Ctx) (n : Nat) (w : Word) : Ctx := { x with cr := tabSet 0 x.cr n w }
def getCr (s : State) (n : Nat) : Word := ctxCr (me s) n
def setCr (s : State) (n : Nat) (w : Word) : State := setMe s (ctxSetCr (me s) n w)

def crRetired : Nat := 0x003
def crEntrypc : Nat := 0x004
def crLpstart (n : Nat) : Nat := 0x008 + 4 * n
def crLpend (n : Nat) : Nat := 0x009 + 4 * n
def crLpcount (n : Nat) : Nat := 0x00A + 4 * n
def crLpctl : Nat := 0x010
def crFpctl : Nat := 0x018
def crFpstat : Nat := 0x019
def crTlsptr : Nat := 0x020
def crVstart : Nat := 0x060
def crSpBase : Nat := 0x0A0
def crSpLimit : Nat := 0x0A1
def crXspace : Nat := 0x0A3
def crDitctl : Nat := 0x0B0
def crMcmask : Nat := 0x0C0
def crEchkst : Nat := 0x0C1
def crCpyexc : Nat := 0x0C2
def crPromoc : Nat := 0x0D1
def crPlstall : Nat := 0x0E1
def crTvec : Nat := 0x100
def crEpc : Nat := 0x101
def crEstat : Nat := 0x102
def crExctl : Nat := 0x103
def crFrec (n : Nat) : Nat := 0x108 + n
def crBpa (n : Nat) : Nat := 0x118 + n
def crBpc (n : Nat) : Nat := 0x11C + n
def crDbgctl : Nat := 0x120
def crCdepth : Nat := 0x121
def crStepdep : Nat := 0x122
def crPrecnt : Nat := 0x132

/-- ESTAT.INH, DBGCTL.SS and so on (R501). -/
def estatInh (x : Ctx) : Bool := (ctxCr x crEstat).getLsbD 1
def estatPsv (x : Ctx) : Bool := (ctxCr x crEstat).getLsbD 0
def exctlPrd (x : Ctx) : Bool := (ctxCr x crExctl).getLsbD 1
def exctlAen (x : Ctx) : Bool := (ctxCr x crExctl).getLsbD 0
def dbgSkip1 (x : Ctx) : Bool := (ctxCr x crDbgctl).getLsbD 3
def dbgBph (x : Ctx) : Bool := (ctxCr x crDbgctl).getLsbD 2
def dbgSo (x : Ctx) : Bool := (ctxCr x crDbgctl).getLsbD 1
def dbgSs (x : Ctx) : Bool := (ctxCr x crDbgctl).getLsbD 0
def clearSkip1 (x : Ctx) : Ctx := ctxSetCr x crDbgctl (ctxCr x crDbgctl &&& 7#64)
/-- FPCTL.RM and DPH (R101). -/
def fpctlRm (x : Ctx) : Nat := (ctxCr x crFpctl).toNat % 8
def fpctlDph (x : Ctx) : Nat := ((ctxCr x crFpctl).toNat / 16) % 16
/-- The enables NVE DZE OFE UFE NXE, in FPSTAT bit order (R101). -/
def fpctlEnables (x : Ctx) : BitVec 5 := (ctxCr x crFpctl).extractLsb' 8 5
/-- XSPACE.ASID and the root's physical address (R335). -/
def xspaceAsid (w : Word) : Nat := w.toNat / 2 ^ 48
def xspaceRoot (w : Word) : Nat := (w.toNat / 4096) % 2 ^ 28 * 4096

/-! ## Cores, dies, cohorts -/

def getCore (s : State) (k : Nat) : Core := tabGet coreReset s.cores k
def putCore (s : State) (k : Nat) (x : Core) : State := { s with cores := tabPut s.cores k x }
def modCore (s : State) (k : Nat) (f : Core → Core) : State := putCore s k (f (getCore s k))
def getDie (s : State) (d : Nat) : Die := tabGet dieReset s.dies d
def putDie (s : State) (d : Nat) (x : Die) : State := { s with dies := tabPut s.dies d x }
def modDie (s : State) (d : Nat) (f : Die → Die) : State := putDie s d (f (getDie s d))

def getCohort (s : State) (h : Nat) : Option Cohort := tabFind s.cohorts h
def putCohort (s : State) (h : Nat) (x : Cohort) : State := { s with cohorts := tabPut s.cohorts h x }
def dropCohort (s : State) (h : Nat) : State := { s with cohorts := tabErase s.cohorts h }
/-- The cohort of a context. -/
def cohortOf (s : State) (c : Nat) : Option Cohort :=
  match (getCtx s c).coh with
  | some h => getCohort s h
  | none => none

/-- At scope CTX a device write counts as performed at once, a store to a peer when it has been answered (R350, R351), and
the write of a read-modify-write at that scope when it is made (R131). -/
def leftAtCtx (a : OutAccess) : Bool := a.peer.isSome || !a.late.isEmpty

/-- A FENCE of classes `k` holds later accesses of these classes for the earlier writes of the same classes (R349). -/
def fenceOut (ctxOnly : Bool) (k : BitVec 4) (l : List OutAccess) : List OutAccess :=
  l.map (fun a => if k.getLsbD a.cls.toNat && (!ctxOnly || leftAtCtx a) then { a with holds := a.holds ||| k } else a)

/-- A read-modify-write of the context has still to write. No write of the context itself, or of a command that it issues,
comes between (R131, R340). -/
def lateOut (x : Ctx) : Bool := x.out.any (fun a => !a.late.isEmpty)

/-- Nothing that an access of class `oc` of the context must wait for is outstanding: a write of the class, or one that a
FENCE holds the class back for. A command starts only then (R347, R349, R413). -/
def classOpen (s : State) (c : Nat) (oc : BitVec 2) : Bool :=
  !(getCtx s c).out.any (fun a => a.cls == oc || a.holds.getLsbD oc.toNat) && !lateOut (getCtx s c)

/-- The members of a cohort, by rank (R162). -/
def members (x : Cohort) : List Nat := x.seats.flatMap (fun t => t.ctxs)
def allExited (s : State) (x : Cohort) : Bool := (members x).all (fun c => (getCtx s c).phase == .exited)
/-- A stop has reached the context's cohort, whose save is not complete (R484). -/
def ctxStopping (s : State) (c : Nat) : Bool :=
  match cohortOf s c with
  | some h => h.st == .stopping
  | none => false

/-! ## Launch-record fields (R156-R158) -/

def lrSv (r : LaunchRec) : Bool := r.lctl.getLsbD 0
def lrPreempt (r : LaunchRec) : Bool := r.lctl.getLsbD 2
def lrTshare (r : LaunchRec) : Bool := r.lctl.getLsbD 3
def lrPrio (r : LaunchRec) : Nat := bitsOf r.lctl.toNat 10 8
def lrTag (r : LaunchRec) : Nat := bitsOf r.lctl.toNat 23 16
def lrWaitEn (r : LaunchRec) : Bool := r.lctl.getLsbD 24
def lrWaitGate (r : LaunchRec) : Nat := bitsOf r.lctl.toNat 34 25
def lrDoneEn (r : LaunchRec) : Bool := r.lctl.getLsbD 35
def lrDoneGate (r : LaunchRec) : Nat := bitsOf r.lctl.toNat 45 36
def lrStkStride (r : LaunchRec) : Nat := bitsOf r.lctl.toNat 63 46
def lrCpc (r : LaunchRec) : Nat := bitsOf r.lres.toNat 2 0
def lrSpan (r : LaunchRec) : Bool := r.lres.getLsbD 15
def lrDieMask (r : LaunchRec) : Nat := bitsOf r.lres.toNat 19 16
def lrHome (r : LaunchRec) : Nat := bitsOf r.lres.toNat 21 20
def lrMode (r : LaunchRec) : Nat := bitsOf r.lres.toNat 23 22
def lrNcore (r : LaunchRec) : Nat := bitsOf r.lres.toNat 31 24
def lrNbar (r : LaunchRec) : Nat := bitsOf r.lres.toNat 40 32
def lrSpadPg (r : LaunchRec) : Nat := bitsOf r.lres.toNat 51 41
def lrQuads (r : LaunchRec) : Nat := bitsOf r.lres.toNat 63 52
def lrCmask (r : LaunchRec) : Nat := bitsOf r.cmask.toNat 31 0
def lrSel (r : LaunchRec) : Nat := r.sel0.toNat + 2 ^ 64 * r.sel1.toNat

/-- The seat of a cohort on a core. -/
def seatOn (x : Cohort) (k : Nat) : Option Seat := x.seats.find? (fun t => t.core == k)

/-! ## Completion counters (R177, R178) -/

def getCounter (s : State) (k i : Nat) : Counter := tabGet counterReset (getCore s k).counters i
def putCounter (s : State) (k i : Nat) (x : Counter) : State :=
  modCore s k (fun q => { q with counters := tabSet counterReset q.counters i x })

/-- The executing cohort owns counter i on its core (R177). -/
def ownsCounter (s : State) (c i : Nat) : Bool :=
  match cohortOf s c with
  | some h => (lrCmask h.lrec).testBit i
  | none => false

def counterMax : Nat := 2 ^ 40

/-! ## Free values -/

/-- The next free byte, and the state with the counter of free values advanced (log 9). -/
def nextFree (s : State) : Byte × State := (Config.freeByte s.freeCount, { s with freeCount := s.freeCount + 1 })

/-! ## Causes (R466) -/

def cIllegal : Nat := 0x01
def cPriv : Nat := 0x02
def cAddrSpace : Nat := 0x03
def cAlign : Nat := 0x04
def cPage : Nat := 0x05
def cAccess : Nat := 0x06
def cTensorHandle : Nat := 0x07
def cTensorBounds : Nat := 0x08
def cTensorBusy : Nat := 0x09
def cUnderflow : Nat := 0x0A
def cEngine : Nat := 0x0B
def cConfig : Nat := 0x0C
def cSparse : Nat := 0x0D
def cDitCap : Nat := 0x0E
def cEarlyRead : Nat := 0x0F
def cArith : Nat := 0x10
def cEcc : Nat := 0x11
def cPoison : Nat := 0x12
def cBarrier : Nat := 0x13
def cBreak : Nat := 0x14
def cTrap : Nat := 0x15
def cSaveDouble : Nat := 0x16
def cLink : Nat := 0x17
def cTerminated : Nat := 0x18

/-- A record with only its cause, agent, context and PC (R467). -/
def recBase (cause agent ctx : Nat) (pc : Word) : FaultRec where
  cause := cause
  async := false
  lane := none
  agent := agent
  ctx := ctx
  cnt := none
  part := 0
  pc := pc
  addr := 0
  tag := 0
  stag := 0
  prog := 0
  info0 := 0
  info1 := 0
  info2 := 0

/-- The record of a fault of the executing context's instruction, with its address (R467). -/
def recOf (s : State) (cause : Nat) (addr : Word) : FaultRec :=
  { recBase cause 0 s.cur (me s).pc with addr := addr }

/-- The eight double-words of a record (R467). -/
def recWords (r : FaultRec) : List Word :=
  let lane : Nat := match r.lane with | some j => 2 ^ 9 + (j % 64) * 2 ^ 10 | none => 0
  let cnt : Nat := match r.cnt with | some n => 2 ^ 29 + (n % 32) * 2 ^ 30 | none => 0
  let d0 : Nat := r.cause % 256 + (if r.async then 256 else 0) + lane + (r.agent % 16) * 2 ^ 16
    + (r.ctx % 512) * 2 ^ 20 + cnt + (r.part % 4) * 2 ^ 35
  [BitVec.ofNat 64 d0, r.pc, r.addr, BitVec.ofNat 64 (r.tag % 65536 + (r.stag % 65536) * 65536), r.prog,
    r.info0, r.info1, r.info2]

/-- CYCLE's island: island 8d + r for mesh row r of die d (R29, R160, R545). -/
def islandOfCore (k : Nat) : Nat := 8 * (k / 32) + k / 8 % 4

end Sys2Proof.Machine
end

