-- ==== Sys2Proof/Machine/Memory.lean ====
section
/-!
DEFINITION. Generic pointers, translation, the checks of an access, and reading and writing each space
(R15-R21, R125, R297-R315, R494).
-/
namespace Sys2Proof.Machine

/-- An address space and the place in it (R15). -/
inductive Space where
  | dev (va : Nat)
  | spad (off : Nat)
  | acc (off : Nat)
  | rspad (core off : Nat)
  | peer (dev va : Nat)
  | host (a : Nat)
  deriving DecidableEq, Repr

/-- What an access does at its address (R314). -/
inductive AccKind where
  | fetch | load | store | atomic
  deriving DecidableEq, Repr

/-- On whose behalf an access is made: the context, its privilege and XSPACE when it issued. -/
structure Who where
  ctx    : Nat
  sv     : Bool
  xspace : Word
  deriving DecidableEq, Repr

def whoMe (s : State) : Who := ⟨s.cur, (me s).sv, getCr s crXspace⟩

/-- Effective address of `[gA+gB+OFF]` (R17). g0 as B adds 0, since it reads zero. -/
def effAddr (a b : Word) (off : BitVec 19) : Word := a + b + off.signExtend 64

/-- The space of a pointer; none where R16 raises ADDR_SPACE. -/
def decodePtr (p : Word) : Option Space :=
  let n := p.toNat
  match n / 2 ^ 60 with
  | 0 => if bitsOf n 59 56 ≥ 4 then none else some (.dev (n % 2 ^ 56))
  | 1 => if bitsOf n 59 22 ≠ 0 then none else some (.spad (n % 2 ^ 22))
  | 2 => if bitsOf n 59 19 ≠ 0 then none else some (.acc (n % 2 ^ 19))
  | 3 => if bitsOf n 59 59 ≠ 0 ∨ bitsOf n 51 22 ≠ 0 then none else some (.rspad (bitsOf n 58 52) (n % 2 ^ 22))
  | 4 => if bitsOf n 49 48 ≠ 0 then none else some (.peer (bitsOf n 59 50) (n % 2 ^ 48))
  | 5 => if bitsOf n 59 56 ≠ 0 then none else some (.host (n % 2 ^ 56))
  | _ => none

/-! ## Scratchpad mapping (R297) -/

/-- The place of offset `a` under SPMAP.G: bank, row and byte as one number. -/
def spadLoc (g a : Nat) : Nat :=
  let n := 2 ^ g
  let sz := 4194304 / n
  let k := 32 / n
  let i := a / sz
  let o := a % sz
  let bank := i * k + (o / 64) % k
  let row := o / (64 * k)
  (bank * 2048 + row) * 64 + a % 64

/-! ## Check codes (R298, R309) -/

/-- The 8-byte unit of the scratchpad that offset `a` lies in, by its bank, row and byte. -/
def spadUnit (g a : Nat) : Nat := spadLoc g (8 * (a / 8)) / 8

/-- The units of n bytes from an offset. -/
def spadUnits (g off n : Nat) : List Nat :=
  (List.range ((off + n + 7) / 8 - off / 8)).map (fun i => spadUnit g (8 * (off / 8 + i)))

/-- An uncorrectable error among the bytes of a place that are read (R298, R309). -/
def locBad (s : State) (l : Loc) (n : Nat) : Bool :=
  match l with
  | .mem pa => s.badHbm.any (fun ln => decide (64 * ln < pa + n) && decide (pa < 64 * ln + 64))
  | .spad k off =>
    let q := getCore s k
    !q.badSpad.isEmpty && (spadUnits q.spmapG off n).any (fun u => q.badSpad.contains u)
  | _ => false

/-- The lowest of n bytes of core k's scratchpad that reads with an uncorrectable error. -/
def firstBad (s : State) (k off n : Nat) : Option Nat :=
  if (getCore s k).badSpad.isEmpty then none
  else ((List.range n).map (fun i => off + i)).find? (fun a => locBad s (.spad k a) 1)

/-! ## Translation (R310-R315) -/

def hbmBytes : Nat := 768 * 2 ^ 30

/-- The home die of a physical address (R305). -/
def homeDie (pa : Nat) : Nat := pa / 0x3000000000

/-- The stack, pseudo-channel and granule row of a physical address (R305). -/
def hbmHome (pa : Nat) : Nat × Nat × Nat :=
  let d := pa / 0x3000000000
  let g := (pa % 0x3000000000) / 4096
  let w := g / 384
  let h := ((w ^^^ (w / 512)) ^^^ (w / 262144)) % 512 % 384
  let c := (g % 384 + h) % 384
  (2 * d + c / 192, c % 192, w)

def stackOfPa (pa : Nat) : Nat := (hbmHome pa).1

/-- Firmware withholds the granule, or its whole stack (R306, R540). -/
def withheldPa (s : State) (pa : Nat) : Bool :=
  s.withheld.any (fun r => decide (r.1 ≤ pa / 4096) && decide (pa / 4096 < r.1 + r.2))
  || s.stacksOut.getLsbD (stackOfPa pa)

/-- The leaf size of (level, SPAN) (R310); 0 where no such leaf exists. -/
def leafSize (lv span : Nat) : Nat :=
  match lv with
  | 2 => if span = 0 then 2 ^ 30 else if span = 1 then 2 ^ 34 else 0
  | 1 => 2 ^ 21 * 4 ^ span
  | 0 => 2 ^ 12 * 4 ^ span
  | _ => 0

/-- A table entry that R312 calls malformed. -/
def pteMalformed (s : State) (pte lv : Nat) : Bool :=
  let leaf := pte.testBit 1
  let span := bitsOf pte 11 10
  let ppn := bitsOf pte 39 12
  bitsOf pte 63 40 != 0 || bitsOf pte 9 6 != 0
  || (leaf && lv ≥ 3) || (!leaf && lv == 0)
  || (!leaf && (span != 0 || bitsOf pte 5 2 != 0))
  || (lv == 2 && span ≥ 2)
  || (leaf && leafSize lv span != 0 && (ppn * 4096) % leafSize lv span != 0)
  || (pte.testBit 3 && !pte.testBit 2)
  || decide (ppn * 4096 ≥ hbmBytes) || withheldPa s (ppn * 4096)

/-- The walk of R312 from level `lv - 1` down: the leaf found as a translation, or PAGE_FAULT; an entry that reads with
an uncorrectable error raises that at whoever needs the translation (R309). Only what entries name is tested: a root
table at or above 768 * 2^30 or in a withheld granule is read all the same (DESIGN CHOICE, log 117). -/
def walk (s : State) (asid va : Nat) : (lv : Nat) → (table : Nat) → Except Nat TlbEntry
  | 0, _ => .error cPage
  | lv + 1, table =>
    let idx := if lv = 4 then bitsOf va 55 48 else (va / 2 ^ (12 + 9 * lv)) % 512
    let pte := memReadLe s.hbm (table + 8 * idx) 8
    if locBad s (.mem (table + 8 * idx)) 8 then .error cEcc
    else if !pte.testBit 0 || pteMalformed s pte lv then .error cPage
    else if pte.testBit 1 then
      let size := leafSize lv (bitsOf pte 11 10)
      .ok { asid := asid, va := va / size * size, size := size, pa := bitsOf pte 39 12 * 4096,
             u := pte.testBit 5, x := pte.testBit 4, w := pte.testBit 3, r := pte.testBit 2 }
    else walk s asid va lv (bitsOf pte 39 12 * 4096)

def tlbHit (l : List TlbEntry) (asid va : Nat) : Option TlbEntry :=
  l.find? (fun e => e.asid == asid && decide (e.va ≤ va) && decide (va < e.va + e.size))

/-- The core's cache, then the die's, then a walk (R315). -/
def lookupLeaf (s : State) (core die asid root va : Nat) : Except Nat TlbEntry :=
  match tlbHit (getCore s core).tlb asid va with
  | some e => .ok e
  | none =>
    match tlbHit (getDie s die).tlb asid va with
    | some e => .ok e
    | none => walk s asid va 5 root

/-- A leaf entered in both caches, the oldest entry leaving a full one (log 7). -/
def fillTlb (s : State) (core die : Nat) (e : TlbEntry) : State :=
  let s1 := if (tlbHit (getCore s core).tlb e.asid e.va).isSome then s
    else modCore s core (fun k => { k with tlb := (e :: k.tlb).take 128 })
  if (tlbHit (getDie s1 die).tlb e.asid e.va).isSome then s1
  else modDie s1 die (fun d => { d with tlb := (e :: d.tlb).take 16384 })

/-- The rights of R314. -/
def leafAllows (e : TlbEntry) (sv : Bool) (kind : AccKind) : Bool :=
  (sv || e.u) &&
  match kind with
  | .fetch => e.x
  | .load => e.r
  | .store => e.w
  | .atomic => e.r && e.w

/-- Translation of a DEV address for the core's context or engine: the physical address, or the cause. -/
def translate (s : State) (w : Who) (va : Nat) (kind : AccKind) : Except Nat (Nat × State) :=
  let core := coreOfCtx w.ctx
  let die := dieOfCtx w.ctx
  match lookupLeaf s core die (xspaceAsid w.xspace) (xspaceRoot w.xspace) va with
  | .error c => .error c
  | .ok e =>
    if !leafAllows e w.sv kind then .error cAccess
    else
      let pa := e.pa + (va - e.va)
      if withheldPa s pa then .error cPage
      else .ok (pa, fillTlb s core die e)

/-! ## Windows (R299, R303, R490) -/

/-- Offsets a .. a+n-1 lie in the context's scratchpad window (R299). A command tests each unit with the registers as
they stand when it performs the unit, also after a CWR has changed them (DESIGN CHOICE, log 118). -/
def inSpadWindow (s : State) (c a n : Nat) : Bool :=
  decide ((ctxCr (getCtx s c) crSpBase).toNat ≤ a) && decide (a + n ≤ (ctxCr (getCtx s c) crSpLimit).toNat)

/-- Offsets a .. a+n-1 of core k lie in the window of the context's cohort there (R299). -/
def inCohortWindow (s : State) (c k a n : Nat) : Bool :=
  match cohortOf s c with
  | some h =>
    match seatOn h k with
    | some t => decide (4096 * t.page ≤ a) && decide (a + n ≤ 4096 * t.page + 4096 * lrSpadPg h.lrec)
    | none => false
  | none => false

/-- Entries e .. e+n-1 of the context's core may be reached by the context (R303, R490). In supervisor mode it reaches
every entry of its core, also in a window of another cohort that is kept in place (DEDUCED, log 84). -/
def accAllowed (s : State) (w : Who) (e n : Nat) : Bool :=
  let k := getCore s (coreOfCtx w.ctx)
  let coh := (getCtx s w.ctx).coh
  let inside (b sz : Nat) : Bool := decide (b ≤ e) && decide (e + n ≤ b + sz)
  w.sv || (coh.isSome && (k.parts.any (fun kv => some kv.2.coh == coh && inside kv.2.abase kv.2.asize)
    || k.kept.any (fun kw => some kw.coh == coh && inside kw.abase kw.asize)))

/-- An RSPAD access to core k (R20, R299). -/
def rspadAllowed (s : State) (w : Who) (k a n : Nat) : Bool :=
  if (getCore s k).out then false
  else if k = coreOfCtx w.ctx then inSpadWindow s w.ctx a n
  else w.sv || inCohortWindow s w.ctx k a n

/-! ## The checks of R125 -/

/-- Steps 3 and 4 for a pointer already decoded: the place of the access, or the cause. -/
def locate (s : State) (w : Who) (sp : Space) (n : Nat) (kind : AccKind) : Except Nat (Loc × State) :=
  match sp with
  | .spad off => if inSpadWindow s w.ctx off n then .ok (.spad (coreOfCtx w.ctx) off, s) else .error cAccess
  | .rspad k off => if rspadAllowed s w k off n then .ok (.spad k off, s) else .error cAccess
  | .acc off =>
    if n < 4 ∨ (n = 8 ∧ kind = .atomic) then .error cAccess
    else if accAllowed s w (off / 4) ((n + 3) / 4) then .ok (.acc (coreOfCtx w.ctx) off, s)
    else .error cAccess
  | .dev va =>
    match translate s w va kind with
    | .ok (pa, s1) => .ok (.mem pa, s1)
    | .error c => .error c
  | .peer d va => if (tabFind s.routes d).isSome then .ok (.peer d va, s) else .error cAccess
  | .host a => if kind = .atomic then .error cAccess else .ok (.host a, s)

/-- The entry is poisoned, or its check code shows an uncorrectable error, which poisons it at any read (R302). -/
def accPoisoned (q : Core) (e : Nat) : Bool := q.poison.contains e || q.badAcc.contains e

/-- A poisoned entry among those of the place (R304). -/
def locPoisoned (s : State) (l : Loc) (n : Nat) : Bool :=
  match l with
  | .acc k off => (List.range ((n + 3) / 4)).any (fun i => accPoisoned (getCore s k) (off / 4 + i))
  | _ => false

/-- A poisoned entry is read without a fault by a supervisor LD or VLD under EXCTL.PRD (R479). -/
def poisonExempt (s : State) (w : Who) : Bool := w.sv && exctlPrd (getCtx s w.ctx)

/-- Steps 1-5 of R125 for an access of n bytes. `plainLoad` marks the LD and VLD that PRD exempts. -/
def checkAccess (s : State) (w : Who) (p : Word) (n : Nat) (kind : AccKind) (plainLoad : Bool) :
    Except Nat (Loc × State) :=
  match decodePtr p with
  | none => .error cAddrSpace
  | some sp =>
    if p.toNat % n ≠ 0 then .error cAlign
    else match locate s w sp n kind with
      | .error c => .error c
      | .ok (l, s1) =>
        if kind ≠ .store ∧ locPoisoned s l n ∧ ¬ (plainLoad ∧ poisonExempt s w) then .error cPoison
        else .ok (l, s1)

/-! ## Bytes of a place -/

def accEntry (q : Core) (e : Nat) : BitVec 32 := tabGet 0 q.acc e
def accByte (q : Core) (off : Nat) : Byte := (accEntry q (off / 4)).extractLsb' (8 * (off % 4)) 8

/-- One byte of a place (the model's read of one byte of memory). -/
def locByte (s : State) (l : Loc) (i : Nat) : Byte :=
  match l with
  | .mem pa => memRead s.hbm (pa + i)
  | .spad k off => memRead (getCore s k).spad (spadLoc (getCore s k).spmapG (off + i))
  | .acc k off => accByte (getCore s k) (off + i)
  | .host a => memRead s.hostMem (a + i)
  | .peer _ _ => 0

def locBytes (s : State) (l : Loc) (n : Nat) : List Byte := (List.range n).map (locByte s l)
def locRead (s : State) (l : Loc) (n : Nat) : Nat := leNat (locBytes s l n)

/-- Sets of a configuration cache that overlap physical bytes pa .. pa+n-1 leave it (R247). -/
def dropCachedSets (ds : Tab Die) (pa n : Nat) : Tab Die :=
  let keep (e : CachedSet) : Bool := !e.spans.any (fun sp => decide (sp.1 < pa + n) && decide (pa < sp.1 + sp.2))
  ds.map (fun kv => (kv.1, { kv.2 with cfgCache := kv.2.cfgCache.filter keep }))

/-- A write to device memory, which the configuration caches follow. Units rewritten whole lose a check-code
error (log 15). -/
def writeHbm (s : State) (pa : Nat) (bs : List Byte) : State :=
  { s with hbm := memWriteBytes s.hbm pa bs,
           dies := dropCachedSets s.dies pa bs.length,
           badHbm := s.badHbm.filter (fun l => !(decide (pa ≤ 64 * l) && decide (64 * l + 64 ≤ pa + bs.length))) }

/-- Bytes written at consecutive scratchpad offsets. -/
def spadWriteGo (g : Nat) : Mem → Nat → List Byte → Mem
  | m, _, [] => m
  | m, off, b :: bs => spadWriteGo g (memWrite m (spadLoc g off) b) (off + 1) bs

def writeSpad (s : State) (k off : Nat) (bs : List Byte) : State :=
  modCore s k (fun q => { q with
    spad := spadWriteGo q.spmapG q.spad off bs,
    badSpad := q.badSpad.filter (fun u =>
      !(List.range ((off + bs.length) / 8 - (off + 7) / 8)).any (fun i => spadUnit q.spmapG (8 * ((off + 7) / 8 + i)) == u)) })

/-- Whole entries written from byte offset `off`, clearing their poison bits (R302). -/
def writeAccGo : Tab (BitVec 32) → Nat → List Byte → Tab (BitVec 32)
  | t, e, b0 :: b1 :: b2 :: b3 :: bs =>
    writeAccGo (tabSet 0 t e (BitVec.ofNat 32 (leNat [b0, b1, b2, b3]))) (e + 1) bs
  | t, _, _ => t

def writeAcc (s : State) (k off : Nat) (bs : List Byte) : State :=
  modCore s k (fun q => { q with
    acc := writeAccGo q.acc (off / 4) bs,
    poison := q.poison.filter (fun e => !(decide (off / 4 ≤ e) && decide (e < off / 4 + bs.length / 4)))
    badAcc := q.badAcc.filter (fun e => !(decide (off / 4 ≤ e) && decide (e < off / 4 + bs.length / 4))) })

/-- Bytes written at a place. PEER places are written through requests, not here. -/
def locWrite (s : State) (l : Loc) (bs : List Byte) : State :=
  match l with
  | .mem pa => writeHbm s pa bs
  | .spad k off => writeSpad s k off bs
  | .acc k off => writeAcc s k off bs
  | .host a => { s with hostMem := memWriteBytes s.hostMem a bs }
  | .peer _ _ => s

/-- Whether the place is in this core's own memory, which answers without a later STORE_PERFORMED. -/
def locOwn (s : State) (l : Loc) : Bool :=
  match l with
  | .spad k _ => k == myCore s
  | .acc _ _ => true
  | _ => false

/-- An access that SPCFG holds back until the new grouping is in force (R301). -/
def spadHeld (s : State) (l : Loc) : Bool :=
  match l with
  | .spad k _ => !(getCore s k).spcfgs.isEmpty
  | _ => false
/-- The context's core has an SPCFG that waits. -/
def coreHeld (s : State) (c : Nat) : Bool := !(getCore s (coreOfCtx c)).spcfgs.isEmpty

/-! ## Data breakpoints (R494) -/

/-- Some byte of the access matches data breakpoint n of the context. -/
def dataMatch (x : Ctx) (p : Word) (size : Nat) (reads writes : Bool) (n : Nat) : Bool :=
  let bpc := (ctxCr x (crBpc n)).toNat
  let m := bitsOf bpc 8 3
  let kind := bitsOf bpc 2 1
  bpc.testBit 0
  && ((kind == 1 && reads) || (kind == 2 && writes) || (kind == 3 && (reads || writes)))
  && (List.range size).any (fun i =>
    (p + BitVec.ofNat 64 i).toNat / 2 ^ m == (ctxCr x (crBpa n)).toNat / 2 ^ m)

/-- The data breakpoint an access meets, if any; none while SKIP1 is set. -/
def dataBreak (x : Ctx) (p : Word) (size : Nat) (reads writes : Bool) : Option Nat :=
  if dbgSkip1 x then none
  else [0, 1, 2, 3].find? (dataMatch x p size reads writes)

/-- A fetch match (R494). -/
def fetchBreak (x : Ctx) : Option Nat :=
  if dbgSkip1 x then none
  else [0, 1, 2, 3].find? (fun n =>
    let bpc := (ctxCr x (crBpc n)).toNat
    let m := bitsOf bpc 8 3
    bpc.testBit 0 && bitsOf bpc 2 1 == 0 && x.pc.toNat / 2 ^ m == (ctxCr x (crBpa n)).toNat / 2 ^ m)

end Sys2Proof.Machine
end

