-- ==== Sys2Proof/Machine/Engines.lean ====
section
/-!
DEFINITION. What engines do to the state around their commands: counters, fault queues, reply slots, and what
discarding a context's commands takes away (R178, R222, R225, R273, R410, R474, R481).
-/
namespace Sys2Proof.Machine

/-! ## The fault queue (R474) -/

/-- The cohort a record belongs to. -/
def recCohort (s : State) (r : FaultRec) : Option Nat := (getCtx s r.ctx).coh

/-- A record arrives at core k's queue; a full queue drops it and sets the cohort's LOST flag. -/
def pushFault (s : State) (k : Nat) (r : FaultRec) : State :=
  let q := getCore s k
  if q.faultq.length < 64 then putCore s k { q with faultq := q.faultq ++ [r] }
  else match recCohort s r with
    | some h => putCore s k { q with lost := h :: q.lost.filter (fun x => x != h) }
    | none => s

/-! ## Counters (R178) -/

def markFaulted (s : State) (k i : Nat) : State :=
  putCounter s k i { getCounter s k i with faulted := true }

/-- A contribution added at issue: none where it would pass 2^40 - 1 (R178). -/
def counterAdd (s : State) (k i n : Nat) : Option State :=
  let v := (getCounter s k i).value + n
  if v < counterMax then some (putCounter s k i { getCounter s k i with value := v }) else none

/-- An engine's subtraction for a command of context `ctx`; below zero it underflows (R178). -/
def counterSub (s : State) (k i n ctx : Nat) (pc : Word) : State :=
  let x := getCounter s k i
  if n ≤ x.value then putCounter s k i { x with value := x.value - n }
  else pushFault (putCounter s k i ⟨0, true⟩) k
    { recBase cUnderflow 8 ctx pc with cnt := some i }

def counterSubOpt (s : State) (k : Nat) (i : Option Nat) (n ctx : Nat) (pc : Word) : State :=
  match i with
  | some j => counterSub s k j n ctx pc
  | none => s

/-! ## Reply slots (R222) -/

def fillSlot (key : Nat) (r : Reply) : List Reply → List Reply
  | [] => []
  | x :: xs => if x = .reserved key then r :: xs else x :: fillSlot key r xs

def fillReply (s : State) (c key : Nat) (r : Reply) : State :=
  modCtx s c (fun x => { x with replies := fillSlot key r x.replies })

def fillReplyOpt (s : State) (c : Nat) (key : Option Nat) (r : Reply) : State :=
  match key with
  | some k => fillReply s c k r
  | none => s

/-- A reserved slot is released (R222, R225). -/
def releaseReply (s : State) (c : Nat) (key : Option Nat) : State :=
  match key with
  | some k => modCtx s c (fun x => { x with replies := x.replies.filter (fun r => r != .reserved k) })
  | none => s

/-- A slot reserved at issue, with a fresh key. -/
def reserveReply (s : State) (c : Nat) : Nat × State :=
  (s.replyKey, modCtx { s with replyKey := s.replyKey + 1 } c
    (fun x => { x with replies := x.replies ++ [.reserved s.replyKey] }))

/-! ## Discarding (R225, R273, R410, R481) -/

def getPart (s : State) (k p : Nat) : Option Part := tabFind (getCore s k).parts p
def putPart (s : State) (k p : Nat) (x : Part) : State := modCore s k (fun q => { q with parts := tabPut q.parts p x })
def getEngine (s : State) (k e : Nat) : CopyEngine := tabGet engineReset (getCore s k).engines e
def putEngine (s : State) (k e : Nat) (x : CopyEngine) : State :=
  modCore s k (fun q => { q with engines := tabPut q.engines e x })

/-- The subtraction of a discarded command: it never marks the counter faulted (R273, R410, R460). -/
def counterDrop (s : State) (k i n : Nat) : State :=
  putCounter s k i { getCounter s k i with value := (getCounter s k i).value - n }

def counterDropOpt (s : State) (k : Nat) (i : Option Nat) (n : Nat) : State :=
  match i with
  | some j => counterDrop s k j n
  | none => s

/-- Each unstarted copy command subtracts its whole contribution and releases its slot (R410). -/
def discardCopies (k : Nat) : State → List CopyCmd → State
  | s, [] => s
  | s, c :: cs => discardCopies k (releaseReply (counterDrop s k c.cnt c.size) c.ctx c.key) cs

/-- The context's unstarted commands on engine e leave it; the number discarded. -/
def flushEngine (s : State) (c e : Nat) : Nat × State :=
  let k := coreOfCtx c
  let g := getEngine s k e
  let q := tabGet [] g.queues c
  (q.length, discardCopies k (putEngine s k e { g with queues := tabErase g.queues c }) q)

/-- Each unstarted pool command subtracts its contribution of 1 (R273). -/
def discardPool (k : Nat) : State → List PoolCmd → State
  | s, [] => s
  | s, c :: cs => discardPool k (counterDropOpt s k c.cnt 1) cs

/-- Commands that settle with a fault: contribution subtracted, counter marked (R178, R481). -/
def abortPool (k : Nat) : State → List PoolCmd → State
  | s, [] => s
  | s, c :: cs =>
    let s1 := counterSubOpt s k c.cnt 1 c.ctx c.pc
    abortPool k (match c.cnt with | some i => markFaulted s1 k i | none => s1) cs

/-- A started copy stands at a chunk boundary (R387). -/
def atChunk (r : CopyRun) : Bool := r.edge && r.unit == 0

/-- The started commands of a terminated context on an engine stop at the end of their chunks: what has not landed is
subtracted and the counter marked faulted (R481, R484). -/
def abortCopies (k c e : Nat) : State → Tab CopyRun → State
  | s, [] => s
  | s, (slot, r) :: rs =>
    if r.cmd.ctx = c ∧ atChunk r ∧ r.peer = none then
      let g := getEngine s k e
      let s1 := putEngine s k e { g with active := tabErase g.active slot }
      let s2 := counterSub s1 k r.cmd.cnt (r.cmd.size - r.landed) c r.cmd.pc
      abortCopies k c e (markFaulted s2 k r.cmd.cnt) rs
    else abortCopies k c e s rs

/-! ### Composed-set slots (R454) -/

def slotReset : Slot := ⟨0, none, []⟩
def getSlot (s : State) (d i : Nat) : Slot := tabGet slotReset (getDie s d).slots i
def putSlot (s : State) (d i : Nat) (x : Slot) : State := modDie s d (fun q => { q with slots := tabPut q.slots i x })
def slotIds : List Nat := List.range 120

/-- A slot is released: its generation advances. -/
def releaseSlot (s : State) (d i : Nat) : State :=
  putSlot s d i ⟨(getSlot s d i).gen + 1, none, []⟩

/-- Slots of a die that a partition holds, named by cohort, core and number. -/
def slotsHeld (s : State) (d : Nat) (holder : Nat × Nat × Nat) : List Nat :=
  slotIds.filter (fun i => (getSlot s d i).held == some holder)

def releaseSlotsOf (s : State) (d : Nat) (holder : Nat × Nat × Nat) : State :=
  (slotsHeld s d holder).foldl (fun t i => releaseSlot t d i) s

/-- Unstarted PLACE commands that leave the composer's queue: contribution subtracted, reply slot released (R460). -/
def discardPlaces (d : Nat) (which : PlaceCmd → Bool) (s : State) : State :=
  let gone := (getDie s d).placeq.filter which
  let s1 := modDie s d (fun q => { q with placeq := q.placeq.filter (fun c => !which c) })
  gone.foldl (fun t c => releaseReply (counterDrop t (coreOfCtx c.ctx) c.cnt 1) c.ctx c.key) s1

/-- A partition is freed: its composed sets are released, its unstarted PLACE commands discarded, and its window waits
to be cleared (R276, R454, R460). -/
def freePartition (s0 : State) (k p : Nat) : State :=
  match getPart s0 k p with
  | some x =>
    let holder := (x.coh, k, p)
    let s := releaseSlotsOf (discardPlaces (dieOfCore k) (fun c => c.holder == holder) s0) (dieOfCore k) holder
    let s1 := modCore s k (fun q => { q with parts := tabErase q.parts p, clearing := q.clearing ++ [(x.abase, x.asize)] })
    modCtx s1 x.ctx (fun y => { y with bind := none })
  | none => s0

def isSweep (c : PoolCmd) : Bool := match c.op with | .sweep _ _ _ _ _ => true | _ => false

/-- The started commands of a partition. -/
def startedPool (x : Part) : List PoolCmd :=
  x.runs.map (fun r => r.cmd)
  ++ (match x.drRun with | some r => [r] | none => [])
  ++ (match x.shadow with | .loading c _ _ => [c] | .ready c _ => [c] | .empty => [])

/-- The commands of a terminated context's partition: the queued ones are discarded, and a started sweep begins no
further fold. -/
def stopPartition (s : State) (k p : Nat) : State :=
  match getPart s k p with
  | some x => discardPool k (putPart s k p { x with
      cfgq := [], opq := [], drq := [], runs := x.runs.map (fun r => { r with halted := true }) })
      (x.cfgq ++ x.opq ++ x.drq)
  | none => s

/-- Every started pool command of a partition has reached its stop point: a fold that had begun has landed, a drain, a
clear, a PSCAN and a PTOPK have completed, and no load reads (R484). A started PLACE goes on without the partition
(R460). -/
def partStill (x : Part) : Bool :=
  x.runs.all (fun r => r.flight.isEmpty && isSweep r.cmd) && x.drRun.isNone
  && (match x.shadow with | .loading _ _ _ => false | _ => true)

/-- A partition that is taken away: its started commands end where they stand. -/
def abortPartition (s : State) (k p : Nat) : State :=
  match getPart s k p with
  | some x => if partStill x then freePartition (abortPool k s (startedPool x)) k p else s
  | none => s

/-- Every barrier of a cohort becomes BROKEN (R481). -/
def breakBarriers (s : State) (h : Nat) : State :=
  match getCohort s h with
  | some x => modDie s (lrHome x.lrec) (fun d => { d with
      barriers := x.bars.foldl (fun t b => tabPut t b { tabGet barrierReset t b with broken := true }) d.barriers })
  | none => s

/-! ## Tensor records (R316-R319) -/

def recPa (s : State) (i : Nat) : Nat := s.ttbase.toNat + 128 * (i % 16384)
def recWord (s : State) (i k : Nat) : Word := BitVec.ofNat 64 (memReadLe s.hbm (recPa s i + 8 * k) 8)
def recAll (s : State) (i : Nat) : List Word := (List.range 16).map (recWord s i)
def setRecWord (s : State) (i k : Nat) (w : Word) : State := writeHbm s (recPa s i + 8 * k) (leBytes 8 w.toNat)
def recBitConv : Nat := 12
def recBitPoisoned : Nat := 11
def setBit (w : Word) (i : Nat) (b : Bool) : Word :=
  if b then w ||| BitVec.ofNat 64 (2 ^ i) else w &&& ~~~ (BitVec.ofNat 64 (2 ^ i))

/-- A conversion is abandoned: POISONED set, CONV clear, what is not done subtracted, the counter faulted (R432). Of a
cohort that is pre-empted the counters are its own saved ones: what they owe is settled when they return. -/
def abandonConv (s : State) (d : Nat) (c : Conv) : State :=
  let s1 := setRecWord s c.rec_ 0 (setBit (setBit (recWord s c.rec_ 0) recBitPoisoned true) recBitConv false)
  let s2 := modDie s1 d (fun x => { x with
    convs := x.convs.filter (fun e => e.rec_ != c.rec_),
    plist := x.plist.filter (fun e => e.1 != c.rec_),
    unit := match x.unit with | some u => if u.1 = c.rec_ then none else some u | none => none })
  let k := coreOfCtx c.ctx
  let n := c.nu - c.done
  match getCohort s2 c.coh with
  | some x =>
    (match x.saved with
     | some v => putCohort s2 c.coh { x with saved := some { v with owed := v.owed ++ [(k, c.cnt, n, c.ctx, c.pc)] } }
     | none => markFaulted (counterSub s2 k c.cnt n c.ctx c.pc) k c.cnt)
  | none => markFaulted (counterSub s2 k c.cnt n c.ctx c.pc) k c.cnt

/-- Every conversion that context c issued is abandoned (R481); those of a pre-empted cohort that held the slot are not
its own. -/
def abandonConvsOf (s : State) (c : Nat) : State :=
  let d := dieOfCtx c
  ((getDie s d).convs.filter (fun e => e.ctx == c && some e.coh == (getCtx s c).coh)).foldl (fun t e => abandonConv t d e) s

/-- Context c is a member of the cohort that has not EXITED. -/
def alive (s : State) (c : Nat) (coh : Option Nat) : Bool :=
  (getCtx s c).coh == coh && (getCtx s c).phase != .exited && (getCtx s c).phase != .free

/-- The target of a record: the context in CTX, or the lowest member on the core that has not EXITED (R476). -/
def asyncTarget (s : State) (r : FaultRec) : Option Nat :=
  let coh := (getCtx s r.ctx).coh
  if alive s r.ctx coh then some r.ctx
  else (ctxsOfCore (coreOfCtx r.ctx)).find? (fun c => coh.isSome && alive s c coh)

/-- Once every member of a cohort on core k has EXITED, its conversions with HELD units are abandoned (R476). -/
def orphanConvs (s : State) (k : Nat) (coh : Option Nat) : State :=
  if (ctxsOfCore k).any (fun c => alive s c coh) then s
  else
    let d := dieOfCore k
    ((getDie s d).convs.filter (fun e => coreOfCtx e.ctx == k && some e.coh == coh && !e.held.isEmpty)).foldl
      (fun t e => abandonConv t d e) s

/-- The conversions of a cohort pause, or go on (R433). What they have in the promotion list stays there (DESIGN CHOICE,
log 99: R433 drops requests made while they pause and does not speak of earlier ones). -/
def pauseConvs (s : State) (h : Nat) (v : Bool) : State :=
  [0, 1, 2, 3].foldl (fun t d => modDie t d (fun q => { q with
    convs := q.convs.map (fun c => if c.coh = h then { c with paused := v } else c) })) s

/-- A cohort all of whose members reach EXITED before its save completes is not stopped any more (R173). -/
def stopLapses (s : State) (coh : Option Nat) : State :=
  match coh with
  | none => s
  | some h =>
    match getCohort s h with
    | some x =>
      if x.st == .stopping && allExited s x then
        pauseConvs (putCohort s h { x with
          st := .placed, takeCores := [], rotated := false, stopReq := false, frames := [] }) h false
      else s
    | none => s

/-- Every die makes a scheduler pass (R171). -/
def passAll (s : State) : State :=
  modDie (modDie (modDie (modDie s 0 (fun d => { d with passDue := true })) 1 (fun d => { d with passDue := true }))
    2 (fun d => { d with passDue := true })) 3 (fun d => { d with passDue := true })

end Sys2Proof.Machine
end

