-- ==== Sys2Proof/Machine/Ops.lean ====
section
/-!
DEFINITION. Taking a trap, termination and the return from a trap (R470-R473, R481), the loop test (R36), retirement,
and the issue of an instruction with the checks of R33 and R34 in their order.
-/
namespace Sys2Proof.Machine

/-! ## Termination of a context (R481) -/

/-- The counters that a context's started commands contribute to. -/
def startedCounters (s : State) (c : Nat) : List Nat :=
  let k := coreOfCtx c
  [0, 1].flatMap (fun e => ((getEngine s k e).active.filter (fun sr => sr.2.cmd.ctx == c)).map (fun sr => sr.2.cmd.cnt))
  ++ (match (getCtx s c).bind.bind (getPart s k) with
    | some x => (startedPool x).filterMap (fun m => m.cnt)
    | none => [])
  ++ (match (getDie s (dieOfCtx c)).placing with
    | some (m, _) => if m.ctx = c then [m.cnt] else []
    | none => [])

/-- The SPCFG that a context waits in is given up, with its hold (R301, R471). -/
def dropSpcfg (s : State) (c : Nat) : State :=
  modCore s (coreOfCtx c) (fun q => { q with spcfgs := q.spcfgs.filter (fun e => e.1 != c) })

/-- The context's SPCFG and its unstarted commands are discarded. Its started ones go on to their stop points, their counters marked
faulted; its conversions are abandoned. -/
def stopAgents (s : State) (c : Nat) : State :=
  let k := coreOfCtx c
  let s1 := (flushEngine (dropSpcfg s c) c 0).2
  let s2 := (flushEngine s1 c 1).2
  let s3 := discardPlaces (dieOfCtx c) (fun e => e.ctx == c) s2
  let s4 := match (getCtx s3 c).bind with
    | some p => stopPartition s3 k p
    | none => s3
  abandonConvsOf ((startedCounters s4 c).foldl (fun t i => markFaulted t k i) s4) c

/-- Some started command of the context has still to stop, its partition to be freed, or an access of it to be
performed (R167, R482). -/
def agentsLeft (s : State) (c : Nat) : Bool :=
  (getCtx s c).bind.isSome || !(getCtx s c).out.isEmpty || s.peers.any (fun kr => kr.2.ctx == c)
  || [0, 1].any (fun e => (getEngine s (coreOfCtx c) e).active.any (fun sr => sr.2.cmd.ctx == c))
  || (match (getDie s (dieOfCtx c)).placing with | some (m, _) => m.ctx == c | none => false)

/-- What has reached its stop point ends, and the partition is freed once all that it had started has (R276, R481,
R484). -/
def endStopped (s : State) (c : Nat) : State :=
  let k := coreOfCtx c
  let s1 := abortCopies k c 0 s (getEngine s k 0).active
  let s2 := abortCopies k c 1 s1 (getEngine s1 k 1).active
  let s3 := match (getCtx s2 c).bind with
    | some p => abortPartition s2 k p
    | none => s2
  modCtx s3 c (fun x => { x with ending := agentsLeft s3 c })

/-- A terminated context: nothing of it is left to issue or to come, but its accesses are still performed (R482). -/
def stoppedCtx (x : Ctx) : Ctx :=
  { x with
    phase := .exited, vq := [], vrun := [], replies := [], loading := [],
    parkEnd := none, baraIn := none, peerWait := none, peerData := none, handleStall := false, haltReq := false }

/-- The Belvedere appends a record to its log of 64 and raises MSI-X vector 0 (R543). The log's NOTE is whether it is
empty. -/
def logTermination (s : State) (r : FaultRec) : State :=
  let s1 := if s.termLog.length < 64 then
      { s with termLog := s.termLog ++ [r], seq := if s.termLog.isEmpty then s.seq + 1 else s.seq }
    else s
  { s1 with msix := s1.msix ++ [0] }

/-- Termination (R481): queues discarded, EXITED, barriers BROKEN, a record in the fault queue and in the log. -/
def terminateCtx (s : State) (c : Nat) (r : FaultRec) : State :=
  let s2 := endStopped (modCtx (stopAgents s c) c stoppedCtx) c
  let s3 := match (getCtx s c).coh with
    | some h => breakBarriers s2 h
    | none => s2
  let rec' := { r with agent := 0, ctx := c }
  let s4 := pushFault s3 (coreOfCtx c) rec'
  let s5 := orphanConvs s4 (coreOfCtx c) (getCtx s c).coh
  let s6 := match (getCtx s c).coh with
    | some h => (match getCohort s5 h with
      | some x => putCohort s5 h { x with termed := c :: x.termed }
      | none => s5)
    | none => s5
  stopLapses (passAll (logTermination s6 rec')) (getCtx s c).coh

/-! ## Traps (R470-R472) -/

/-- FREC0-FREC7 := rec. -/
def setFrec (x : Ctx) (r : FaultRec) : Ctx :=
  (List.range 8).foldl (fun y i => ctxSetCr y (crFrec i) ((recWords r).getD i 0)) x

/-- The address in an ADDR register such as TVEC or EPC (R501). -/
def addrField (w : Word) : Word := w &&& 0x00FFFFFFFFFFFFF8#64

/-- The registers of a context that enters its handler (R470): the return address is saved in EPC, MODE.SV in
ESTAT.PSV, INH and MODE.SV are set, FREC0-7 hold the record, SKIP1 clears, PC is the handler. The entry acts as a FENCE of
all classes at scope CTX (R353). -/
def enterHandler (x : Ctx) (r : FaultRec) (ret : Word) : Ctx :=
  let y1 := ctxSetCr x crEpc (addrField ret)
  let y2 := ctxSetCr y1 crEstat (2#64 ||| (if x.sv then 1#64 else 0#64))
  let y3 := clearSkip1 (setFrec y2 r)
  { y3 with sv := true, pc := addrField (ctxCr x crTvec), phase := .running, handleStall := false,
            peerWait := none, peerData := none, out := fenceOut true 15 x.out }

/-- take_trap (R470) for context c with return address `ret` (R471). -/
def takeTrap (s : State) (c : Nat) (r : FaultRec) (ret : Word) : State :=
  let x := getCtx s c
  if estatInh x || addrField (ctxCr x crTvec) == 0 then terminateCtx s c r
  else putCtx s c (enterHandler x r ret)

/-- A halt by a breakpoint or step match under DBGCTL.BPH (R483): FREC filled, PC at the return address. -/
def haltMatch (s : State) (c : Nat) (r : FaultRec) (ret : Word) : State :=
  modCtx s c (fun x => { clearSkip1 (setFrec x r) with phase := .halted, haltReq := false, handleStall := false, pc := ret })

/-- A precise fault of context c (R469, R471): a match halts in place of trapping when BPH is set. -/
def raiseFault (s : State) (c : Nat) (r : FaultRec) (ret : Word) : State :=
  if r.cause = cBreak ∧ r.info0.toNat % 16 ≠ 0 ∧ dbgBph (getCtx s c) then haltMatch s c r ret
  else takeTrap s c r ret

/-- ERET (R472): MODE.SV := ESTAT.PSV, ESTAT.INH := 0; the target is EPC.ADDR * 8. It acts as a FENCE of all classes at
scope CTX (R353). -/
def eretCtx (x : Ctx) : Ctx :=
  { ctxSetCr x crEstat (ctxCr x crEstat &&& ~~~ 2#64) with sv := estatPsv x, out := fenceOut true 15 x.out }
def eretTarget (x : Ctx) : Word := addrField (ctxCr x crEpc)

/-! ## The loop test (R36) -/

def loopAct (x : Ctx) (n : Nat) : Bool := (ctxCr x crLpctl).getLsbD n

/-- The test of loop n at the retiring address `a`: the return to the body, or the context with the loop ended or
not concerned. -/
def loopTestOne (x : Ctx) (a : Word) (n : Nat) : Option Word × Ctx :=
  if loopAct x n ∧ a = ctxCr x (crLpend n) then
    if (ctxCr x (crLpcount n)).toNat > 1 then
      (some (ctxCr x (crLpstart n)), ctxSetCr x (crLpcount n) (ctxCr x (crLpcount n) - 1))
    else
      (none, ctxSetCr (ctxSetCr x (crLpcount n) 0) crLpctl (setBit (ctxCr x crLpctl) n false))
  else (none, x)

/-- Loop 0 first, then loop 1 (R36). -/
def loopTest (x : Ctx) (a next : Word) : Word × Ctx :=
  match loopTestOne x a 0 with
  | (some t, y) => (t, y)
  | (none, y) =>
    match loopTestOne y a 1 with
    | (some t, z) => (t, z)
    | (none, z) => (next, z)

/-! ## Retirement -/

/-- What the body of an instruction answers. -/
inductive Exe where
  /-- executed; the next instruction follows -/
  | retire (s : State)
  /-- a taken transfer (R121), with the change of CDEPTH (R495) -/
  | jump (s : State) (target : Word) (depth : BitVec 32)
  /-- not performed; the context tries again -/
  | stall (s : State)
  /-- a precise fault; `s` is the state without the instruction, but for what the rule of the fault keeps -/
  | fault (r : FaultRec) (s : State)
  /-- retires and then traps (R148) -/
  | retireTrap (s : State) (r : FaultRec)
  deriving Repr

/-- RETIRED + 1, PC, SKIP1 of an instruction that retires (R33, R494). `skip`: SKIP1 was set when it issued. -/
def retireCtx (skip : Bool) (x : Ctx) (next : Word) : Ctx :=
  let y := ctxSetCr x crRetired (ctxCr x crRetired + 1)
  { (if skip then clearSkip1 y else y) with
    pc := next, handleStall := false, peerData := none }

/-- The step trap after a retirement (R495), decided by DBGCTL and ESTAT as they stood before the instruction. -/
def stepDue (before after : Ctx) : Bool :=
  dbgSs before && !estatInh before
  && (!dbgSo before
    || decide ((BitVec.setWidth 32 (ctxCr after crCdepth)).toInt ≤ (BitVec.setWidth 32 (ctxCr before crStepdep)).toInt))

/-- After a retirement of context c: the step trap of R495 if it is due. A context that has EXITED takes none; one that
the instruction HALTED halts at its handler's first instruction (R473). -/
def afterRetire (before : Ctx) (c : Nat) (s : State) : State :=
  let x := getCtx s c
  if stepDue before x && x.phase != .exited then
    let t := raiseFault s c { recBase cBreak 0 c before.pc with info0 := 3 } x.pc
    if x.phase == .halted then modCtx t c (fun y => if y.phase == .running then { y with phase := .halted } else y)
    else t
  else s

/-- Retirement of context c's instruction at its PC, `len` bytes long, not redirected. A context that its own PREEMPT
has freed has no more state (R482, R499). -/
def retireNext (before : Ctx) (c len : Nat) (s : State) : State :=
  let x := getCtx s c
  let t := loopTest x x.pc (x.pc + BitVec.ofNat 64 len)
  if x.phase = .free then s
  else afterRetire before c (putCtx s c (retireCtx (dbgSkip1 before) t.2 t.1))

/-- Retirement of a taken transfer: no loop test (R33, R37). -/
def retireJump (before : Ctx) (c : Nat) (target : Word) (depth : BitVec 32) (s : State) : State :=
  let x := getCtx s c
  let y := if depth = 0 then x
    else ctxSetCr x crCdepth (BitVec.setWidth 64 (BitVec.setWidth 32 (ctxCr x crCdepth) + depth))
  afterRetire before c (putCtx s c (retireCtx (dbgSkip1 before) y target))

/-- The state an instruction's answer gives. -/
def settle (before : State) (len : Nat) (e : Exe) : State :=
  let c := before.cur
  let x := me before
  match e with
  | .retire s => retireNext x c len s
  | .jump s t d => retireJump x c t d s
  | .stall s => s
  | .fault r s => if r.cause = 0 then before else raiseFault s c r x.pc
  | .retireTrap s r =>
    let y := getCtx s c
    let t := loopTest y y.pc (y.pc + BitVec.ofNat 64 len)
    takeTrap (putCtx s c (retireCtx (dbgSkip1 x) t.2 t.1)) c r t.1

/-! ## Issue (R33, R34, R44) -/

/-- General registers that queued or started vector instructions will write (R192). -/
def vecDest (i : Instr) : Option Nat :=
  match i with
  | .vred _ d _ _ _ _ => some d.toNat
  | .mpopc _ d _ => some d.toNat
  | .vmovLaneToGeneral _ d _ _ => some d.toNat
  | .vmovMaskToGeneral _ d _ => some d.toNat
  | _ => none

def vecPending (x : Ctx) (r : Nat) : Bool :=
  r != 0 && (x.vq.any (fun e => vecDest e.instr == some r) || x.vrun.any (fun e => vecDest e.instr == some r))

/-- The context waits for an instruction of its own that has issued and not retired: a fault-capable vector
instruction (R193), or a BARA whose arrival is on its way (R184). -/
def ctxBlocked (x : Ctx) : Bool := x.vq.any (fun e => e.blocks) || x.baraIn.isSome

/-- No source awaits a result, and no destination awaits a vector result (R35, R192; log 17). -/
def operandsReady (x : Ctx) (srcs dsts : List (BitVec 6)) : Bool :=
  srcs.all (fun r => !(x.loading.contains r.toNat) && !vecPending x r.toNat)
  && dsts.all (fun r => !vecPending x r.toNat)

/-- The wait field (R33, R44, R177): `none` when satisfied. A counter that is faulted and that the cohort does not own
raises ACCESS (DESIGN CHOICE, log 115: the spec gives the two faults no order). -/
def waitField (s : State) (h : Hdr) : Option Exe :=
  if !h.wten then none
  else if !ownsCounter s s.cur h.wtcnt.toNat then some (.fault (recOf s cAccess (me s).pc) s)
  else
    let c := getCounter s (myCore s) h.wtcnt.toNat
    if c.faulted then some (.fault (recOf s cEngine (me s).pc) s)
    else if c.value ≠ 0 then some (.stall s)
    else none

/-- The guard (R33). -/
def guardRuns (s : State) (h : Hdr) : Bool := rp s h.pred != h.sense

/-- One issue: privilege, wait field, operand readiness, guard, body (R34). -/
def issueExe (h : Hdr) (priv : Bool) (srcs dsts : List (BitVec 6)) (body : State → Exe) (s : State) : Exe :=
  if ctxBlocked (me s) then .stall s
  else if priv && !(me s).sv then .fault (recOf s cPriv (me s).pc) s
  else match waitField s h with
    | some e => e
    | none =>
      if !operandsReady (me s) srcs dsts then .stall s
      else if !guardRuns s h then .retire s
      else body s

/-- The step of the executing context for an instruction of `len` bytes. -/
def issue (h : Hdr) (len : Nat) (priv : Bool) (srcs dsts : List (BitVec 6)) (body : State → Exe) (s : State) :
    Host.Outcome State Fault Refusal :=
  .next (settle s len (issueExe h priv srcs dsts body s))

/-- An instruction of one word at either privilege. -/
def issue1 (h : Hdr) (srcs dsts : List (BitVec 6)) (body : State → Exe) (s : State) :
    Host.Outcome State Fault Refusal := issue h 8 false srcs dsts body s

/-- A body that writes one general register and retires. -/
def writes (d : BitVec 6) (f : State → Word) (s : State) : Exe := .retire (wg s d (f s))

/-- The state with context c as the executing one, for a step made on its behalf. -/
def asCtx (s : State) (c : Nat) (f : State → State) : State := { f { s with cur := c } with cur := s.cur }

/-- A precise fault with an address, without effect. -/
def faultAt (s : State) (cause : Nat) (addr : Word) : Exe := .fault (recOf s cause addr) s

end Sys2Proof.Machine
end

