-- ==== Sys2Proof/Machine/Operands.lean ====
section
/-!
DEFINITION. Operand forms shared by the instructions: immediates, conditions, bit fields, format and rounding
fields (R17, R87, R110-R118, R135).
-/
namespace Sys2Proof.Machine

/-- A 32-bit immediate, sign-extended or zero-extended (R115). -/
def immS (i : BitVec 32) : Word := i.signExtend 64
def immZ (i : BitVec 32) : Word := i.setWidth 64

/-- Integer conditions (R116). -/
def condInt (cc : Nat) (w : Nat) (a b : BitVec w) : Bool :=
  match cc with
  | 0 => a == b
  | 1 => a != b
  | 2 => decide (a.toInt < b.toInt)
  | 3 => decide (a.toInt ≥ b.toInt)
  | 4 => decide (a.toNat < b.toNat)
  | 5 => decide (a.toNat ≥ b.toNat)
  | 6 => decide (a.toInt > b.toInt)
  | 7 => decide (a.toInt ≤ b.toInt)
  | 8 => decide (a.toNat > b.toNat)
  | _ => decide (a.toNat ≤ b.toNat)

/-- The width a size field selects (R110). -/
def sizeBits (sz : BitVec 2) : Nat := 8 * 2 ^ sz.toNat

/-- Set bits among bits 0 .. n-1. -/
def popcount (n x : Nat) : Nat := (List.range n).foldl (fun acc i => if x.testBit i then acc + 1 else acc) 0

/-- Leading zeros within n bits (R110). -/
def clzBits (n x : Nat) : Nat := let y := x % 2 ^ n; if y = 0 then n else n - 1 - Nat.log2 y

/-- The index of the lowest set bit below n, or n. -/
def ctzBits (n x : Nat) : Nat := ((List.range n).find? (fun i => x.testBit i)).getD n

/-- The low n bits in reverse order. -/
def reverseBits (n x : Nat) : Nat :=
  (List.range n).foldl (fun acc i => if x.testBit i then acc + 2 ^ (n - 1 - i) else acc) 0

/-- The low n bytes in reverse order. -/
def reverseBytes (n x : Nat) : Nat := leNat (leBytes n x).reverse

/-- Bits pos+len-1 .. pos of b replaced by the low len bits of a (R111). -/
def insertField (a b pos len : Nat) : Nat :=
  b - (bitsOf b (pos + len - 1) pos) * 2 ^ pos + (a % 2 ^ len) * 2 ^ pos

def w64 (n : Nat) : Word := BitVec.ofNat 64 n
def wInt (i : Int) : Word := BitVec.ofInt 64 i
def wBool (b : Bool) : Word := if b then 1 else 0

/-- The IEEE format of a 2-bit field: 0x10 + f (R135). -/
def ieeeCode (f : BitVec 2) : Nat := 0x10 + f.toNat

/-- The rounding mode of RMEN and RM, or FPCTL.RM (R135). -/
def rmCode (x : Ctx) (rm : BitVec 4) : Nat := if rm.getLsbD 3 then rm.toNat % 8 else fpctlRm x

/-- The low bits of a register that a format reads (R11). -/
def lowBits (w : Word) (n : Nat) : Nat := w.toNat % 2 ^ n

end Sys2Proof.Machine
end

