-- ==== Sys2Proof/Machine/Flags.lean ====
section
/-!
DEFINITION. FPSTAT: the sticky flags and the counts (R102-R104), and the flag trap (R106).
-/
namespace Sys2Proof.Machine

/-- A count that stays at all ones (R103). -/
def satAdd (bits a n : Nat) : Nat := if a + n ≥ 2 ^ bits then 2 ^ bits - 1 else a + n

/-- FPSTAT after an instruction that raised `e` (R102, R103). -/
def fpstatAfter (w : Word) (e : Exc) : Word :=
  let n := w.toNat
  let flags := (n % 32) ||| e.flags.toNat
  w64 (flags + satAdd 8 (bitsOf n 31 24) e.bsov * 2 ^ 24 + satAdd 16 (bitsOf n 47 32) e.sat * 2 ^ 32
    + satAdd 16 (bitsOf n 63 48) e.nanr * 2 ^ 48)

def applyExc (x : Ctx) (e : Exc) : Ctx := ctxSetCr x crFpstat (fpstatAfter (ctxCr x crFpstat) e)

/-- Some raised flag is enabled in FPCTL (R106). -/
def flagTraps (x : Ctx) (e : Exc) : Bool := (e.flags &&& fpctlEnables x) != 0

/-- The record of a flag trap: the flags in bits 4:0 of the address field (R106). -/
def flagRec (s : State) (flags : BitVec 5) : FaultRec := recOf s cArith (flags.setWidth 64)

/-- A scalar result with its exceptions: trap, or register and FPSTAT (R103, R106). -/
def fpWrites (d : BitVec 6) (f : State → Nat × Exc) (s : State) : Exe :=
  let r := f s
  if flagTraps (me s) r.2 then .fault (flagRec s r.2.flags) s
  else .retire (wg (setMe s (applyExc (me s) r.2)) d (w64 r.1))

/-- The same with a predicate result (R139). -/
def fpWritesP (d : BitVec 3) (f : State → Bool × Exc) (s : State) : Exe :=
  let r := f s
  if flagTraps (me s) r.2 then .fault (flagRec s r.2.flags) s
  else .retire (wp (setMe s (applyExc (me s) r.2)) d r.1)

end Sys2Proof.Machine
end

