-- ==== Sys2Proof/Machine/Tensor.lean ====
section
/-!
DEFINITION. Tensor records, the place of an element in every layout, and its conversion unit (R316-R324, R365-R370,
R417, R424).
-/
namespace Sys2Proof.Machine

/-! ## Fields of a record (R318, R319) -/

def tw (r : List Word) (k : Nat) : Nat := (r.getD k 0).toNat
def tGen (r : List Word) : Nat := bitsOf (tw r 0) 63 46
def tFmt (r : List Word) : Nat := bitsOf (tw r 0) 39 32
def tLayout (r : List Word) : Nat := bitsOf (tw r 0) 31 24
def tRank (r : List Word) : Nat := bitsOf (tw r 0) 23 21
def tRnd (r : List Word) : Nat := bitsOf (tw r 0) 20 18
def tConv (r : List Word) : Bool := (tw r 0).testBit 12
def tPoisoned (r : List Word) : Bool := (tw r 0).testBit 11
def tRo (r : List Word) : Bool := (tw r 0).testBit 10
def tCarry (r : List Word) : Bool := (tw r 0).testBit 9
def tValid (r : List Word) : Bool := (tw r 0).testBit 8
def tAsid (r : List Word) : Nat := bitsOf (tw r 1) 63 48
def tTsh1 (r : List Word) : Nat := bitsOf (tw r 1) 7 4
def tTsh0 (r : List Word) : Nat := bitsOf (tw r 1) 3 0
def tExtRaw (r : List Word) (i : Nat) : Nat :=
  match i with
  | 0 => bitsOf (tw r 2) 31 0
  | 1 => bitsOf (tw r 2) 63 32
  | 2 => bitsOf (tw r 3) 20 0
  | 3 => bitsOf (tw r 3) 41 21
  | 4 => bitsOf (tw r 3) 62 42
  | _ => 0
/-- The extent, 1 at and above RANK (R321). -/
def tExt (r : List Word) (i : Nat) : Nat := if i < tRank r then tExtRaw r i else 1
def tPitch (r : List Word) (i : Nat) : Nat := bitsOf (tw r (3 + i)) 47 0
def tBase (r : List Word) : Word := r.getD 8 0
def tAuxBase (r : List Word) : Word := r.getD 9 0
def tAuxPitch (r : List Word) : Nat := bitsOf (tw r 10) 47 0
def tConvPtr (r : List Word) : Word := r.getD 11 0
def tBandBase (r : List Word) : Word := r.getD 12 0

def layRow : Nat := 0x01
def layCol : Nat := 0x02
def layTile : Nat := 0x10
def laySwz : Nat := 0x11
def layMx : Nat := 0x20
def layLb8 : Nat := 0x21
def layBm : Nat := 0x30
def layN24 : Nat := 0x31
def isSparse (r : List Word) : Bool := tLayout r == layBm || tLayout r == layN24
def isTile (r : List Word) : Bool := tLayout r == layTile || tLayout r == laySwz
def isBlockLay (r : List Word) : Bool := tLayout r == layMx || tLayout r == layLb8

/-- Element width in bits. -/
def tBits (r : List Word) : Nat := fmtWidth (tFmt r)
/-- Block size of a block layout (R322). -/
def tBlock (r : List Word) : Nat := if tLayout r = layLb8 then 8 else 32

/-! ## Sparse slots (R365, R368, R369) -/

/-- Positions of a fibre-fold. -/
def slotDepth (r : List Word) : Nat := if tLayout r = layN24 then 240 else 256
def slotBytesBm (e : Nat) : Nat := 64 + 32 * e
def slotBytesN24 (n e : Nat) : Nat := 64 + 64 * ((10 * n * e + 511) / 512)
def slotBytes (r : List Word) : Nat :=
  if tLayout r = layN24 then slotBytesN24 (tAuxPitch r) (tBits r) else slotBytesBm (tBits r)

/-! ## Well-formed records (R320, R369) -/

def fmtPlain (f : Nat) : Bool := fmtIsInt f || fmtIsIeee f || fmtIsNarrow f || f == 0x30 || f == 0x31
def ptrSpace (p : Word) : Nat := p.toNat / 2 ^ 60

def layoutOk (r : List Word) : Bool :=
  let e := tBits r
  let unit := (e + 7) / 8
  let base := (tBase r).toNat
  let mult (m : Nat) : Bool :=
    base % m == 0 && [1, 2, 3, 4].all (fun i => tPitch r i % m == 0)
  let tb := 2 ^ (tTsh0 r + tTsh1 r) * e
  match tLayout r with
  | 0x01 => fmtPlain (tFmt r) && mult unit
  | 0x02 => fmtPlain (tFmt r) && mult unit && decide (2 ≤ tRank r)
  | 0x10 => fmtPlain (tFmt r) && decide (2 ≤ tRank r) && tb % 512 == 0 && mult 64
  | 0x11 => fmtPlain (tFmt r) && decide (2 ≤ tRank r) && tb % 16384 == 0 && mult 2048
  | 0x20 => fmtIsMx (tFmt r) && tExtRaw r 0 % 32 == 0 && tAuxBase r != 0
      && decide (tExtRaw r 0 / 32 ≤ tAuxPitch r)
  | 0x21 => tFmt r == 0x28 && tExtRaw r 0 % 8 == 0 && tAuxBase r != 0 && tBandBase r != 0
      && decide (tExtRaw r 0 / 8 ≤ tAuxPitch r)
  | 0x30 => tRank r == 2 && (tFmt r == 0 || tFmt r == 1 || (0x12 ≤ tFmt r && tFmt r ≤ 0x18))
      && tExtRaw r 0 % 256 == 0 && base % 64 == 0 && tPitch r 1 % 64 == 0 && tAuxPitch r == 0
      && decide (tExtRaw r 0 / 256 * slotBytesBm e ≤ tPitch r 1)
  | 0x31 => tRank r == 2 && (tFmt r == 0 || tFmt r == 1 || (0x12 ≤ tFmt r && tFmt r ≤ 0x18))
      && tExtRaw r 0 % 240 == 0 && base % 64 == 0 && tPitch r 1 % 64 == 0
      && [4, 6, 8, 12].contains (tAuxPitch r)
      && decide (tExtRaw r 0 / 240 * slotBytesN24 (tAuxPitch r) e ≤ tPitch r 1)
  | _ => false

/-- R320 and R369, reserved fields included; GEN and VALID are ignored. -/
def recWellFormed (r : List Word) : Bool :=
  bitsOf (tw r 0) 45 40 == 0 && bitsOf (tw r 0) 17 13 == 0 && bitsOf (tw r 0) 7 0 == 0
  && bitsOf (tw r 1) 47 8 == 0 && !(tw r 3).testBit 63
  && [4, 5, 6, 7, 10].all (fun k => bitsOf (tw r k) 63 48 == 0)
  && tw r 13 == 0 && tw r 14 == 0 && tw r 15 == 0
  && decide (tRnd r ≤ 5) && decide (1 ≤ tRank r) && decide (tRank r ≤ 5)
  && [0, 1, 2, 3, 4].all (fun i => if i < tRank r then decide (1 ≤ tExtRaw r i)
      else tExtRaw r i == 0 && (i == 0 || tPitch r i == 0))
  && (if isTile r then decide (tTsh0 r ≤ 8) && decide (tTsh1 r ≤ 8) else tTsh0 r == 0 && tTsh1 r == 0)
  && decide (ptrSpace (tBase r) ≤ 1)
  && (isBlockLay r && decide (ptrSpace (tAuxBase r) ≤ 1) || tAuxBase r == 0)
  && (tLayout r == layLb8 || tBandBase r == 0)
  && layoutOk r

/-! ## Coordinates and places (R321-R323, R370) -/

/-- The five coordinates of a register pair (R321). -/
structure Coord where
  x : Nat
  y : Nat
  z2 : Nat
  z3 : Nat
  z4 : Nat
  deriving DecidableEq, Repr

def coordOf (c0 c1 : Word) : Coord :=
  ⟨bitsOf c0.toNat 31 0, bitsOf c0.toNat 63 32, bitsOf c1.toNat 20 0, bitsOf c1.toNat 41 21, bitsOf c1.toNat 62 42⟩

def inBounds (r : List Word) (c : Coord) : Bool :=
  decide (c.x < tExt r 0) && decide (c.y < tExt r 1) && decide (c.z2 < tExt r 2) && decide (c.z3 < tExt r 3)
  && decide (c.z4 < tExt r 4)

def outerBytes (r : List Word) (c : Coord) : Nat := c.z2 * tPitch r 2 + c.z3 * tPitch r 3 + c.z4 * tPitch r 4

/-- swz(o) (R323). -/
def swz (o : Nat) : Nat :=
  let l := o / 64
  64 * (32 * (l / 32) + (l + l / 32) % 32) + o % 64

/-- The bytes of an element as offsets from BASE, and its first bit in the first byte (R322, R370). For a sparse
record, the slot's offset. -/
def elemPlace (r : List Word) (c : Coord) : List Nat × Nat :=
  let e := tBits r
  let h := outerBytes r c
  let span (bp : Nat) : List Nat × Nat :=
    ((List.range ((bp % 8 + e + 7) / 8)).map (fun i => bp / 8 + i), bp % 8)
  if tLayout r = layCol then span (c.y * e + 8 * (c.x * tPitch r 1 + h))
  else if isTile r then
    let tc := 2 ^ tTsh0 r
    let tr := 2 ^ tTsh1 r
    let tb := tc * tr * e / 8
    let tile := (c.y / tr) * tPitch r 1 + (c.x / tc) * tb + h
    let t := ((c.y % tr) * tc + c.x % tc) * e
    if tLayout r = laySwz then
      ((List.range ((t % 8 + e + 7) / 8)).map (fun i => tile + swz (t / 8 + i)), t % 8)
    else span (8 * tile + t)
  else if isSparse r then ([c.y * tPitch r 1 + (c.x / slotDepth r) * slotBytes r], 0)
  else span (c.x * e + 8 * (c.y * tPitch r 1 + h))

/-- λ of R322. -/
def lineIndex (r : List Word) (c : Coord) : Nat :=
  c.y + tExt r 1 * (c.z2 + tExt r 2 * (c.z3 + tExt r 3 * c.z4))
def scalePtr (r : List Word) (c : Coord) : Word :=
  tAuxBase r + w64 (c.x / tBlock r + tAuxPitch r * lineIndex r c)
def bandPtr (r : List Word) (c : Coord) : Word := tBandBase r + w64 (2 * (lineIndex r c / 64))

/-! ## Conversion units (R417, R424) -/

def unitDims (old new : List Word) : Nat × Nat :=
  if tLayout old = layBm ∨ tLayout new = layBm then (256, 16)
  else if tLayout old = layN24 ∨ tLayout new = layN24 then (240, 16)
  else (64, 64)
def unitNx (old new : List Word) : Nat := (tExt old 0 + (unitDims old new).1 - 1) / (unitDims old new).1
def unitNy (old new : List Word) : Nat := (tExt old 1 + (unitDims old new).2 - 1) / (unitDims old new).2
def unitCount (old new : List Word) : Nat :=
  unitNx old new * unitNy old new * tExt old 2 * tExt old 3 * tExt old 4
def unitOf (old new : List Word) (c : Coord) : Nat :=
  c.x / (unitDims old new).1 + unitNx old new *
    (c.y / (unitDims old new).2 + unitNy old new * (c.z2 + tExt old 2 * (c.z3 + tExt old 3 * c.z4)))
def areaSize (nu : Nat) : Nat := (192 + (nu + 3) / 4 + 63) / 64 * 64

/-- The conversion of record i, with its die. -/
def findConv (s : State) (i : Nat) : Option (Nat × Conv) :=
  (List.range 4).findSome? (fun d =>
    match (getDie s d).convs.find? (fun c => c.rec_ == i) with
    | some c => some (d, c)
    | none => none)

def convWho (c : Conv) : Who := ⟨c.ctx, c.sv, c.xspace⟩

/-- The place of one byte at a pointer for the engine of `w`, rights apart. -/
def rawLoc (s : State) (w : Who) (p : Word) : Option Loc :=
  match decodePtr p with
  | some sp => match locate s { w with sv := true } sp 1 .load with
    | .ok (l, _) => some l
    | .error _ => (match sp with | .spad off => some (.spad (coreOfCtx w.ctx) off) | _ => none)
  | none => none

def rawByte (s : State) (w : Who) (p : Word) : Nat :=
  match rawLoc s w p with
  | some l => (locByte s l 0).toNat
  | none => 0
def rawWrite (s : State) (w : Who) (p : Word) : List Byte → State
  | [] => s
  | b :: bs => rawWrite (match rawLoc s w p with | some l => locWrite s l [b] | none => s) w (p + 1) bs

/-- A byte of a conversion's area. One whose page does not translate, or may not be read, is a free value (DESIGN
CHOICE, log 95: R424 and R429 give no fault and no value for it). -/
def areaByteOf (s : State) (w : Who) (area : Word) (o : Nat) : Byte :=
  match rawLoc s w (area + w64 o) with
  | some l => locByte s l 0
  | none => Config.areaUnread area o
def areaWordOf (s : State) (w : Who) (area : Word) (o : Nat) : Nat :=
  leNat ((List.range 8).map (fun k => areaByteOf s w area (o + k)))

/-- The new image in a conversion's area (R418). -/
def areaImage (s : State) (w : Who) (area : Word) : List Word :=
  (List.range 16).map (fun k => w64 (areaWordOf s w area (8 * k)))

/-- A pointer of an agent of a core lies in core k's scratchpad. -/
def ptrOnSpad (core k : Nat) (p : Word) : Bool :=
  match decodePtr p with
  | some (.spad _) => core == k
  | some (.rspad j _) => j == k
  | _ => false

def recordOnSpad (core k : Nat) (r : List Word) : Bool := [tBase r, tAuxBase r, tBandBase r].any (ptrOnSpad core k)

/-- A conversion reads or writes core k's scratchpad: its area, its old region or its new one (R418, R421). -/
def convReaches (s : State) (k : Nat) (c : Conv) : Bool :=
  let core := coreOfCtx c.ctx
  ptrOnSpad core k c.area || recordOnSpad core k (recAll s c.rec_) || recordOnSpad core k (areaImage s (convWho c) c.area)

/-- An access of a core through record i may reach core k's scratchpad, in a conversion through either mapping. -/
def tensorReaches (s : State) (core k i : Nat) : Bool :=
  recordOnSpad core k (recAll s i) || (match findConv s i with | some (_, c) => convReaches s k c | none => false)

/-- The state of a unit in the area becomes `st`: 0 OLD, 1 BUSY, 2 NEW, 3 HELD (R418). -/
def setUnitState (s : State) (w : Who) (area : Word) (u st : Nat) : State :=
  let p := area + w64 (192 + u / 4)
  let b := rawByte s w p
  let old := (b / 4 ^ (u % 4)) % 4
  rawWrite s w p [BitVec.ofNat 8 (b - old * 4 ^ (u % 4) + st * 4 ^ (u % 4))]

/-- The mapping an access to an element uses (R424): the record, a stall of a write, or the cause that ends it. -/
inductive Mapping where
  | use (r : List Word)
  | wait
  | fault (cause : Nat)
  deriving DecidableEq, Repr

/-- The new image under the old RO and NANCARRY, which govern until the conversion ends (R422). -/
def underOldFlags (old new : List Word) : List Word :=
  new.set 0 (setBit (setBit (new.getD 0 0) 9 (tCarry old)) 10 (tRo old))

/-- The state of a unit of a conversion, by the engine's own lists: NEW has no way back (R423). -/
def convUnitState (s : State) (cv : Conv) (u : Nat) : Nat :=
  if cv.held.contains u then 3
  else if cv.retry.contains u || (getDie s (dieOfCtx cv.ctx)).unit == some (cv.rec_, u) then 1
  else if cv.news.contains u then 2 else 0

/-- A byte at one of the pointers reads with an uncorrectable error (R298, R309), rights apart. -/
def ptrsBad (s : State) (w : Who) (ps : List Word) : Bool :=
  !(s.badHbm.isEmpty && s.cores.all (fun kq => kq.2.badSpad.isEmpty))
  && ps.any (fun p => match rawLoc s w p with | some l => locBad s l 1 | none => false)

/-- What a handle access reads of a conversion's area has an error: the new image, or the state of unit u. -/
def areaBad (s : State) (cv : Conv) (u : Nat) : Bool :=
  ptrsBad s (convWho cv) ((List.range 128).map (fun o => cv.area + w64 o) ++ [cv.area + w64 (192 + u / 4)])

/-- The record reads with an uncorrectable error. -/
def recBad (s : State) (i : Nat) : Bool := locBad s (.mem (recPa s i)) 128

/-- Redirection by the element's unit state. `i` is the record's index, `r` the record as it was looked up; a record
released since then keeps the mapping it was looked up with (R327). A write of a command that meets an abandoned
conversion ends with POISON_CONSUMED (R432). An access reads the area of a conversion at its own place, with its check
codes (R298, R309). -/
def mapElem (s : State) (i : Nat) (r : List Word) (c : Coord) (write : Bool) : Mapping :=
  let old := recAll s i
  if recBad s i then .fault cEcc
  else if !(tValid old && tGen old == tGen r) then .use r
  else if !tConv old then (if write && tPoisoned old then .fault cPoison else .use old)
  else match findConv s i with
    | none => .use r
    | some (_, cv) =>
      let new := areaImage s (convWho cv) cv.area
      if areaBad s cv (unitOf old new c) then .fault cEcc
      else match convUnitState s cv (unitOf old new c) with
      | 2 => .use (underOldFlags old new)
      | 0 => .use old
      | _ => if write then .wait else .use old

/-- The fault of an access that meets an error in what decides its mapping. -/
def mapFault (s : State) (i : Nat) (r : List Word) (c : Coord) (write : Bool) : Option Nat :=
  match mapElem s i r c write with
  | .fault k => some k
  | _ => none

/-- Promotion of an element's unit (R426): an OLD unit not yet listed enters the list and counts in PROMOC. -/
def promote (s : State) (ctx : Nat) (i : Nat) (c : Coord) : State :=
  match findConv s i with
  | none => s
  | some (d, cv) =>
    let old := recAll s i
    let u := unitOf old (areaImage s (convWho cv) cv.area) c
    if convUnitState s cv u ≠ 0 ∨ cv.paused ∨ (getDie s d).plist.contains (i, u)
        ∨ (getDie s d).plist.length ≥ 64 then s
    else
      modCtx (modDie s d (fun x => { x with plist := x.plist ++ [(i, u)] })) ctx
        (fun x => ctxSetCr x crPromoc (w64 (((ctxCr x crPromoc).toNat + 1) % 2 ^ 32)))

/-! ## Handles (R317, R324) -/

/-- Step 1 of R324: the record's index, or TENSOR_HANDLE; ECC_UNCORRECTABLE where the record cannot be read (R309). -/
def checkHandle (s : State) (xspace h : Word) : Except Nat Nat :=
  let n := h.toNat
  let i := n % 16384
  let r := recAll s i
  if n / 2 ^ 32 = 0 ∧ recBad s i then .error cEcc
  else if n / 2 ^ 32 ≠ 0 ∨ ¬ tValid r ∨ tGen r ≠ n / 2 ^ 14 ∨ tAsid r ≠ xspaceAsid xspace then .error cTensorHandle
  else .ok i

/-! ## Element bytes -/

/-- Per-byte checks of an element's address (R324 step 5): the places, with translations entered. -/
def placeBytes (s : State) (w : Who) (kind : AccKind) : List Word → Except (Nat × Word) (List Loc × State)
  | [] => .ok ([], s)
  | p :: ps =>
    match decodePtr p with
    | none => .error (cAddrSpace, p)
    | some sp =>
      match locate s w sp 1 kind with
      | .error c => .error (c, p)
      | .ok (l, s1) =>
        match placeBytes s1 w kind ps with
        | .ok (ls, s2) => .ok (l :: ls, s2)
        | .error e => .error e

def readLocs (s : State) (ls : List Loc) : Nat := leNat (ls.map (fun l => locByte s l 0))
def anyBad (s : State) (ls : List Loc) : Bool := ls.any (fun l => locBad s l 1)
def writeLocs : State → List Loc → List Byte → State
  | s, l :: ls, b :: bs => writeLocs (locWrite s l [b]) ls bs
  | s, _, _ => s

/-- Bytes at a pointer, each checked. -/
def ptrList (p : Word) (n : Nat) : List Word := (List.range n).map (fun i => p + w64 i)
def isPeerLoc (l : Loc) : Bool := match l with | .peer _ _ => true | _ => false
/-- A byte of a peer comes by a request and not here: it raises ACCESS (DESIGN CHOICE, log 87). -/
def readPtr (s : State) (w : Who) (p : Word) (n : Nat) : Except (Nat × Word) (Nat × State) :=
  match placeBytes s w .load (ptrList p n) with
  | .ok (ls, s1) =>
    if ls.any isPeerLoc then .error (cAccess, p)
    else if anyBad s1 ls then .error (cEcc, p) else .ok (readLocs s1 ls, s1)
  | .error e => .error e

/-- The LB8 band scale of an element: `band` where a peer has already answered with it, else as it is read. -/
def readBand (s : State) (w : Who) (r : List Word) (c : Coord) (band : Option Nat) : Except (Nat × Word) (Nat × State) :=
  match band with
  | some b => .ok (b, s)
  | none => readPtr s w (bandPtr r c) 2

def elemPtrs (r : List Word) (c : Coord) : List Word := (elemPlace r c).1.map (fun o => tBase r + w64 o)

/-- The popcount of a BMSPARSE bitmap, or the first bad run of an N24 slot: whether the slot is well formed (R371). -/
def slotOk (r : List Word) (head : Nat) : Bool :=
  if tLayout r = layN24 then
    (List.range 10).all (fun m => popcount 24 (head >>> (24 * m)) == tAuxPitch r)
  else popcount 256 head == (head >>> 256) % 65536

/-- Presence of position p in a slot head, and its element index (R365, R368). -/
def slotIndex (_r : List Word) (head p : Nat) : Option Nat :=
  if head.testBit p then some (popcount p head) else none

/-- The value bytes of an element of a sparse record, in its slot; none for an absent position. -/
def sparseValuePtrs (s : State) (w : Who) (r : List Word) (c : Coord) : List Word :=
  let slot := tBase r + w64 ((elemPlace r c).1.headD 0)
  match readPtr s w slot 34 with
  | .error _ => []
  | .ok (head, _) =>
    match slotIndex r head (c.x % slotDepth r) with
    | none => []
    | some i => ptrList (slot + w64 (64 + i * tBits r / 8)) (((i * tBits r) % 8 + tBits r + 7) / 8)

/-- The code of an element of a dense or sparse record: `none` for an absent position (R370, R371). -/
def readCode (s : State) (w : Who) (r : List Word) (c : Coord) : Except (Nat × Word) (Option Nat × State) :=
  if isSparse r then
    let slot := tBase r + w64 ((elemPlace r c).1.headD 0)
    match readPtr s w slot 34 with
    | .error e => .error e
    | .ok (head, s1) =>
      if !slotOk r head then .error (cSparse, slot)
      else match slotIndex r head (c.x % slotDepth r) with
        | none => .ok (none, s1)
        | some i =>
          let e := tBits r
          match readPtr s1 w (slot + w64 (64 + i * e / 8)) (((i * e) % 8 + e + 7) / 8) with
          | .error e => .error e
          | .ok (v, s2) => .ok (some ((v >>> ((i * e) % 8)) % 2 ^ e), s2)
  else
    match placeBytes s w .load (elemPtrs r c) with
    | .error e => .error e
    | .ok (ls, s1) =>
      if anyBad s1 ls then .error (cEcc, (elemPtrs r c).headD 0)
      else .ok (some ((readLocs s1 ls >>> (elemPlace r c).2) % 2 ^ tBits r), s1)

/-- The exact value of an element's code, with its scales (R93, R96, R329). -/
def readValue (s : State) (w : Who) (r : List Word) (c : Coord) (code : Option Nat) (band : Option Nat := none) :
    Except (Nat × Word) (FVal × State) :=
  match code with
  | none => .ok (fzero false, s)
  | some b =>
    if fmtIsMx (tFmt r) then
      match readPtr s w (scalePtr r c) 1 with
      | .error e => .error e
      | .ok (x, s1) => .ok (mxValue (tFmt r) b x (tCarry r), s1)
    else if tFmt r = 0x28 then
      match readPtr s w (scalePtr r c) 1 with
      | .error e => .error e
      | .ok (x, s1) =>
        match readBand s1 w r c band with
        | .error e => .error e
        | .ok (bd, s2) => .ok (lb8Value b x bd (tCarry r), s2)
    else .ok (widen (tFmt r) b (tCarry r), s)

/-- Bytes of which an element of e bits from bit `sh` fills only a part, by their index: a write reads them (R330). -/
def partBytes (sh e n : Nat) : List Nat :=
  (List.range n).filter (fun i => decide (8 * i < sh) || decide (sh + e < 8 * i + 8))

/-- The element's bits replaced; no other bit changes (R330). A byte written in part is read, with its check code (R298,
R309). -/
def writeCode (s : State) (w : Who) (r : List Word) (c : Coord) (code : Nat) : Except (Nat × Word) State :=
  match placeBytes s w .store (elemPtrs r c) with
  | .error e => .error e
  | .ok (ls, s1) =>
    let old := readLocs s1 ls
    let sh := (elemPlace r c).2
    let e := tBits r
    let cleared := old - ((old >>> sh) % 2 ^ e) * 2 ^ sh
    if anyBad s1 ((partBytes sh e ls.length).filterMap (fun i => ls[i]?)) then .error (cEcc, (elemPtrs r c).headD 0)
    else .ok (writeLocs s1 ls (leBytes ls.length (cleared + (code % 2 ^ e) * 2 ^ sh)))

end Sys2Proof.Machine
end

