-- ==== Sys2Proof/Machine/PeerPort.lean ====
section
/-!
DEFINITION. Atomics and reductions on values, and what a link port does with a request that arrives (R129-R133,
R407, R522-R531).
-/
namespace Sys2Proof.Machine

/-! ## Read-modify-write values -/

/-- The value an atomic writes (R129, R132): FN number, operand width in bytes, old value, b and c. `none`: no write. -/
def atomicNew (fn n old b c : Nat) : Option Nat :=
  let w := 8 * n
  let sold := sextNat old w
  let sb := sextNat b w
  match fn with
  | 0x00 => some b
  | 0x01 => some ((old + b) % 2 ^ w)
  | 0x02 => some (old &&& b)
  | 0x03 => some (old ||| b)
  | 0x04 => some (old ^^^ b)
  | 0x05 => some (if sold ≤ sb then old else b)
  | 0x06 => some (if sold ≥ sb then old else b)
  | 0x07 => some (if old ≤ b then old else b)
  | 0x08 => some (if old ≥ b then old else b)
  | 0x10 => if old = b then some c else none
  | _ => some (fpAtomicAdd (if n = 4 then 0x11 else 0x10) old b)

/-- One element of a reduction: d op s in FP32 or BF16 (R407, R133, R138). -/
def reduceElem (wantMax bf16 : Bool) (d s : Nat) : Nat :=
  let f := if bf16 then 0x12 else 0x11
  if wantMax then (fpMinMax f true d s).1 else (fpAdd f (widen f d) (widen f s) .rne).1

/-- A 4-byte word of a reduction: one FP32 element or two BF16 elements (R407). -/
def reduceWord (wantMax bf16 : Bool) (d s : Nat) : Nat :=
  if bf16 then
    reduceElem wantMax true (d % 65536) (s % 65536)
      + 65536 * reduceElem wantMax true (d / 65536 % 65536) (s / 65536 % 65536)
  else reduceElem wantMax false d s

/-- Bytes of whole words reduced into old bytes. -/
def reduceBytes (wantMax bf16 : Bool) : List Byte → List Byte → List Byte
  | a0 :: a1 :: a2 :: a3 :: d, b0 :: b1 :: b2 :: b3 :: e =>
    leBytes 4 (reduceWord wantMax bf16 (leNat [a0, a1, a2, a3]) (leNat [b0, b1, b2, b3])) ++ reduceBytes wantMax bf16 d e
  | _, _ => []

/-! ## The receiving port -/

/-- Translation under XPEER, rights without U (R523). -/
def peerTranslate (s : State) (port va : Nat) (kind : AccKind) : Except Nat Nat :=
  let asid := xspaceAsid s.xpeer
  let e : Except Nat TlbEntry := match tlbHit (getDie s (port / 6)).tlb asid va with
    | some e => .ok e
    | none => walk s asid va 5 (xspaceRoot s.xpeer)
  match e with
  | .error c => .error c
  | .ok e =>
    if !leafAllows e true kind then .error cAccess
    else if withheldPa s (e.pa + (va - e.va)) then .error cPage
    else .ok (e.pa + (va - e.va))

/-- Bytes under XPEER, translated one by one. -/
def peerReadBytes (s : State) (port : Nat) : Nat → Nat → Except Nat (List Byte)
  | _, 0 => .ok []
  | va, n + 1 =>
    match peerTranslate s port va .load with
    | .error c => .error c
    | .ok pa =>
      if locBad s (.mem pa) 1 then .error cEcc
      else match peerReadBytes s port (va + 1) n with
        | .error c => .error c
        | .ok bs => .ok (memRead s.hbm pa :: bs)

def peerPas (s : State) (port : Nat) (kind : AccKind) : Nat → Nat → Except Nat (List Nat)
  | _, 0 => .ok []
  | va, n + 1 =>
    match peerTranslate s port va kind with
    | .error c => .error c
    | .ok pa =>
      match peerPas s port kind (va + 1) n with
      | .error c => .error c
      | .ok ps => .ok (pa :: ps)

/-- One of the bytes reads with an uncorrectable error (R309). -/
def pasBad (s : State) (pas : List Nat) : Bool := pas.any (fun pa => locBad s (.mem pa) 1)

/-- Bytes stored at physical addresses; runs of consecutive addresses are one write. -/
def writePas (s : State) (pas : List Nat) (bs : List Byte) : State :=
  match pas with
  | [] => s
  | p :: _ =>
    if pas == (List.range pas.length).map (fun i => p + i) then writeHbm s p bs
    else (pas.zip bs).foldl (fun t ab => writeHbm t ab.1 [ab.2]) s

def peerWriteBytes (s : State) (port va : Nat) (bs : List Byte) : Except Nat State :=
  match peerPas s port .store va bs.length with
  | .error c => .error c
  | .ok pas => .ok (writePas s pas bs)

/-! ### Receive windows (R529, R530) -/

def winEn (w : Window) : Bool := w.d1.getLsbD 52
def winCmp (w : Window) : Bool := w.d1.getLsbD 51
def winRm (w : Window) : Nat := bitsOf w.d1.toNat 50 48
def winDfmt (w : Window) : Nat := bitsOf w.d1.toNat 47 40
def winSfmt (w : Window) : Nat := bitsOf w.d1.toNat 39 32
def winBase (w : Window) : Nat := bitsOf w.d0.toNat 47 12 * 4096
def winBytes (w : Window) : Nat := (w.d1.toNat % 2 ^ 32) * 4096
def winHas (w : Window) (va : Nat) : Bool := winEn w && decide (winBase w ≤ va) && decide (va < winBase w + winBytes w)
def findWindow (s : State) (va : Nat) : Option (Nat × Window) :=
  match (List.range 16).find? (fun i => match tabFind s.windows i with | some w => winHas w va | none => false) with
  | some i => (match tabFind s.windows i with | some w => some (i, w) | none => none)
  | none => none

def countsAdd (c : Counts) (e : Exc) : Counts :=
  ⟨satAdd 24 c.sat e.sat, satAdd 24 c.nanr e.nanr, satAdd 16 c.bsov e.bsov⟩

/-- Elements that one delivery of a window handles together: 32 for MX, 256 for CMP, else 1. -/
def winGroup (w : Window) : Nat := if winCmp w then 256 else if fmtIsMx (winDfmt w) then 32 else 1
def winSrcBytes (w : Window) : Nat := fmtWidth (winSfmt w) / 8

/-- BMSPARSE slot bytes for the converted codes of a fibre-fold; a position is present when its value is not zero
(R372, R401). -/
def packBits (e : Nat) (codes : List Nat) : Nat :=
  (codes.foldl (fun (acc : Nat × Nat) c => (acc.1 + (c % 2 ^ e) * 2 ^ acc.2, acc.2 + e)) (0, 0)).1
def bmPresent (f code : Nat) : Bool := !isZero (widen f code)
def bmSlot (f : Nat) (codes : List Nat) : List Byte :=
  let e := fmtWidth f
  let map := ((List.range codes.length).zip codes).foldl (fun acc ic => if bmPresent f ic.2 then acc + 2 ^ ic.1 else acc) 0
  let vals := codes.filter (bmPresent f)
  leBytes 32 map ++ leBytes 2 vals.length ++ leBytes 30 0 ++ leBytes (32 * e) (packBits e vals)

/-- One group of a window, whole: where it is written and what (R530). -/
def winDeliver (w : Window) (group : Nat) (bs : List Byte) : List (Nat × List Byte) × Exc :=
  let se := winSrcBytes w
  let n := winGroup w
  let vals := (List.range n).map (fun i => widen (winSfmt w) (leNat ((bs.drop (i * se)).take se)))
  let m := rndOf (winRm w) 0
  if fmtIsMx (winDfmt w) then
    let (x, es, ex) := toMx (winDfmt w) vals (vals.map (fun _ => m))
    ([(w.d2.toNat % 2 ^ 56 + 32 * group, leBytes 32 (packBits 8 es)), (w.d3.toNat % 2 ^ 56 + group, leBytes 1 x)], ex)
  else
    let ds := vals.map (fun v => deliver (winDfmt w) v m)
    let ex := { excJoinList (ds.map (·.2)) with flags := 0 }
    let wd := fmtWidth (winDfmt w) / 8
    if winCmp w then
      ([(w.d2.toNat % 2 ^ 56 + group * slotBytesBm (8 * wd), bmSlot (winDfmt w) (ds.map (·.1)))], ex)
    else ([(w.d2.toNat % 2 ^ 56 + wd * group, leBytes wd ((ds.map (·.1)).headD 0))], ex)

/-- Whole groups among the bytes a window holds back are delivered. -/
def winDrain (s : State) (port i : Nat) : (groups : List Nat) → Except Nat State
  | [] => .ok s
  | g :: gs =>
    match tabFind s.windows i with
    | none => .ok s
    | some w =>
      let len := winGroup w * winSrcBytes w
      let got := (List.range len).map (fun k => tabFind w.buf (g * len + k))
      if got.any (fun b => b.isNone) then winDrain s port i gs
      else
        let (outs, ex) := winDeliver w g (got.map (fun b => b.getD 0))
        let w2 : Window := { w with
          counts := countsAdd w.counts ex
          buf := (List.range len).foldl (fun t k => tabErase t (g * len + k)) w.buf }
        let s1 := { s with windows := tabPut s.windows i w2 }
        match outs.foldl (fun (r : Except Nat State) o =>
            match r with | .ok t => peerWriteBytes t port o.1 o.2 | .error c => .error c) (.ok s1) with
        | .error c => .error c
        | .ok s2 => winDrain s2 port i gs

/-- The parts of a command's rows that lie in a window, as offsets: first, and behind the last. -/
def winRows (w : Window) (rows : List (Nat × Nat)) : List (Nat × Nat) :=
  let lo := winBase w
  let hi := lo + winBytes w
  rows.filterMap (fun r =>
    let b := if r.1 < lo then lo else r.1
    let e := if hi < r.1 + r.2 then hi else r.1 + r.2
    if b < e then some (b - lo, e - lo) else none)

/-- A command's writes cover whole groups of n bytes: wherever a row begins or ends within a group, another one goes on
(R530). -/
def wholeGroups (n : Nat) (rows : List (Nat × Nat)) : Bool :=
  let covered (x : Nat) : Bool := rows.any (fun r => decide (r.1 ≤ x) && decide (x < r.2))
  rows.all (fun r => (r.1 % n == 0 || covered (r.1 - 1)) && (r.2 % n == 0 || covered r.2))

/-- A write into a window (R530). `rows` are the ranges that the sending command writes. -/
def winWrite (s : State) (port i : Nat) (w : Window) (va : Nat) (rows : List (Nat × Nat)) (bs : List Byte) :
    Except Nat State :=
  let len := winGroup w * winSrcBytes w
  let o := va - winBase w
  if winGroup w ≠ 1 ∧ !wholeGroups len (winRows w rows) then .error cAccess
  else
    let w2 : Window := { w with
      buf := ((List.range bs.length).zip bs).foldl (fun t kb => tabPut t (o + kb.1) kb.2) w.buf }
    let groups := (List.range ((o + bs.length + len - 1) / len - o / len)).map (fun k => o / len + k)
    winDrain { s with windows := tabPut s.windows i w2 } port i groups

/-- A reduction into a window: one rounding, RNE, per element (R530). -/
def winReduce (s : State) (port : Nat) (w : Window) (wantMax : Bool) (va : Nat) (bs : List Byte) : Except Nat State :=
  let se := winSrcBytes w
  let wd := fmtWidth (winDfmt w) / 8
  let o := (va - winBase w) / se
  let n := bs.length / se
  (List.range n).foldl (fun (r : Except Nat State) k =>
    match r with
    | .error c => .error c
    | .ok t =>
      let dva := w.d2.toNat % 2 ^ 56 + wd * (o + k)
      match peerReadBytes t port dva wd with
      | .error c => .error c
      | .ok old =>
        let d := widen (winDfmt w) (leNat old)
        let v := widen (winSfmt w) (leNat ((bs.drop (k * se)).take se))
        let f := winDfmt w
        let new := if wantMax then
            (if isNan d && isNan v then fmtDefaultNan f
             else if isNan v then leNat old
             else if isNan d || ltTotal d v then (deliver f v .rne).1 else leNat old)
          else (fpAdd f d v .rne).1
        peerWriteBytes t port dva (leBytes wd new)) (.ok s)

/-- Bytes written at `va`, cut where a window begins or ends: each part's address, the window that governs it, and its
bytes (R530). -/
def winParts (s : State) : (fuel : Nat) → (va : Nat) → List Byte → List (Nat × Option (Nat × Window) × List Byte)
  | 0, va, bs => [(va, findWindow s va, bs)]
  | f + 1, va, bs =>
    let here := findWindow s va
    let n := if s.windows.isEmpty then bs.length
      else ((List.range bs.length).takeWhile (fun i => (findWindow s (va + i)).map (·.1) == here.map (·.1))).length
    if bs.length ≤ n then [(va, here, bs)] else (va, here, bs.take n) :: winParts s f (va + n) (bs.drop n)

/-- Every part of a write in turn; the cause of the first that fails. -/
def overParts (f : State → Nat → Option (Nat × Window) → List Byte → Except Nat State) :
    List (Nat × Option (Nat × Window) × List Byte) → State → Except Nat State
  | [], s => .ok s
  | (va, w, bs) :: ps, s =>
    match f s va w bs with
    | .error c => .error c
    | .ok t => overParts f ps t

/-- A part of a write: into its window, or where it is addressed. -/
def partWrite (port : Nat) (rows : List (Nat × Nat)) (s : State) (va : Nat) (w : Option (Nat × Window)) (bs : List Byte) :
    Except Nat State :=
  match w with
  | some (i, _) =>
    (match tabFind s.windows i with
     | some w => winWrite s port i w va rows bs
     | none => .ok s)
  | none => peerWriteBytes s port va bs

/-- A part of a reduction. -/
def partReduce (port : Nat) (wantMax bf16 : Bool) (s : State) (va : Nat) (w : Option (Nat × Window)) (bs : List Byte) :
    Except Nat State :=
  match w with
  | some (_, w) =>
    if winCmp w ∨ (winDfmt w ≠ 0x11 ∧ winDfmt w ≠ 0x12) ∨ winSfmt w ≠ (if bf16 then 0x12 else 0x11) then .error cAccess
    else winReduce s port w wantMax va bs
  | none =>
    match peerPas s port .atomic va bs.length with
    | .error e => .error e
    | .ok pas =>
      if pasBad s pas then .error cEcc
      else .ok (writePas s pas (reduceBytes wantMax bf16 (pas.map (memRead s.hbm)) bs))

/-- A request performed by the receiving port: the answer's data, or the cause (R523, R525, R528, R530). -/
def performPeer (s : State) (port : Nat) (req : PeerRequest) : Except Nat (BitVec 1024 × State) :=
  let va := req.va.toNat
  match req.op with
  | .read n =>
    match peerReadBytes s port va n with
    | .error c => .error c
    | .ok bs => .ok (BitVec.ofNat 1024 (leNat bs), s)
  | .write bs =>
    match overParts (partWrite port req.rows) (winParts s bs.length va bs) s with
    | .error c => .error c
    | .ok t => .ok (0, t)
  | .atomic fn dbl b c =>
    let n := if dbl then 8 else 4
    match peerPas s port .atomic va n with
    | .error e => .error e
    | .ok pas =>
      let old := leNat (pas.map (memRead s.hbm))
      if pasBad s pas then .error cEcc
      else match atomicNew fn n old (b.toNat % 2 ^ (8 * n)) (c.toNat % 2 ^ (8 * n)) with
      | some new => .ok (BitVec.ofNat 1024 old, writePas s pas (leBytes n new))
      | none => .ok (BitVec.ofNat 1024 old, s)
  | .reduce wantMax bf16 bs =>
    match overParts (partReduce port wantMax bf16) (winParts s bs.length va bs) s with
    | .error c => .error c
    | .ok t => .ok (0, t)

/-! ## Sending (R522-R526) -/

def portUp (s : State) (p : Nat) : Bool := s.linkUp.getLsbD p
def portReset : Port := ⟨0, 0, 0⟩

/-- A request to a device number with a route: answered at once where it loops back to this module or where its
link is down, else on its way (R21, R523). The answer, or the request's number. -/
def sendPeer (s : State) (r : PeerReq) (dev : Nat) (rows : List (Nat × Nat)) : (PeerResponse ⊕ Nat) × State :=
  if !portUp s r.port then (.inl (.failed 0), s)
  else
    let p := tabGet portReset s.ports r.port
    let s1 := { s with ports := tabPut s.ports r.port { p with beats := p.beats + 1 } }
    if s.devnum = 2 ^ 15 + dev then
      match performPeer s1 r.port ⟨r.ptr.setWidth 48, r.op, rows⟩ with
      | .ok (d, s2) => (.inl (.ok d), s2)
      | .error c => (.inl (.failed (BitVec.ofNat 8 c)), s1)
    else (.inr s1.peerNext, { s1 with peers := tabPut s1.peers s1.peerNext r, peerNext := s1.peerNext + 1 })

/-- The record of LINK_FAULT (R523). -/
def linkRec (ctx : Nat) (pc ptr : Word) (cause port : Nat) : FaultRec :=
  { recBase cLink 7 ctx pc with
    addr := ptr
    info0 := w64 (cause % 256 + bitsOf ptr.toNat 59 50 * 256)
    info1 := w64 port }

end Sys2Proof.Machine
end

