-- ==== Sys2Proof/Machine/Sparse.lean ====
section
/-!
DEFINITION. Sparse slots as whole values (R365, R368, R372, R401), and the write of one element under any layout.
-/
namespace Sys2Proof.Machine

/-- a beats b in magnitude: a NaN beats every number (R401). -/
def magBeats (a b : FVal) : Bool :=
  match a, b with
  | .nan _ _, .nan _ _ => false
  | .nan _ _, _ => true
  | _, .nan _ _ => false
  | .inf _, .inf _ => false
  | .inf _, _ => true
  | _, .inf _ => false
  | .fin _ m1 e1, .fin _ m2 e2 => ltMag m2 e2 m1 e1

/-- Presence in one N24 run: the n largest magnitudes, lower positions first among equals. -/
def runPresent (n : Nat) (vs : List FVal) (i : Nat) : Bool :=
  let v := vs.getD i (fzero false)
  decide (((List.range vs.length).filter (fun j =>
    let u := vs.getD j (fzero false)
    magBeats u v || (decide (j < i) && !magBeats v u))).length < n)

/-- Presence of every position of a fibre-fold that the device writes: of the values that its codes read as (R96, R372). -/
def foldPresent (r : List Word) (codes : List Nat) : List Bool :=
  let vs := codes.map (fun c => widen (tFmt r) c (tCarry r))
  if tLayout r = layN24 then
    ((List.range 10).map (fun m =>
      let run := (vs.drop (24 * m)).take 24
      (List.range 24).map (runPresent (tAuxPitch r) run))).flatten
  else vs.map (fun v => !isZero v)

/-- The bytes of a slot, and its NNZ: head, zero pad, values, zeros (R365, R368, R372). -/
def encodeSlot (r : List Word) (codes : List Nat) : List Byte × Nat :=
  let e := tBits r
  let pres := foldPresent r codes
  let vals := (codes.zip pres).filterMap (fun cp => if cp.2 then some cp.1 else none)
  let map := ((List.range pres.length).zip pres).foldl (fun acc ip => if ip.2 then acc + 2 ^ ip.1 else acc) 0
  let head := if tLayout r = layN24 then leBytes 64 map else leBytes 32 map ++ leBytes 2 vals.length ++ leBytes 30 0
  (head ++ leBytes (slotBytes r - 64) (packBits e vals), vals.length)

/-- The codes of every position of a slot read whole; absent positions give none. -/
def decodeSlot (r : List Word) (bytes : Nat) : List (Option Nat) :=
  let e := tBits r
  (List.range (slotDepth r)).map (fun p =>
    match slotIndex r bytes p with
    | some i => some ((bytes >>> (512 + i * e)) % 2 ^ e)
    | none => none)

/-- The mapping that a write of a command to an element uses, or the cause that ends the command. -/
def mapWrite (s : State) (i : Nat) (r : List Word) (c : Coord) : Except (Nat × Word) (List Word) :=
  match mapElem s i r c true with
  | .use m => .ok m
  | .wait => .ok r
  | .fault k => .error (k, (elemPtrs r c).headD 0)

/-- The mapping that a read of a command uses. -/
def mapRead (s : State) (i : Nat) (r : List Word) (c : Coord) : Except (Nat × Word) (List Word) :=
  match mapElem s i r c false with
  | .use m => .ok m
  | .wait => .ok r
  | .fault k => .error (k, (elemPtrs r c).headD 0)

/-- A write to the element waits for its conversion unit (R424). -/
def mapWaits (s : State) (i : Nat) (r : List Word) (c : Coord) : Bool :=
  match mapElem s i r c true with
  | .wait => true
  | _ => false

/-- One element written under any layout. Under a sparse one its slot is written again whole (log 26). -/
def writeElem (s : State) (w : Who) (r : List Word) (c : Coord) (code : Nat) : Except (Nat × Word) State :=
  if !isSparse r then writeCode s w r c code
  else
    let slot := tBase r + w64 ((elemPlace r c).1.headD 0)
    match readPtr s w slot (slotBytes r) with
    | .error e => .error e
    | .ok (bytes, s1) =>
      if !slotOk r bytes then .error (cSparse, slot)
      else
        let codes := (decodeSlot r bytes).map (fun o => o.getD 0)
        let new := (encodeSlot r (codes.set (c.x % slotDepth r) code)).1
        match placeBytes s1 w .store (ptrList slot (slotBytes r)) with
        | .error e => .error e
        | .ok (ls, s2) => .ok (writeLocs s2 ls new)

/-- The scales of an element: its block scale and, under LB8, its band scale; 0 for one that it has not. -/
def readScales (s : State) (w : Who) (r : List Word) (c : Coord) (band : Option Nat) :
    Except (Nat × Word) ((Nat × Nat) × State) :=
  if !(fmtIsMx (tFmt r) || tFmt r == 0x28) then .ok ((0, 0), s)
  else match readPtr s w (scalePtr r c) 1 with
    | .error e => .error e
    | .ok (x, s1) =>
      if tFmt r ≠ 0x28 then .ok ((x, 0), s1)
      else match readBand s1 w r c band with
        | .error e => .error e
        | .ok (bd, s2) => .ok ((x, bd), s2)

/-- Under these scales no value can be stored (R330): X = 0xFF, s = 0x00, or a band scale that is not positive
and finite. The scale that says so. -/
def scalesRefuse (r : List Word) (c : Coord) (x : Nat × Nat) : Option Word :=
  if fmtIsMx (tFmt r) then (if x.1 = 255 then some (scalePtr r c) else none)
  else if tFmt r = 0x28 then
    (match widen 0x31 x.1, widen 0x12 x.2 with
     | .fin _ sm _, .fin _ _ _ => if sm = 0 ∨ ¬ bandOk x.2 then some (scalePtr r c) else none
     | _, _ => some (bandPtr r c))
  else none

/-- A conversion into a block-scaled format raises no FPSTAT flag (R89). -/
def dropFlags (r : Nat × Exc) : Nat × Exc := (r.1, { r.2 with flags := 0 })

/-- A value delivered into a record's format under an element's scales. -/
def scaledCode (r : List Word) (x : Nat × Nat) (v : FVal) (intSource : Bool) (m : Rnd) : Nat × Exc :=
  if fmtIsMx (tFmt r) then
    let t := shiftVal v (127 - (x.1 : Int))
    if tFmt r = 0x25 then toMxInt8 t m else dropFlags (deliver (mxElement (tFmt r)) t m)
  else if tFmt r = 0x28 then
    (match widen 0x31 x.1, widen 0x12 x.2 with
     | .fin _ sm se, .fin _ bm be => dropFlags (deliver 0x18 (divVal v (sm * bm) (se + be)) m)
     | _, _ => (0, excNone))
  else deliver (tFmt r) v m intSource

/-- A value delivered into a record's format at an element (R330): code and exceptions, or ACCESS. Block scales are
read, never changed. -/
def narrowElem (s : State) (w : Who) (r : List Word) (c : Coord) (v : FVal) (intSource : Bool) (m : Rnd)
    (band : Option Nat := none) : Except (Nat × Word) (Nat × Exc × State) :=
  match readScales s w r c band with
  | .error e => .error e
  | .ok (x, s1) =>
    match scalesRefuse r c x with
    | some p => .error (cAccess, p)
    | none => .ok ((scaledCode r x v intSource m).1, (scaledCode r x v intSource m).2, s1)

end Sys2Proof.Machine
end

