-- ==== Sys2Proof/WellFormed.lean ====
section
/-!
DEFINITION. Which instructions the spec defines: the combinations of fields that R43, R44, R47, R50,
R52 and the sub-maps forbid are not well formed, and a word that carries one raises ILLEGAL_INSTR
(R56). For the step of an agent it says that the named agent exists.
-/
namespace Sys2Proof

/-- R43, R44: GRD = 0b1000 is reserved, and WT.CNT is zero when WT.EN is. -/
def Hdr.ok (h : Hdr) : Bool := !(h.sense && h.pred == 0#3) && (h.wten || h.wtcnt == 0#5)

/-- R50: SCOPE 0-4, and no scope without an order. -/
def MemOrd.scopeOk (o : MemOrd) : Bool :=
  decide (o.scope.toNat ≤ 4) && (o.ord != 0#2 || o.scope == 0#3)

/-- R50, the LD column. -/
def MemOrd.okLoad (o : MemOrd) : Bool := o.scopeOk && (o.ord == 0#2 || o.ord == 1#2)

/-- R50, the ST column. -/
def MemOrd.okStore (o : MemOrd) : Bool := o.scopeOk && (o.ord == 0#2 || o.ord == 2#2)

/-- R129, R214: all four orders and any of the five scopes. -/
def MemOrd.okAtomic (o : MemOrd) : Bool := decide (o.scope.toNat ≤ 4)

/-- R52: CNTEN = 0 requires CNT = 0. -/
def CmdCtl.ok (e : CmdCtl) : Bool := e.cnten || e.cnt == 0#5

/-- R135, R87, R92: RMEN in bit 3 with a mode up to `top`, or all zero. -/
def rmOk (top : Nat) (rm : BitVec 4) : Bool :=
  if rm.getLsbD 3 then decide ((rm.extractLsb' 0 3).toNat ≤ top) else rm == 0#4

/-- R47, R194: field B names a vector register unless BS is set. -/
def bOk (bs : Bool) (b : BitVec 6) : Bool := bs || decide (b.toNat < 32)

/-- R47: a coordinate pair is 0 or 1-62. -/
def pairOk (b : BitVec 6) : Bool := b != 63#6

/-- R74: I8 to UI64. -/
def intCode (c : BitVec 8) : Bool := decide (c.toNat ≤ 7)
/-- R74: FP64 to E2M1. -/
def floatCode (c : BitVec 8) : Bool := decide (0x10 ≤ c.toNat) && decide (c.toNat ≤ 0x18)
/-- R74: E8M0 and E3M5U. -/
def scaleCode (c : BitVec 8) : Bool := c == 0x30#8 || c == 0x31#8
/-- R143, the codes of FCVT. -/
def scalarFloatCode (c : BitVec 8) : Bool := floatCode c || scaleCode c

/-- R204: the element width of a code VCVT accepts, or 0. -/
def vcvtWidth (c : BitVec 8) : Nat :=
  match c.toNat with
  | 0x04 | 0x05 | 0x11 => 32
  | 0x02 | 0x03 | 0x12 | 0x13 => 16
  | 0x00 | 0x01 | 0x14 | 0x15 | 0x30 | 0x31 => 8
  | 0x16 | 0x17 => 6
  | 0x18 => 4
  | _ => 0

/-- R205: N(w), the number of 64-element parts. -/
def vcvtParts (w : Nat) : Nat :=
  match w with
  | 32 => 1 | 16 => 2 | 8 => 4 | 6 => 5 | 4 => 8 | _ => 0

/-- R204, R205: the pairs of codes VCVT accepts and the limit on PART. -/
def vcvtOk (sfmt dfmt : BitVec 8) (part : BitVec 3) : Bool :=
  let i := fun c => intCode c && vcvtWidth c != 0
  let f := fun c => floatCode c && vcvtWidth c != 0
  ((i sfmt && (i dfmt || f dfmt)) || (f sfmt && (i dfmt || f dfmt || scaleCode dfmt)) ||
    (scaleCode sfmt && f dfmt)) &&
  decide (part.toNat < vcvtParts (min (vcvtWidth sfmt) (vcvtWidth dfmt)))

/-- The control registers the chapters define: R26, R186, R226, R295, R334, R380, R415, R434, R463,
R500, R537, R548. Every other number is reserved (R25). -/
def crDefined (n : Nat) : Bool :=
  decide (n ≤ 0x004) || (decide (0x008 ≤ n) && decide (n ≤ 0x00E) && n != 0x00B) || n == 0x010 ||
  n == 0x018 || n == 0x019 || n == 0x020 || (decide (0x040 ≤ n) && decide (n ≤ 0x043)) ||
  (decide (0x048 ≤ n) && decide (n ≤ 0x04B)) || n == 0x060 || n == 0x061 || n == 0x080 ||
  (decide (0x0A0 ≤ n) && decide (n ≤ 0x0A4)) || n == 0x0B0 ||
  (decide (0x0C0 ≤ n) && decide (n ≤ 0x0C2)) || n == 0x0D0 || n == 0x0D1 || n == 0x0E0 || n == 0x0E1 ||
  (decide (0x100 ≤ n) && decide (n ≤ 0x10F)) || (decide (0x118 ≤ n) && decide (n ≤ 0x122)) ||
  (decide (0x130 ≤ n) && decide (n ≤ 0x132)) || (decide (0x180 ≤ n) && decide (n ≤ 0x184)) ||
  (decide (0x1C0 ≤ n) && decide (n ≤ 0x1C4))

/-- The defined registers whose fields are all RO (R25 step 2). -/
def crReadOnly (n : Nat) : Bool :=
  decide (n ≤ 0x004) || (decide (0x040 ≤ n) && decide (n ≤ 0x04B)) || n == 0x061 || n == 0x080 ||
  n == 0x0A2 || n == 0x0A4 || n == 0x0C1 || n == 0x0D0 || n == 0x0D1 || n == 0x0E0 || n == 0x0E1 ||
  (decide (0x108 ≤ n) && decide (n ≤ 0x10F)) || decide (0x130 ≤ n)

/-- The instructions of the spec (R33 `legal`, but for privilege), and the agents of the package. -/
def WellFormed (i : Instr) : Bool :=
  match i with
  | .add h _ _ _ => h.ok
  | .sub h _ _ _ => h.ok
  | .mul h _ _ _ => h.ok
  | .mulh h _ _ _ => h.ok
  | .mulhu h _ _ _ => h.ok
  | .mulhsu h _ _ _ => h.ok
  | .div h _ _ _ => h.ok
  | .divu h _ _ _ => h.ok
  | .rem h _ _ _ => h.ok
  | .remu h _ _ _ => h.ok
  | .and h _ _ _ => h.ok
  | .or h _ _ _ => h.ok
  | .xor h _ _ _ => h.ok
  | .andn h _ _ _ => h.ok
  | .orn h _ _ _ => h.ok
  | .xnor h _ _ _ => h.ok
  | .shl h _ _ _ => h.ok
  | .shr h _ _ _ => h.ok
  | .sar h _ _ _ => h.ok
  | .rol h _ _ _ => h.ok
  | .ror h _ _ _ => h.ok
  | .min h _ _ _ => h.ok
  | .max h _ _ _ => h.ok
  | .minu h _ _ _ => h.ok
  | .maxu h _ _ _ => h.ok
  | .clz h _ _ _ => h.ok
  | .ctz h _ _ _ => h.ok
  | .popc h _ _ _ => h.ok
  | .brev h _ _ _ => h.ok
  | .bswap h _ _ sz => h.ok && sz != 0#2
  | .exts h _ _ _ => h.ok
  | .extz h _ _ _ => h.ok
  | .bfx h _ _ pos lenm1 => h.ok && decide (pos.toNat + lenm1.toNat + 1 ≤ 64)
  | .bfi h _ _ _ pos lenm1 => h.ok && decide (pos.toNat + lenm1.toNat + 1 ≤ 64)
  | .sel h _ _ _ _ => h.ok
  | .lea h _ _ _ _ _ => h.ok
  | .addi h _ _ _ => h.ok
  | .muli h _ _ _ => h.ok
  | .andi h _ _ _ => h.ok
  | .ori h _ _ _ => h.ok
  | .xori h _ _ _ => h.ok
  | .shli h _ _ _ => h.ok
  | .shri h _ _ _ => h.ok
  | .sari h _ _ _ => h.ok
  | .movi h _ _ => h.ok
  | .movhi h _ _ _ => h.ok
  | .cmp h _ _ _ cc => h.ok && decide (cc.toNat ≤ 9)
  | .test h _ _ _ _ => h.ok
  | .pand h _ _ _ _ _ => h.ok
  | .por h _ _ _ _ _ => h.ok
  | .pxor h _ _ _ _ _ => h.ok
  | .pnot h _ _ => h.ok
  | .pmov h _ _ => h.ok
  | .cmpi h _ _ cc _ => h.ok && decide (cc.toNat ≤ 9)
  | .br h _ => h.ok
  | .call h d _ => h.ok && d != 0#6
  | .jmpr h _ => h.ok
  | .callr h d _ => h.ok && d != 0#6
  | .ret h _ => h.ok
  | .loop h _ _ len => h.ok && len != 0#11
  | .ld h _ _ _ o size sgn _ => h.ok && (o.okLoad && (!sgn || size != 3#2))
  | .pref h _ _ _ => h.ok
  | .st h _ _ _ o _ _ => h.ok && o.okStore
  | .amoSwap h _ _ _ o _ => h.ok && o.okAtomic
  | .amoAdd h _ _ _ o _ => h.ok && o.okAtomic
  | .amoAnd h _ _ _ o _ => h.ok && o.okAtomic
  | .amoOr h _ _ _ o _ => h.ok && o.okAtomic
  | .amoXor h _ _ _ o _ => h.ok && o.okAtomic
  | .amoMin h _ _ _ o _ => h.ok && o.okAtomic
  | .amoMax h _ _ _ o _ => h.ok && o.okAtomic
  | .amoMinu h _ _ _ o _ => h.ok && o.okAtomic
  | .amoMaxu h _ _ _ o _ => h.ok && o.okAtomic
  | .amocas h _ _ _ _ o _ => h.ok && o.okAtomic
  | .amofadd h _ _ _ o _ => h.ok && o.okAtomic
  | .fadd h _ _ _ _ rm => h.ok && rmOk 4 rm
  | .fsub h _ _ _ _ rm => h.ok && rmOk 4 rm
  | .fmul h _ _ _ _ rm => h.ok && rmOk 4 rm
  | .ffma h _ _ _ _ _ rm => h.ok && rmOk 4 rm
  | .fdiv h _ _ _ _ rm => h.ok && rmOk 4 rm
  | .fsqrt h _ _ _ rm => h.ok && rmOk 4 rm
  | .fmin h _ _ _ _ => h.ok
  | .fmax h _ _ _ _ => h.ok
  | .fcmp h _ _ _ _ _ => h.ok
  | .fclass h _ _ _ => h.ok
  | .fsgn h _ _ _ _ op => h.ok && op != 3#2
  | .fcvt h _ _ dfmt sfmt rm => h.ok && rmOk 4 rm && scalarFloatCode sfmt && scalarFloatCode dfmt
  | .fcvti h _ _ dfmt sfmt rm => h.ok && rmOk 4 rm && floatCode sfmt && intCode dfmt
  | .icvtf h _ _ dfmt sfmt rm => h.ok && rmOk 4 rm && intCode sfmt && floatCode dfmt
  | .nop h => h.ok
  | .crd h _ num => h.ok && crDefined num.toNat
  | .cwr h _ num => h.ok && crDefined num.toNat && !crReadOnly num.toNat
  | .halt h => h.ok
  | .trap h _ => h.ok
  | .eret h => h.ok
  | .brk h _ => h.ok
  | .movx h _ _ => h.ok
  | .brx h _ imm => h.ok && imm.extractLsb' 0 3 == 0#3
  | .brxRel h _ imm => h.ok && imm.extractLsb' 0 3 == 0#3
  | .launch h _ _ => h.ok
  | .exit h => h.ok
  | .yieldI h _ => h.ok
  | .park h _ _ => h.ok
  | .wake h _ => h.ok
  | .cset h _ _ => h.ok
  | .cadd h _ _ => h.ok
  | .cwait h _ _ => h.ok
  | .crdc h _ _ => h.ok
  | .barinit h _ _ => h.ok
  | .bara h _ _ => h.ok
  | .barw h _ _ => h.ok
  | .gset h _ _ => h.ok
  | .gadd h _ _ _ => h.ok
  | .grd h _ _ => h.ok
  | .fence h scope cset => h.ok && decide (scope.toNat ≤ 4) && cset != 0#4
  | .vadd h _ _ b bs _ _ rm => h.ok && bOk bs b && rmOk 4 rm
  | .vsub h _ _ b bs _ _ rm => h.ok && bOk bs b && rmOk 4 rm
  | .vmul h _ _ b bs _ _ rm => h.ok && bOk bs b && rmOk 4 rm
  | .vfma h _ _ b bs _ _ _ rm => h.ok && bOk bs b && rmOk 4 rm
  | .vdiv h _ _ b bs _ _ rm => h.ok && bOk bs b && rmOk 4 rm
  | .vsqrt h _ _ _ _ rm => h.ok && rmOk 4 rm
  | .vrcp h _ _ _ _ => h.ok
  | .vrsq h _ _ _ _ => h.ok
  | .vmin h _ _ b bs _ _ => h.ok && bOk bs b
  | .vmax h _ _ b bs _ _ => h.ok && bOk bs b
  | .vsgn h _ _ b bs op _ _ => h.ok && op != 3#2 && bOk bs b
  | .vexp2 h _ _ _ _ => h.ok
  | .vlog2 h _ _ _ _ => h.ok
  | .vsin h _ _ _ _ => h.ok
  | .vcos h _ _ _ _ => h.ok
  | .vsinpi h _ _ _ _ => h.ok
  | .vcospi h _ _ _ _ => h.ok
  | .viadd h _ _ b bs sat u _ _ => h.ok && bOk bs b && (!u || sat)
  | .visub h _ _ b bs sat u _ _ => h.ok && bOk bs b && (!u || sat)
  | .vimul h _ _ b bs hi u _ _ => h.ok && bOk bs b && (!u || hi)
  | .vand h _ _ b bs _ _ => h.ok && bOk bs b
  | .vor h _ _ b bs _ _ => h.ok && bOk bs b
  | .vxor h _ _ b bs _ _ => h.ok && bOk bs b
  | .vshl h _ _ b bs _ _ => h.ok && bOk bs b
  | .vshr h _ _ b bs _ _ => h.ok && bOk bs b
  | .vsar h _ _ b bs _ _ => h.ok && bOk bs b
  | .vimin h _ _ b bs _ _ _ => h.ok && bOk bs b
  | .vimax h _ _ b bs _ _ _ => h.ok && bOk bs b
  | .vpopc h _ _ _ _ => h.ok
  | .vclmul h _ _ b bs _ _ _ => h.ok && bOk bs b
  | .vcvt h _ _ _ _ part dfmt sfmt rm => h.ok && rmOk 5 rm && vcvtOk sfmt dfmt part
  | .vcmp h _ _ b bs _ _ _ => h.ok && bOk bs b
  | .vicmp h _ _ b bs cc _ _ => h.ok && decide (cc.toNat ≤ 9) && bOk bs b
  | .mand h _ _ _ _ _ => h.ok
  | .mor h _ _ _ _ _ => h.ok
  | .mxor h _ _ _ _ _ => h.ok
  | .mnot h _ _ => h.ok
  | .mpopc h _ _ => h.ok
  | .vmovVector h _ _ _ _ => h.ok
  | .vmovLaneToGeneral h _ _ _ => h.ok
  | .vmovGeneralToLane h _ _ _ => h.ok
  | .vmovGeneralToMask h _ _ => h.ok
  | .vmovMaskToGeneral h _ _ => h.ok
  | .vbcast h _ a b src _ _ => h.ok && (if src then decide (a.toNat < 32) else b == 0#6)
  | .vext h _ _ _ _ _ _ => h.ok
  | .vperm h _ _ _ c t2 _ _ => h.ok && (t2 || c == 0#5)
  | .vpswap h _ _ n _ _ _ => h.ok && decide (n.toNat ≤ 5)
  | .vslide h _ _ _ _ _ _ _ => h.ok
  | .vcompress h _ _ _ _ => h.ok
  | .vexpand h _ _ _ _ => h.ok
  | .vsel h _ _ _ _ => h.ok
  | .viota h _ _ _ _ => h.ok
  | .vred h _ _ op rm _ => h.ok && (decide (op.toNat ≤ 10) && (op == 8#4 || rm == 0#4) && rmOk 4 rm)
  | .vscan h _ _ op rm _ _ => h.ok && (decide (op.toNat ≤ 10) && (op == 8#4 || rm == 0#4) && rmOk 4 rm)
  | .vscanExcl h _ _ op rm _ _ => h.ok && (decide (op.toNat ≤ 10) && (op == 8#4 || rm == 0#4) && rmOk 4 rm)
  | .vld h _ _ _ c str o _ _ => h.ok && (o.okLoad && (str || c == 0#6))
  | .vst h _ _ _ c str o _ _ => h.ok && (o.okStore && (str || c == 0#6))
  | .vgath h _ _ _ _ _ o _ _ => h.ok && o.okLoad
  | .vscat h _ _ _ _ _ o _ _ => h.ok && o.okStore
  | .vscatAdd h _ _ _ _ _ o _ _ => h.ok && o.okAtomic
  | .vscatIadd h _ _ _ _ _ o _ _ => h.ok && o.okAtomic
  | .vscatImin h _ _ _ _ _ o _ _ => h.ok && o.okAtomic
  | .vscatImax h _ _ _ _ _ o _ _ => h.ok && o.okAtomic
  | .vconfl h _ _ _ _ _ => h.ok
  | .vcomb h _ _ _ op rm _ _ => h.ok && (decide (op.toNat ≤ 5) && (op == 0#3 || rm == 0#4) && rmOk 4 rm)
  | .rpop h _ c nb => h.ok && (nb || c == 0#3)
  | .qflush h _ _ => h.ok
  | .qstat h _ _ => h.ok
  | .frpop h _ _ => h.ok
  | .ppart h _ _ _ => h.ok
  | .ppartRel h => h.ok
  | .pcfg h e _ => h.ok && e.ok
  | .pcfgPlc h e _ => h.ok && e.ok
  | .pclr h e _ _ => h.ok && e.ok
  | .pexcReadCounters h _ _ _ => h.ok
  | .psweep h e _ _ _ _ => h.ok && e.ok
  | .psweeps h e _ _ _ _ => h.ok && e.ok
  | .pscan h e _ _ => h.ok && e.ok
  | .ptopk h e _ _ c rb => h.ok && e.ok && (rb || c == 0#6)
  | .pdrain h e _ b _ d _ _ _ bs => h.ok && e.ok && (pairOk b && (bs || d == 0#6))
  | .pprog h _ => h.ok
  | .pstat h _ _ => h.ok
  | .spcfg h _ => h.ok
  | .treg h _ _ _ => h.ok
  | .trel h _ => h.ok
  | .tinfo h _ _ _ => h.ok
  | .taddr h _ _ b _ => h.ok && pairOk b
  | .tld h _ _ b _ _ o => h.ok && pairOk b && o.okLoad
  | .tst h _ _ b raw _ rmen rm o => h.ok && pairOk b && o.okStore && (if rmen then decide (rm.toNat ≤ 4) && !raw else rm == 0#3)
  | .vldt h _ _ b _ _ o _ _ => h.ok && pairOk b && o.okLoad
  | .vstt h _ _ b raw _ rmen rm o _ _ => h.ok && pairOk b && o.okStore && (if rmen then decide (rm.toNat ≤ 4) && !raw else rm == 0#3)
  | .cpy h _ _ _ _ _ _ mc red rop rfmt => h.ok && (!(red && mc) && (!rop || red) && (!rfmt || red))
  | .cpy2 h _ _ _ _ _ _ _ mc red rop rfmt => h.ok && (!(red && mc) && (!rop || red) && (!rfmt || red))
  | .cfill h _ _ _ _ _ _ _ p => h.ok && decide (p.toNat ≤ 3)
  | .echk h _ _ => h.ok
  | .cpyt h _ _ _ b _ _ _ _ _ _ _ => h.ok && pairOk b
  | .cpyts h _ _ _ b _ _ _ _ _ p => h.ok && decide (p.toNat ≤ 4) && pairOk b
  | .cpyg h _ _ _ _ _ _ _ _ => h.ok
  | .cpyr h _ _ _ _ _ _ _ _ sum rfmt => h.ok && (!rfmt || sum)
  | .cpys h _ _ _ _ _ _ _ red rop rfmt => h.ok && (!rop || red) && (!rfmt || red)
  | .relayout h _ _ _ _ _ _ => h.ok
  | .relayoutResRetry h _ _ => h.ok
  | .tstat h _ _ sel => h.ok && sel != 3#2
  | .tsync h _ => h.ok
  | .rbsetClr h _ _ => h.ok
  | .rbsetSet h _ _ _ => h.ok
  | .rbsetUnset h _ _ _ => h.ok
  | .rbsetSetV h _ _ _ _ _ => h.ok
  | .rbsetUnsetV h _ _ _ _ _ => h.ok
  | .ridx h _ _ _ => h.ok
  | .rrank h _ _ _ _ _ => h.ok
  | .rrankV h _ _ _ _ _ _ _ => h.ok
  | .rsel h _ _ _ _ _ => h.ok
  | .rselV h _ _ _ _ _ _ _ => h.ok
  | .rhist h _ _ _ _ => h.ok
  | .place h _ _ _ _ _ _ => h.ok
  | .ctxsave h _ _ => h.ok
  | .ctxload h _ _ => h.ok
  | .tlbinvAddress h _ _ => h.ok
  | .preemptStatus h _ _ _ => h.ok
  | .lcfgGang h _ _ _ => h.ok
  | .lcfgUngang h => h.ok
  | .lcfgWset h _ _ => h.ok
  | .lcfgWclr h _ => h.ok
  | .lstat h _ _ => h.ok
  | .pexcReadThresholds h _ _ _ => h.ok
  | .pexcSetThresholds h _ _ _ => h.ok
  | .pexcReadClearCounters h _ _ _ => h.ok
  | .pexcSetDitherPhase h _ _ _ => h.ok
  | .pexcResume h _ _ _ => h.ok
  | .relayoutResAbandon h _ _ => h.ok
  | .tlbinvAsid h _ _ => h.ok
  | .tlbinvAll h _ _ => h.ok
  | .preemptStop h _ _ _ => h.ok
  | .preemptHalt h _ _ _ => h.ok
  | .preemptResume h _ _ _ => h.ok
  | .preemptTerminate h _ _ _ => h.ok
  | .loadReturn ctx reg => decide (ctx < 512) && decide (reg < 64)
  | .icacheFill core _ => decide (core < 128)
  | .cohortCompletion _ => true
  | .schedulerPass die => decide (die < 4)
  | .quantumExpiry _ => true
  | .headWaitExpiry die level => decide (die < 4) && decide (level < 8)
  | .cohortSaveComplete _ => true
  | .cohortRestoreComplete _ => true
  | .parkTimeout ctx => decide (ctx < 512)
  | .wakeArrival ctx => decide (ctx < 512)
  | .vectorStart core => decide (core < 128)
  | .vectorComplete ctx => decide (ctx < 512)
  | .partitionWindowCleared core _ => decide (core < 128)
  | .configLoadStart core part => decide (core < 128) && decide (part < 4)
  | .configReady core part => decide (core < 128) && decide (part < 4)
  | .configActivate core part => decide (core < 128) && decide (part < 4)
  | .clearStart core part => decide (core < 128) && decide (part < 4)
  | .clearComplete core part => decide (core < 128) && decide (part < 4)
  | .operandCommandStart core part => decide (core < 128) && decide (part < 4)
  | .gangSetStart _ => true
  | .foldBegin core part => decide (core < 128) && decide (part < 4)
  | .foldLand core part => decide (core < 128) && decide (part < 4)
  | .pscanComplete core part => decide (core < 128) && decide (part < 4)
  | .ptopkComplete core part => decide (core < 128) && decide (part < 4)
  | .drainStart core part => decide (core < 128) && decide (part < 4)
  | .drainComplete core part => decide (core < 128) && decide (part < 4)
  | .configCacheFill die _ => decide (die < 4)
  | .spcfgApply core => decide (core < 128)
  | .copyCommandStart core eng => decide (core < 128) && decide (eng < 2)
  | .copyBeatLand core eng slot => decide (core < 128) && decide (eng < 2) && decide (slot < 4)
  | .layoutUnitTake die => decide (die < 4)
  | .layoutUnitComplete die => decide (die < 4)
  | .layoutUnitFault die => decide (die < 4)
  | .placeStart die => decide (die < 4)
  | .placeComplete die => decide (die < 4)
  | .asyncTrapDeliver ctx => decide (ctx < 512)
  | .peerRequestReceive port _ => decide (port < 24)
  | .peerResponseReceive _ _ => true
  | .peerTimeout _ => true
  | .hostLaunchWindowWrite die _ _ => decide (die < 4)
  | .launchWindowAccept die level => decide (die < 4) && decide (level < 8)
  | .hostGateRead gate => decide (gate < 1024)
  | .hostGateWrite gate _ => decide (gate < 1024)
  | .bar0RegisterWrite _ _ _ => true
  | .hostBar2Read _ _ => true
  | .hostBar2Write _ _ => true
  | .mailboxLoad => true
  | .mailboxAttest => true
  | .mailboxSetcap => true
  | .mailboxTermlog => true
  | .mailboxSvnset => true
  | .mailboxSelftest => true
  | .powerOnReset => true
  | .selftestDone _ => true
  | .firmwareVerify _ => true
  | .configDone _ => true
  | .trip island => decide (island < 32)
  | .currentLimitStretch island => decide (island < 32)
  | .monitorRefresh island _ => decide (island < 32)
  | .barrierArrival ctx => decide (ctx < 512)
  | .storePerformed ctx _ => decide (ctx < 512)
  | .linkDown port => decide (port < 24)
  | .linkUp port device => decide (port < 24) && decide (device < 1024)
  | .patrolScrub _ => true
  | .islandClockChange island mhz => decide (island < 32) && decide (800 ≤ mhz) && decide (mhz ≤ 3300) && decide (mhz % 100 = 0)
  | .firmwareTerminate _ => true
  | .powerOff => true

end Sys2Proof
end

