-- ==== Sys2Proof/Decode.lean ====
section
/-!
DEFINITION. From words to instructions and back. `readFields` reads the fields of a word by the formats
of R46, R53 and R54 and picks the row by major, FN and the modifiers that select a row; `encode` writes
the words of an instruction from the same tables; `decode` accepts a word when its fields are well formed
and every other bit of it is zero (R56), and names the reason when it refuses.
-/
namespace Sys2Proof

/-- Why a word is not an instruction (R56). Each is ILLEGAL_INSTR. -/
inductive DecodeError where
  /-- reserved major, the all-zero word, or major 0x3F -/
  | reservedMajor
  /-- no row of the major has these FN and selecting modifiers -/
  | reservedFn
  /-- a field value or a combination that the formats or the sub-map forbid -/
  | illegalField
  /-- a non-zero reserved field or bit -/
  | reservedBit
  deriving DecidableEq, Repr

/-- R42, R53: major 0x38 and above take two words. -/
def isDouble (w : Word) : Bool := decide (0x38 ≤ (w.extractLsb' 58 6).toNat)

/-- R42: the guard and wait fields. -/
def readHdr (w : Word) : Hdr :=
  { sense := w.getLsbD 57, pred := w.extractLsb' 54 3, wten := w.getLsbD 53, wtcnt := w.extractLsb' 48 5 }

/-- R46, R48: OC, SCOPE and ORD whose lowest bit is bit `lo`. -/
def readOrd (w : Word) (lo : Nat) : MemOrd :=
  { oc := w.extractLsb' (lo + 5) 2, scope := w.extractLsb' (lo + 2) 3, ord := w.extractLsb' lo 2 }

/-- R46: CNT, CNTEN and OC of format E. -/
def readCtl (w : Word) : CmdCtl :=
  { cnt := w.extractLsb' 43 5, cnten := w.getLsbD 42, oc := w.extractLsb' 40 2 }

/-- The rows of major 0x01. -/
def readIalu (w : Word) : Option Instr :=
  if w.extractLsb' 12 12 == 0#12 then
    some (.add (readHdr w) (w.extractLsb' 42 6) (w.extractLsb' 36 6) (w.extractLsb' 30 6))
  else if w.extractLsb' 12 12 == 1#12 then
    some (.sub (readHdr w) (w.extractLsb' 42 6) (w.extractLsb' 36 6) (w.extractLsb' 30 6))
  else if w.extractLsb' 12 12 == 2#12 then
    some (.mul (readHdr w) (w.extractLsb' 42 6) (w.extractLsb' 36 6) (w.extractLsb' 30 6))
  else if w.extractLsb' 12 12 == 3#12 then
    some (.mulh (readHdr w) (w.extractLsb' 42 6) (w.extractLsb' 36 6) (w.extractLsb' 30 6))
  else if w.extractLsb' 12 12 == 4#12 then
    some (.mulhu (readHdr w) (w.extractLsb' 42 6) (w.extractLsb' 36 6) (w.extractLsb' 30 6))
  else if w.extractLsb' 12 12 == 5#12 then
    some (.mulhsu (readHdr w) (w.extractLsb' 42 6) (w.extractLsb' 36 6) (w.extractLsb' 30 6))
  else if w.extractLsb' 12 12 == 6#12 then
    some (.div (readHdr w) (w.extractLsb' 42 6) (w.extractLsb' 36 6) (w.extractLsb' 30 6))
  else if w.extractLsb' 12 12 == 7#12 then
    some (.divu (readHdr w) (w.extractLsb' 42 6) (w.extractLsb' 36 6) (w.extractLsb' 30 6))
  else if w.extractLsb' 12 12 == 8#12 then
    some (.rem (readHdr w) (w.extractLsb' 42 6) (w.extractLsb' 36 6) (w.extractLsb' 30 6))
  else if w.extractLsb' 12 12 == 9#12 then
    some (.remu (readHdr w) (w.extractLsb' 42 6) (w.extractLsb' 36 6) (w.extractLsb' 30 6))
  else if w.extractLsb' 12 12 == 16#12 then
    some (.and (readHdr w) (w.extractLsb' 42 6) (w.extractLsb' 36 6) (w.extractLsb' 30 6))
  else if w.extractLsb' 12 12 == 17#12 then
    some (.or (readHdr w) (w.extractLsb' 42 6) (w.extractLsb' 36 6) (w.extractLsb' 30 6))
  else if w.extractLsb' 12 12 == 18#12 then
    some (.xor (readHdr w) (w.extractLsb' 42 6) (w.extractLsb' 36 6) (w.extractLsb' 30 6))
  else if w.extractLsb' 12 12 == 19#12 then
    some (.andn (readHdr w) (w.extractLsb' 42 6) (w.extractLsb' 36 6) (w.extractLsb' 30 6))
  else if w.extractLsb' 12 12 == 20#12 then
    some (.orn (readHdr w) (w.extractLsb' 42 6) (w.extractLsb' 36 6) (w.extractLsb' 30 6))
  else if w.extractLsb' 12 12 == 21#12 then
    some (.xnor (readHdr w) (w.extractLsb' 42 6) (w.extractLsb' 36 6) (w.extractLsb' 30 6))
  else if w.extractLsb' 12 12 == 32#12 then
    some (.shl (readHdr w) (w.extractLsb' 42 6) (w.extractLsb' 36 6) (w.extractLsb' 30 6))
  else if w.extractLsb' 12 12 == 33#12 then
    some (.shr (readHdr w) (w.extractLsb' 42 6) (w.extractLsb' 36 6) (w.extractLsb' 30 6))
  else if w.extractLsb' 12 12 == 34#12 then
    some (.sar (readHdr w) (w.extractLsb' 42 6) (w.extractLsb' 36 6) (w.extractLsb' 30 6))
  else if w.extractLsb' 12 12 == 35#12 then
    some (.rol (readHdr w) (w.extractLsb' 42 6) (w.extractLsb' 36 6) (w.extractLsb' 30 6))
  else if w.extractLsb' 12 12 == 36#12 then
    some (.ror (readHdr w) (w.extractLsb' 42 6) (w.extractLsb' 36 6) (w.extractLsb' 30 6))
  else if w.extractLsb' 12 12 == 40#12 then
    some (.min (readHdr w) (w.extractLsb' 42 6) (w.extractLsb' 36 6) (w.extractLsb' 30 6))
  else if w.extractLsb' 12 12 == 41#12 then
    some (.max (readHdr w) (w.extractLsb' 42 6) (w.extractLsb' 36 6) (w.extractLsb' 30 6))
  else if w.extractLsb' 12 12 == 42#12 then
    some (.minu (readHdr w) (w.extractLsb' 42 6) (w.extractLsb' 36 6) (w.extractLsb' 30 6))
  else if w.extractLsb' 12 12 == 43#12 then
    some (.maxu (readHdr w) (w.extractLsb' 42 6) (w.extractLsb' 36 6) (w.extractLsb' 30 6))
  else if w.extractLsb' 12 12 == 48#12 then
    some (.clz (readHdr w) (w.extractLsb' 42 6) (w.extractLsb' 36 6) (w.extractLsb' 0 2))
  else if w.extractLsb' 12 12 == 49#12 then
    some (.ctz (readHdr w) (w.extractLsb' 42 6) (w.extractLsb' 36 6) (w.extractLsb' 0 2))
  else if w.extractLsb' 12 12 == 50#12 then
    some (.popc (readHdr w) (w.extractLsb' 42 6) (w.extractLsb' 36 6) (w.extractLsb' 0 2))
  else if w.extractLsb' 12 12 == 51#12 then
    some (.brev (readHdr w) (w.extractLsb' 42 6) (w.extractLsb' 36 6) (w.extractLsb' 0 2))
  else if w.extractLsb' 12 12 == 52#12 then
    some (.bswap (readHdr w) (w.extractLsb' 42 6) (w.extractLsb' 36 6) (w.extractLsb' 0 2))
  else if w.extractLsb' 12 12 == 56#12 then
    some (.exts (readHdr w) (w.extractLsb' 42 6) (w.extractLsb' 36 6) (w.extractLsb' 0 6))
  else if w.extractLsb' 12 12 == 57#12 then
    some (.extz (readHdr w) (w.extractLsb' 42 6) (w.extractLsb' 36 6) (w.extractLsb' 0 6))
  else if w.extractLsb' 12 12 == 58#12 then
    some (.bfx (readHdr w) (w.extractLsb' 42 6) (w.extractLsb' 36 6) (w.extractLsb' 6 6) (w.extractLsb' 0 6))
  else if w.extractLsb' 12 12 == 59#12 then
    some (.bfi (readHdr w) (w.extractLsb' 42 6) (w.extractLsb' 36 6) (w.extractLsb' 30 6) (w.extractLsb' 6 6) (w.extractLsb' 0 6))
  else if w.extractLsb' 12 12 == 64#12 then
    some (.sel (readHdr w) (w.extractLsb' 42 6) (w.extractLsb' 36 6) (w.extractLsb' 30 6) (w.extractLsb' 24 3))
  else if w.extractLsb' 12 12 == 65#12 then
    some (.lea (readHdr w) (w.extractLsb' 42 6) (w.extractLsb' 36 6) (w.extractLsb' 30 6) (w.extractLsb' 0 2) (w.extractLsb' 2 10))
  else none

/-- The rows of major 0x02. -/
def readIalui (w : Word) : Option Instr :=
  if w.extractLsb' 32 4 == 0#4 then
    some (.addi (readHdr w) (w.extractLsb' 42 6) (w.extractLsb' 36 6) (w.extractLsb' 0 32))
  else if w.extractLsb' 32 4 == 1#4 then
    some (.muli (readHdr w) (w.extractLsb' 42 6) (w.extractLsb' 36 6) (w.extractLsb' 0 32))
  else if w.extractLsb' 32 4 == 2#4 then
    some (.andi (readHdr w) (w.extractLsb' 42 6) (w.extractLsb' 36 6) (w.extractLsb' 0 32))
  else if w.extractLsb' 32 4 == 3#4 then
    some (.ori (readHdr w) (w.extractLsb' 42 6) (w.extractLsb' 36 6) (w.extractLsb' 0 32))
  else if w.extractLsb' 32 4 == 4#4 then
    some (.xori (readHdr w) (w.extractLsb' 42 6) (w.extractLsb' 36 6) (w.extractLsb' 0 32))
  else if w.extractLsb' 32 4 == 5#4 then
    some (.shli (readHdr w) (w.extractLsb' 42 6) (w.extractLsb' 36 6) (w.extractLsb' 0 6))
  else if w.extractLsb' 32 4 == 6#4 then
    some (.shri (readHdr w) (w.extractLsb' 42 6) (w.extractLsb' 36 6) (w.extractLsb' 0 6))
  else if w.extractLsb' 32 4 == 7#4 then
    some (.sari (readHdr w) (w.extractLsb' 42 6) (w.extractLsb' 36 6) (w.extractLsb' 0 6))
  else if w.extractLsb' 32 4 == 8#4 then
    some (.movi (readHdr w) (w.extractLsb' 42 6) (w.extractLsb' 0 32))
  else if w.extractLsb' 32 4 == 9#4 then
    some (.movhi (readHdr w) (w.extractLsb' 42 6) (w.extractLsb' 36 6) (w.extractLsb' 0 32))
  else none

/-- The rows of major 0x03. -/
def readCmpPred (w : Word) : Option Instr :=
  if !w.getLsbD 47 && w.extractLsb' 12 12 == 0#12 then
    some (.cmp (readHdr w) (w.extractLsb' 42 3) (w.extractLsb' 36 6) (w.extractLsb' 30 6) (w.extractLsb' 0 4))
  else if !w.getLsbD 47 && w.extractLsb' 12 12 == 1#12 then
    some (.test (readHdr w) (w.extractLsb' 42 3) (w.extractLsb' 36 6) (w.extractLsb' 30 6) (w.getLsbD 0))
  else if !w.getLsbD 47 && w.extractLsb' 12 12 == 16#12 then
    some (.pand (readHdr w) (w.extractLsb' 42 3) (w.extractLsb' 36 3) (w.extractLsb' 30 3) (w.getLsbD 0) (w.getLsbD 1))
  else if !w.getLsbD 47 && w.extractLsb' 12 12 == 17#12 then
    some (.por (readHdr w) (w.extractLsb' 42 3) (w.extractLsb' 36 3) (w.extractLsb' 30 3) (w.getLsbD 0) (w.getLsbD 1))
  else if !w.getLsbD 47 && w.extractLsb' 12 12 == 18#12 then
    some (.pxor (readHdr w) (w.extractLsb' 42 3) (w.extractLsb' 36 3) (w.extractLsb' 30 3) (w.getLsbD 0) (w.getLsbD 1))
  else if !w.getLsbD 47 && w.extractLsb' 12 12 == 19#12 then
    some (.pnot (readHdr w) (w.extractLsb' 42 3) (w.extractLsb' 36 3))
  else if !w.getLsbD 47 && w.extractLsb' 12 12 == 20#12 then
    some (.pmov (readHdr w) (w.extractLsb' 42 3) (w.extractLsb' 36 3))
  else if w.getLsbD 47 then
    some (.cmpi (readHdr w) (w.extractLsb' 42 3) (w.extractLsb' 36 6) (w.extractLsb' 32 4) (w.extractLsb' 0 32))
  else none

/-- The rows of major 0x04. -/
def readBranch (w : Word) : Option Instr :=
  if w.extractLsb' 42 6 == 0#6 then
    some (.br (readHdr w) (w.extractLsb' 0 42))
  else some (.call (readHdr w) (w.extractLsb' 42 6) (w.extractLsb' 0 42))

/-- The rows of major 0x05. -/
def readJump (w : Word) : Option Instr :=
  if w.extractLsb' 12 12 == 0#12 then
    some (.jmpr (readHdr w) (w.extractLsb' 36 6))
  else if w.extractLsb' 12 12 == 1#12 then
    some (.callr (readHdr w) (w.extractLsb' 42 6) (w.extractLsb' 36 6))
  else if w.extractLsb' 12 12 == 2#12 then
    some (.ret (readHdr w) (w.extractLsb' 36 6))
  else if w.extractLsb' 12 12 == 16#12 then
    some (.loop (readHdr w) (w.getLsbD 11) (w.extractLsb' 30 6) (w.extractLsb' 0 11))
  else none

/-- The rows of major 0x06. -/
def readLoad (w : Word) : Option Instr :=
  if !w.getLsbD 22 then
    some (.ld (readHdr w) (w.extractLsb' 42 6) (w.extractLsb' 36 6) (w.extractLsb' 30 6) (readOrd w 23) (w.extractLsb' 20 2) (w.getLsbD 19) (w.extractLsb' 0 19))
  else if w.extractLsb' 20 3 == 7#3 then
    some (.pref (readHdr w) (w.extractLsb' 36 6) (w.extractLsb' 30 6) (w.extractLsb' 0 19))
  else none

/-- The rows of major 0x07. -/
def readStore (w : Word) : Option Instr :=
  some (.st (readHdr w) (w.extractLsb' 42 6) (w.extractLsb' 36 6) (w.extractLsb' 30 6) (readOrd w 23) (w.extractLsb' 20 2) (w.extractLsb' 0 19))

/-- The rows of major 0x08. -/
def readAmo (w : Word) : Option Instr :=
  if w.extractLsb' 12 12 == 0#12 then
    some (.amoSwap (readHdr w) (w.extractLsb' 42 6) (w.extractLsb' 36 6) (w.extractLsb' 30 6) (readOrd w 5) (w.getLsbD 0))
  else if w.extractLsb' 12 12 == 1#12 then
    some (.amoAdd (readHdr w) (w.extractLsb' 42 6) (w.extractLsb' 36 6) (w.extractLsb' 30 6) (readOrd w 5) (w.getLsbD 0))
  else if w.extractLsb' 12 12 == 2#12 then
    some (.amoAnd (readHdr w) (w.extractLsb' 42 6) (w.extractLsb' 36 6) (w.extractLsb' 30 6) (readOrd w 5) (w.getLsbD 0))
  else if w.extractLsb' 12 12 == 3#12 then
    some (.amoOr (readHdr w) (w.extractLsb' 42 6) (w.extractLsb' 36 6) (w.extractLsb' 30 6) (readOrd w 5) (w.getLsbD 0))
  else if w.extractLsb' 12 12 == 4#12 then
    some (.amoXor (readHdr w) (w.extractLsb' 42 6) (w.extractLsb' 36 6) (w.extractLsb' 30 6) (readOrd w 5) (w.getLsbD 0))
  else if w.extractLsb' 12 12 == 5#12 then
    some (.amoMin (readHdr w) (w.extractLsb' 42 6) (w.extractLsb' 36 6) (w.extractLsb' 30 6) (readOrd w 5) (w.getLsbD 0))
  else if w.extractLsb' 12 12 == 6#12 then
    some (.amoMax (readHdr w) (w.extractLsb' 42 6) (w.extractLsb' 36 6) (w.extractLsb' 30 6) (readOrd w 5) (w.getLsbD 0))
  else if w.extractLsb' 12 12 == 7#12 then
    some (.amoMinu (readHdr w) (w.extractLsb' 42 6) (w.extractLsb' 36 6) (w.extractLsb' 30 6) (readOrd w 5) (w.getLsbD 0))
  else if w.extractLsb' 12 12 == 8#12 then
    some (.amoMaxu (readHdr w) (w.extractLsb' 42 6) (w.extractLsb' 36 6) (w.extractLsb' 30 6) (readOrd w 5) (w.getLsbD 0))
  else if w.extractLsb' 12 12 == 16#12 then
    some (.amocas (readHdr w) (w.extractLsb' 42 6) (w.extractLsb' 36 6) (w.extractLsb' 30 6) (w.extractLsb' 24 6) (readOrd w 5) (w.getLsbD 0))
  else if w.extractLsb' 12 12 == 32#12 then
    some (.amofadd (readHdr w) (w.extractLsb' 42 6) (w.extractLsb' 36 6) (w.extractLsb' 30 6) (readOrd w 5) (w.getLsbD 0))
  else none

/-- The rows of major 0x09. -/
def readSync (w : Word) : Option Instr :=
  if w.extractLsb' 12 12 == 32#12 then
    some (.yieldI (readHdr w) (w.getLsbD 0))
  else if w.extractLsb' 12 12 == 33#12 then
    some (.park (readHdr w) (w.extractLsb' 42 6) (w.extractLsb' 36 6))
  else if w.extractLsb' 12 12 == 34#12 then
    some (.wake (readHdr w) (w.extractLsb' 36 6))
  else if w.extractLsb' 12 12 == 48#12 then
    some (.cset (readHdr w) (w.extractLsb' 24 5) (w.extractLsb' 36 6))
  else if w.extractLsb' 12 12 == 49#12 then
    some (.cadd (readHdr w) (w.extractLsb' 24 5) (w.extractLsb' 36 6))
  else if w.extractLsb' 12 12 == 50#12 then
    some (.cwait (readHdr w) (w.extractLsb' 24 5) (w.extractLsb' 36 6))
  else if w.extractLsb' 12 12 == 51#12 then
    some (.crdc (readHdr w) (w.extractLsb' 42 6) (w.extractLsb' 24 5))
  else if w.extractLsb' 12 12 == 64#12 then
    some (.barinit (readHdr w) (w.extractLsb' 36 6) (w.extractLsb' 30 6))
  else if w.extractLsb' 12 12 == 65#12 then
    some (.bara (readHdr w) (w.extractLsb' 42 6) (w.extractLsb' 36 6))
  else if w.extractLsb' 12 12 == 66#12 then
    some (.barw (readHdr w) (w.extractLsb' 36 6) (w.extractLsb' 30 6))
  else if w.extractLsb' 12 12 == 80#12 then
    some (.gset (readHdr w) (w.extractLsb' 36 6) (w.extractLsb' 30 6))
  else if w.extractLsb' 12 12 == 81#12 then
    some (.gadd (readHdr w) (w.extractLsb' 42 6) (w.extractLsb' 36 6) (w.extractLsb' 30 6))
  else if w.extractLsb' 12 12 == 82#12 then
    some (.grd (readHdr w) (w.extractLsb' 42 6) (w.extractLsb' 36 6))
  else if w.extractLsb' 12 12 == 0#12 then
    some (.fence (readHdr w) (w.extractLsb' 4 3) (w.extractLsb' 0 4))
  else none

/-- The rows of major 0x0A. -/
def readFpu (w : Word) : Option Instr :=
  if w.extractLsb' 12 12 == 0#12 then
    some (.fadd (readHdr w) (w.extractLsb' 42 6) (w.extractLsb' 36 6) (w.extractLsb' 30 6) (w.extractLsb' 4 2) (w.extractLsb' 0 4))
  else if w.extractLsb' 12 12 == 1#12 then
    some (.fsub (readHdr w) (w.extractLsb' 42 6) (w.extractLsb' 36 6) (w.extractLsb' 30 6) (w.extractLsb' 4 2) (w.extractLsb' 0 4))
  else if w.extractLsb' 12 12 == 2#12 then
    some (.fmul (readHdr w) (w.extractLsb' 42 6) (w.extractLsb' 36 6) (w.extractLsb' 30 6) (w.extractLsb' 4 2) (w.extractLsb' 0 4))
  else if w.extractLsb' 12 12 == 3#12 then
    some (.ffma (readHdr w) (w.extractLsb' 42 6) (w.extractLsb' 36 6) (w.extractLsb' 30 6) (w.extractLsb' 24 6) (w.extractLsb' 4 2) (w.extractLsb' 0 4))
  else if w.extractLsb' 12 12 == 4#12 then
    some (.fdiv (readHdr w) (w.extractLsb' 42 6) (w.extractLsb' 36 6) (w.extractLsb' 30 6) (w.extractLsb' 4 2) (w.extractLsb' 0 4))
  else if w.extractLsb' 12 12 == 5#12 then
    some (.fsqrt (readHdr w) (w.extractLsb' 42 6) (w.extractLsb' 36 6) (w.extractLsb' 4 2) (w.extractLsb' 0 4))
  else if w.extractLsb' 12 12 == 6#12 then
    some (.fmin (readHdr w) (w.extractLsb' 42 6) (w.extractLsb' 36 6) (w.extractLsb' 30 6) (w.extractLsb' 4 2))
  else if w.extractLsb' 12 12 == 7#12 then
    some (.fmax (readHdr w) (w.extractLsb' 42 6) (w.extractLsb' 36 6) (w.extractLsb' 30 6) (w.extractLsb' 4 2))
  else if w.extractLsb' 12 12 == 8#12 then
    some (.fcmp (readHdr w) (w.extractLsb' 42 3) (w.extractLsb' 36 6) (w.extractLsb' 30 6) (w.extractLsb' 4 2) (w.extractLsb' 0 3))
  else if w.extractLsb' 12 12 == 9#12 then
    some (.fclass (readHdr w) (w.extractLsb' 42 6) (w.extractLsb' 36 6) (w.extractLsb' 4 2))
  else if w.extractLsb' 12 12 == 10#12 then
    some (.fsgn (readHdr w) (w.extractLsb' 42 6) (w.extractLsb' 36 6) (w.extractLsb' 30 6) (w.extractLsb' 4 2) (w.extractLsb' 0 2))
  else none

/-- The rows of major 0x0B. -/
def readFcvt (w : Word) : Option Instr :=
  if w.extractLsb' 20 4 == 0#4 then
    some (.fcvt (readHdr w) (w.extractLsb' 42 6) (w.extractLsb' 36 6) (w.extractLsb' 12 8) (w.extractLsb' 4 8) (w.extractLsb' 0 4))
  else if w.extractLsb' 20 4 == 1#4 then
    some (.fcvti (readHdr w) (w.extractLsb' 42 6) (w.extractLsb' 36 6) (w.extractLsb' 12 8) (w.extractLsb' 4 8) (w.extractLsb' 0 4))
  else if w.extractLsb' 20 4 == 2#4 then
    some (.icvtf (readHdr w) (w.extractLsb' 42 6) (w.extractLsb' 36 6) (w.extractLsb' 12 8) (w.extractLsb' 4 8) (w.extractLsb' 0 4))
  else none

/-- The rows of major 0x0C. -/
def readSys (w : Word) : Option Instr :=
  if w.extractLsb' 12 12 == 0#12 then
    some (.nop (readHdr w))
  else if w.extractLsb' 12 12 == 1#12 then
    some (.crd (readHdr w) (w.extractLsb' 42 6) (w.extractLsb' 0 12))
  else if w.extractLsb' 12 12 == 2#12 then
    some (.cwr (readHdr w) (w.extractLsb' 36 6) (w.extractLsb' 0 12))
  else if w.extractLsb' 12 12 == 3#12 then
    some (.halt (readHdr w))
  else if w.extractLsb' 12 12 == 4#12 then
    some (.trap (readHdr w) (w.extractLsb' 0 12))
  else if w.extractLsb' 12 12 == 5#12 then
    some (.eret (readHdr w))
  else if w.extractLsb' 12 12 == 6#12 then
    some (.brk (readHdr w) (w.extractLsb' 0 12))
  else if w.extractLsb' 12 12 == 16#12 then
    some (.launch (readHdr w) (w.extractLsb' 42 6) (w.extractLsb' 36 6))
  else if w.extractLsb' 12 12 == 17#12 then
    some (.exit (readHdr w))
  else if w.extractLsb' 12 12 == 32#12 then
    some (.ctxsave (readHdr w) (w.extractLsb' 36 6) (w.extractLsb' 30 6))
  else if w.extractLsb' 12 12 == 33#12 then
    some (.ctxload (readHdr w) (w.extractLsb' 36 6) (w.extractLsb' 30 6))
  else if w.extractLsb' 12 12 == 34#12 then
    some (.tlbinvAddress (readHdr w) (w.extractLsb' 36 6) (w.extractLsb' 30 6))
  else if w.extractLsb' 12 12 == 35#12 then
    some (.preemptStatus (readHdr w) (w.extractLsb' 42 6) (w.extractLsb' 36 6) (w.extractLsb' 30 6))
  else none

/-- The rows of major 0x0D. -/
def readQctl (w : Word) : Option Instr :=
  if w.extractLsb' 12 12 == 0#12 then
    some (.rpop (readHdr w) (w.extractLsb' 42 6) (w.extractLsb' 24 3) (w.getLsbD 0))
  else if w.extractLsb' 12 12 == 1#12 then
    some (.qflush (readHdr w) (w.extractLsb' 42 6) (w.extractLsb' 36 6))
  else if w.extractLsb' 12 12 == 2#12 then
    some (.qstat (readHdr w) (w.extractLsb' 42 6) (w.extractLsb' 36 6))
  else if w.extractLsb' 12 12 == 3#12 then
    some (.frpop (readHdr w) (w.extractLsb' 42 6) (w.extractLsb' 36 6))
  else none

/-- The rows of major 0x10. -/
def readVfp (w : Word) : Option Instr :=
  if w.extractLsb' 12 12 == 0#12 then
    some (.vadd (readHdr w) (w.extractLsb' 42 5) (w.extractLsb' 36 5) (w.extractLsb' 30 6) (w.getLsbD 7) (w.extractLsb' 9 3) (w.getLsbD 8) (w.extractLsb' 0 4))
  else if w.extractLsb' 12 12 == 1#12 then
    some (.vsub (readHdr w) (w.extractLsb' 42 5) (w.extractLsb' 36 5) (w.extractLsb' 30 6) (w.getLsbD 7) (w.extractLsb' 9 3) (w.getLsbD 8) (w.extractLsb' 0 4))
  else if w.extractLsb' 12 12 == 2#12 then
    some (.vmul (readHdr w) (w.extractLsb' 42 5) (w.extractLsb' 36 5) (w.extractLsb' 30 6) (w.getLsbD 7) (w.extractLsb' 9 3) (w.getLsbD 8) (w.extractLsb' 0 4))
  else if w.extractLsb' 12 12 == 3#12 then
    some (.vfma (readHdr w) (w.extractLsb' 42 5) (w.extractLsb' 36 5) (w.extractLsb' 30 6) (w.getLsbD 7) (w.extractLsb' 24 5) (w.extractLsb' 9 3) (w.getLsbD 8) (w.extractLsb' 0 4))
  else if w.extractLsb' 12 12 == 4#12 then
    some (.vdiv (readHdr w) (w.extractLsb' 42 5) (w.extractLsb' 36 5) (w.extractLsb' 30 6) (w.getLsbD 7) (w.extractLsb' 9 3) (w.getLsbD 8) (w.extractLsb' 0 4))
  else if w.extractLsb' 12 12 == 5#12 then
    some (.vsqrt (readHdr w) (w.extractLsb' 42 5) (w.extractLsb' 36 5) (w.extractLsb' 9 3) (w.getLsbD 8) (w.extractLsb' 0 4))
  else if w.extractLsb' 12 12 == 6#12 then
    some (.vrcp (readHdr w) (w.extractLsb' 42 5) (w.extractLsb' 36 5) (w.extractLsb' 9 3) (w.getLsbD 8))
  else if w.extractLsb' 12 12 == 7#12 then
    some (.vrsq (readHdr w) (w.extractLsb' 42 5) (w.extractLsb' 36 5) (w.extractLsb' 9 3) (w.getLsbD 8))
  else if w.extractLsb' 12 12 == 8#12 then
    some (.vmin (readHdr w) (w.extractLsb' 42 5) (w.extractLsb' 36 5) (w.extractLsb' 30 6) (w.getLsbD 7) (w.extractLsb' 9 3) (w.getLsbD 8))
  else if w.extractLsb' 12 12 == 9#12 then
    some (.vmax (readHdr w) (w.extractLsb' 42 5) (w.extractLsb' 36 5) (w.extractLsb' 30 6) (w.getLsbD 7) (w.extractLsb' 9 3) (w.getLsbD 8))
  else if w.extractLsb' 12 12 == 10#12 then
    some (.vsgn (readHdr w) (w.extractLsb' 42 5) (w.extractLsb' 36 5) (w.extractLsb' 30 6) (w.getLsbD 7) (w.extractLsb' 0 2) (w.extractLsb' 9 3) (w.getLsbD 8))
  else none

/-- The rows of major 0x11. -/
def readVint (w : Word) : Option Instr :=
  if w.extractLsb' 12 12 == 0#12 then
    some (.viadd (readHdr w) (w.extractLsb' 42 5) (w.extractLsb' 36 5) (w.extractLsb' 30 6) (w.getLsbD 7) (w.getLsbD 5) (w.getLsbD 4) (w.extractLsb' 9 3) (w.getLsbD 8))
  else if w.extractLsb' 12 12 == 1#12 then
    some (.visub (readHdr w) (w.extractLsb' 42 5) (w.extractLsb' 36 5) (w.extractLsb' 30 6) (w.getLsbD 7) (w.getLsbD 5) (w.getLsbD 4) (w.extractLsb' 9 3) (w.getLsbD 8))
  else if w.extractLsb' 12 12 == 2#12 then
    some (.vimul (readHdr w) (w.extractLsb' 42 5) (w.extractLsb' 36 5) (w.extractLsb' 30 6) (w.getLsbD 7) (w.getLsbD 6) (w.getLsbD 4) (w.extractLsb' 9 3) (w.getLsbD 8))
  else if w.extractLsb' 12 12 == 16#12 then
    some (.vand (readHdr w) (w.extractLsb' 42 5) (w.extractLsb' 36 5) (w.extractLsb' 30 6) (w.getLsbD 7) (w.extractLsb' 9 3) (w.getLsbD 8))
  else if w.extractLsb' 12 12 == 17#12 then
    some (.vor (readHdr w) (w.extractLsb' 42 5) (w.extractLsb' 36 5) (w.extractLsb' 30 6) (w.getLsbD 7) (w.extractLsb' 9 3) (w.getLsbD 8))
  else if w.extractLsb' 12 12 == 18#12 then
    some (.vxor (readHdr w) (w.extractLsb' 42 5) (w.extractLsb' 36 5) (w.extractLsb' 30 6) (w.getLsbD 7) (w.extractLsb' 9 3) (w.getLsbD 8))
  else if w.extractLsb' 12 12 == 32#12 then
    some (.vshl (readHdr w) (w.extractLsb' 42 5) (w.extractLsb' 36 5) (w.extractLsb' 30 6) (w.getLsbD 7) (w.extractLsb' 9 3) (w.getLsbD 8))
  else if w.extractLsb' 12 12 == 33#12 then
    some (.vshr (readHdr w) (w.extractLsb' 42 5) (w.extractLsb' 36 5) (w.extractLsb' 30 6) (w.getLsbD 7) (w.extractLsb' 9 3) (w.getLsbD 8))
  else if w.extractLsb' 12 12 == 34#12 then
    some (.vsar (readHdr w) (w.extractLsb' 42 5) (w.extractLsb' 36 5) (w.extractLsb' 30 6) (w.getLsbD 7) (w.extractLsb' 9 3) (w.getLsbD 8))
  else if w.extractLsb' 12 12 == 40#12 then
    some (.vimin (readHdr w) (w.extractLsb' 42 5) (w.extractLsb' 36 5) (w.extractLsb' 30 6) (w.getLsbD 7) (w.getLsbD 4) (w.extractLsb' 9 3) (w.getLsbD 8))
  else if w.extractLsb' 12 12 == 41#12 then
    some (.vimax (readHdr w) (w.extractLsb' 42 5) (w.extractLsb' 36 5) (w.extractLsb' 30 6) (w.getLsbD 7) (w.getLsbD 4) (w.extractLsb' 9 3) (w.getLsbD 8))
  else if w.extractLsb' 12 12 == 48#12 then
    some (.vpopc (readHdr w) (w.extractLsb' 42 5) (w.extractLsb' 36 5) (w.extractLsb' 9 3) (w.getLsbD 8))
  else if w.extractLsb' 12 12 == 56#12 then
    some (.vclmul (readHdr w) (w.extractLsb' 42 5) (w.extractLsb' 36 5) (w.extractLsb' 30 6) (w.getLsbD 7) (w.getLsbD 6) (w.extractLsb' 9 3) (w.getLsbD 8))
  else none

/-- The rows of major 0x12. -/
def readVcvt (w : Word) : Option Instr :=
  some (.vcvt (readHdr w) (w.extractLsb' 42 5) (w.extractLsb' 36 5) (w.extractLsb' 24 3) (w.getLsbD 23) (w.extractLsb' 20 3) (w.extractLsb' 12 8) (w.extractLsb' 4 8) (w.extractLsb' 0 4))

/-- The rows of major 0x13. -/
def readVxf (w : Word) : Option Instr :=
  if w.extractLsb' 12 12 == 0#12 then
    some (.vexp2 (readHdr w) (w.extractLsb' 42 5) (w.extractLsb' 36 5) (w.extractLsb' 9 3) (w.getLsbD 8))
  else if w.extractLsb' 12 12 == 1#12 then
    some (.vlog2 (readHdr w) (w.extractLsb' 42 5) (w.extractLsb' 36 5) (w.extractLsb' 9 3) (w.getLsbD 8))
  else if w.extractLsb' 12 12 == 2#12 then
    some (.vsin (readHdr w) (w.extractLsb' 42 5) (w.extractLsb' 36 5) (w.extractLsb' 9 3) (w.getLsbD 8))
  else if w.extractLsb' 12 12 == 3#12 then
    some (.vcos (readHdr w) (w.extractLsb' 42 5) (w.extractLsb' 36 5) (w.extractLsb' 9 3) (w.getLsbD 8))
  else if w.extractLsb' 12 12 == 4#12 then
    some (.vsinpi (readHdr w) (w.extractLsb' 42 5) (w.extractLsb' 36 5) (w.extractLsb' 9 3) (w.getLsbD 8))
  else if w.extractLsb' 12 12 == 5#12 then
    some (.vcospi (readHdr w) (w.extractLsb' 42 5) (w.extractLsb' 36 5) (w.extractLsb' 9 3) (w.getLsbD 8))
  else none

/-- The rows of major 0x14. -/
def readVperm (w : Word) : Option Instr :=
  if w.extractLsb' 12 12 == 0#12 && w.extractLsb' 0 3 == 0#3 then
    some (.vmovVector (readHdr w) (w.extractLsb' 42 5) (w.extractLsb' 36 5) (w.extractLsb' 9 3) (w.getLsbD 8))
  else if w.extractLsb' 12 12 == 0#12 && w.extractLsb' 0 3 == 1#3 then
    some (.vmovLaneToGeneral (readHdr w) (w.extractLsb' 42 6) (w.extractLsb' 36 5) (w.extractLsb' 30 6))
  else if w.extractLsb' 12 12 == 0#12 && w.extractLsb' 0 3 == 2#3 then
    some (.vmovGeneralToLane (readHdr w) (w.extractLsb' 42 5) (w.extractLsb' 36 6) (w.extractLsb' 30 6))
  else if w.extractLsb' 12 12 == 0#12 && w.extractLsb' 0 3 == 3#3 then
    some (.vmovGeneralToMask (readHdr w) (w.extractLsb' 42 3) (w.extractLsb' 36 6))
  else if w.extractLsb' 12 12 == 0#12 && w.extractLsb' 0 3 == 4#3 then
    some (.vmovMaskToGeneral (readHdr w) (w.extractLsb' 42 6) (w.extractLsb' 36 3))
  else if w.extractLsb' 12 12 == 1#12 then
    some (.vbcast (readHdr w) (w.extractLsb' 42 5) (w.extractLsb' 36 6) (w.extractLsb' 30 6) (w.getLsbD 0) (w.extractLsb' 9 3) (w.getLsbD 8))
  else if w.extractLsb' 12 12 == 2#12 then
    some (.vext (readHdr w) (w.extractLsb' 42 5) (w.extractLsb' 36 5) (w.extractLsb' 30 5) (w.extractLsb' 0 6) (w.extractLsb' 9 3) (w.getLsbD 8))
  else if w.extractLsb' 12 12 == 3#12 then
    some (.vperm (readHdr w) (w.extractLsb' 42 5) (w.extractLsb' 36 5) (w.extractLsb' 30 5) (w.extractLsb' 24 5) (w.getLsbD 0) (w.extractLsb' 9 3) (w.getLsbD 8))
  else if w.extractLsb' 12 12 == 4#12 then
    some (.vpswap (readHdr w) (w.extractLsb' 42 5) (w.extractLsb' 36 5) (w.extractLsb' 0 3) (w.getLsbD 3) (w.extractLsb' 9 3) (w.getLsbD 8))
  else if w.extractLsb' 12 12 == 5#12 then
    some (.vslide (readHdr w) (w.extractLsb' 42 5) (w.extractLsb' 36 5) (w.extractLsb' 30 6) (w.extractLsb' 24 6) (w.getLsbD 0) (w.extractLsb' 9 3) (w.getLsbD 8))
  else if w.extractLsb' 12 12 == 6#12 then
    some (.vcompress (readHdr w) (w.extractLsb' 42 5) (w.extractLsb' 36 5) (w.extractLsb' 9 3) (w.getLsbD 8))
  else if w.extractLsb' 12 12 == 7#12 then
    some (.vexpand (readHdr w) (w.extractLsb' 42 5) (w.extractLsb' 36 5) (w.extractLsb' 9 3) (w.getLsbD 8))
  else if w.extractLsb' 12 12 == 8#12 then
    some (.vsel (readHdr w) (w.extractLsb' 42 5) (w.extractLsb' 36 5) (w.extractLsb' 30 5) (w.extractLsb' 24 3))
  else if w.extractLsb' 12 12 == 9#12 then
    some (.viota (readHdr w) (w.extractLsb' 42 5) (w.extractLsb' 36 3) (w.extractLsb' 9 3) (w.getLsbD 8))
  else if w.extractLsb' 12 12 == 16#12 then
    some (.vred (readHdr w) (w.extractLsb' 42 6) (w.extractLsb' 36 5) (w.extractLsb' 4 4) (w.extractLsb' 0 4) (w.extractLsb' 9 3))
  else if w.extractLsb' 12 12 == 17#12 then
    some (.vscan (readHdr w) (w.extractLsb' 42 5) (w.extractLsb' 36 5) (w.extractLsb' 4 4) (w.extractLsb' 0 4) (w.extractLsb' 9 3) (w.getLsbD 8))
  else if w.extractLsb' 12 12 == 18#12 then
    some (.vscanExcl (readHdr w) (w.extractLsb' 42 5) (w.extractLsb' 36 5) (w.extractLsb' 4 4) (w.extractLsb' 0 4) (w.extractLsb' 9 3) (w.getLsbD 8))
  else none

/-- The rows of major 0x15. -/
def readVmask (w : Word) : Option Instr :=
  if w.extractLsb' 12 12 == 0#12 then
    some (.vcmp (readHdr w) (w.extractLsb' 42 3) (w.extractLsb' 36 5) (w.extractLsb' 30 6) (w.getLsbD 7) (w.extractLsb' 0 3) (w.extractLsb' 9 3) (w.getLsbD 8))
  else if w.extractLsb' 12 12 == 1#12 then
    some (.vicmp (readHdr w) (w.extractLsb' 42 3) (w.extractLsb' 36 5) (w.extractLsb' 30 6) (w.getLsbD 7) (w.extractLsb' 0 4) (w.extractLsb' 9 3) (w.getLsbD 8))
  else if w.extractLsb' 12 12 == 16#12 then
    some (.mand (readHdr w) (w.extractLsb' 42 3) (w.extractLsb' 36 3) (w.extractLsb' 30 3) (w.getLsbD 0) (w.getLsbD 1))
  else if w.extractLsb' 12 12 == 17#12 then
    some (.mor (readHdr w) (w.extractLsb' 42 3) (w.extractLsb' 36 3) (w.extractLsb' 30 3) (w.getLsbD 0) (w.getLsbD 1))
  else if w.extractLsb' 12 12 == 18#12 then
    some (.mxor (readHdr w) (w.extractLsb' 42 3) (w.extractLsb' 36 3) (w.extractLsb' 30 3) (w.getLsbD 0) (w.getLsbD 1))
  else if w.extractLsb' 12 12 == 19#12 then
    some (.mnot (readHdr w) (w.extractLsb' 42 3) (w.extractLsb' 36 3))
  else if w.extractLsb' 12 12 == 32#12 then
    some (.mpopc (readHdr w) (w.extractLsb' 42 6) (w.extractLsb' 36 3))
  else none

/-- The rows of major 0x16. -/
def readVmem (w : Word) : Option Instr :=
  if w.extractLsb' 12 4 == 0#4 then
    some (.vld (readHdr w) (w.extractLsb' 42 5) (w.extractLsb' 36 6) (w.extractLsb' 30 6) (w.extractLsb' 24 6) (w.getLsbD 16) (readOrd w 5) (w.extractLsb' 2 3) (w.getLsbD 0))
  else if w.extractLsb' 12 4 == 1#4 then
    some (.vst (readHdr w) (w.extractLsb' 42 5) (w.extractLsb' 36 6) (w.extractLsb' 30 6) (w.extractLsb' 24 6) (w.getLsbD 16) (readOrd w 5) (w.extractLsb' 2 3) (w.getLsbD 0))
  else none

/-- The rows of major 0x17. -/
def readVidx (w : Word) : Option Instr :=
  if w.extractLsb' 12 4 == 0#4 && w.extractLsb' 16 3 == 0#3 then
    some (.vgath (readHdr w) (w.extractLsb' 42 5) (w.extractLsb' 36 6) (w.extractLsb' 30 5) (w.extractLsb' 19 2) (w.getLsbD 21) (readOrd w 5) (w.extractLsb' 2 3) (w.getLsbD 0))
  else if w.extractLsb' 12 4 == 1#4 && w.extractLsb' 16 3 == 0#3 then
    some (.vscat (readHdr w) (w.extractLsb' 42 5) (w.extractLsb' 36 6) (w.extractLsb' 30 5) (w.extractLsb' 19 2) (w.getLsbD 21) (readOrd w 5) (w.extractLsb' 2 3) (w.getLsbD 0))
  else if w.extractLsb' 12 4 == 1#4 && w.extractLsb' 16 3 == 1#3 then
    some (.vscatAdd (readHdr w) (w.extractLsb' 42 5) (w.extractLsb' 36 6) (w.extractLsb' 30 5) (w.extractLsb' 19 2) (w.getLsbD 21) (readOrd w 5) (w.extractLsb' 2 3) (w.getLsbD 0))
  else if w.extractLsb' 12 4 == 1#4 && w.extractLsb' 16 3 == 2#3 then
    some (.vscatIadd (readHdr w) (w.extractLsb' 42 5) (w.extractLsb' 36 6) (w.extractLsb' 30 5) (w.extractLsb' 19 2) (w.getLsbD 21) (readOrd w 5) (w.extractLsb' 2 3) (w.getLsbD 0))
  else if w.extractLsb' 12 4 == 1#4 && w.extractLsb' 16 3 == 3#3 then
    some (.vscatImin (readHdr w) (w.extractLsb' 42 5) (w.extractLsb' 36 6) (w.extractLsb' 30 5) (w.extractLsb' 19 2) (w.getLsbD 21) (readOrd w 5) (w.extractLsb' 2 3) (w.getLsbD 0))
  else if w.extractLsb' 12 4 == 1#4 && w.extractLsb' 16 3 == 4#3 then
    some (.vscatImax (readHdr w) (w.extractLsb' 42 5) (w.extractLsb' 36 6) (w.extractLsb' 30 5) (w.extractLsb' 19 2) (w.getLsbD 21) (readOrd w 5) (w.extractLsb' 2 3) (w.getLsbD 0))
  else if w.extractLsb' 12 12 == 2#12 then
    some (.vconfl (readHdr w) (w.extractLsb' 42 5) (w.extractLsb' 36 5) (w.extractLsb' 24 3) (w.extractLsb' 9 3) (w.getLsbD 8))
  else if w.extractLsb' 12 4 == 3#4 then
    some (.vcomb (readHdr w) (w.extractLsb' 42 5) (w.extractLsb' 36 5) (w.extractLsb' 30 5) (w.extractLsb' 16 3) (w.extractLsb' 0 4) (w.extractLsb' 9 3) (w.getLsbD 8))
  else none

/-- The rows of major 0x18. -/
def readTens (w : Word) : Option Instr :=
  if w.extractLsb' 12 4 == 0#4 then
    some (.treg (readHdr w) (w.extractLsb' 42 6) (w.extractLsb' 36 6) (w.extractLsb' 30 6))
  else if w.extractLsb' 12 4 == 1#4 then
    some (.trel (readHdr w) (w.extractLsb' 36 6))
  else if w.extractLsb' 12 4 == 2#4 then
    some (.tinfo (readHdr w) (w.extractLsb' 42 6) (w.extractLsb' 36 6) (w.extractLsb' 0 4))
  else if w.extractLsb' 12 4 == 3#4 then
    some (.taddr (readHdr w) (w.extractLsb' 42 6) (w.extractLsb' 36 6) (w.extractLsb' 30 6) (w.getLsbD 17))
  else if w.extractLsb' 12 4 == 4#4 then
    some (.tld (readHdr w) (w.extractLsb' 42 6) (w.extractLsb' 36 6) (w.extractLsb' 30 6) (w.getLsbD 16) (w.getLsbD 17) (readOrd w 5))
  else if w.extractLsb' 12 4 == 5#4 then
    some (.tst (readHdr w) (w.extractLsb' 42 6) (w.extractLsb' 36 6) (w.extractLsb' 30 6) (w.getLsbD 16) (w.getLsbD 17) (w.getLsbD 18) (w.extractLsb' 19 3) (readOrd w 5))
  else if w.extractLsb' 12 4 == 6#4 then
    some (.vldt (readHdr w) (w.extractLsb' 42 5) (w.extractLsb' 36 6) (w.extractLsb' 30 6) (w.getLsbD 16) (w.getLsbD 17) (readOrd w 5) (w.extractLsb' 2 3) (w.getLsbD 0))
  else if w.extractLsb' 12 4 == 7#4 then
    some (.vstt (readHdr w) (w.extractLsb' 42 5) (w.extractLsb' 36 6) (w.extractLsb' 30 6) (w.getLsbD 16) (w.getLsbD 17) (w.getLsbD 18) (w.extractLsb' 19 3) (readOrd w 5) (w.extractLsb' 2 3) (w.getLsbD 0))
  else none

/-- The rows of major 0x19. -/
def readLayt (w : Word) : Option Instr :=
  if w.extractLsb' 0 5 == 0#5 then
    some (.relayout (readHdr w) (w.extractLsb' 43 5) (w.extractLsb' 40 2) (w.extractLsb' 16 6) (w.extractLsb' 34 6) (w.extractLsb' 28 6) (w.extractLsb' 22 6))
  else if w.extractLsb' 0 5 == 16#5 then
    some (.relayoutResRetry (readHdr w) (w.extractLsb' 34 6) (w.extractLsb' 28 6))
  else if w.extractLsb' 0 4 == 1#4 then
    some (.tstat (readHdr w) (w.extractLsb' 16 6) (w.extractLsb' 34 6) (w.extractLsb' 4 2))
  else if w.extractLsb' 0 4 == 2#4 then
    some (.tsync (readHdr w) (w.extractLsb' 34 6))
  else none

/-- The rows of major 0x1A. -/
def readSpad (w : Word) : Option Instr :=
  if w.extractLsb' 12 12 == 0#12 then
    some (.spcfg (readHdr w) (w.extractLsb' 36 6))
  else none

/-- The rows of major 0x1C. -/
def readPoolc (w : Word) : Option Instr :=
  if w.extractLsb' 0 5 == 0#5 then
    some (.ppart (readHdr w) (w.extractLsb' 16 6) (w.extractLsb' 34 6) (w.extractLsb' 28 6))
  else if w.extractLsb' 0 5 == 16#5 then
    some (.ppartRel (readHdr w))
  else if w.extractLsb' 0 5 == 1#5 then
    some (.pcfg (readHdr w) (readCtl w) (w.extractLsb' 34 6))
  else if w.extractLsb' 0 5 == 17#5 then
    some (.pcfgPlc (readHdr w) (readCtl w) (w.extractLsb' 34 6))
  else if w.extractLsb' 0 4 == 2#4 then
    some (.pclr (readHdr w) (readCtl w) (w.extractLsb' 34 6) (w.extractLsb' 28 6))
  else if w.extractLsb' 0 4 == 3#4 then
    some (.pexcReadCounters (readHdr w) (w.extractLsb' 16 6) (w.extractLsb' 34 6) (w.extractLsb' 28 6))
  else none

/-- The rows of major 0x1D. -/
def readPools (w : Word) : Option Instr :=
  if w.extractLsb' 0 4 == 0#4 then
    some (.psweep (readHdr w) (readCtl w) (w.extractLsb' 34 6) (w.extractLsb' 28 6) (w.extractLsb' 22 6) (w.extractLsb' 16 6))
  else if w.extractLsb' 0 4 == 3#4 then
    some (.psweeps (readHdr w) (readCtl w) (w.extractLsb' 34 6) (w.extractLsb' 28 6) (w.extractLsb' 22 6) (w.extractLsb' 16 6))
  else if w.extractLsb' 0 4 == 1#4 then
    some (.pscan (readHdr w) (readCtl w) (w.extractLsb' 34 6) (w.extractLsb' 28 6))
  else if w.extractLsb' 0 4 == 2#4 then
    some (.ptopk (readHdr w) (readCtl w) (w.extractLsb' 34 6) (w.extractLsb' 28 6) (w.extractLsb' 22 6) (w.getLsbD 4))
  else none

/-- The rows of major 0x1E. -/
def readPoold (w : Word) : Option Instr :=
  if w.extractLsb' 0 4 == 0#4 then
    some (.pdrain (readHdr w) (readCtl w) (w.extractLsb' 34 6) (w.extractLsb' 28 6) (w.extractLsb' 22 6) (w.extractLsb' 16 6) (w.extractLsb' 4 3) (w.getLsbD 7) (w.getLsbD 8) (w.getLsbD 9))
  else if w.extractLsb' 0 4 == 1#4 then
    some (.pprog (readHdr w) (w.extractLsb' 16 6))
  else if w.extractLsb' 0 4 == 2#4 then
    some (.pstat (readHdr w) (w.extractLsb' 16 6) (w.extractLsb' 34 6))
  else none

/-- The rows of major 0x1F. -/
def readRoute (w : Word) : Option Instr :=
  if w.extractLsb' 0 4 == 0#4 && !w.getLsbD 6 && w.extractLsb' 4 2 == 0#2 then
    some (.rbsetClr (readHdr w) (w.extractLsb' 40 2) (w.extractLsb' 34 6))
  else if w.extractLsb' 0 4 == 0#4 && !w.getLsbD 6 && w.extractLsb' 4 2 == 1#2 then
    some (.rbsetSet (readHdr w) (w.extractLsb' 40 2) (w.extractLsb' 34 6) (w.extractLsb' 22 6))
  else if w.extractLsb' 0 4 == 0#4 && !w.getLsbD 6 && w.extractLsb' 4 2 == 2#2 then
    some (.rbsetUnset (readHdr w) (w.extractLsb' 40 2) (w.extractLsb' 34 6) (w.extractLsb' 22 6))
  else if w.extractLsb' 0 4 == 0#4 && w.getLsbD 6 && w.extractLsb' 4 2 == 1#2 then
    some (.rbsetSetV (readHdr w) (w.extractLsb' 40 2) (w.extractLsb' 34 6) (w.extractLsb' 22 5) (w.extractLsb' 7 3) (w.getLsbD 10))
  else if w.extractLsb' 0 4 == 0#4 && w.getLsbD 6 && w.extractLsb' 4 2 == 2#2 then
    some (.rbsetUnsetV (readHdr w) (w.extractLsb' 40 2) (w.extractLsb' 34 6) (w.extractLsb' 22 5) (w.extractLsb' 7 3) (w.getLsbD 10))
  else if w.extractLsb' 0 4 == 1#4 && !w.getLsbD 6 then
    some (.ridx (readHdr w) (w.extractLsb' 40 2) (w.extractLsb' 34 6) (w.extractLsb' 28 6))
  else if w.extractLsb' 0 4 == 2#4 && !w.getLsbD 6 then
    some (.rrank (readHdr w) (w.extractLsb' 40 2) (w.extractLsb' 16 6) (w.extractLsb' 34 6) (w.extractLsb' 28 6) (w.extractLsb' 22 6))
  else if w.extractLsb' 0 4 == 2#4 && w.getLsbD 6 then
    some (.rrankV (readHdr w) (w.extractLsb' 40 2) (w.extractLsb' 16 5) (w.extractLsb' 34 6) (w.extractLsb' 28 6) (w.extractLsb' 22 5) (w.extractLsb' 7 3) (w.getLsbD 10))
  else if w.extractLsb' 0 4 == 3#4 && !w.getLsbD 6 then
    some (.rsel (readHdr w) (w.extractLsb' 40 2) (w.extractLsb' 16 6) (w.extractLsb' 34 6) (w.extractLsb' 28 6) (w.extractLsb' 22 6))
  else if w.extractLsb' 0 4 == 3#4 && w.getLsbD 6 then
    some (.rselV (readHdr w) (w.extractLsb' 40 2) (w.extractLsb' 16 5) (w.extractLsb' 34 6) (w.extractLsb' 28 6) (w.extractLsb' 22 5) (w.extractLsb' 7 3) (w.getLsbD 10))
  else if w.extractLsb' 0 4 == 4#4 && !w.getLsbD 6 then
    some (.rhist (readHdr w) (w.extractLsb' 40 2) (w.extractLsb' 16 6) (w.extractLsb' 34 6) (w.extractLsb' 22 6))
  else if w.extractLsb' 0 4 == 5#4 then
    some (.place (readHdr w) (w.extractLsb' 43 5) (w.extractLsb' 40 2) (w.extractLsb' 34 6) (w.extractLsb' 28 6) (w.extractLsb' 22 6) (w.extractLsb' 16 6))
  else none

/-- The rows of major 0x20. -/
def readCopy (w : Word) : Option Instr :=
  if w.extractLsb' 0 3 == 0#3 then
    some (.cpy (readHdr w) (w.extractLsb' 43 5) (w.extractLsb' 40 2) (w.extractLsb' 34 6) (w.extractLsb' 28 6) (w.extractLsb' 22 6) (w.getLsbD 3) (w.getLsbD 4) (w.getLsbD 5) (w.getLsbD 6) (w.getLsbD 7))
  else if w.extractLsb' 0 3 == 1#3 then
    some (.cpy2 (readHdr w) (w.extractLsb' 43 5) (w.extractLsb' 40 2) (w.extractLsb' 34 6) (w.extractLsb' 28 6) (w.extractLsb' 22 6) (w.extractLsb' 16 6) (w.getLsbD 3) (w.getLsbD 4) (w.getLsbD 5) (w.getLsbD 6) (w.getLsbD 7))
  else if w.extractLsb' 0 3 == 2#3 then
    some (.cfill (readHdr w) (w.extractLsb' 43 5) (w.extractLsb' 40 2) (w.extractLsb' 34 6) (w.extractLsb' 28 6) (w.extractLsb' 22 6) (w.getLsbD 3) (w.getLsbD 4) (w.extractLsb' 12 3))
  else if w.extractLsb' 0 3 == 3#3 then
    some (.echk (readHdr w) (w.extractLsb' 16 6) (w.extractLsb' 34 6))
  else none

/-- The rows of major 0x21. -/
def readCopyt (w : Word) : Option Instr :=
  if w.extractLsb' 0 3 == 0#3 then
    some (.cpyt (readHdr w) (w.extractLsb' 43 5) (w.extractLsb' 40 2) (w.extractLsb' 34 6) (w.extractLsb' 28 6) (w.extractLsb' 22 6) (w.extractLsb' 16 6) (w.getLsbD 3) (w.getLsbD 4) (w.getLsbD 8) (w.getLsbD 9) (w.getLsbD 11))
  else if w.extractLsb' 0 3 == 1#3 then
    some (.cpyts (readHdr w) (w.extractLsb' 43 5) (w.extractLsb' 40 2) (w.extractLsb' 34 6) (w.extractLsb' 28 6) (w.extractLsb' 22 6) (w.extractLsb' 16 6) (w.getLsbD 3) (w.getLsbD 9) (w.getLsbD 11) (w.extractLsb' 12 3))
  else none

/-- The rows of major 0x22. -/
def readCopyx (w : Word) : Option Instr :=
  if w.extractLsb' 0 3 == 0#3 then
    some (.cpyg (readHdr w) (w.extractLsb' 43 5) (w.extractLsb' 40 2) (w.extractLsb' 34 6) (w.extractLsb' 28 6) (w.extractLsb' 22 6) (w.extractLsb' 16 6) (w.getLsbD 3) (w.getLsbD 4))
  else if w.extractLsb' 0 3 == 1#3 then
    some (.cpyr (readHdr w) (w.extractLsb' 43 5) (w.extractLsb' 40 2) (w.extractLsb' 34 6) (w.extractLsb' 28 6) (w.extractLsb' 22 6) (w.extractLsb' 16 6) (w.getLsbD 3) (w.getLsbD 4) (w.getLsbD 10) (w.getLsbD 7))
  else if w.extractLsb' 0 3 == 2#3 then
    some (.cpys (readHdr w) (w.extractLsb' 43 5) (w.extractLsb' 40 2) (w.extractLsb' 34 6) (w.extractLsb' 28 6) (w.extractLsb' 22 6) (w.extractLsb' 16 6) (w.getLsbD 3) (w.getLsbD 5) (w.getLsbD 6) (w.getLsbD 7))
  else none

/-- The rows of major 0x24. -/
def readLink (w : Word) : Option Instr :=
  if w.extractLsb' 12 12 == 0#12 && w.extractLsb' 0 3 == 0#3 then
    some (.lcfgGang (readHdr w) (w.extractLsb' 42 6) (w.extractLsb' 36 6) (w.extractLsb' 30 6))
  else if w.extractLsb' 12 12 == 0#12 && w.extractLsb' 0 3 == 1#3 then
    some (.lcfgUngang (readHdr w))
  else if w.extractLsb' 12 12 == 0#12 && w.extractLsb' 0 3 == 2#3 then
    some (.lcfgWset (readHdr w) (w.extractLsb' 36 6) (w.extractLsb' 30 6))
  else if w.extractLsb' 12 12 == 0#12 && w.extractLsb' 0 3 == 3#3 then
    some (.lcfgWclr (readHdr w) (w.extractLsb' 30 6))
  else if w.extractLsb' 12 12 == 1#12 && w.extractLsb' 0 3 == 0#3 then
    some (.lstat (readHdr w) (w.extractLsb' 42 6) (w.extractLsb' 36 6))
  else none

/-- The rows of major 0x38. -/
def readMovx (w w1 : Word) : Option Instr :=
  if w.extractLsb' 32 4 == 0#4 then
    some (.movx (readHdr w) (w.extractLsb' 42 6) w1)
  else none

/-- The rows of major 0x39. -/
def readBrx (w w1 : Word) : Option Instr :=
  if w.extractLsb' 32 4 == 0#4 then
    some (.brx (readHdr w) (w.extractLsb' 42 6) w1)
  else if w.extractLsb' 32 4 == 1#4 then
    some (.brxRel (readHdr w) (w.extractLsb' 42 6) w1)
  else none

/-- The fields of a word, and of a second word where the major has one: the row by its major. -/
def readFields (w w1 : Word) : Except DecodeError Instr :=
  let row : Option Instr → Except DecodeError Instr := fun r =>
    match r with
    | some i => .ok i
    | none => .error .reservedFn
  match (w.extractLsb' 58 6).toNat with
  | 0x01 => row (readIalu w)
  | 0x02 => row (readIalui w)
  | 0x03 => row (readCmpPred w)
  | 0x04 => row (readBranch w)
  | 0x05 => row (readJump w)
  | 0x06 => row (readLoad w)
  | 0x07 => row (readStore w)
  | 0x08 => row (readAmo w)
  | 0x09 => row (readSync w)
  | 0x0A => row (readFpu w)
  | 0x0B => row (readFcvt w)
  | 0x0C => row (readSys w)
  | 0x0D => row (readQctl w)
  | 0x10 => row (readVfp w)
  | 0x11 => row (readVint w)
  | 0x12 => row (readVcvt w)
  | 0x13 => row (readVxf w)
  | 0x14 => row (readVperm w)
  | 0x15 => row (readVmask w)
  | 0x16 => row (readVmem w)
  | 0x17 => row (readVidx w)
  | 0x18 => row (readTens w)
  | 0x19 => row (readLayt w)
  | 0x1A => row (readSpad w)
  | 0x1C => row (readPoolc w)
  | 0x1D => row (readPools w)
  | 0x1E => row (readPoold w)
  | 0x1F => row (readRoute w)
  | 0x20 => row (readCopy w)
  | 0x21 => row (readCopyt w)
  | 0x22 => row (readCopyx w)
  | 0x24 => row (readLink w)
  | 0x38 => row (readMovx w w1)
  | 0x39 => row (readBrx w w1)
  | _ => .error .reservedMajor

/-- R42: a first word from its major, its common fields and bits 47:0. -/
def encWord (maj : BitVec 6) (h : Hdr) (body : BitVec 48) : Word :=
  maj ++ BitVec.ofBool h.sense ++ h.pred ++ BitVec.ofBool h.wten ++ h.wtcnt ++ body

/-- R46, R48: the seven ordering bits. -/
def encOrd (o : MemOrd) : BitVec 7 := o.oc ++ o.scope ++ o.ord

/-- R46: the eight bits CNT, CNTEN and OC. -/
def encCtl (e : CmdCtl) : BitVec 8 := e.cnt ++ BitVec.ofBool e.cnten ++ e.oc

/-- The words of an instruction, written from the formats and the sub-maps; `none` for the step of an
agent, which no word encodes. -/
def encode (i : Instr) : Option (List Word) :=
  match i with
  | .add h d a b => some [encWord 0x01#6 h (d ++ a ++ b ++ 0#30)]
  | .sub h d a b => some [encWord 0x01#6 h (d ++ a ++ b ++ 0x1000#30)]
  | .mul h d a b => some [encWord 0x01#6 h (d ++ a ++ b ++ 0x2000#30)]
  | .mulh h d a b => some [encWord 0x01#6 h (d ++ a ++ b ++ 0x3000#30)]
  | .mulhu h d a b => some [encWord 0x01#6 h (d ++ a ++ b ++ 0x4000#30)]
  | .mulhsu h d a b => some [encWord 0x01#6 h (d ++ a ++ b ++ 0x5000#30)]
  | .div h d a b => some [encWord 0x01#6 h (d ++ a ++ b ++ 0x6000#30)]
  | .divu h d a b => some [encWord 0x01#6 h (d ++ a ++ b ++ 0x7000#30)]
  | .rem h d a b => some [encWord 0x01#6 h (d ++ a ++ b ++ 0x8000#30)]
  | .remu h d a b => some [encWord 0x01#6 h (d ++ a ++ b ++ 0x9000#30)]
  | .and h d a b => some [encWord 0x01#6 h (d ++ a ++ b ++ 0x10000#30)]
  | .or h d a b => some [encWord 0x01#6 h (d ++ a ++ b ++ 0x11000#30)]
  | .xor h d a b => some [encWord 0x01#6 h (d ++ a ++ b ++ 0x12000#30)]
  | .andn h d a b => some [encWord 0x01#6 h (d ++ a ++ b ++ 0x13000#30)]
  | .orn h d a b => some [encWord 0x01#6 h (d ++ a ++ b ++ 0x14000#30)]
  | .xnor h d a b => some [encWord 0x01#6 h (d ++ a ++ b ++ 0x15000#30)]
  | .shl h d a b => some [encWord 0x01#6 h (d ++ a ++ b ++ 0x20000#30)]
  | .shr h d a b => some [encWord 0x01#6 h (d ++ a ++ b ++ 0x21000#30)]
  | .sar h d a b => some [encWord 0x01#6 h (d ++ a ++ b ++ 0x22000#30)]
  | .rol h d a b => some [encWord 0x01#6 h (d ++ a ++ b ++ 0x23000#30)]
  | .ror h d a b => some [encWord 0x01#6 h (d ++ a ++ b ++ 0x24000#30)]
  | .min h d a b => some [encWord 0x01#6 h (d ++ a ++ b ++ 0x28000#30)]
  | .max h d a b => some [encWord 0x01#6 h (d ++ a ++ b ++ 0x29000#30)]
  | .minu h d a b => some [encWord 0x01#6 h (d ++ a ++ b ++ 0x2A000#30)]
  | .maxu h d a b => some [encWord 0x01#6 h (d ++ a ++ b ++ 0x2B000#30)]
  | .clz h d a sz => some [encWord 0x01#6 h (d ++ a ++ 0xC000#34 ++ sz)]
  | .ctz h d a sz => some [encWord 0x01#6 h (d ++ a ++ 0xC400#34 ++ sz)]
  | .popc h d a sz => some [encWord 0x01#6 h (d ++ a ++ 0xC800#34 ++ sz)]
  | .brev h d a sz => some [encWord 0x01#6 h (d ++ a ++ 0xCC00#34 ++ sz)]
  | .bswap h d a sz => some [encWord 0x01#6 h (d ++ a ++ 0xD000#34 ++ sz)]
  | .exts h d a lenm1 => some [encWord 0x01#6 h (d ++ a ++ 0xE00#30 ++ lenm1)]
  | .extz h d a lenm1 => some [encWord 0x01#6 h (d ++ a ++ 0xE40#30 ++ lenm1)]
  | .bfx h d a pos lenm1 => some [encWord 0x01#6 h (d ++ a ++ 0x3A#24 ++ pos ++ lenm1)]
  | .bfi h d a b pos lenm1 => some [encWord 0x01#6 h (d ++ a ++ b ++ 0x3B#18 ++ pos ++ lenm1)]
  | .sel h d a b c => some [encWord 0x01#6 h (d ++ a ++ b ++ 0#3 ++ c ++ 0x40000#24)]
  | .lea h d a b s off => some [encWord 0x01#6 h (d ++ a ++ b ++ 0x41#18 ++ off ++ s)]
  | .addi h d a imm => some [encWord 0x02#6 h (d ++ a ++ 0#4 ++ imm)]
  | .muli h d a imm => some [encWord 0x02#6 h (d ++ a ++ 1#4 ++ imm)]
  | .andi h d a imm => some [encWord 0x02#6 h (d ++ a ++ 2#4 ++ imm)]
  | .ori h d a imm => some [encWord 0x02#6 h (d ++ a ++ 3#4 ++ imm)]
  | .xori h d a imm => some [encWord 0x02#6 h (d ++ a ++ 4#4 ++ imm)]
  | .shli h d a n => some [encWord 0x02#6 h (d ++ a ++ 0x14000000#30 ++ n)]
  | .shri h d a n => some [encWord 0x02#6 h (d ++ a ++ 0x18000000#30 ++ n)]
  | .sari h d a n => some [encWord 0x02#6 h (d ++ a ++ 0x1C000000#30 ++ n)]
  | .movi h d imm => some [encWord 0x02#6 h (d ++ 8#10 ++ imm)]
  | .movhi h d a imm => some [encWord 0x02#6 h (d ++ a ++ 9#4 ++ imm)]
  | .cmp h d a b cc => some [encWord 0x03#6 h (0#3 ++ d ++ a ++ b ++ 0#26 ++ cc)]
  | .test h d a b z => some [encWord 0x03#6 h (0#3 ++ d ++ a ++ b ++ 0x800#29 ++ BitVec.ofBool z)]
  | .pand h d a b na nb => some [encWord 0x03#6 h (0#3 ++ d ++ 0#3 ++ a ++ 0#3 ++ b ++ 0x4000#28 ++ BitVec.ofBool nb ++ BitVec.ofBool na)]
  | .por h d a b na nb => some [encWord 0x03#6 h (0#3 ++ d ++ 0#3 ++ a ++ 0#3 ++ b ++ 0x4400#28 ++ BitVec.ofBool nb ++ BitVec.ofBool na)]
  | .pxor h d a b na nb => some [encWord 0x03#6 h (0#3 ++ d ++ 0#3 ++ a ++ 0#3 ++ b ++ 0x4800#28 ++ BitVec.ofBool nb ++ BitVec.ofBool na)]
  | .pnot h d a => some [encWord 0x03#6 h (0#3 ++ d ++ 0#3 ++ a ++ 0x13000#36)]
  | .pmov h d a => some [encWord 0x03#6 h (0#3 ++ d ++ 0#3 ++ a ++ 0x14000#36)]
  | .cmpi h d a cc imm => some [encWord 0x03#6 h (4#3 ++ d ++ a ++ cc ++ imm)]
  | .br h off => some [encWord 0x04#6 h (0#6 ++ off)]
  | .call h d off => some [encWord 0x04#6 h (d ++ off)]
  | .jmpr h a => some [encWord 0x05#6 h (0#6 ++ a ++ 0#36)]
  | .callr h d a => some [encWord 0x05#6 h (d ++ a ++ 0x1000#36)]
  | .ret h a => some [encWord 0x05#6 h (0#6 ++ a ++ 0x2000#36)]
  | .loop h n b len => some [encWord 0x05#6 h (0#12 ++ b ++ 0x10#18 ++ BitVec.ofBool n ++ len)]
  | .ld h d a b o size sgn off => some [encWord 0x06#6 h (d ++ a ++ b ++ encOrd o ++ 0#1 ++ size ++ BitVec.ofBool sgn ++ off)]
  | .pref h a b off => some [encWord 0x06#6 h (0#6 ++ a ++ b ++ 14#11 ++ off)]
  | .st h s a b o size off => some [encWord 0x07#6 h (s ++ a ++ b ++ encOrd o ++ 0#1 ++ size ++ 0#1 ++ off)]
  | .amoSwap h d a b o dbl => some [encWord 0x08#6 h (d ++ a ++ b ++ 0#18 ++ encOrd o ++ 1#4 ++ BitVec.ofBool dbl)]
  | .amoAdd h d a b o dbl => some [encWord 0x08#6 h (d ++ a ++ b ++ 1#18 ++ encOrd o ++ 1#4 ++ BitVec.ofBool dbl)]
  | .amoAnd h d a b o dbl => some [encWord 0x08#6 h (d ++ a ++ b ++ 2#18 ++ encOrd o ++ 1#4 ++ BitVec.ofBool dbl)]
  | .amoOr h d a b o dbl => some [encWord 0x08#6 h (d ++ a ++ b ++ 3#18 ++ encOrd o ++ 1#4 ++ BitVec.ofBool dbl)]
  | .amoXor h d a b o dbl => some [encWord 0x08#6 h (d ++ a ++ b ++ 4#18 ++ encOrd o ++ 1#4 ++ BitVec.ofBool dbl)]
  | .amoMin h d a b o dbl => some [encWord 0x08#6 h (d ++ a ++ b ++ 5#18 ++ encOrd o ++ 1#4 ++ BitVec.ofBool dbl)]
  | .amoMax h d a b o dbl => some [encWord 0x08#6 h (d ++ a ++ b ++ 6#18 ++ encOrd o ++ 1#4 ++ BitVec.ofBool dbl)]
  | .amoMinu h d a b o dbl => some [encWord 0x08#6 h (d ++ a ++ b ++ 7#18 ++ encOrd o ++ 1#4 ++ BitVec.ofBool dbl)]
  | .amoMaxu h d a b o dbl => some [encWord 0x08#6 h (d ++ a ++ b ++ 8#18 ++ encOrd o ++ 1#4 ++ BitVec.ofBool dbl)]
  | .amocas h d a b c o dbl => some [encWord 0x08#6 h (d ++ a ++ b ++ c ++ 0x10#12 ++ encOrd o ++ 1#4 ++ BitVec.ofBool dbl)]
  | .amofadd h d a b o dbl => some [encWord 0x08#6 h (d ++ a ++ b ++ 0x20#18 ++ encOrd o ++ 1#4 ++ BitVec.ofBool dbl)]
  | .fadd h d a b f rm => some [encWord 0x0A#6 h (d ++ a ++ b ++ 4#24 ++ f ++ rm)]
  | .fsub h d a b f rm => some [encWord 0x0A#6 h (d ++ a ++ b ++ 0x44#24 ++ f ++ rm)]
  | .fmul h d a b f rm => some [encWord 0x0A#6 h (d ++ a ++ b ++ 0x84#24 ++ f ++ rm)]
  | .ffma h d a b c f rm => some [encWord 0x0A#6 h (d ++ a ++ b ++ c ++ 0xC4#18 ++ f ++ rm)]
  | .fdiv h d a b f rm => some [encWord 0x0A#6 h (d ++ a ++ b ++ 0x104#24 ++ f ++ rm)]
  | .fsqrt h d a f rm => some [encWord 0x0A#6 h (d ++ a ++ 0x144#30 ++ f ++ rm)]
  | .fmin h d a b f => some [encWord 0x0A#6 h (d ++ a ++ b ++ 0x184#24 ++ f ++ 0#4)]
  | .fmax h d a b f => some [encWord 0x0A#6 h (d ++ a ++ b ++ 0x1C4#24 ++ f ++ 0#4)]
  | .fcmp h d a b f cc => some [encWord 0x0A#6 h (0#3 ++ d ++ a ++ b ++ 0x204#24 ++ f ++ 0#1 ++ cc)]
  | .fclass h d a f => some [encWord 0x0A#6 h (d ++ a ++ 0x244#30 ++ f ++ 0#4)]
  | .fsgn h d a b f op => some [encWord 0x0A#6 h (d ++ a ++ b ++ 0x284#24 ++ f ++ 0#2 ++ op)]
  | .fcvt h d a dfmt sfmt rm => some [encWord 0x0B#6 h (d ++ a ++ 0#16 ++ dfmt ++ sfmt ++ rm)]
  | .fcvti h d a dfmt sfmt rm => some [encWord 0x0B#6 h (d ++ a ++ 1#16 ++ dfmt ++ sfmt ++ rm)]
  | .icvtf h d a dfmt sfmt rm => some [encWord 0x0B#6 h (d ++ a ++ 2#16 ++ dfmt ++ sfmt ++ rm)]
  | .nop h => some [encWord 0x0C#6 h (0#48)]
  | .crd h d num => some [encWord 0x0C#6 h (d ++ 1#30 ++ num)]
  | .cwr h a num => some [encWord 0x0C#6 h (0#6 ++ a ++ 2#24 ++ num)]
  | .halt h => some [encWord 0x0C#6 h (0x3000#48)]
  | .trap h code => some [encWord 0x0C#6 h (4#36 ++ code)]
  | .eret h => some [encWord 0x0C#6 h (0x5000#48)]
  | .brk h code => some [encWord 0x0C#6 h (6#36 ++ code)]
  | .movx h d imm => some [encWord 0x38#6 h (d ++ 0#42), imm]
  | .brx h d imm => some [encWord 0x39#6 h (d ++ 0#42), imm]
  | .brxRel h d imm => some [encWord 0x39#6 h (d ++ 0x100000000#42), imm]
  | .launch h d a => some [encWord 0x0C#6 h (d ++ a ++ 0x10000#36)]
  | .exit h => some [encWord 0x0C#6 h (0x11000#48)]
  | .yieldI h q => some [encWord 0x09#6 h (0x10000#47 ++ BitVec.ofBool q)]
  | .park h d a => some [encWord 0x09#6 h (d ++ a ++ 0x21000#36)]
  | .wake h a => some [encWord 0x09#6 h (0#6 ++ a ++ 0x22000#36)]
  | .cset h c a => some [encWord 0x09#6 h (0#6 ++ a ++ 0#7 ++ c ++ 0x30000#24)]
  | .cadd h c a => some [encWord 0x09#6 h (0#6 ++ a ++ 0#7 ++ c ++ 0x31000#24)]
  | .cwait h c a => some [encWord 0x09#6 h (0#6 ++ a ++ 0#7 ++ c ++ 0x32000#24)]
  | .crdc h d c => some [encWord 0x09#6 h (d ++ 0#13 ++ c ++ 0x33000#24)]
  | .barinit h a b => some [encWord 0x09#6 h (0#6 ++ a ++ b ++ 0x40000#30)]
  | .bara h d a => some [encWord 0x09#6 h (d ++ a ++ 0x41000#36)]
  | .barw h a b => some [encWord 0x09#6 h (0#6 ++ a ++ b ++ 0x42000#30)]
  | .gset h a b => some [encWord 0x09#6 h (0#6 ++ a ++ b ++ 0x50000#30)]
  | .gadd h d a b => some [encWord 0x09#6 h (d ++ a ++ b ++ 0x51000#30)]
  | .grd h d a => some [encWord 0x09#6 h (d ++ a ++ 0x52000#36)]
  | .fence h scope cset => some [encWord 0x09#6 h (0#41 ++ scope ++ cset)]
  | .vadd h d a b bs msk zi rm => some [encWord 0x10#6 h (0#1 ++ d ++ 0#1 ++ a ++ b ++ 0#18 ++ msk ++ BitVec.ofBool zi ++ BitVec.ofBool bs ++ 0#3 ++ rm)]
  | .vsub h d a b bs msk zi rm => some [encWord 0x10#6 h (0#1 ++ d ++ 0#1 ++ a ++ b ++ 1#18 ++ msk ++ BitVec.ofBool zi ++ BitVec.ofBool bs ++ 0#3 ++ rm)]
  | .vmul h d a b bs msk zi rm => some [encWord 0x10#6 h (0#1 ++ d ++ 0#1 ++ a ++ b ++ 2#18 ++ msk ++ BitVec.ofBool zi ++ BitVec.ofBool bs ++ 0#3 ++ rm)]
  | .vfma h d a b bs c msk zi rm => some [encWord 0x10#6 h (0#1 ++ d ++ 0#1 ++ a ++ b ++ 0#1 ++ c ++ 3#12 ++ msk ++ BitVec.ofBool zi ++ BitVec.ofBool bs ++ 0#3 ++ rm)]
  | .vdiv h d a b bs msk zi rm => some [encWord 0x10#6 h (0#1 ++ d ++ 0#1 ++ a ++ b ++ 4#18 ++ msk ++ BitVec.ofBool zi ++ BitVec.ofBool bs ++ 0#3 ++ rm)]
  | .vsqrt h d a msk zi rm => some [encWord 0x10#6 h (0#1 ++ d ++ 0#1 ++ a ++ 5#24 ++ msk ++ BitVec.ofBool zi ++ 0#4 ++ rm)]
  | .vrcp h d a msk zi => some [encWord 0x10#6 h (0#1 ++ d ++ 0#1 ++ a ++ 6#24 ++ msk ++ BitVec.ofBool zi ++ 0#8)]
  | .vrsq h d a msk zi => some [encWord 0x10#6 h (0#1 ++ d ++ 0#1 ++ a ++ 7#24 ++ msk ++ BitVec.ofBool zi ++ 0#8)]
  | .vmin h d a b bs msk zi => some [encWord 0x10#6 h (0#1 ++ d ++ 0#1 ++ a ++ b ++ 8#18 ++ msk ++ BitVec.ofBool zi ++ BitVec.ofBool bs ++ 0#7)]
  | .vmax h d a b bs msk zi => some [encWord 0x10#6 h (0#1 ++ d ++ 0#1 ++ a ++ b ++ 9#18 ++ msk ++ BitVec.ofBool zi ++ BitVec.ofBool bs ++ 0#7)]
  | .vsgn h d a b bs op msk zi => some [encWord 0x10#6 h (0#1 ++ d ++ 0#1 ++ a ++ b ++ 10#18 ++ msk ++ BitVec.ofBool zi ++ BitVec.ofBool bs ++ 0#5 ++ op)]
  | .vexp2 h d a msk zi => some [encWord 0x13#6 h (0#1 ++ d ++ 0#1 ++ a ++ 0#24 ++ msk ++ BitVec.ofBool zi ++ 0#8)]
  | .vlog2 h d a msk zi => some [encWord 0x13#6 h (0#1 ++ d ++ 0#1 ++ a ++ 1#24 ++ msk ++ BitVec.ofBool zi ++ 0#8)]
  | .vsin h d a msk zi => some [encWord 0x13#6 h (0#1 ++ d ++ 0#1 ++ a ++ 2#24 ++ msk ++ BitVec.ofBool zi ++ 0#8)]
  | .vcos h d a msk zi => some [encWord 0x13#6 h (0#1 ++ d ++ 0#1 ++ a ++ 3#24 ++ msk ++ BitVec.ofBool zi ++ 0#8)]
  | .vsinpi h d a msk zi => some [encWord 0x13#6 h (0#1 ++ d ++ 0#1 ++ a ++ 4#24 ++ msk ++ BitVec.ofBool zi ++ 0#8)]
  | .vcospi h d a msk zi => some [encWord 0x13#6 h (0#1 ++ d ++ 0#1 ++ a ++ 5#24 ++ msk ++ BitVec.ofBool zi ++ 0#8)]
  | .viadd h d a b bs sat u msk zi => some [encWord 0x11#6 h (0#1 ++ d ++ 0#1 ++ a ++ b ++ 0#18 ++ msk ++ BitVec.ofBool zi ++ BitVec.ofBool bs ++ 0#1 ++ BitVec.ofBool sat ++ BitVec.ofBool u ++ 0#4)]
  | .visub h d a b bs sat u msk zi => some [encWord 0x11#6 h (0#1 ++ d ++ 0#1 ++ a ++ b ++ 1#18 ++ msk ++ BitVec.ofBool zi ++ BitVec.ofBool bs ++ 0#1 ++ BitVec.ofBool sat ++ BitVec.ofBool u ++ 0#4)]
  | .vimul h d a b bs hi u msk zi => some [encWord 0x11#6 h (0#1 ++ d ++ 0#1 ++ a ++ b ++ 2#18 ++ msk ++ BitVec.ofBool zi ++ BitVec.ofBool bs ++ BitVec.ofBool hi ++ 0#1 ++ BitVec.ofBool u ++ 0#4)]
  | .vand h d a b bs msk zi => some [encWord 0x11#6 h (0#1 ++ d ++ 0#1 ++ a ++ b ++ 0x10#18 ++ msk ++ BitVec.ofBool zi ++ BitVec.ofBool bs ++ 0#7)]
  | .vor h d a b bs msk zi => some [encWord 0x11#6 h (0#1 ++ d ++ 0#1 ++ a ++ b ++ 0x11#18 ++ msk ++ BitVec.ofBool zi ++ BitVec.ofBool bs ++ 0#7)]
  | .vxor h d a b bs msk zi => some [encWord 0x11#6 h (0#1 ++ d ++ 0#1 ++ a ++ b ++ 0x12#18 ++ msk ++ BitVec.ofBool zi ++ BitVec.ofBool bs ++ 0#7)]
  | .vshl h d a b bs msk zi => some [encWord 0x11#6 h (0#1 ++ d ++ 0#1 ++ a ++ b ++ 0x20#18 ++ msk ++ BitVec.ofBool zi ++ BitVec.ofBool bs ++ 0#7)]
  | .vshr h d a b bs msk zi => some [encWord 0x11#6 h (0#1 ++ d ++ 0#1 ++ a ++ b ++ 0x21#18 ++ msk ++ BitVec.ofBool zi ++ BitVec.ofBool bs ++ 0#7)]
  | .vsar h d a b bs msk zi => some [encWord 0x11#6 h (0#1 ++ d ++ 0#1 ++ a ++ b ++ 0x22#18 ++ msk ++ BitVec.ofBool zi ++ BitVec.ofBool bs ++ 0#7)]
  | .vimin h d a b bs u msk zi => some [encWord 0x11#6 h (0#1 ++ d ++ 0#1 ++ a ++ b ++ 0x28#18 ++ msk ++ BitVec.ofBool zi ++ BitVec.ofBool bs ++ 0#2 ++ BitVec.ofBool u ++ 0#4)]
  | .vimax h d a b bs u msk zi => some [encWord 0x11#6 h (0#1 ++ d ++ 0#1 ++ a ++ b ++ 0x29#18 ++ msk ++ BitVec.ofBool zi ++ BitVec.ofBool bs ++ 0#2 ++ BitVec.ofBool u ++ 0#4)]
  | .vpopc h d a msk zi => some [encWord 0x11#6 h (0#1 ++ d ++ 0#1 ++ a ++ 0x30#24 ++ msk ++ BitVec.ofBool zi ++ 0#8)]
  | .vclmul h d a b bs hi msk zi => some [encWord 0x11#6 h (0#1 ++ d ++ 0#1 ++ a ++ b ++ 0x38#18 ++ msk ++ BitVec.ofBool zi ++ BitVec.ofBool bs ++ BitVec.ofBool hi ++ 0#6)]
  | .vcvt h d a c adv part dfmt sfmt rm => some [encWord 0x12#6 h (0#1 ++ d ++ 0#1 ++ a ++ 0#9 ++ c ++ BitVec.ofBool adv ++ part ++ dfmt ++ sfmt ++ rm)]
  | .vcmp h d a b bs cc msk zi => some [encWord 0x15#6 h (0#3 ++ d ++ 0#1 ++ a ++ b ++ 0#18 ++ msk ++ BitVec.ofBool zi ++ BitVec.ofBool bs ++ 0#4 ++ cc)]
  | .vicmp h d a b bs cc msk zi => some [encWord 0x15#6 h (0#3 ++ d ++ 0#1 ++ a ++ b ++ 1#18 ++ msk ++ BitVec.ofBool zi ++ BitVec.ofBool bs ++ 0#3 ++ cc)]
  | .mand h d a b na nb => some [encWord 0x15#6 h (0#3 ++ d ++ 0#3 ++ a ++ 0#3 ++ b ++ 0x4000#28 ++ BitVec.ofBool nb ++ BitVec.ofBool na)]
  | .mor h d a b na nb => some [encWord 0x15#6 h (0#3 ++ d ++ 0#3 ++ a ++ 0#3 ++ b ++ 0x4400#28 ++ BitVec.ofBool nb ++ BitVec.ofBool na)]
  | .mxor h d a b na nb => some [encWord 0x15#6 h (0#3 ++ d ++ 0#3 ++ a ++ 0#3 ++ b ++ 0x4800#28 ++ BitVec.ofBool nb ++ BitVec.ofBool na)]
  | .mnot h d a => some [encWord 0x15#6 h (0#3 ++ d ++ 0#3 ++ a ++ 0x13000#36)]
  | .mpopc h d a => some [encWord 0x15#6 h (d ++ 0#3 ++ a ++ 0x20000#36)]
  | .vmovVector h d a msk zi => some [encWord 0x14#6 h (0#1 ++ d ++ 0#1 ++ a ++ 0#24 ++ msk ++ BitVec.ofBool zi ++ 0#8)]
  | .vmovLaneToGeneral h d a b => some [encWord 0x14#6 h (d ++ 0#1 ++ a ++ b ++ 1#30)]
  | .vmovGeneralToLane h d a b => some [encWord 0x14#6 h (0#1 ++ d ++ a ++ b ++ 2#30)]
  | .vmovGeneralToMask h d a => some [encWord 0x14#6 h (0#3 ++ d ++ a ++ 3#36)]
  | .vmovMaskToGeneral h d a => some [encWord 0x14#6 h (d ++ 0#3 ++ a ++ 4#36)]
  | .vbcast h d a b src msk zi => some [encWord 0x14#6 h (0#1 ++ d ++ a ++ b ++ 1#18 ++ msk ++ BitVec.ofBool zi ++ 0#7 ++ BitVec.ofBool src)]
  | .vext h d a b k msk zi => some [encWord 0x14#6 h (0#1 ++ d ++ 0#1 ++ a ++ 0#1 ++ b ++ 2#18 ++ msk ++ BitVec.ofBool zi ++ 0#2 ++ k)]
  | .vperm h d a b c t2 msk zi => some [encWord 0x14#6 h (0#1 ++ d ++ 0#1 ++ a ++ 0#1 ++ b ++ 0#1 ++ c ++ 3#12 ++ msk ++ BitVec.ofBool zi ++ 0#7 ++ BitVec.ofBool t2)]
  | .vpswap h d a n neg msk zi => some [encWord 0x14#6 h (0#1 ++ d ++ 0#1 ++ a ++ 4#24 ++ msk ++ BitVec.ofBool zi ++ 0#4 ++ BitVec.ofBool neg ++ n)]
  | .vslide h d a b c dn msk zi => some [encWord 0x14#6 h (0#1 ++ d ++ 0#1 ++ a ++ b ++ c ++ 5#12 ++ msk ++ BitVec.ofBool zi ++ 0#7 ++ BitVec.ofBool dn)]
  | .vcompress h d a msk zi => some [encWord 0x14#6 h (0#1 ++ d ++ 0#1 ++ a ++ 6#24 ++ msk ++ BitVec.ofBool zi ++ 0#8)]
  | .vexpand h d a msk zi => some [encWord 0x14#6 h (0#1 ++ d ++ 0#1 ++ a ++ 7#24 ++ msk ++ BitVec.ofBool zi ++ 0#8)]
  | .vsel h d a b c => some [encWord 0x14#6 h (0#1 ++ d ++ 0#1 ++ a ++ 0#1 ++ b ++ 0#3 ++ c ++ 0x8000#24)]
  | .viota h d a msk zi => some [encWord 0x14#6 h (0#1 ++ d ++ 0#3 ++ a ++ 9#24 ++ msk ++ BitVec.ofBool zi ++ 0#8)]
  | .vred h d a op rm msk => some [encWord 0x14#6 h (d ++ 0#1 ++ a ++ 0x10#24 ++ msk ++ 0#1 ++ op ++ rm)]
  | .vscan h d a op rm msk zi => some [encWord 0x14#6 h (0#1 ++ d ++ 0#1 ++ a ++ 0x11#24 ++ msk ++ BitVec.ofBool zi ++ op ++ rm)]
  | .vscanExcl h d a op rm msk zi => some [encWord 0x14#6 h (0#1 ++ d ++ 0#1 ++ a ++ 0x12#24 ++ msk ++ BitVec.ofBool zi ++ op ++ rm)]
  | .vld h d a b c str o msk skip => some [encWord 0x16#6 h (0#1 ++ d ++ a ++ b ++ c ++ 0#7 ++ BitVec.ofBool str ++ 0#4 ++ encOrd o ++ msk ++ 0#1 ++ BitVec.ofBool skip)]
  | .vst h s a b c str o msk skip => some [encWord 0x16#6 h (0#1 ++ s ++ a ++ b ++ c ++ 0#7 ++ BitVec.ofBool str ++ 1#4 ++ encOrd o ++ msk ++ 0#1 ++ BitVec.ofBool skip)]
  | .vgath h d a b scale sx o msk skip => some [encWord 0x17#6 h (0#1 ++ d ++ a ++ 0#1 ++ b ++ 0#8 ++ BitVec.ofBool sx ++ scale ++ 0#7 ++ encOrd o ++ msk ++ 0#1 ++ BitVec.ofBool skip)]
  | .vscat h s a b scale sx o msk skip => some [encWord 0x17#6 h (0#1 ++ s ++ a ++ 0#1 ++ b ++ 0#8 ++ BitVec.ofBool sx ++ scale ++ 1#7 ++ encOrd o ++ msk ++ 0#1 ++ BitVec.ofBool skip)]
  | .vscatAdd h s a b scale sx o msk skip => some [encWord 0x17#6 h (0#1 ++ s ++ a ++ 0#1 ++ b ++ 0#8 ++ BitVec.ofBool sx ++ scale ++ 0x11#7 ++ encOrd o ++ msk ++ 0#1 ++ BitVec.ofBool skip)]
  | .vscatIadd h s a b scale sx o msk skip => some [encWord 0x17#6 h (0#1 ++ s ++ a ++ 0#1 ++ b ++ 0#8 ++ BitVec.ofBool sx ++ scale ++ 0x21#7 ++ encOrd o ++ msk ++ 0#1 ++ BitVec.ofBool skip)]
  | .vscatImin h s a b scale sx o msk skip => some [encWord 0x17#6 h (0#1 ++ s ++ a ++ 0#1 ++ b ++ 0#8 ++ BitVec.ofBool sx ++ scale ++ 0x31#7 ++ encOrd o ++ msk ++ 0#1 ++ BitVec.ofBool skip)]
  | .vscatImax h s a b scale sx o msk skip => some [encWord 0x17#6 h (0#1 ++ s ++ a ++ 0#1 ++ b ++ 0#8 ++ BitVec.ofBool sx ++ scale ++ 0x41#7 ++ encOrd o ++ msk ++ 0#1 ++ BitVec.ofBool skip)]
  | .vconfl h d a c msk zi => some [encWord 0x17#6 h (0#1 ++ d ++ 0#1 ++ a ++ 0#9 ++ c ++ 2#12 ++ msk ++ BitVec.ofBool zi ++ 0#8)]
  | .vcomb h d a b op rm msk zi => some [encWord 0x17#6 h (0#1 ++ d ++ 0#1 ++ a ++ 0#1 ++ b ++ 0#11 ++ op ++ 3#4 ++ msk ++ BitVec.ofBool zi ++ 0#4 ++ rm)]
  | .rpop h d c nb => some [encWord 0x0D#6 h (d ++ 0#15 ++ c ++ 0#23 ++ BitVec.ofBool nb)]
  | .qflush h d a => some [encWord 0x0D#6 h (d ++ a ++ 0x1000#36)]
  | .qstat h d a => some [encWord 0x0D#6 h (d ++ a ++ 0x2000#36)]
  | .frpop h d a => some [encWord 0x0D#6 h (d ++ a ++ 0x3000#36)]
  | .ppart h d a b => some [encWord 0x1C#6 h (0#8 ++ a ++ b ++ 0#6 ++ d ++ 0#16)]
  | .ppartRel h => some [encWord 0x1C#6 h (0x10#48)]
  | .pcfg h e a => some [encWord 0x1C#6 h (encCtl e ++ a ++ 1#34)]
  | .pcfgPlc h e a => some [encWord 0x1C#6 h (encCtl e ++ a ++ 0x11#34)]
  | .pclr h e a b => some [encWord 0x1C#6 h (encCtl e ++ a ++ b ++ 2#28)]
  | .pexcReadCounters h d a b => some [encWord 0x1C#6 h (0#8 ++ a ++ b ++ 0#6 ++ d ++ 3#16)]
  | .psweep h e a b c d => some [encWord 0x1D#6 h (encCtl e ++ a ++ b ++ c ++ d ++ 0#16)]
  | .psweeps h e a b c d => some [encWord 0x1D#6 h (encCtl e ++ a ++ b ++ c ++ d ++ 3#16)]
  | .pscan h e a b => some [encWord 0x1D#6 h (encCtl e ++ a ++ b ++ 1#28)]
  | .ptopk h e a b c rb => some [encWord 0x1D#6 h (encCtl e ++ a ++ b ++ c ++ 0#17 ++ BitVec.ofBool rb ++ 2#4)]
  | .pdrain h e a b c d rm clr int bs => some [encWord 0x1E#6 h (encCtl e ++ a ++ b ++ c ++ d ++ 0#6 ++ BitVec.ofBool bs ++ BitVec.ofBool int ++ BitVec.ofBool clr ++ rm ++ 0#4)]
  | .pprog h d => some [encWord 0x1E#6 h (0#26 ++ d ++ 1#16)]
  | .pstat h d a => some [encWord 0x1E#6 h (0#8 ++ a ++ 0#12 ++ d ++ 2#16)]
  | .spcfg h a => some [encWord 0x1A#6 h (0#6 ++ a ++ 0#36)]
  | .treg h d a b => some [encWord 0x18#6 h (d ++ a ++ b ++ 0#30)]
  | .trel h a => some [encWord 0x18#6 h (0#6 ++ a ++ 0x1000#36)]
  | .tinfo h d a k => some [encWord 0x18#6 h (d ++ a ++ 0x200#32 ++ k)]
  | .taddr h d a b prom => some [encWord 0x18#6 h (d ++ a ++ b ++ 0#12 ++ BitVec.ofBool prom ++ 0x3000#17)]
  | .tld h d a b raw prom o => some [encWord 0x18#6 h (d ++ a ++ b ++ 0#12 ++ BitVec.ofBool prom ++ BitVec.ofBool raw ++ 4#4 ++ encOrd o ++ 0#5)]
  | .tst h s a b raw prom rmen rm o => some [encWord 0x18#6 h (s ++ a ++ b ++ 0#8 ++ rm ++ BitVec.ofBool rmen ++ BitVec.ofBool prom ++ BitVec.ofBool raw ++ 5#4 ++ encOrd o ++ 0#5)]
  | .vldt h d a b raw prom o msk skip => some [encWord 0x18#6 h (0#1 ++ d ++ a ++ b ++ 0#12 ++ BitVec.ofBool prom ++ BitVec.ofBool raw ++ 6#4 ++ encOrd o ++ msk ++ 0#1 ++ BitVec.ofBool skip)]
  | .vstt h s a b raw prom rmen rm o msk skip => some [encWord 0x18#6 h (0#1 ++ s ++ a ++ b ++ 0#8 ++ rm ++ BitVec.ofBool rmen ++ BitVec.ofBool prom ++ BitVec.ofBool raw ++ 7#4 ++ encOrd o ++ msk ++ 0#1 ++ BitVec.ofBool skip)]
  | .cpy h cnt oc a b c eng mc red rop rfmt => some [encWord 0x20#6 h (cnt ++ 1#1 ++ oc ++ a ++ b ++ c ++ 0#14 ++ BitVec.ofBool rfmt ++ BitVec.ofBool rop ++ BitVec.ofBool red ++ BitVec.ofBool mc ++ BitVec.ofBool eng ++ 0#3)]
  | .cpy2 h cnt oc a b c d eng mc red rop rfmt => some [encWord 0x20#6 h (cnt ++ 1#1 ++ oc ++ a ++ b ++ c ++ d ++ 0#8 ++ BitVec.ofBool rfmt ++ BitVec.ofBool rop ++ BitVec.ofBool red ++ BitVec.ofBool mc ++ BitVec.ofBool eng ++ 1#3)]
  | .cfill h cnt oc a b c eng mc p => some [encWord 0x20#6 h (cnt ++ 1#1 ++ oc ++ a ++ b ++ c ++ 0#7 ++ p ++ 0#7 ++ BitVec.ofBool mc ++ BitVec.ofBool eng ++ 2#3)]
  | .echk h d a => some [encWord 0x20#6 h (0#8 ++ a ++ 0#12 ++ d ++ 3#16)]
  | .cpyt h cnt oc a b c d eng mc zfill xc prom => some [encWord 0x21#6 h (cnt ++ 1#1 ++ oc ++ a ++ b ++ c ++ d ++ 0#4 ++ BitVec.ofBool prom ++ 0#1 ++ BitVec.ofBool xc ++ BitVec.ofBool zfill ++ 0#3 ++ BitVec.ofBool mc ++ BitVec.ofBool eng ++ 0#3)]
  | .cpyts h cnt oc a b c d eng xc prom p => some [encWord 0x21#6 h (cnt ++ 1#1 ++ oc ++ a ++ b ++ c ++ d ++ 0#1 ++ p ++ BitVec.ofBool prom ++ 0#1 ++ BitVec.ofBool xc ++ 0#5 ++ BitVec.ofBool eng ++ 1#3)]
  | .cpyg h cnt oc a b c d eng mc => some [encWord 0x22#6 h (cnt ++ 1#1 ++ oc ++ a ++ b ++ c ++ d ++ 0#11 ++ BitVec.ofBool mc ++ BitVec.ofBool eng ++ 0#3)]
  | .cpyr h cnt oc a b c d eng mc sum rfmt => some [encWord 0x22#6 h (cnt ++ 1#1 ++ oc ++ a ++ b ++ c ++ d ++ 0#5 ++ BitVec.ofBool sum ++ 0#2 ++ BitVec.ofBool rfmt ++ 0#2 ++ BitVec.ofBool mc ++ BitVec.ofBool eng ++ 1#3)]
  | .cpys h cnt oc a b c d eng red rop rfmt => some [encWord 0x22#6 h (cnt ++ 1#1 ++ oc ++ a ++ b ++ c ++ d ++ 0#8 ++ BitVec.ofBool rfmt ++ BitVec.ofBool rop ++ BitVec.ofBool red ++ 0#1 ++ BitVec.ofBool eng ++ 2#3)]
  | .relayout h cnt oc d a b c => some [encWord 0x19#6 h (cnt ++ 1#1 ++ oc ++ a ++ b ++ c ++ d ++ 0#16)]
  | .relayoutResRetry h a b => some [encWord 0x19#6 h (0#8 ++ a ++ b ++ 0x10#28)]
  | .tstat h d a sel => some [encWord 0x19#6 h (0#8 ++ a ++ 0#12 ++ d ++ 0#10 ++ sel ++ 1#4)]
  | .tsync h a => some [encWord 0x19#6 h (0#8 ++ a ++ 2#34)]
  | .rbsetClr h oc a => some [encWord 0x1F#6 h (0#6 ++ oc ++ a ++ 0#34)]
  | .rbsetSet h oc a c => some [encWord 0x1F#6 h (0#6 ++ oc ++ a ++ 0#6 ++ c ++ 0x10#22)]
  | .rbsetUnset h oc a c => some [encWord 0x1F#6 h (0#6 ++ oc ++ a ++ 0#6 ++ c ++ 0x20#22)]
  | .rbsetSetV h oc a c msk skip => some [encWord 0x1F#6 h (0#6 ++ oc ++ a ++ 0#7 ++ c ++ 0#11 ++ BitVec.ofBool skip ++ msk ++ 0x50#7)]
  | .rbsetUnsetV h oc a c msk skip => some [encWord 0x1F#6 h (0#6 ++ oc ++ a ++ 0#7 ++ c ++ 0#11 ++ BitVec.ofBool skip ++ msk ++ 0x60#7)]
  | .ridx h oc a b => some [encWord 0x1F#6 h (0#6 ++ oc ++ a ++ b ++ 1#28)]
  | .rrank h oc d a b c => some [encWord 0x1F#6 h (0#6 ++ oc ++ a ++ b ++ c ++ d ++ 2#16)]
  | .rrankV h oc d a b c msk skip => some [encWord 0x1F#6 h (0#6 ++ oc ++ a ++ b ++ 0#1 ++ c ++ 0#1 ++ d ++ 0#5 ++ BitVec.ofBool skip ++ msk ++ 0x42#7)]
  | .rsel h oc d a b c => some [encWord 0x1F#6 h (0#6 ++ oc ++ a ++ b ++ c ++ d ++ 3#16)]
  | .rselV h oc d a b c msk skip => some [encWord 0x1F#6 h (0#6 ++ oc ++ a ++ b ++ 0#1 ++ c ++ 0#1 ++ d ++ 0#5 ++ BitVec.ofBool skip ++ msk ++ 0x43#7)]
  | .rhist h oc d a c => some [encWord 0x1F#6 h (0#6 ++ oc ++ a ++ 0#6 ++ c ++ d ++ 4#16)]
  | .place h cnt oc a b c d => some [encWord 0x1F#6 h (cnt ++ 1#1 ++ oc ++ a ++ b ++ c ++ d ++ 5#16)]
  | .ctxsave h a b => some [encWord 0x0C#6 h (0#6 ++ a ++ b ++ 0x20000#30)]
  | .ctxload h a b => some [encWord 0x0C#6 h (0#6 ++ a ++ b ++ 0x21000#30)]
  | .tlbinvAddress h a b => some [encWord 0x0C#6 h (0#6 ++ a ++ b ++ 0x22000#30)]
  | .preemptStatus h d a b => some [encWord 0x0C#6 h (d ++ a ++ b ++ 0x23000#30)]
  | .lcfgGang h d a b => some [encWord 0x24#6 h (d ++ a ++ b ++ 0#30)]
  | .lcfgUngang h => some [encWord 0x24#6 h (1#48)]
  | .lcfgWset h a b => some [encWord 0x24#6 h (0#6 ++ a ++ b ++ 2#30)]
  | .lcfgWclr h b => some [encWord 0x24#6 h (0#12 ++ b ++ 3#30)]
  | .lstat h d a => some [encWord 0x24#6 h (d ++ a ++ 0x1000#36)]
  | .pexcReadThresholds h d a b => some [encWord 0x1C#6 h (0#8 ++ a ++ b ++ 0#6 ++ d ++ 3#16)]
  | .pexcSetThresholds h d a b => some [encWord 0x1C#6 h (0#8 ++ a ++ b ++ 0#6 ++ d ++ 3#16)]
  | .pexcReadClearCounters h d a b => some [encWord 0x1C#6 h (0#8 ++ a ++ b ++ 0#6 ++ d ++ 3#16)]
  | .pexcSetDitherPhase h d a b => some [encWord 0x1C#6 h (0#8 ++ a ++ b ++ 0#6 ++ d ++ 3#16)]
  | .pexcResume h d a b => some [encWord 0x1C#6 h (0#8 ++ a ++ b ++ 0#6 ++ d ++ 3#16)]
  | .relayoutResAbandon h a b => some [encWord 0x19#6 h (0#8 ++ a ++ b ++ 0x10#28)]
  | .tlbinvAsid h a b => some [encWord 0x0C#6 h (0#6 ++ a ++ b ++ 0x22000#30)]
  | .tlbinvAll h a b => some [encWord 0x0C#6 h (0#6 ++ a ++ b ++ 0x22000#30)]
  | .preemptStop h d a b => some [encWord 0x0C#6 h (d ++ a ++ b ++ 0x23000#30)]
  | .preemptHalt h d a b => some [encWord 0x0C#6 h (d ++ a ++ b ++ 0x23000#30)]
  | .preemptResume h d a b => some [encWord 0x0C#6 h (d ++ a ++ b ++ 0x23000#30)]
  | .preemptTerminate h d a b => some [encWord 0x0C#6 h (d ++ a ++ b ++ 0x23000#30)]
  | .loadReturn _ _ => none
  | .icacheFill _ _ => none
  | .cohortCompletion _ => none
  | .schedulerPass _ => none
  | .quantumExpiry _ => none
  | .headWaitExpiry _ _ => none
  | .cohortSaveComplete _ => none
  | .cohortRestoreComplete _ => none
  | .parkTimeout _ => none
  | .wakeArrival _ => none
  | .vectorStart _ => none
  | .vectorComplete _ => none
  | .partitionWindowCleared _ _ => none
  | .configLoadStart _ _ => none
  | .configReady _ _ => none
  | .configActivate _ _ => none
  | .clearStart _ _ => none
  | .clearComplete _ _ => none
  | .operandCommandStart _ _ => none
  | .gangSetStart _ => none
  | .foldBegin _ _ => none
  | .foldLand _ _ => none
  | .pscanComplete _ _ => none
  | .ptopkComplete _ _ => none
  | .drainStart _ _ => none
  | .drainComplete _ _ => none
  | .configCacheFill _ _ => none
  | .spcfgApply _ => none
  | .copyCommandStart _ _ => none
  | .copyBeatLand _ _ _ => none
  | .layoutUnitTake _ => none
  | .layoutUnitComplete _ => none
  | .layoutUnitFault _ => none
  | .placeStart _ => none
  | .placeComplete _ => none
  | .asyncTrapDeliver _ => none
  | .peerRequestReceive _ _ => none
  | .peerResponseReceive _ _ => none
  | .peerTimeout _ => none
  | .hostLaunchWindowWrite _ _ _ => none
  | .launchWindowAccept _ _ => none
  | .hostGateRead _ => none
  | .hostGateWrite _ _ => none
  | .bar0RegisterWrite _ _ _ => none
  | .hostBar2Read _ _ => none
  | .hostBar2Write _ _ => none
  | .mailboxLoad => none
  | .mailboxAttest => none
  | .mailboxSetcap => none
  | .mailboxTermlog => none
  | .mailboxSvnset => none
  | .mailboxSelftest => none
  | .powerOnReset => none
  | .selftestDone _ => none
  | .firmwareVerify _ => none
  | .configDone _ => none
  | .trip _ => none
  | .currentLimitStretch _ => none
  | .monitorRefresh _ _ => none
  | .barrierArrival _ => none
  | .storePerformed _ _ => none
  | .linkDown _ => none
  | .linkUp _ _ => none
  | .patrolScrub _ => none
  | .islandClockChange _ _ => none
  | .firmwareTerminate _ => none
  | .powerOff => none

/-- R33 `legal` without the privilege: the instruction of a word (and of its second word), or the reason
why there is none. A word is accepted only when it is the encoding of the fields read from it, so every
bit that no field holds is zero (R5, R56). -/
def decode (w w1 : Word) : Except DecodeError Instr :=
  match readFields w w1 with
  | .error e => .error e
  | .ok i =>
    if WellFormed i then
      (match encode i with
       | some (e :: _) => if e == w then .ok i else .error .reservedBit
       | _ => .error .reservedBit)
    else .error .illegalField

/-- R41: the length of an instruction in bytes. -/
def instrLen (i : Instr) : Nat :=
  match i with
  | .movx _ _ _ | .brx _ _ _ | .brxRel _ _ _ => 16
  | _ => 8

/-- The little-endian word in the first eight bytes of a list (R3, R41); missing bytes read zero. -/
def wordOfBytes (bs : List Byte) : Word :=
  let b := fun n => bs.getD n 0#8
  b 7 ++ b 6 ++ b 5 ++ b 4 ++ b 3 ++ b 2 ++ b 1 ++ b 0

/-- The eight bytes of a word, the least significant first (R3). -/
def bytesOfWord (w : Word) : List Byte :=
  [w.extractLsb' 0 8, w.extractLsb' 8 8, w.extractLsb' 16 8, w.extractLsb' 24 8,
   w.extractLsb' 32 8, w.extractLsb' 40 8, w.extractLsb' 48 8, w.extractLsb' 56 8]

/-- The instruction that the first bytes of a list hold, with the bytes after it. -/
def decodeBytes (bs : List Byte) : Except DecodeError (Instr × List Byte) :=
  let w := wordOfBytes bs
  match decode w (if isDouble w then wordOfBytes (bs.drop 8) else 0#64) with
  | .error e => .error e
  | .ok i => .ok (i, bs.drop (instrLen i))

/-- The instruction of a table word: the bits of the words, bit 0 the least significant of the first
word; every bit above `nbits` is 0. -/
def decodeTableWord (nbits w : Nat) : Option Instr :=
  let v := w % 2 ^ nbits
  match decodeBytes (bytesOfWord (BitVec.ofNat 64 v) ++ bytesOfWord (BitVec.ofNat 64 (v / 2 ^ 64))) with
  | .ok (i, _) => some i
  | .error _ => none

end Sys2Proof
end

