-- ==== Sys2Proof/Machine/Integer.lean ====
section
/-!
DEFINITION. Integer arithmetic and logic, immediate forms, comparison and predicates (R107-R118, R151).
-/
namespace Sys2Proof.Machine

/-! ## Results (R108) -/

def aluMulh (a b : Word) : Word := wInt (a.toInt * b.toInt / 2 ^ 64)
def aluMulhu (a b : Word) : Word := w64 (a.toNat * b.toNat / 2 ^ 64)
def aluMulhsu (a b : Word) : Word := wInt (a.toInt * (b.toNat : Int) / 2 ^ 64)
def aluDiv (a b : Word) : Word :=
  if b = 0 then BitVec.allOnes 64
  else if a.toInt = -(2 ^ 63) ∧ b.toInt = -1 then a
  else wInt (Int.tdiv a.toInt b.toInt)
def aluRem (a b : Word) : Word :=
  if b = 0 then a
  else if a.toInt = -(2 ^ 63) ∧ b.toInt = -1 then 0
  else wInt (a.toInt - b.toInt * Int.tdiv a.toInt b.toInt)
def aluDivu (a b : Word) : Word := if b = 0 then BitVec.allOnes 64 else w64 (a.toNat / b.toNat)
def aluRemu (a b : Word) : Word := if b = 0 then a else w64 (a.toNat % b.toNat)
def aluShl (a b : Word) : Word := a <<< (b.toNat % 64)
def aluShr (a b : Word) : Word := a >>> (b.toNat % 64)
def aluSar (a b : Word) : Word := BitVec.sshiftRight a (b.toNat % 64)
def aluRol (a b : Word) : Word := a.rotateLeft (b.toNat % 64)
def aluRor (a b : Word) : Word := a.rotateRight (b.toNat % 64)
def aluMin (a b : Word) : Word := if a.toInt ≤ b.toInt then a else b
def aluMax (a b : Word) : Word := if a.toInt ≥ b.toInt then a else b
def aluMinu (a b : Word) : Word := if a.toNat ≤ b.toNat then a else b
def aluMaxu (a b : Word) : Word := if a.toNat ≥ b.toNat then a else b
def aluLea (a b : Word) (sh : BitVec 2) (off : BitVec 10) : Word := a + (b <<< sh.toNat) + off.signExtend 64
def aluBfx (a : Word) (pos lenm1 : Nat) : Word := w64 (bitsOf a.toNat (pos + lenm1) pos)
def aluBfi (a b : Word) (pos lenm1 : Nat) : Word := w64 (insertField a.toNat b.toNat pos (lenm1 + 1))
def aluExts (a : Word) (lenm1 : Nat) : Word := wInt (sextNat a.toNat (lenm1 + 1))
def aluExtz (a : Word) (lenm1 : Nat) : Word := w64 (a.toNat % 2 ^ (lenm1 + 1))
def aluMovhi (a : Word) (i : BitVec 32) : Word := (i ++ a.extractLsb' 0 32)

/-! ## Shapes -/

abbrev Out := Host.Outcome State Fault Refusal

/-- gD from gA and gB. -/
def alu2 (h : Hdr) (d a b : BitVec 6) (f : Word → Word → Word) (s : State) : Out :=
  issue1 h [a, b] [d] (writes d (fun t => f (rg t a) (rg t b))) s
/-- gD from gA. -/
def alu1 (h : Hdr) (d a : BitVec 6) (f : Word → Word) (s : State) : Out :=
  issue1 h [a] [d] (writes d (fun t => f (rg t a))) s

def execAdd (h : Hdr) (d a b : BitVec 6) (s : State) : Out := alu2 h d a b (fun x y => x + y) s
def execSub (h : Hdr) (d a b : BitVec 6) (s : State) : Out := alu2 h d a b (fun x y => x - y) s
def execMul (h : Hdr) (d a b : BitVec 6) (s : State) : Out := alu2 h d a b (fun x y => x * y) s
def execMulh (h : Hdr) (d a b : BitVec 6) (s : State) : Out := alu2 h d a b aluMulh s
def execMulhu (h : Hdr) (d a b : BitVec 6) (s : State) : Out := alu2 h d a b aluMulhu s
def execMulhsu (h : Hdr) (d a b : BitVec 6) (s : State) : Out := alu2 h d a b aluMulhsu s
def execDiv (h : Hdr) (d a b : BitVec 6) (s : State) : Out := alu2 h d a b aluDiv s
def execDivu (h : Hdr) (d a b : BitVec 6) (s : State) : Out := alu2 h d a b aluDivu s
def execRem (h : Hdr) (d a b : BitVec 6) (s : State) : Out := alu2 h d a b aluRem s
def execRemu (h : Hdr) (d a b : BitVec 6) (s : State) : Out := alu2 h d a b aluRemu s
def execAnd (h : Hdr) (d a b : BitVec 6) (s : State) : Out := alu2 h d a b (fun x y => x &&& y) s
def execOr (h : Hdr) (d a b : BitVec 6) (s : State) : Out := alu2 h d a b (fun x y => x ||| y) s
def execXor (h : Hdr) (d a b : BitVec 6) (s : State) : Out := alu2 h d a b (fun x y => x ^^^ y) s
def execAndn (h : Hdr) (d a b : BitVec 6) (s : State) : Out := alu2 h d a b (fun x y => x &&& ~~~ y) s
def execOrn (h : Hdr) (d a b : BitVec 6) (s : State) : Out := alu2 h d a b (fun x y => x ||| ~~~ y) s
def execXnor (h : Hdr) (d a b : BitVec 6) (s : State) : Out := alu2 h d a b (fun x y => ~~~ (x ^^^ y)) s
def execShl (h : Hdr) (d a b : BitVec 6) (s : State) : Out := alu2 h d a b aluShl s
def execShr (h : Hdr) (d a b : BitVec 6) (s : State) : Out := alu2 h d a b aluShr s
def execSar (h : Hdr) (d a b : BitVec 6) (s : State) : Out := alu2 h d a b aluSar s
def execRol (h : Hdr) (d a b : BitVec 6) (s : State) : Out := alu2 h d a b aluRol s
def execRor (h : Hdr) (d a b : BitVec 6) (s : State) : Out := alu2 h d a b aluRor s
def execMin (h : Hdr) (d a b : BitVec 6) (s : State) : Out := alu2 h d a b aluMin s
def execMax (h : Hdr) (d a b : BitVec 6) (s : State) : Out := alu2 h d a b aluMax s
def execMinu (h : Hdr) (d a b : BitVec 6) (s : State) : Out := alu2 h d a b aluMinu s
def execMaxu (h : Hdr) (d a b : BitVec 6) (s : State) : Out := alu2 h d a b aluMaxu s

/-! ## Bit counts and fields (R110-R112) -/

def execClz (h : Hdr) (d a : BitVec 6) (sz : BitVec 2) (s : State) : Out :=
  alu1 h d a (fun x => w64 (clzBits (sizeBits sz) x.toNat)) s
def execCtz (h : Hdr) (d a : BitVec 6) (sz : BitVec 2) (s : State) : Out :=
  alu1 h d a (fun x => w64 (ctzBits (sizeBits sz) x.toNat)) s
def execPopc (h : Hdr) (d a : BitVec 6) (sz : BitVec 2) (s : State) : Out :=
  alu1 h d a (fun x => w64 (popcount (sizeBits sz) x.toNat)) s
def execBrev (h : Hdr) (d a : BitVec 6) (sz : BitVec 2) (s : State) : Out :=
  alu1 h d a (fun x => w64 (reverseBits (sizeBits sz) x.toNat)) s
def execBswap (h : Hdr) (d a : BitVec 6) (sz : BitVec 2) (s : State) : Out :=
  alu1 h d a (fun x => w64 (reverseBytes (sizeBits sz / 8) (lowBits x (sizeBits sz)))) s
def execExts (h : Hdr) (d a : BitVec 6) (lenm1 : BitVec 6) (s : State) : Out :=
  alu1 h d a (fun x => aluExts x lenm1.toNat) s
def execExtz (h : Hdr) (d a : BitVec 6) (lenm1 : BitVec 6) (s : State) : Out :=
  alu1 h d a (fun x => aluExtz x lenm1.toNat) s
def execBfx (h : Hdr) (d a : BitVec 6) (pos lenm1 : BitVec 6) (s : State) : Out :=
  alu1 h d a (fun x => aluBfx x pos.toNat lenm1.toNat) s
def execBfi (h : Hdr) (d a b : BitVec 6) (pos lenm1 : BitVec 6) (s : State) : Out :=
  alu2 h d a b (fun x y => aluBfi x y pos.toNat lenm1.toNat) s
def execSel (h : Hdr) (d a b : BitVec 6) (c : BitVec 3) (s : State) : Out :=
  issue1 h [a, b] [d] (writes d (fun t => if rp t c then rg t a else rg t b)) s
def execLea (h : Hdr) (d a b : BitVec 6) (sh : BitVec 2) (off : BitVec 10) (s : State) : Out :=
  alu2 h d a b (fun x y => aluLea x y sh off) s

/-! ## Immediate forms (R115, R151) -/

def execAddi (h : Hdr) (d a : BitVec 6) (imm : BitVec 32) (s : State) : Out := alu1 h d a (fun x => x + immS imm) s
def execMuli (h : Hdr) (d a : BitVec 6) (imm : BitVec 32) (s : State) : Out := alu1 h d a (fun x => x * immS imm) s
def execAndi (h : Hdr) (d a : BitVec 6) (imm : BitVec 32) (s : State) : Out := alu1 h d a (fun x => x &&& immS imm) s
def execOri (h : Hdr) (d a : BitVec 6) (imm : BitVec 32) (s : State) : Out := alu1 h d a (fun x => x ||| immZ imm) s
def execXori (h : Hdr) (d a : BitVec 6) (imm : BitVec 32) (s : State) : Out := alu1 h d a (fun x => x ^^^ immS imm) s
def execShli (h : Hdr) (d a : BitVec 6) (n : BitVec 6) (s : State) : Out := alu1 h d a (fun x => x <<< n.toNat) s
def execShri (h : Hdr) (d a : BitVec 6) (n : BitVec 6) (s : State) : Out := alu1 h d a (fun x => x >>> n.toNat) s
def execSari (h : Hdr) (d a : BitVec 6) (n : BitVec 6) (s : State) : Out :=
  alu1 h d a (fun x => BitVec.sshiftRight x n.toNat) s
def execMovi (h : Hdr) (d : BitVec 6) (imm : BitVec 32) (s : State) : Out :=
  issue1 h [] [d] (writes d (fun _ => immS imm)) s
def execMovhi (h : Hdr) (d a : BitVec 6) (imm : BitVec 32) (s : State) : Out := alu1 h d a (fun x => aluMovhi x imm) s
def execMovx (h : Hdr) (d : BitVec 6) (imm : BitVec 64) (s : State) : Out :=
  issue h 16 false [] [d] (writes d (fun _ => imm)) s

/-! ## Comparison and predicates (R116-R118) -/

/-- A body that writes one predicate. -/
def writesP (d : BitVec 3) (f : State → Bool) (s : State) : Exe := .retire (wp s d (f s))

def execCmp (h : Hdr) (d : BitVec 3) (a b : BitVec 6) (cc : BitVec 4) (s : State) : Out :=
  issue1 h [a, b] [] (writesP d (fun t => condInt cc.toNat 64 (rg t a) (rg t b))) s
def execTest (h : Hdr) (d : BitVec 3) (a b : BitVec 6) (z : Bool) (s : State) : Out :=
  issue1 h [a, b] [] (writesP d (fun t => (rg t a &&& rg t b == 0) == z)) s
def execPand (h : Hdr) (d a b : BitVec 3) (na nb : Bool) (s : State) : Out :=
  issue1 h [] [] (writesP d (fun t => (rp t a != na) && (rp t b != nb))) s
def execPor (h : Hdr) (d a b : BitVec 3) (na nb : Bool) (s : State) : Out :=
  issue1 h [] [] (writesP d (fun t => (rp t a != na) || (rp t b != nb))) s
def execPxor (h : Hdr) (d a b : BitVec 3) (na nb : Bool) (s : State) : Out :=
  issue1 h [] [] (writesP d (fun t => (rp t a != na) != (rp t b != nb))) s
def execPnot (h : Hdr) (d a : BitVec 3) (s : State) : Out := issue1 h [] [] (writesP d (fun t => !rp t a)) s
def execPmov (h : Hdr) (d a : BitVec 3) (s : State) : Out := issue1 h [] [] (writesP d (fun t => rp t a)) s
def execCmpi (h : Hdr) (d : BitVec 3) (a : BitVec 6) (cc : BitVec 4) (imm : BitVec 32) (s : State) : Out :=
  issue1 h [a] [] (writesP d (fun t => condInt cc.toNat 64 (rg t a) (immS imm))) s

end Sys2Proof.Machine
end

