-- ==== Sys2Proof/Machine/Fetch.lean ====
section
/-!
DEFINITION. Instruction fetch through the instruction cache (R13, R14, R33), and control transfer (R119-R123,
R145-R152).
-/
namespace Sys2Proof.Machine

/-- The answer of a fetch: the word, a line that must be filled first, or a cause. -/
inductive Fetched where
  | word (w : Word) (s : State)
  | miss (line : Nat)
  | fault (cause : Nat)
  deriving Repr

/-- A line enters core k's instruction cache; a full cache drops the others (log 8). A line that reads with an
uncorrectable error does not (R309). -/
def fillLine (s : State) (k line : Nat) : State :=
  if s.badHbm.contains line then s
  else modCore s k (fun q => { q with
    icache := tabPut (if q.icache.length < 1024 then q.icache else []) line (memReadBytes s.hbm (64 * line) 64) })

/-- fetch(a) of R33 for context c. -/
def fetch (s : State) (c : Nat) (a : Word) : Fetched :=
  let x := getCtx s c
  if a.toNat % 8 ≠ 0 then .fault cAlign
  else if a.toNat / 2 ^ 56 ≠ 0 then .fault cAddrSpace
  else match translate s ⟨c, x.sv, ctxCr x crXspace⟩ a.toNat .fetch with
    | .error e => .fault e
    | .ok (pa, s1) =>
      match tabFind (getCore s1 (coreOfCtx c)).icache (pa / 64) with
      | some bs => .word (w64 (leNat ((bs.drop (pa % 64)).take 8))) s1
      | none => if locBad s1 (.mem pa) 8 then .fault cEcc else .miss (pa / 64)

/-- A fetch that fills its line at once, as LOOP's does (R122). -/
def fetchNow (s : State) (c : Nat) (a : Word) : Fetched :=
  match fetch s c a with
  | .miss line => fetch (fillLine s (coreOfCtx c) line) c a
  | r => r

/-! ## Control transfer -/

def pcOf (s : State) : Word := (me s).pc

def execBr (h : Hdr) (off : BitVec 42) (s : State) : Out :=
  issue1 h [] [] (fun t => .jump t (pcOf t + (off.signExtend 64 <<< 3)) 0) s
def execCall (h : Hdr) (d : BitVec 6) (off : BitVec 42) (s : State) : Out :=
  issue1 h [] [d] (fun t => .jump (wg t d (pcOf t + 8)) (pcOf t + (off.signExtend 64 <<< 3)) 1) s
def execJmpr (h : Hdr) (a : BitVec 6) (s : State) : Out := issue1 h [a] [] (fun t => .jump t (rg t a) 0) s
def execCallr (h : Hdr) (d a : BitVec 6) (s : State) : Out :=
  issue1 h [a] [d] (fun t => .jump (wg t d (pcOf t + 8)) (rg t a) 1) s
def execRet (h : Hdr) (a : BitVec 6) (s : State) : Out :=
  issue1 h [a] [] (fun t => .jump t (rg t a) (BitVec.allOnes 32)) s

/-- LOOP's registers (R122): start, end, count and ACT of loop n. Where PC + 8 or the end reaches 2^56 the sum is stored
as it is, in bits that R30 reserves too (DESIGN CHOICE, log 114). -/
def setLoop (x : Ctx) (n : Nat) (start stop : Word) (count : Nat) : Ctx :=
  let y := ctxSetCr (ctxSetCr x (crLpstart n) start) (crLpend n) stop
  ctxSetCr (ctxSetCr y (crLpcount n) (w64 count)) crLpctl (setBit (ctxCr y crLpctl) n (decide (0 < count)))

def loopBody (n : Nat) (b : BitVec 6) (len : BitVec 11) (t : State) : Exe :=
  let pc := pcOf t
  let stop := pc + w64 (8 * len.toNat)
  let count := (rg t b).toNat % 2 ^ 32
  if 0 < count then .retire (setMe t (setLoop (me t) n (pc + 8) stop count))
  else match fetchNow t t.cur stop with
    | .fault c => .fault (recOf t c stop) t
    | .miss _ => .stall t
    | .word w t1 =>
      .jump (setMe t1 (setLoop (me t1) n (pc + 8) stop 0)) (stop + (if w.toNat / 2 ^ 58 ≥ 0x38 then 16 else 8)) 0

def execLoop (h : Hdr) (n : Bool) (b : BitVec 6) (len : BitVec 11) (s : State) : Out :=
  issue1 h [b] [] (loopBody (if n then 1 else 0) b len) s

def execBrx (h : Hdr) (d : BitVec 6) (imm : BitVec 64) (s : State) : Out :=
  issue h 16 false [] [d] (fun t => .jump (wg t d (pcOf t + 16)) imm (if d = 0 then 0 else 1)) s
def execBrxRel (h : Hdr) (d : BitVec 6) (imm : BitVec 64) (s : State) : Out :=
  issue h 16 false [] [d] (fun t => .jump (wg t d (pcOf t + 16)) (pcOf t + imm) (if d = 0 then 0 else 1)) s

/-! ## NOP, HALT, TRAP, BRK, ERET -/

def execNop (h : Hdr) (s : State) : Out := issue1 h [] [] (fun t => .retire t) s
def execHalt (h : Hdr) (s : State) : Out :=
  issue h 8 true [] [] (fun t => .retire (setMe t { me t with phase := .halted })) s
def execTrap (h : Hdr) (code : BitVec 12) (s : State) : Out :=
  issue1 h [] [] (fun t => .retireTrap t (recOf t cTrap (code.setWidth 64))) s
def execBrk (h : Hdr) (code : BitVec 12) (s : State) : Out :=
  issue1 h [] [] (fun t => faultAt t cBreak (code.setWidth 64)) s
def execEret (h : Hdr) (s : State) : Out :=
  issue h 8 true [] [] (fun t => .jump (setMe t (eretCtx (me t))) (eretTarget (me t)) 0) s

end Sys2Proof.Machine
end

