-- ==== Sys2Proof/Machine/CopyPlan.lean ====
section
/-!
DEFINITION. The units of work of a copy command: positions, destinations, and what the checker of R412 holds pending.
A position is a destination byte for the linear and row forms, an element for the tensor forms (R387, R397-R406).
-/
namespace Sys2Proof.Machine

def dFmt (d : Word) : Nat := bitsOf d.toNat 63 56
def dMpitch (d : Word) : Nat := bitsOf d.toNat 53 32
def dTrows (d : Word) : Nat := bitsOf d.toNat 31 16
def dTcols (d : Word) : Nat := bitsOf d.toNat 15 0
def dPh (d : Word) : Nat := bitsOf d.toNat 55 48
def dPw (d : Word) : Nat := bitsOf d.toNat 47 40
def dNpatch (d : Word) : Nat := bitsOf d.toNat 15 0

def isPeerPtr (p : Word) : Bool := ptrSpace p == 4

/-- Positions of the command. -/
def unitEnd (op : CopyOp) : Nat :=
  match op with
  | .linear _ _ rows len _ _ => rows * len
  | .fill _ _ _ len => len
  | .tileOut _ _ _ _ d _ _ _ => dTrows d * dTcols d
  | .tileIn _ _ _ _ d _ _ _ => dTrows d * dTcols d
  | .patches _ _ _ d => dNpatch d * (dPh d * dPw d)
  | .gatherRows _ _ _ _ n rowb _ => n * rowb
  | .scatterRows _ _ _ _ n rowb => n * rowb

def natMin (a b : Nat) : Nat := if a ≤ b then a else b

/-- Index n of a list in the issuing context's scratchpad. -/
def listEntry (s : State) (ctx : Nat) (list : Word) (n : Nat) : Nat :=
  let k := coreOfCtx ctx
  leNat (locBytes s (.spad k (list.toNat % 2 ^ 22 + 4 * n)) 4)

/-- Coordinates of tile element (i, j). -/
def tileCoord (c0 c1 : Word) (i j : Nat) : Coord :=
  let c := coordOf c0 c1
  { c with x := c.x + j, y := c.y + i }

/-- Pointers of the rows that the entries of a list select for n rows, or n bags, from entry i on. -/
def rowPtrs (s : State) (ctx : Nat) (base list : Word) (pitch : Nat) (sum : Bool) : (fuel n i : Nat) → List Word
  | 0, _, _ => []
  | _, 0, _ => []
  | f + 1, n + 1, i =>
    let v := listEntry s ctx list i
    (base + w64 ((if sum then v % 2 ^ 31 else v) * pitch))
      :: rowPtrs s ctx base list pitch sum f (if sum && !v.testBit 31 then n + 1 else n) (i + 1)

/-- The destination byte at position `pos` of the forms whose destination is memory. A CPYS computes it from what its
list holds now, for its writes and for the lines that are pending for it (R412; DESIGN CHOICE, log 119: the bits are set
at issue, and the entries are read in flight). -/
def dstPtr (s : State) (cmd : CopyCmd) (pos : Nat) : Word :=
  match cmd.op with
  | .linear dst _ _ len _ dp => dst + wInt ((pos / len : Nat) * dp + (pos % len : Nat))
  | .fill dst _ _ _ => dst + w64 pos
  | .tileOut _ _ _ mem d _ _ _ =>
    mem + w64 (pos / dTcols d * dMpitch d + pos % dTcols d * fmtWidth (dFmt d) / 8)
  | .tileIn _ _ _ _ _ _ _ _ => 0
  | .patches _ _ dst d =>
    let w := fmtWidth (dFmt d)
    let per := dPh d * dPw d
    dst + w64 (pos / per * (per * w / 8) + pos % per * w / 8)
  | .gatherRows dst _ _ _ _ _ _ => dst + w64 pos
  | .scatterRows base _ list pitch _ rowb =>
    base + w64 (listEntry s cmd.ctx list (pos / rowb) * pitch + pos % rowb)

/-! ### Units and chunks (R387, R392, R411)

A unit is what one beat moves: at most 64 bytes of a row, up to the end of the chunk, and for bytes up to the end of a
64-byte line of the destination. A command whose words lie alike in source and destination moves a unit in a step. Any
other reads its source first; then each step lands what lies up to the next end of a chunk, and what begins a word that
the command goes on with later waits for the rest of it (log 88). -/

/-- Bytes of a unit at destination `a`, position `pos`, with `left` bytes to the row's end. -/
def byteUnit (a pos left : Nat) : Nat := natMin (natMin (64 - a % 64) left) (4096 - pos % 4096)

/-- Every unit of the command begins and ends between words, in its source as in its destination. -/
def wordWise (cmd : CopyCmd) : Bool :=
  let whole (l : List Nat) : Bool := l.all (fun n => n % 4 == 0)
  match cmd.op with
  | .linear dst src rows len sp dp =>
    whole [dst.toNat, src.toNat] && (decide (rows ≤ 1) || whole [len, sp.natAbs, dp.natAbs])
  | .fill dst _ _ _ => whole [dst.toNat]
  | .gatherRows dst src _ pitch _ rowb _ => whole [dst.toNat, src.toNat, pitch, rowb]
  | .scatterRows base src _ pitch _ rowb => whole [base.toNat, src.toNat, pitch, rowb]
  | _ => false

/-- Elements of a unit: w bits each in memory, `left` to the row's end. -/
def elemUnit (w left : Nat) : Nat := natMin (if w < 8 then 64 else 512 / w) left

/-- Positions of the unit at `pos`: a beat, a fibre-fold, or one word of a bag's sum. -/
def unitLen (s : State) (cmd : CopyCmd) (pos : Nat) : Nat :=
  let a := (dstPtr s cmd pos).toNat
  match cmd.op with
  | .linear _ _ _ len _ _ => byteUnit a pos (len - pos % len)
  | .fill _ _ _ len => byteUnit a pos (len - pos)
  | .tileOut _ _ _ _ d _ ex _ =>
    let c := dTcols d
    if ex then natMin (slotDepth cmd.record) (c - pos % c) else elemUnit (fmtWidth (dFmt d)) (c - pos % c)
  | .tileIn _ _ _ _ d _ cp _ =>
    let c := dTcols d
    if cp then natMin (slotDepth cmd.record) (c - pos % c) else elemUnit (fmtWidth (dFmt d)) (c - pos % c)
  | .patches _ _ _ d =>
    let per := dPh d * dPw d
    elemUnit (fmtWidth (dFmt d)) (per - pos % per)
  | .gatherRows _ _ _ _ _ rowb sum =>
    if sum then (if cmd.bf16 && !wordWise cmd then 2 else 4) else byteUnit a pos (rowb - pos % rowb)
  | .scatterRows _ _ _ _ _ rowb => byteUnit a pos (rowb - pos % rowb)

/-- The mapping that a write of a command to an element will use (R424): the new one where the element's unit is on its
way to it. -/
def landMap (s : State) (i : Nat) (r : List Word) (c : Coord) : List Word :=
  match mapElem s i r c true with
  | .use m => m
  | .fault _ => r
  | .wait =>
    match findConv s i with
    | some (_, cv) => underOldFlags (recAll s i) (areaImage s (convWho cv) cv.area)
    | none => r

/-- Bytes of an element under a mapping: its own, or its slot's. -/
def landPtrs (m : List Word) (c : Coord) : List (Word × Nat) :=
  if isSparse m then [(tBase m + w64 ((elemPlace m c).1.headD 0), slotBytes m)] else (elemPtrs m c).map (fun p => (p, 1))

/-- Destination bytes of a unit of n positions at `pos`: pointers and lengths. -/
def unitDst (s : State) (cmd : CopyCmd) (pos n : Nat) : List (Word × Nat) :=
  match cmd.op with
  | .tileOut _ c0 c1 _ d zf _ _ =>
    let ins := (List.range n).filter (fun k => zf || inBounds cmd.record (tileCoord c0 c1 (pos / dTcols d) (pos % dTcols d + k)))
    [(dstPtr s cmd pos, (ins.length * fmtWidth (dFmt d) + 7) / 8)]
  | .tileIn h c0 c1 _ d _ cp _ =>
    let r := cmd.record
    let cs := ((List.range n).map (fun k => tileCoord c0 c1 (pos / dTcols d) (pos % dTcols d + k))).filter (inBounds r)
    let at_ (c : Coord) : List (Word × Nat) := landPtrs (landMap s (h.toNat % 16384) r c) c
    if cp then
      match cs with
      | c :: _ => if isSparse (landMap s (h.toNat % 16384) r c) then at_ c else (cs.map at_).flatten
      | [] => []
    else (cs.map at_).flatten
  | .patches _ _ _ d => [(dstPtr s cmd pos, (n * fmtWidth (dFmt d) + 7) / 8)]
  | _ => [(dstPtr s cmd pos, n)]

/-- Destination bytes of a unit that has been read. -/
def workDst (s : State) (cmd : CopyCmd) (u : Work) : List (Word × Nat) :=
  if u.n = 0 then [(u.dst, u.bytes.length)] else unitDst s cmd u.pos u.n

/-- Its destination bits, which count towards its chunk. -/
def workBits (cmd : CopyCmd) (u : Work) : Nat :=
  match cmd.op with
  | .tileIn _ c0 c1 _ d _ cp _ =>
    if u.n = 0 then 8 * u.bytes.length
    else
      let ins := (List.range u.n).filter (fun k =>
        inBounds cmd.record (tileCoord c0 c1 (u.pos / dTcols d) (u.pos % dTcols d + k)))
      if cp then (if ins.isEmpty then 0 else 8 * slotBytes cmd.record) else tBits cmd.record * ins.length
  | _ => 8 * u.bytes.length

/-- Whether destination bytes lie in line `line` of core k's scratchpad (R412). -/
def dstInLine (cmd : CopyCmd) (k line : Nat) (d : Word × Nat) : Bool :=
  let hit (off : Nat) : Bool := decide (off < 64 * line + 64) && decide (64 * line < off + d.2)
  match decodePtr d.1 with
  | some (.spad off) =>
    (if cmd.targets.isEmpty then coreOfCtx cmd.ctx == k else cmd.targets.contains k) && hit off
  | some (.rspad c off) => c == k && coreOfCtx cmd.ctx == k && hit off
  | _ => false

/-- Some unit from `pos` on writes the line. `fuel` bounds the units. -/
def pendingFrom (s : State) (cmd : CopyCmd) (k line : Nat) : (fuel : Nat) → (pos : Nat) → Bool
  | 0, _ => false
  | f + 1, pos =>
    if pos ≥ unitEnd cmd.op then false
    else
      let n := unitLen s cmd pos
      (unitDst s cmd pos n).any (dstInLine cmd k line) || pendingFrom s cmd k line f (pos + n)

/-- An active command has yet to write bytes of the line. -/
def pendingRun (s : State) (r : CopyRun) (k line : Nat) : Bool :=
  if r.loaded then (r.kept ++ r.works).any (fun u => (workDst s r.cmd u).any (dstInLine r.cmd k line))
  else pendingFrom s r.cmd k line (unitEnd r.cmd.op) (if wordWise r.cmd then r.pos else 0)

/-- The checker's pending bit of a line of core k (R412): a queued or active command of the core, or a multicast from
another core of the die, that has yet to write bytes of it. -/
def linePending (s : State) (k line : Nat) : Bool :=
  s.cores.any (fun kc =>
    kc.2.engines.any (fun ke =>
      ke.2.queues.any (fun q => q.2.any (fun c => (kc.1 == k || c.targets.contains k)
        && pendingFrom s c k line (unitEnd c.op) 0))
      || ke.2.active.any (fun a => (kc.1 == k || a.2.cmd.targets.contains k) && pendingRun s a.2 k line)))

/-- EARLY_READ (R412): the checker is on and a byte read lies in a pending line. -/
def earlyRead (s : State) (x : Ctx) (l : Loc) (n : Nat) : Bool :=
  (ctxCr x crEchkst).getLsbD 0 &&
  match l with
  | .spad k off => linePending s k (off / 64) || linePending s k ((off + n - 1) / 64)
  | _ => false

end Sys2Proof.Machine
end

