-- ==== Sys2Proof/Machine/LoadStore.lean ====
section
/-!
DEFINITION. Scalar loads, stores, prefetch and atomics (R124-R134), their ordering waits (R345, R349), and what
becomes of accesses in flight.
-/
namespace Sys2Proof.Machine

/-! ## Ordering waits -/

/-- An access of class `cls` is held by a FENCE while an earlier access it waits for is not performed (R349); a
release waits for every earlier write of the context, at scope CTX for those that are not performed even there (R345,
R350, R351). -/
def orderHeld (s : State) (o : MemOrd) : Bool :=
  let x := me s
  x.out.any (fun a => a.holds.getLsbD o.oc.toNat)
  || (decide (2 ≤ o.ord.toNat) && x.out.any (fun a => decide (1 ≤ o.scope.toNat) || leftAtCtx a))

/-- A write of class `o` is held, by a FENCE or by a read-modify-write that has still to write (R131). -/
def writeHeld (s : State) (o : MemOrd) : Bool := orderHeld s o || lateOut (me s)

/-- A write outside the core's own memories is performed later (R350). -/
def noteWrite (s : State) (l : Loc) (cls : BitVec 2) : State :=
  if locOwn s l then s else setMe s { me s with out := (me s).out ++ [⟨cls, 0, none, []⟩] }

/-- The context has commands that are not complete: they lie within scope CTX (R340). -/
def hasCommands (s : State) (c : Nat) : Bool :=
  let k := coreOfCtx c
  let d := getDie s (dieOfCtx c)
  [0, 1].any (fun e => !(tabGet [] (getEngine s k e).queues c).isEmpty
    || (getEngine s k e).active.any (fun sr => sr.2.cmd.ctx == c))
  || (match (getCtx s c).bind.bind (getPart s k) with
    | some x => !x.cfgq.isEmpty || !x.opq.isEmpty || !x.drq.isEmpty || !(startedPool x).isEmpty
    | none => false)
  || d.placeq.any (fun p => p.ctx == c) || (match d.placing with | some (p, _) => p.ctx == c | none => false)
  || d.convs.any (fun v => v.ctx == c && some v.coh == (getCtx s c).coh)

/-- A read-modify-write at scope CTX writes in a later step than it reads in, so that a write of an agent outside the scope
may come between (R131): a sibling context of the core is outside CTX, in accumulator memory too (R303, R340). It is performed
at once while commands of the context, which lie within the scope, are not complete (DESIGN CHOICE, log 3). -/
def writesLate (s : State) (l : Loc) (o : MemOrd) : Bool :=
  o.scope == 0 && !hasCommands s s.cur && (match l with | .mem _ => true | .spad _ _ => true | .acc _ _ => true | _ => false)

/-- The write of a read-modify-write; one that comes later holds accesses of the classes `holds`. -/
def rmwWrite (s : State) (l : Loc) (bs : List Byte) (o : MemOrd) (holds : BitVec 4) : State :=
  if writesLate s l o then setMe s { me s with out := (me s).out ++ [⟨o.oc, holds, none, [(l, bs)]⟩] }
  else noteWrite (locWrite s l bs) l o.oc

/-- n bytes of a place as a read-modify-write finds them: what an earlier one of the same instruction has still to write
there, or what it holds (R217). -/
def rmwRead (s : State) (l : Loc) (n : Nat) : Nat :=
  match ((me s).out.flatMap (fun a => a.late)).reverse.find? (fun w => w.1 == l) with
  | some w => leNat w.2
  | none => locRead s l n

/-- A destination awaits its load (R35, R127). -/
def noteLoad (s : State) (d : BitVec 6) : State :=
  if d = 0 then s else setMe s { me s with loading := d.toNat :: (me s).loading.filter (fun r => r != d.toNat) }

/-! ## The checks of an access (R125, R412, R494, R298) -/

def breakRec (s : State) (p : Word) (reg : Nat) : FaultRec :=
  { recOf s cBreak p with info0 := w64 (2 + 16 * reg) }

/-- Not a record of the device: cause 0, which no fault has (R466), says that the access is held back and the
instruction has not been performed. -/
def heldRec (s : State) : FaultRec := recBase 0 0 s.cur (me s).pc

/-- Every check of an access of the executing context: the place and the state with translations entered, or the record.
`echk`: it is one of those that R412 lists. -/
def openWith (echk : Bool) (s : State) (p : Word) (n : Nat) (kind : AccKind) (plain : Bool) :
    Except FaultRec (Loc × State) :=
  match checkAccess s (whoMe s) p n kind plain with
  | .error c => .error (recOf s c p)
  | .ok (l, s1) =>
    if spadHeld s l then .error (heldRec s)
    else if echk ∧ kind ≠ .store ∧ earlyRead s (me s) l n then .error (recOf s cEarlyRead p)
    else match dataBreak (me s) p n (kind != .store) (kind != .load) with
      | some reg => .error (breakRec s p reg)
      | none => if kind ≠ .store ∧ locBad s l n then .error (recOf s cEcc p) else .ok (l, s1)

/-- A scalar load, store or atomic, or a lane of a vector memory instruction. -/
def openAccess (s : State) (p : Word) (n : Nat) (kind : AccKind) (plain : Bool) : Except FaultRec (Loc × State) :=
  openWith true s p n kind plain

/-! ## PEER accesses (R523-R525) -/

/-- A load or atomic of the PEER space: sends its request, waits, and then answers with the data. Until then its context
issues nothing (DESIGN CHOICE, log 116): by R127 only the readers of its destination stall, but LINK_FAULT is precise
(R524), so no later instruction may have had its effect when the answer is a failure. -/
def peerScalar (s : State) (p : Word) (dev n : Nat) (op : PeerOp) (fin : State → BitVec 1024 → Exe) : Exe :=
  match (me s).peerData with
  | some (.ok d) => fin s d
  | some (.failed c) => .fault (linkRec s.cur (me s).pc p c.toNat (tabGet 0 s.routes dev)) s
  | none =>
    if (me s).peerWait.isSome then .stall s
    else match sendPeer s ⟨s.cur, (me s).pc, p, op, tabGet 0 s.routes dev, s.clk, .scalar⟩ dev [(p.toNat % 2 ^ 48, n)] with
      | (.inl (.ok d), s1) => fin s1 d
      | (.inl (.failed c), _) => .fault (linkRec s.cur (me s).pc p c.toNat (tabGet 0 s.routes dev)) s
      | (.inr id, s1) => .stall (setMe s1 { me s1 with peerWait := some id })

/-- A store that a peer did not perform reaches the context as a record and an asynchronous trap (R524). -/
def peerStoreFailed (s : State) (r : PeerReq) (cause : Nat) : State :=
  pushFault s (coreOfCtx r.ctx) (linkRec r.ctx r.pc r.ptr cause r.port)

/-- A store to a peer is posted; it is performed when the peer's port has answered (R351, R526). -/
def peerStore (s : State) (p : Word) (dev : Nat) (bs : List Byte) (cls : BitVec 2) : Exe :=
  let r : PeerReq := ⟨s.cur, (me s).pc, p, .write bs, tabGet 0 s.routes dev, s.clk, .store⟩
  match sendPeer s r dev [(p.toNat % 2 ^ 48, bs.length)] with
  | (.inl (.ok _), s1) => .retire s1
  | (.inl (.failed c), s1) => .retire (peerStoreFailed s1 r c.toNat)
  | (.inr id, s1) => .retire (setMe s1 { me s1 with out := (me s1).out ++ [⟨cls, 0, some id, []⟩] })

/-! ## Loads and stores (R124) -/

/-- The register value of a load of n bytes. -/
def loadValue (n : Nat) (sgn : Bool) (v : Nat) : Word := if sgn then wInt (sextNat v (8 * n)) else w64 v

def loadBody (d : BitVec 6) (p : State → Word) (n : Nat) (sgn : Bool) (o : MemOrd) (s : State) : Exe :=
  if orderHeld s o then .stall s
  else match openAccess s (p s) n .load true with
    | .error r => .fault r s
    | .ok (.peer dev _, _) => peerScalar s (p s) dev n (.read n) (fun t v => .retire (wg t d (loadValue n sgn v.toNat)))
    | .ok (l, s1) => .retire (noteLoad (wg s1 d (loadValue n sgn (locRead s1 l n))) d)

def storeBody (p : State → Word) (n : Nat) (v : State → Word) (o : MemOrd) (s : State) : Exe :=
  if writeHeld s o then .stall s
  else match openAccess s (p s) n .store false with
    | .error r => .fault r s
    | .ok (.peer dev _, s1) => peerStore s1 (p s) dev (leBytes n (v s).toNat) o.oc
    | .ok (l, s1) => .retire (noteWrite (locWrite s1 l (leBytes n (v s).toNat)) l o.oc)

def execLd (h : Hdr) (d a b : BitVec 6) (o : MemOrd) (size : BitVec 2) (sgn : Bool) (off : BitVec 19) (s : State) : Out :=
  issue1 h [a, b] [d] (loadBody d (fun t => effAddr (rg t a) (rg t b) off) (2 ^ size.toNat) sgn o) s
def execSt (h : Hdr) (r a b : BitVec 6) (o : MemOrd) (size : BitVec 2) (off : BitVec 19) (s : State) : Out :=
  issue1 h [r, a, b] [] (storeBody (fun t => effAddr (rg t a) (rg t b) off) (2 ^ size.toNat) (fun t => rg t r) o) s

/-- PREF (R126): no effect but that its walk may enter a translation. -/
def prefBody (p : State → Word) (s : State) : Exe :=
  match decodePtr (p s) with
  | some (.dev va) =>
    (match translate s (whoMe s) va .load with
     | .ok (_, s1) => .retire s1
     | .error _ => .retire s)
  | _ => .retire s
def execPref (h : Hdr) (a b : BitVec 6) (off : BitVec 19) (s : State) : Out :=
  issue1 h [a, b] [] (prefBody (fun t => effAddr (rg t a) (rg t b) off)) s

/-! ## Atomics (R129-R134) -/

def atomicBody (fn : Nat) (d : BitVec 6) (a : BitVec 6) (b c : State → Word) (o : MemOrd) (dbl : Bool) (s : State) : Exe :=
  let n := if dbl then 8 else 4
  let p := rg s a
  let bv := (b s).toNat % 2 ^ (8 * n)
  let cv := (c s).toNat % 2 ^ (8 * n)
  if writeHeld s o then .stall s
  else match openAccess s p n .atomic false with
    | .error r => .fault r s
    | .ok (.peer dev _, _) =>
      peerScalar s p dev n (.atomic fn dbl (w64 bv) (w64 cv)) (fun t v => .retire (wg t d (v.setWidth 64)))
    | .ok (l, s1) =>
      let old := locRead s1 l n
      let s2 := match atomicNew fn n old bv cv with
        | some new => rmwWrite s1 l (leBytes n new) o 15
        | none => s1
      .retire (noteLoad (wg s2 d (w64 old)) d)

def amo (fn : Nat) (h : Hdr) (d a b : BitVec 6) (o : MemOrd) (dbl : Bool) (s : State) : Out :=
  issue1 h [a, b] [d] (atomicBody fn d a (fun t => rg t b) (fun _ => 0) o dbl) s

def execAmoSwap (h : Hdr) (d a b : BitVec 6) (o : MemOrd) (dbl : Bool) (s : State) : Out := amo 0x00 h d a b o dbl s
def execAmoAdd (h : Hdr) (d a b : BitVec 6) (o : MemOrd) (dbl : Bool) (s : State) : Out := amo 0x01 h d a b o dbl s
def execAmoAnd (h : Hdr) (d a b : BitVec 6) (o : MemOrd) (dbl : Bool) (s : State) : Out := amo 0x02 h d a b o dbl s
def execAmoOr (h : Hdr) (d a b : BitVec 6) (o : MemOrd) (dbl : Bool) (s : State) : Out := amo 0x03 h d a b o dbl s
def execAmoXor (h : Hdr) (d a b : BitVec 6) (o : MemOrd) (dbl : Bool) (s : State) : Out := amo 0x04 h d a b o dbl s
def execAmoMin (h : Hdr) (d a b : BitVec 6) (o : MemOrd) (dbl : Bool) (s : State) : Out := amo 0x05 h d a b o dbl s
def execAmoMax (h : Hdr) (d a b : BitVec 6) (o : MemOrd) (dbl : Bool) (s : State) : Out := amo 0x06 h d a b o dbl s
def execAmoMinu (h : Hdr) (d a b : BitVec 6) (o : MemOrd) (dbl : Bool) (s : State) : Out := amo 0x07 h d a b o dbl s
def execAmoMaxu (h : Hdr) (d a b : BitVec 6) (o : MemOrd) (dbl : Bool) (s : State) : Out := amo 0x08 h d a b o dbl s
def execAmocas (h : Hdr) (d a b c : BitVec 6) (o : MemOrd) (dbl : Bool) (s : State) : Out :=
  issue1 h [a, b, c] [d] (atomicBody 0x10 d a (fun t => rg t b) (fun t => rg t c) o dbl) s
def execAmofadd (h : Hdr) (d a b : BitVec 6) (o : MemOrd) (dbl : Bool) (s : State) : Out := amo 0x20 h d a b o dbl s

/-! ## FENCE (R349, R350) -/

/-- A FENCE retires; later accesses of its classes wait for the earlier writes of its classes. -/
def fenceBody (scope : BitVec 3) (cset : BitVec 4) (s : State) : Exe :=
  .retire (setMe s { me s with out := fenceOut (scope == 0) cset (me s).out })

def execFence (h : Hdr) (scope : BitVec 3) (cset : BitVec 4) (s : State) : Out :=
  issue1 h [] [] (fenceBody scope cset) s

/-! ## Events -/

/-- An agent's step that is not enabled changes nothing (log 6). -/
def ev (s : State) : Out := .next s
def noAgent : Out := .fault .noSuchAgent

/-- LOAD_RETURN (R127): the destination becomes ready. -/
def execLoadReturn (ctx reg : Nat) (s : State) : Out :=
  if 512 ≤ ctx then noAgent
  else .next (modCtx s ctx (fun x => { x with loading := x.loading.filter (fun r => r != reg) }))

/-- STORE_PERFORMED (R350): a write of the device becomes performed and releases what a FENCE held for it; what a
read-modify-write at scope CTX has still to write is written (R131). A store to a peer is performed by its answer. -/
def execStorePerformed (ctx index : Nat) (s : State) : Out :=
  if 512 ≤ ctx then noAgent
  else match (getCtx s ctx).out[index]? with
    | some ⟨_, _, none, late⟩ =>
      .next (late.foldl (fun t w => locWrite t w.1 w.2) (modCtx s ctx (fun x => { x with out := x.out.eraseIdx index })))
    | _ => ev s

/-- ICACHE_FILL (R13). -/
def execIcacheFill (core line : Nat) (s : State) : Out :=
  if 128 ≤ core then noAgent else .next (fillLine s core line)

end Sys2Proof.Machine
end

