-- ==== Sys2Proof/Machine/VecBase.lean ====
section
/-!
DEFINITION. The vector queue and its entries (R189-R193, R550), lanes and masks (R194-R195), and the flag trap of a
vector instruction (R103, R106).
-/
namespace Sys2Proof.Machine

/-! ## Issue (R190, R193, R222) -/

/-- What an instruction read at issue: the values of its general registers. -/
structure Captured where
  x : Word
  y : Word
  z : Word
  w : Word
  deriving DecidableEq, Repr

/-- How an instruction enters the queue: whether it can raise a flag, whether it accesses memory, and whether it
reserves a reply slot. -/
structure VKind where
  flags : Bool
  mem   : Bool
  reply : Bool
  deriving DecidableEq, Repr

def vkPlain : VKind := ⟨false, false, false⟩
def vkFlags : VKind := ⟨true, false, false⟩
def vkMem (skip : Bool) : VKind := ⟨false, true, skip⟩

/-- A lane at `base` plus a scaled index of 32 bits may lie in core k's scratchpad, through a pointer of core k. -/
def indexNear (k : Nat) (base : Word) : Bool :=
  [w64 (2 ^ 60), w64 (3 * 2 ^ 60 + k * 2 ^ 52)].any (fun w => decide ((base - w + w64 (2 ^ 35)).toNat < 2 ^ 36 + 2 ^ 22))

/-- A vector instruction of core k with these values of its general registers may access the core's scratchpad. -/
def vectorReaches (s : State) (k : Nat) (i : Instr) (x y z : Word) : Bool :=
  let strided (str : Bool) : Bool :=
    (List.range 64).any (fun j => ptrOnSpad k k (x + y + (if str then w64 j * z else w64 (4 * j))))
  match i with
  | .vld _ _ _ _ _ str _ _ _ => strided str
  | .vst _ _ _ _ _ str _ _ _ => strided str
  | .vgath _ _ _ _ _ _ _ _ _ => indexNear k x
  | .vscat _ _ _ _ _ _ _ _ _ => indexNear k x
  | .vscatAdd _ _ _ _ _ _ _ _ _ => indexNear k x
  | .vscatIadd _ _ _ _ _ _ _ _ _ => indexNear k x
  | .vscatImin _ _ _ _ _ _ _ _ _ => indexNear k x
  | .vscatImax _ _ _ _ _ _ _ _ _ => indexNear k x
  | .vldt _ _ _ _ _ _ _ _ _ => tensorReaches s k k (x.toNat % 16384)
  | .vstt _ _ _ _ _ _ _ _ _ _ _ => tensorReaches s k k (x.toNat % 16384)
  | .rbsetSetV _ _ _ _ _ _ => true
  | .rbsetUnsetV _ _ _ _ _ _ => true
  | .rrankV _ _ _ _ _ _ _ _ => true
  | .rselV _ _ _ _ _ _ _ _ => true
  | _ => false

/-- The entry goes to the tail of the queue. A fault-capable instruction does not retire: its context waits. -/
def vissueBody (i : Instr) (k : VKind) (cap : State → Captured) (s : State) : Exe :=
  let x := me s
  if 16 ≤ x.vq.length || (coreHeld s s.cur && vectorReaches s (myCore s) i (cap s).x (cap s).y (cap s).z) then .stall s
  else if k.reply && decide (16 ≤ x.replies.length) then .stall s
  else
    let blocks := k.mem || (k.flags && fpctlEnables x != 0)
    let c := cap s
    let ks := if k.reply then (let r := reserveReply s s.cur; (some r.1, r.2)) else (none, s)
    let e : VEntry := ⟨i, x.pc, c.x, c.y, c.z, c.w, ks.1, blocks, 0⟩
    let s2 := setMe ks.2 { me ks.2 with vq := (me ks.2).vq ++ [e] }
    if blocks then .stall s2 else .retire s2

/-- Issue of a vector instruction that reads general registers `srcs` and writes `dsts`. -/
def vissue (h : Hdr) (srcs dsts : List (BitVec 6)) (i : Instr) (k : VKind) (cap : State → Captured) (s : State) : Out :=
  issue1 h srcs dsts (vissueBody i k cap) s

def capNone (_ : State) : Captured := ⟨0, 0, 0, 0⟩
/-- The general register in field B, where BS is set. -/
def capB (b : BitVec 6) (bs : Bool) (s : State) : Captured := ⟨0, if bs then rg s b else 0, 0, 0⟩
def srcB (b : BitVec 6) (bs : Bool) : List (BitVec 6) := if bs then [b] else []
def capABC (a b c : BitVec 6) (s : State) : Captured := ⟨rg s a, rg s b, rg s c, 0⟩

/-! ## Lanes (R12, R195) -/

def lane (v : VReg) (j : Nat) : Nat := (v.extractLsb' (32 * j) 32).toNat
def laneIds : List Nat := List.range 64
/-- A register from its lanes. -/
def mkVec (f : Nat → Nat) : VReg := BitVec.ofNat 2048 (packBits 32 (laneIds.map f))
def setLane (v : VReg) (j x : Nat) : VReg := mkVec (fun i => if i = j then x else lane v i)

def vreg (s : State) (i : Nat) : VReg := ctxV (me s) i
def mreg (s : State) (i : Nat) : Word := ctxM (me s) i
/-- Lane j is active under mask register msk. -/
def active (s : State) (msk : BitVec 3) (j : Nat) : Bool := (mreg s msk.toNat).getLsbD j
/-- An inactive lane of the destination (R194). -/
def inactiveLane (s : State) (d : Nat) (zi : Bool) (j : Nat) : Nat := if zi then 0 else lane (vreg s d) j

/-- The B operand of lane j: gB's low word, or lane j of vB. -/
def operB (s : State) (e : VEntry) (b : BitVec 6) (bs : Bool) (j : Nat) : Nat :=
  if bs then e.y.toNat % 2 ^ 32 else lane (vreg s b.toNat) j

/-! ## What the execution of an entry answers -/

inductive VOut where
  | done (s : State)
  /-- done, with the value its reply slot receives when it completes (R222) -/
  | answered (s : State) (v : Word)
  /-- a precise fault; `s` holds what the rule of the fault keeps -/
  | fault (r : FaultRec) (s : State)
  /-- cannot be performed yet -/
  | wait
  /-- a write through a handle waits for its unit to leave BUSY or HELD (R424) -/
  | stalled
  deriving Repr

/-- The record of a fault of an entry, at a lane. -/
def vecRec (s : State) (e : VEntry) (cause : Nat) (addr : Word) (j : Option Nat) : FaultRec :=
  { recOf s cause addr with agent := 1, pc := e.pc, lane := j }

def writeV (d : Nat) (f : Nat → Nat) (s : State) : State := setMe s (ctxSetV (me s) d (mkVec f))
def writeM (d : Nat) (w : Word) (s : State) : State := setMe s (ctxSetM (me s) d w)
def writeG (d : Nat) (w : Word) (s : State) : State := setMe s (ctxSetG (me s) d w)

/-- An instruction without flags. -/
def vecPlain (d : BitVec 5) (msk : BitVec 3) (zi : Bool) (f : Nat → Nat) (s : State) : VOut :=
  .done (writeV d.toNat (fun j => if active s msk j then f j else inactiveLane s d.toNat zi j) s)

/-- The exceptions of lanes: the first lane with an enabled flag, or the state with FPSTAT updated and the results
written (R103, R106). -/
def vecExc (e : VEntry) (xs : List (Nat × Exc)) (write : State → State) (s : State) : VOut :=
  let en := fpctlEnables (me s)
  let all := excJoinList (xs.map (·.2))
  match (xs.filter (fun p => (p.2.flags &&& en) != 0)).map (·.1) with
  | j :: js => .fault (vecRec s e cArith (all.flags.setWidth 64) (some (js.foldl natMin j))) s
  | [] => .done (write (setMe s (applyExc (me s) all)))

/-- A lane-by-lane instruction with flags: results in vD. -/
def vecFlags (e : VEntry) (d : BitVec 5) (msk : BitVec 3) (zi : Bool) (f : Nat → Nat × Exc) (s : State) : VOut :=
  let rs := laneIds.map (fun j => if active s msk j then f j else (inactiveLane s d.toNat zi j, excNone))
  vecExc e (laneIds.zip (rs.map (·.2))) (writeV d.toNat (fun j => (rs.getD j (0, excNone)).1)) s

/-! ## Register hazards (R191) -/

/-- Vector registers and masks an instruction reads; with `zi` clear its destination counts as read, for its
inactive lanes. -/
structure VUse where
  vs : List Nat
  ms : List Nat
  deriving DecidableEq, Repr

def vuse (vs ms : List Nat) : VUse := ⟨vs, ms⟩
def useB (b : BitVec 6) (bs : Bool) : List Nat := if bs then [] else [b.toNat]

/-- Nothing that `reads` names is still to be written by an instruction with the destinations of `pend`. -/
def usesReady (reads : VUse) (pend : List VUse) : Bool :=
  pend.all (fun p => reads.vs.all (fun v => !p.vs.contains v) && reads.ms.all (fun m => m == 0 || !p.ms.contains m))

end Sys2Proof.Machine
end

