-- ==== Sys2Proof/Machine/VecFp.lean ====
section
/-!
DEFINITION. Vector floating-point arithmetic: what major 0x10 issues, and what it does when the vector unit starts it
(R197-R199).
-/
namespace Sys2Proof.Machine

/-! ## Issue -/

def execVadd (h : Hdr) (d a : BitVec 5) (b : BitVec 6) (bs : Bool) (msk : BitVec 3) (zi : Bool) (rm : BitVec 4) (s : State) : Out :=
  vissue h (srcB b bs) [] (.vadd h d a b bs msk zi rm) vkFlags (capB b bs) s
def execVsub (h : Hdr) (d a : BitVec 5) (b : BitVec 6) (bs : Bool) (msk : BitVec 3) (zi : Bool) (rm : BitVec 4) (s : State) : Out :=
  vissue h (srcB b bs) [] (.vsub h d a b bs msk zi rm) vkFlags (capB b bs) s
def execVmul (h : Hdr) (d a : BitVec 5) (b : BitVec 6) (bs : Bool) (msk : BitVec 3) (zi : Bool) (rm : BitVec 4) (s : State) : Out :=
  vissue h (srcB b bs) [] (.vmul h d a b bs msk zi rm) vkFlags (capB b bs) s
def execVfma (h : Hdr) (d a : BitVec 5) (b : BitVec 6) (bs : Bool) (c : BitVec 5) (msk : BitVec 3) (zi : Bool) (rm : BitVec 4)
    (s : State) : Out :=
  vissue h (srcB b bs) [] (.vfma h d a b bs c msk zi rm) vkFlags (capB b bs) s
def execVdiv (h : Hdr) (d a : BitVec 5) (b : BitVec 6) (bs : Bool) (msk : BitVec 3) (zi : Bool) (rm : BitVec 4) (s : State) : Out :=
  vissue h (srcB b bs) [] (.vdiv h d a b bs msk zi rm) vkFlags (capB b bs) s
def execVsqrt (h : Hdr) (d a : BitVec 5) (msk : BitVec 3) (zi : Bool) (rm : BitVec 4) (s : State) : Out :=
  vissue h [] [] (.vsqrt h d a msk zi rm) vkFlags capNone s
def execVrcp (h : Hdr) (d a : BitVec 5) (msk : BitVec 3) (zi : Bool) (s : State) : Out :=
  vissue h [] [] (.vrcp h d a msk zi) vkFlags capNone s
def execVrsq (h : Hdr) (d a : BitVec 5) (msk : BitVec 3) (zi : Bool) (s : State) : Out :=
  vissue h [] [] (.vrsq h d a msk zi) vkFlags capNone s
def execVmin (h : Hdr) (d a : BitVec 5) (b : BitVec 6) (bs : Bool) (msk : BitVec 3) (zi : Bool) (s : State) : Out :=
  vissue h (srcB b bs) [] (.vmin h d a b bs msk zi) vkFlags (capB b bs) s
def execVmax (h : Hdr) (d a : BitVec 5) (b : BitVec 6) (bs : Bool) (msk : BitVec 3) (zi : Bool) (s : State) : Out :=
  vissue h (srcB b bs) [] (.vmax h d a b bs msk zi) vkFlags (capB b bs) s
def execVsgn (h : Hdr) (d a : BitVec 5) (b : BitVec 6) (bs : Bool) (op : BitVec 2) (msk : BitVec 3) (zi : Bool) (s : State) : Out :=
  vissue h (srcB b bs) [] (.vsgn h d a b bs op msk zi) vkPlain (capB b bs) s

/-! ## Execution -/

/-- The FP32 value of a 32-bit lane. -/
def f32 (x : Nat) : FVal := widen 0x11 x
/-- The rounding mode of a vector instruction (R135, R197). -/
def vmode (s : State) (rm : BitVec 4) : Rnd := rndOf (rmCode (me s) rm) 0
def fa (s : State) (a : BitVec 5) (j : Nat) : FVal := f32 (lane (vreg s a.toNat) j)
def fb (s : State) (e : VEntry) (b : BitVec 6) (bs : Bool) (j : Nat) : FVal := f32 (operB s e b bs j)

def runVadd (d a : BitVec 5) (b : BitVec 6) (bs : Bool) (msk : BitVec 3) (zi : Bool) (rm : BitVec 4) (e : VEntry) (s : State) : VOut :=
  vecFlags e d msk zi (fun j => fpAdd 0x11 (fa s a j) (fb s e b bs j) (vmode s rm)) s
def runVsub (d a : BitVec 5) (b : BitVec 6) (bs : Bool) (msk : BitVec 3) (zi : Bool) (rm : BitVec 4) (e : VEntry) (s : State) : VOut :=
  vecFlags e d msk zi (fun j => fpSub 0x11 (fa s a j) (fb s e b bs j) (vmode s rm)) s
def runVmul (d a : BitVec 5) (b : BitVec 6) (bs : Bool) (msk : BitVec 3) (zi : Bool) (rm : BitVec 4) (e : VEntry) (s : State) : VOut :=
  vecFlags e d msk zi (fun j => fpMul 0x11 (fa s a j) (fb s e b bs j) (vmode s rm)) s
def runVfma (d a : BitVec 5) (b : BitVec 6) (bs : Bool) (c : BitVec 5) (msk : BitVec 3) (zi : Bool) (rm : BitVec 4)
    (e : VEntry) (s : State) : VOut :=
  vecFlags e d msk zi (fun j => fpFma 0x11 (fa s a j) (fb s e b bs j) (fa s c j) (vmode s rm)) s
def runVdiv (d a : BitVec 5) (b : BitVec 6) (bs : Bool) (msk : BitVec 3) (zi : Bool) (rm : BitVec 4) (e : VEntry) (s : State) : VOut :=
  vecFlags e d msk zi (fun j => fpDiv 0x11 (fa s a j) (fb s e b bs j) (vmode s rm)) s
def runVsqrt (d a : BitVec 5) (msk : BitVec 3) (zi : Bool) (rm : BitVec 4) (e : VEntry) (s : State) : VOut :=
  vecFlags e d msk zi (fun j => fpSqrt 0x11 (fa s a j) (vmode s rm)) s

/-! ### Approximations (R199) -/

/-- One of the two FP32 numbers adjacent to the exact value, or the value itself where it is one. Which of the two is a
free value, fixed for the function and its input (log 10). -/
def approx (op : Nat) (x : Nat) (v : FVal) : Nat × Exc :=
  deliver 0x11 v (if Config.approxUpper op (BitVec.ofNat 32 x) then .rup else .rdn)

def infOverflow (neg : Bool) : Nat × Exc := ((deliver 0x11 (.inf neg) .rne).1, excFlags (flagOF ||| flagNX))
def infDivZero (neg : Bool) : Nat × Exc := ((deliver 0x11 (.inf neg) .rne).1, excFlags flagDZ)

/-- |x| is at most 2^k. -/
def magAtMost (mag : Nat) (exp : Int) (k : Int) : Bool := !ltMag 1 k mag exp

def rcp (x : Nat) : Nat × Exc :=
  match f32 x with
  | .nan n p => nanOutcome 0x11 [.nan n p] false
  | .inf n => deliver 0x11 (fzero n) .rne
  | .fin n m e =>
    if m = 0 then infDivZero n
    else if magAtMost m e (-128) then infOverflow n
    else approx 0 x (divFin n 1 0 m e)

/-- 1/sqrt(x): the exact power of two where x is an even power of two, else an inexact quotient of the root. -/
def rsqVal (m : Nat) (e : Int) : FVal :=
  match sqrtFin m e with
  | .fin _ rm re => divFin false 1 0 rm re
  | v => v

def rsq (x : Nat) : Nat × Exc :=
  match f32 x with
  | .nan n p => nanOutcome 0x11 [.nan n p] false
  | .inf n => if n then nanOutcome 0x11 [.inf true] true else deliver 0x11 (fzero false) .rne
  | .fin n m e =>
    if m = 0 then infDivZero n
    else if n then nanOutcome 0x11 [.fin n m e] true
    else approx 1 x (rsqVal m e)

def runVrcp (d a : BitVec 5) (msk : BitVec 3) (zi : Bool) (e : VEntry) (s : State) : VOut :=
  vecFlags e d msk zi (fun j => rcp (lane (vreg s a.toNat) j)) s
def runVrsq (d a : BitVec 5) (msk : BitVec 3) (zi : Bool) (e : VEntry) (s : State) : VOut :=
  vecFlags e d msk zi (fun j => rsq (lane (vreg s a.toNat) j)) s

def runVmin (d a : BitVec 5) (b : BitVec 6) (bs : Bool) (msk : BitVec 3) (zi : Bool) (e : VEntry) (s : State) : VOut :=
  vecFlags e d msk zi (fun j => fpMinMax 0x11 false (lane (vreg s a.toNat) j) (operB s e b bs j)) s
def runVmax (d a : BitVec 5) (b : BitVec 6) (bs : Bool) (msk : BitVec 3) (zi : Bool) (e : VEntry) (s : State) : VOut :=
  vecFlags e d msk zi (fun j => fpMinMax 0x11 true (lane (vreg s a.toNat) j) (operB s e b bs j)) s
def runVsgn (d a : BitVec 5) (b : BitVec 6) (bs : Bool) (op : BitVec 2) (msk : BitVec 3) (zi : Bool) (e : VEntry) (s : State) : VOut :=
  vecPlain d msk zi (fun j => fpSign 0x11 op.toNat (lane (vreg s a.toNat) j) (operB s e b bs j)) s

end Sys2Proof.Machine
end

