-- ==== Sys2Proof/Machine/VecInt.lean ====
section
/-!
DEFINITION. Vector integer arithmetic (R201-R202), conversion between formats (R203-R205), masks and comparisons (R206).
-/
namespace Sys2Proof.Machine

/-! ## Issue -/

def execViadd (h : Hdr) (d a : BitVec 5) (b : BitVec 6) (bs sat u : Bool) (msk : BitVec 3) (zi : Bool) (s : State) : Out :=
  vissue h (srcB b bs) [] (.viadd h d a b bs sat u msk zi) vkPlain (capB b bs) s
def execVisub (h : Hdr) (d a : BitVec 5) (b : BitVec 6) (bs sat u : Bool) (msk : BitVec 3) (zi : Bool) (s : State) : Out :=
  vissue h (srcB b bs) [] (.visub h d a b bs sat u msk zi) vkPlain (capB b bs) s
def execVimul (h : Hdr) (d a : BitVec 5) (b : BitVec 6) (bs hi u : Bool) (msk : BitVec 3) (zi : Bool) (s : State) : Out :=
  vissue h (srcB b bs) [] (.vimul h d a b bs hi u msk zi) vkPlain (capB b bs) s
def execVand (h : Hdr) (d a : BitVec 5) (b : BitVec 6) (bs : Bool) (msk : BitVec 3) (zi : Bool) (s : State) : Out :=
  vissue h (srcB b bs) [] (.vand h d a b bs msk zi) vkPlain (capB b bs) s
def execVor (h : Hdr) (d a : BitVec 5) (b : BitVec 6) (bs : Bool) (msk : BitVec 3) (zi : Bool) (s : State) : Out :=
  vissue h (srcB b bs) [] (.vor h d a b bs msk zi) vkPlain (capB b bs) s
def execVxor (h : Hdr) (d a : BitVec 5) (b : BitVec 6) (bs : Bool) (msk : BitVec 3) (zi : Bool) (s : State) : Out :=
  vissue h (srcB b bs) [] (.vxor h d a b bs msk zi) vkPlain (capB b bs) s
def execVshl (h : Hdr) (d a : BitVec 5) (b : BitVec 6) (bs : Bool) (msk : BitVec 3) (zi : Bool) (s : State) : Out :=
  vissue h (srcB b bs) [] (.vshl h d a b bs msk zi) vkPlain (capB b bs) s
def execVshr (h : Hdr) (d a : BitVec 5) (b : BitVec 6) (bs : Bool) (msk : BitVec 3) (zi : Bool) (s : State) : Out :=
  vissue h (srcB b bs) [] (.vshr h d a b bs msk zi) vkPlain (capB b bs) s
def execVsar (h : Hdr) (d a : BitVec 5) (b : BitVec 6) (bs : Bool) (msk : BitVec 3) (zi : Bool) (s : State) : Out :=
  vissue h (srcB b bs) [] (.vsar h d a b bs msk zi) vkPlain (capB b bs) s
def execVimin (h : Hdr) (d a : BitVec 5) (b : BitVec 6) (bs u : Bool) (msk : BitVec 3) (zi : Bool) (s : State) : Out :=
  vissue h (srcB b bs) [] (.vimin h d a b bs u msk zi) vkPlain (capB b bs) s
def execVimax (h : Hdr) (d a : BitVec 5) (b : BitVec 6) (bs u : Bool) (msk : BitVec 3) (zi : Bool) (s : State) : Out :=
  vissue h (srcB b bs) [] (.vimax h d a b bs u msk zi) vkPlain (capB b bs) s
def execVpopc (h : Hdr) (d a : BitVec 5) (msk : BitVec 3) (zi : Bool) (s : State) : Out :=
  vissue h [] [] (.vpopc h d a msk zi) vkPlain capNone s
def execVclmul (h : Hdr) (d a : BitVec 5) (b : BitVec 6) (bs hi : Bool) (msk : BitVec 3) (zi : Bool) (s : State) : Out :=
  vissue h (srcB b bs) [] (.vclmul h d a b bs hi msk zi) vkPlain (capB b bs) s
/-- VCVT can raise a flag unless both formats are integers (R97, R104). -/
def execVcvt (h : Hdr) (d a : BitVec 5) (c : BitVec 3) (adv : Bool) (part : BitVec 3) (dfmt sfmt : BitVec 8)
    (rm : BitVec 4) (s : State) : Out :=
  vissue h [] [] (.vcvt h d a c adv part dfmt sfmt rm)
    ⟨cvtCanFlag sfmt.toNat dfmt.toNat, false, false⟩ capNone s
def execVcmp (h : Hdr) (d : BitVec 3) (a : BitVec 5) (b : BitVec 6) (bs : Bool) (cc msk : BitVec 3) (zi : Bool) (s : State) : Out :=
  vissue h (srcB b bs) [] (.vcmp h d a b bs cc msk zi) vkFlags (capB b bs) s
def execVicmp (h : Hdr) (d : BitVec 3) (a : BitVec 5) (b : BitVec 6) (bs : Bool) (cc : BitVec 4) (msk : BitVec 3) (zi : Bool)
    (s : State) : Out :=
  vissue h (srcB b bs) [] (.vicmp h d a b bs cc msk zi) vkPlain (capB b bs) s
def execMand (h : Hdr) (d a b : BitVec 3) (na nb : Bool) (s : State) : Out :=
  vissue h [] [] (.mand h d a b na nb) vkPlain capNone s
def execMor (h : Hdr) (d a b : BitVec 3) (na nb : Bool) (s : State) : Out :=
  vissue h [] [] (.mor h d a b na nb) vkPlain capNone s
def execMxor (h : Hdr) (d a b : BitVec 3) (na nb : Bool) (s : State) : Out :=
  vissue h [] [] (.mxor h d a b na nb) vkPlain capNone s
def execMnot (h : Hdr) (d a : BitVec 3) (s : State) : Out := vissue h [] [] (.mnot h d a) vkPlain capNone s
def execMpopc (h : Hdr) (d : BitVec 6) (a : BitVec 3) (s : State) : Out := vissue h [] [d] (.mpopc h d a) vkPlain capNone s

/-! ## Integer execution (R202) -/

def s32 (x : Nat) : Int := sextNat x 32
def w32 (i : Int) : Nat := wrapInt 32 i

/-- VIADD and VISUB: the lane, and one SAT where it clamps. -/
def satLane (sat u : Bool) (exact wrapped : Int) : Nat × Exc :=
  let lo : Int := if u then 0 else -2147483648
  let hi : Int := if u then 4294967295 else 2147483647
  if !sat then (w32 wrapped, excNone)
  else if exact > hi then (w32 hi, excSat)
  else if exact < lo then (w32 lo, excSat)
  else (w32 exact, excNone)

def addLane (sat u : Bool) (a b : Nat) : Nat × Exc :=
  satLane sat u (if u then (a : Int) + b else s32 a + s32 b) ((a : Int) + b)
def subLane (sat u : Bool) (a b : Nat) : Nat × Exc :=
  satLane sat u (if u then (a : Int) - b else s32 a - s32 b) ((a : Int) - b)
def mulLane (hi u : Bool) (a b : Nat) : Nat :=
  if !hi then (a * b) % 2 ^ 32
  else if u then a * b / 2 ^ 32
  else w32 (s32 a * s32 b / 2 ^ 32)
/-- Carry-less product (R202). -/
def clmul (a b : Nat) : Nat :=
  (List.range 32).foldl (fun t i => if b.testBit i then t ^^^ (a * 2 ^ i) else t) 0
def clmulLane (hi : Bool) (a b : Nat) : Nat := if hi then bitsOf (clmul a b) 62 32 else clmul a b % 2 ^ 32

def runVint2 (d a : BitVec 5) (b : BitVec 6) (bs : Bool) (msk : BitVec 3) (zi : Bool) (f : Nat → Nat → Nat) (e : VEntry)
    (s : State) : VOut :=
  vecPlain d msk zi (fun j => f (lane (vreg s a.toNat) j) (operB s e b bs j)) s

def runViadd (d a : BitVec 5) (b : BitVec 6) (bs sat u : Bool) (msk : BitVec 3) (zi : Bool) (e : VEntry) (s : State) : VOut :=
  vecFlags e d msk zi (fun j => addLane sat u (lane (vreg s a.toNat) j) (operB s e b bs j)) s
def runVisub (d a : BitVec 5) (b : BitVec 6) (bs sat u : Bool) (msk : BitVec 3) (zi : Bool) (e : VEntry) (s : State) : VOut :=
  vecFlags e d msk zi (fun j => subLane sat u (lane (vreg s a.toNat) j) (operB s e b bs j)) s
def shlLane (a b : Nat) : Nat := (a * 2 ^ (b % 32)) % 2 ^ 32
def shrLane (a b : Nat) : Nat := a / 2 ^ (b % 32)
def sarLane (a b : Nat) : Nat := w32 (s32 a / (2 ^ (b % 32) : Nat))
def iminLane (u : Bool) (a b : Nat) : Nat := if (if u then decide (a ≤ b) else decide (s32 a ≤ s32 b)) then a else b
def imaxLane (u : Bool) (a b : Nat) : Nat := if (if u then decide (b ≤ a) else decide (s32 b ≤ s32 a)) then a else b
def runVpopc (d a : BitVec 5) (msk : BitVec 3) (zi : Bool) (s : State) : VOut :=
  vecPlain d msk zi (fun j => popcount 32 (lane (vreg s a.toNat) j)) s

/-! ## VCVT (R205) -/

/-- Element i of a register of w-bit elements (R205). The bits past 2047 of the elements that a PART of the wider format
reaches beyond the register read as 0, and what is written there is dropped (DESIGN CHOICE, log 104). -/
def elemBits (v : VReg) (w i : Nat) : Nat := (v.toNat >>> (w * i)) % 2 ^ w
def setElemBits (v : Nat) (w i x : Nat) : Nat := v - (v >>> (w * i)) % 2 ^ w * 2 ^ (w * i) + (x % 2 ^ w) * 2 ^ (w * i)

/-- The conversion of lane j. -/
def cvtLane (s : State) (a : BitVec 5) (part : BitVec 3) (dfmt sfmt : Nat) (rm : BitVec 4) (j : Nat) : Nat × Exc :=
  let ws := fmtWidth sfmt
  let src := vreg s a.toNat
  let x := if ws = 32 then lane src j else elemBits src ws (64 * part.toNat + j)
  deliver dfmt (widen sfmt x) (rndOf (rmCode (me s) rm) (ditherAt (j / 16) (j % 16) (fpctlDph (me s)))) (fmtIsInt sfmt)

/-- The converted elements placed in the destination; those past bit 2047 are dropped (log 104). -/
def cvtPlace (s : State) (d : BitVec 5) (c part : BitVec 3) (wd : Nat) (f : Nat → Nat) : VReg :=
  BitVec.ofNat 2048 (laneIds.foldl (fun v j =>
    if active s c j then setElemBits v wd (if wd = 32 then j else 64 * part.toNat + j) (f j) else v) (vreg s d.toNat).toNat)

/-- DPH advances modulo 16 (R91). -/
def advanceDph (s : State) : State :=
  let w := ctxCr (me s) crFpctl
  setCr s crFpctl ((w &&& ~~~ 0xF0#64) ||| w64 (((fpctlDph (me s) + 1) % 16) * 16))

def runVcvt (d a : BitVec 5) (c : BitVec 3) (adv : Bool) (part : BitVec 3) (dfmt sfmt : BitVec 8) (rm : BitVec 4)
    (e : VEntry) (s : State) : VOut :=
  let rs := laneIds.map (fun j => if active s c j then cvtLane s a part dfmt.toNat sfmt.toNat rm j else (0, excNone))
  let v := cvtPlace s d c part (fmtWidth dfmt.toNat) (fun j => (rs.getD j (0, excNone)).1)
  vecExc e (laneIds.zip (rs.map (·.2)))
    (fun t => let t1 := setMe t (ctxSetV (me t) d.toNat v); if adv then advanceDph t1 else t1) s

/-! ## Masks (R206) -/

/-- A mask from its bits. -/
def mkMask (f : Nat → Bool) : Word :=
  BitVec.ofNat 64 (laneIds.foldl (fun acc j => if f j then acc + 2 ^ j else acc) 0)

def inactiveBit (s : State) (d : BitVec 3) (zi : Bool) (j : Nat) : Bool := !zi && (mreg s d.toNat).getLsbD j

def runVcmp (d : BitVec 3) (a : BitVec 5) (b : BitVec 6) (bs : Bool) (cc msk : BitVec 3) (zi : Bool) (e : VEntry) (s : State) : VOut :=
  let rs := laneIds.map (fun j =>
    if active s msk j then fpCompare cc.toNat (fa s a j) (fb s e b bs j) else (inactiveBit s d zi j, excNone))
  vecExc e (laneIds.zip (rs.map (·.2))) (writeM d.toNat (mkMask (fun j => (rs.getD j (false, excNone)).1))) s

def runVicmp (d : BitVec 3) (a : BitVec 5) (b : BitVec 6) (bs : Bool) (cc : BitVec 4) (msk : BitVec 3) (zi : Bool) (e : VEntry)
    (s : State) : VOut :=
  .done (writeM d.toNat (mkMask (fun j =>
    if active s msk j then
      condInt cc.toNat 32 (BitVec.ofNat 32 (lane (vreg s a.toNat) j)) (BitVec.ofNat 32 (operB s e b bs j))
    else inactiveBit s d zi j)) s)

def invMask (n : Bool) (w : Word) : Word := if n then ~~~ w else w
def runMlogic (d a b : BitVec 3) (na nb : Bool) (f : Word → Word → Word) (s : State) : VOut :=
  .done (writeM d.toNat (f (invMask na (mreg s a.toNat)) (invMask nb (mreg s b.toNat))) s)
def runMnot (d a : BitVec 3) (s : State) : VOut := .done (writeM d.toNat (~~~ (mreg s a.toNat)) s)
def runMpopc (d : BitVec 6) (a : BitVec 3) (s : State) : VOut :=
  .done (writeG d.toNat (w64 (popcount 64 (mreg s a.toNat).toNat)) s)

end Sys2Proof.Machine
end

