-- ==== Sys2Proof/Machine/VecMove.lean ====
section
/-!
DEFINITION. Moving lanes (R207-R209), reductions and scans (R210-R212), and conflicts within a vector (R220-R221).
-/
namespace Sys2Proof.Machine

/-! ## Issue -/

def execVmovVector (h : Hdr) (d a : BitVec 5) (msk : BitVec 3) (zi : Bool) (s : State) : Out :=
  vissue h [] [] (.vmovVector h d a msk zi) vkPlain capNone s
def execVmovLaneToGeneral (h : Hdr) (d : BitVec 6) (a : BitVec 5) (b : BitVec 6) (s : State) : Out :=
  vissue h [b] [d] (.vmovLaneToGeneral h d a b) vkPlain (fun t => ⟨0, rg t b, 0, 0⟩) s
def execVmovGeneralToLane (h : Hdr) (d : BitVec 5) (a b : BitVec 6) (s : State) : Out :=
  vissue h [a, b] [] (.vmovGeneralToLane h d a b) vkPlain (fun t => ⟨rg t a, rg t b, 0, 0⟩) s
def execVmovGeneralToMask (h : Hdr) (d : BitVec 3) (a : BitVec 6) (s : State) : Out :=
  vissue h [a] [] (.vmovGeneralToMask h d a) vkPlain (fun t => ⟨rg t a, 0, 0, 0⟩) s
def execVmovMaskToGeneral (h : Hdr) (d : BitVec 6) (a : BitVec 3) (s : State) : Out :=
  vissue h [] [d] (.vmovMaskToGeneral h d a) vkPlain capNone s
/-- VBCAST reads gA with SRC 0, gB with SRC 1. -/
def execVbcast (h : Hdr) (d : BitVec 5) (a b : BitVec 6) (src : Bool) (msk : BitVec 3) (zi : Bool) (s : State) : Out :=
  vissue h (if src then [b] else [a]) [] (.vbcast h d a b src msk zi) vkPlain
    (fun t => if src then ⟨0, rg t b, 0, 0⟩ else ⟨rg t a, 0, 0, 0⟩) s
def execVext (h : Hdr) (d a b : BitVec 5) (k : BitVec 6) (msk : BitVec 3) (zi : Bool) (s : State) : Out :=
  vissue h [] [] (.vext h d a b k msk zi) vkPlain capNone s
def execVperm (h : Hdr) (d a b c : BitVec 5) (t2 : Bool) (msk : BitVec 3) (zi : Bool) (s : State) : Out :=
  vissue h [] [] (.vperm h d a b c t2 msk zi) vkPlain capNone s
def execVpswap (h : Hdr) (d a : BitVec 5) (n : BitVec 3) (neg : Bool) (msk : BitVec 3) (zi : Bool) (s : State) : Out :=
  vissue h [] [] (.vpswap h d a n neg msk zi) vkPlain capNone s
def execVslide (h : Hdr) (d a : BitVec 5) (b c : BitVec 6) (dn : Bool) (msk : BitVec 3) (zi : Bool) (s : State) : Out :=
  vissue h [b, c] [] (.vslide h d a b c dn msk zi) vkPlain (fun t => ⟨0, rg t b, rg t c, 0⟩) s
def execVcompress (h : Hdr) (d a : BitVec 5) (msk : BitVec 3) (zi : Bool) (s : State) : Out :=
  vissue h [] [] (.vcompress h d a msk zi) vkPlain capNone s
def execVexpand (h : Hdr) (d a : BitVec 5) (msk : BitVec 3) (zi : Bool) (s : State) : Out :=
  vissue h [] [] (.vexpand h d a msk zi) vkPlain capNone s
def execVsel (h : Hdr) (d a b : BitVec 5) (c : BitVec 3) (s : State) : Out :=
  vissue h [] [] (.vsel h d a b c) vkPlain capNone s
def execViota (h : Hdr) (d : BitVec 5) (a msk : BitVec 3) (zi : Bool) (s : State) : Out :=
  vissue h [] [] (.viota h d a msk zi) vkPlain capNone s
/-- Operations 8-10 are floating point (R210). -/
def redFlags (op : Nat) : VKind := ⟨decide (8 ≤ op), false, false⟩
def execVred (h : Hdr) (d : BitVec 6) (a : BitVec 5) (op rm : BitVec 4) (msk : BitVec 3) (s : State) : Out :=
  vissue h [] [d] (.vred h d a op rm msk) (redFlags op.toNat) capNone s
def execVscan (h : Hdr) (d a : BitVec 5) (op rm : BitVec 4) (msk : BitVec 3) (zi : Bool) (s : State) : Out :=
  vissue h [] [] (.vscan h d a op rm msk zi) (redFlags op.toNat) capNone s
def execVscanExcl (h : Hdr) (d a : BitVec 5) (op rm : BitVec 4) (msk : BitVec 3) (zi : Bool) (s : State) : Out :=
  vissue h [] [] (.vscanExcl h d a op rm msk zi) (redFlags op.toNat) capNone s
def execVconfl (h : Hdr) (d a : BitVec 5) (c msk : BitVec 3) (zi : Bool) (s : State) : Out :=
  vissue h [] [] (.vconfl h d a c msk zi) vkPlain capNone s
def combOp (op : Nat) : Nat :=
  match op with
  | 0 => 8 | 1 => 0 | 2 => 9 | 3 => 10 | 4 => 4 | _ => 5
def execVcomb (h : Hdr) (d a b : BitVec 5) (op : BitVec 3) (rm : BitVec 4) (msk : BitVec 3) (zi : Bool) (s : State) : Out :=
  vissue h [] [] (.vcomb h d a b op rm msk zi) (redFlags (combOp op.toNat)) capNone s

/-! ## Moves (R208, R209) -/

def runVmovVector (d a : BitVec 5) (msk : BitVec 3) (zi : Bool) (s : State) : VOut :=
  vecPlain d msk zi (fun j => lane (vreg s a.toNat) j) s
def runVmovLaneToGeneral (d : BitVec 6) (a : BitVec 5) (e : VEntry) (s : State) : VOut :=
  .done (writeG d.toNat (w64 (lane (vreg s a.toNat) (e.y.toNat % 64))) s)
def runVmovGeneralToLane (d : BitVec 5) (e : VEntry) (s : State) : VOut :=
  .done (setMe s (ctxSetV (me s) d.toNat (setLane (vreg s d.toNat) (e.y.toNat % 64) (e.x.toNat % 2 ^ 32))))
def runVmovGeneralToMask (d : BitVec 3) (e : VEntry) (s : State) : VOut := .done (writeM d.toNat e.x s)
def runVmovMaskToGeneral (d : BitVec 6) (a : BitVec 3) (s : State) : VOut := .done (writeG d.toNat (mreg s a.toNat) s)

def runVbcast (d : BitVec 5) (a : BitVec 6) (src : Bool) (msk : BitVec 3) (zi : Bool) (e : VEntry) (s : State) : VOut :=
  vecPlain d msk zi (fun _ => if src then lane (vreg s a.toNat) (e.y.toNat % 64) else e.x.toNat % 2 ^ 32) s
def runVext (d a b : BitVec 5) (k : BitVec 6) (msk : BitVec 3) (zi : Bool) (s : State) : VOut :=
  vecPlain d msk zi (fun j =>
    if j + k.toNat < 64 then lane (vreg s a.toNat) (j + k.toNat) else lane (vreg s b.toNat) (j + k.toNat - 64)) s
def runVperm (d a b c : BitVec 5) (t2 : Bool) (msk : BitVec 3) (zi : Bool) (s : State) : VOut :=
  vecPlain d msk zi (fun j =>
    let x := lane (vreg s b.toNat) j
    let i := if t2 then x % 128 else x % 64
    if i < 64 then lane (vreg s a.toNat) i else lane (vreg s c.toNat) (i - 64)) s
def runVpswap (d a : BitVec 5) (n : BitVec 3) (neg : Bool) (msk : BitVec 3) (zi : Bool) (s : State) : VOut :=
  vecPlain d msk zi (fun j =>
    let t := lane (vreg s a.toNat) (j ^^^ 2 ^ n.toNat)
    if neg && !j.testBit n.toNat then t ^^^ 2 ^ 31 else t) s
def runVslide (d a : BitVec 5) (dn : Bool) (msk : BitVec 3) (zi : Bool) (e : VEntry) (s : State) : VOut :=
  let k := e.y.toNat
  vecPlain d msk zi (fun j =>
    let ok := if dn then decide (j + k < 64) else decide (k ≤ j)
    if ok then lane (vreg s a.toNat) (if dn then j + k else j - k) else e.z.toNat % 2 ^ 32) s
/-- Set bits of w below bit j. -/
def bitsBelow (w : Word) (j : Nat) : Nat := popcount j w.toNat
def runVexpand (d a : BitVec 5) (msk : BitVec 3) (zi : Bool) (s : State) : VOut :=
  vecPlain d msk zi (fun j => lane (vreg s a.toNat) (bitsBelow (mreg s msk.toNat) j)) s
def runViota (d : BitVec 5) (a msk : BitVec 3) (zi : Bool) (s : State) : VOut :=
  vecPlain d msk zi (fun j => bitsBelow (mreg s a.toNat) j) s
def runVsel (d a b : BitVec 5) (c : BitVec 3) (s : State) : VOut :=
  .done (writeV d.toNat (fun j => if active s c j then lane (vreg s a.toNat) j else lane (vreg s b.toNat) j) s)
def runVcompress (d a : BitVec 5) (msk : BitVec 3) (zi : Bool) (s : State) : VOut :=
  let act := laneIds.filter (active s msk)
  .done (writeV d.toNat (fun j =>
    if j < act.length then lane (vreg s a.toNat) (act.getD j 0) else inactiveLane s d.toNat zi j) s)

/-! ## Reductions (R210-R212) -/

/-- One combination; the left operand first. -/
def redOp (op : Nat) (m : Rnd) (x y : Nat) : Nat × Exc :=
  match op with
  | 0 => ((x + y) % 2 ^ 32, excNone)
  | 1 => (x &&& y, excNone)
  | 2 => (x ||| y, excNone)
  | 3 => (x ^^^ y, excNone)
  | 4 => (iminLane false x y, excNone)
  | 5 => (imaxLane false x y, excNone)
  | 6 => (iminLane true x y, excNone)
  | 7 => (imaxLane true x y, excNone)
  | 8 => fpAdd 0x11 (f32 x) (f32 y) m
  | 9 => fpMinMax 0x11 false x y
  | _ => fpMinMax 0x11 true x y

def redIdentity (op : Nat) : Nat :=
  match op with
  | 1 => 0xFFFFFFFF | 4 => 0x7FFFFFFF | 5 => 0x80000000 | 6 => 0xFFFFFFFF | 9 => 0x7F800000 | 10 => 0xFF800000
  | _ => 0

/-- A node of the tree: its value and the lowest active lane beneath it, or absent. -/
abbrev RedNode := Option (Nat × Nat)

/-- One level: pairs combine, and each combination's exceptions belong to its lowest lane (R106). -/
def redLevel (op : Nat) (m : Rnd) : List RedNode → List RedNode × List (Nat × Exc)
  | l :: r :: rest =>
    let up := redLevel op m rest
    match l, r with
    | some (x, i), some (y, _) =>
      let v := redOp op m x y
      (some (v.1, i) :: up.1, (i, v.2) :: up.2)
    | some n, none => (some n :: up.1, up.2)
    | none, n => (n :: up.1, up.2)
  | l => (l, [])

/-- Levels 1 to 6. -/
def redTree (op : Nat) (m : Rnd) : (levels : Nat) → List RedNode → RedNode × List (Nat × Exc)
  | 0, l => (l.headD none, [])
  | n + 1, l =>
    let a := redLevel op m l
    let b := redTree op m n a.1
    (b.1, a.2 ++ b.2)

def runVred (d : BitVec 6) (a : BitVec 5) (op rm : BitVec 4) (msk : BitVec 3) (e : VEntry) (s : State) : VOut :=
  let leaves := laneIds.map (fun j => if active s msk j then some (lane (vreg s a.toNat) j, j) else none)
  let t := redTree op.toNat (vmode s rm) 6 leaves
  let v := match t.1 with | some (x, _) => x | none => redIdentity op.toNat
  vecExc e t.2 (writeG d.toNat (w64 v)) s

/-- The scan over lanes from j: outputs and exceptions by lane. -/
def scanGo (s : State) (a : BitVec 5) (msk : BitVec 3) (op : Nat) (m : Rnd) (excl : Bool) :
    List Nat → Option Nat → List (Nat × Nat) × List (Nat × Exc)
  | [], _ => ([], [])
  | j :: js, run =>
    if !active s msk j then scanGo s a msk op m excl js run
    else
      let x := lane (vreg s a.toNat) j
      let n := match run with | some y => redOp op m y x | none => (x, excNone)
      let out := if excl then (match run with | some y => y | none => redIdentity op) else n.1
      let up := scanGo s a msk op m excl js (some n.1)
      ((j, out) :: up.1, (j, n.2) :: up.2)

def runScan (d a : BitVec 5) (op rm : BitVec 4) (msk : BitVec 3) (zi excl : Bool) (e : VEntry) (s : State) : VOut :=
  let r := scanGo s a msk op.toNat (vmode s rm) excl laneIds none
  vecExc e r.2 (writeV d.toNat (fun j => (tabFind r.1 j).getD (inactiveLane s d.toNat zi j))) s
def runVscan (d a : BitVec 5) (op rm : BitVec 4) (msk : BitVec 3) (zi : Bool) (e : VEntry) (s : State) : VOut :=
  runScan d a op rm msk zi false e s
def runVscanExcl (d a : BitVec 5) (op rm : BitVec 4) (msk : BitVec 3) (zi : Bool) (e : VEntry) (s : State) : VOut :=
  runScan d a op rm msk zi true e s

/-! ## Conflicts (R220, R221) -/

/-- Active lanes with the value of lane j, ascending. -/
def sameLanes (s : State) (a : BitVec 5) (msk : BitVec 3) (j : Nat) : List Nat :=
  laneIds.filter (fun i => active s msk i && lane (vreg s a.toNat) i == lane (vreg s a.toNat) j)

def conflLane (s : State) (a : BitVec 5) (msk : BitVec 3) (j : Nat) : Nat :=
  let g := sameLanes s a msk j
  g.headD 0 + (g.filter (fun i => decide (i < j))).length * 2 ^ 8 + g.length * 2 ^ 16 + g.getLastD 0 * 2 ^ 24

/-- Every value is computed from the state before the instruction. -/
def runVconfl (d a : BitVec 5) (c msk : BitVec 3) (zi : Bool) (s : State) : VOut :=
  let v := mkVec (fun j => if active s msk j then conflLane s a msk j else inactiveLane s d.toNat zi j)
  let m := mkMask (fun j => active s msk j && (sameLanes s a msk j).headD 64 == j)
  .done (writeM c.toNat m (setMe s (ctxSetV (me s) d.toNat v)))

def combGo (op : Nat) (m : Rnd) : Nat → List Nat → Nat × Exc
  | x, [] => (x, excNone)
  | x, y :: ys =>
    let a := redOp op m x y
    let b := combGo op m a.1 ys
    (b.1, excJoin a.2 b.2)

def runVcomb (d a b : BitVec 5) (op : BitVec 3) (rm : BitVec 4) (msk : BitVec 3) (zi : Bool) (e : VEntry) (s : State) : VOut :=
  let lead (i : Nat) : Nat := lane (vreg s b.toNat) i % 64
  vecFlags e d msk zi (fun j =>
    let x := lane (vreg s a.toNat) j
    if lead j = j then
      combGo (combOp op.toNat) (vmode s rm) x
        ((laneIds.filter (fun i => decide (j < i) && active s msk i && lead i == j)).map (lane (vreg s a.toNat)))
    else (x, excNone)) s

end Sys2Proof.Machine
end

