-- ==== Sys2Proof/Machine/VecMem.lean ====
section
/-!
DEFINITION. Vector memory access: VLD, VST, VGATH and VSCAT (R213-R217, R219).
-/
namespace Sys2Proof.Machine

/-! ## Issue -/

def execVld (h : Hdr) (d : BitVec 5) (a b c : BitVec 6) (str : Bool) (o : MemOrd) (msk : BitVec 3) (skip : Bool) (s : State) : Out :=
  vissue h [a, b, c] [] (.vld h d a b c str o msk skip) (vkMem skip) (capABC a b c) s
def execVst (h : Hdr) (r : BitVec 5) (a b c : BitVec 6) (str : Bool) (o : MemOrd) (msk : BitVec 3) (skip : Bool) (s : State) : Out :=
  vissue h [a, b, c] [] (.vst h r a b c str o msk skip) (vkMem skip) (capABC a b c) s
def capA (a : BitVec 6) (s : State) : Captured := ⟨rg s a, 0, 0, 0⟩
def execVgath (h : Hdr) (d : BitVec 5) (a : BitVec 6) (b : BitVec 5) (scale : BitVec 2) (sx : Bool) (o : MemOrd)
    (msk : BitVec 3) (skip : Bool) (s : State) : Out :=
  vissue h [a] [] (.vgath h d a b scale sx o msk skip) (vkMem skip) (capA a) s
def execVscat (h : Hdr) (r : BitVec 5) (a : BitVec 6) (b : BitVec 5) (scale : BitVec 2) (sx : Bool) (o : MemOrd)
    (msk : BitVec 3) (skip : Bool) (s : State) : Out :=
  vissue h [a] [] (.vscat h r a b scale sx o msk skip) (vkMem skip) (capA a) s
def execVscatAdd (h : Hdr) (r : BitVec 5) (a : BitVec 6) (b : BitVec 5) (scale : BitVec 2) (sx : Bool) (o : MemOrd)
    (msk : BitVec 3) (skip : Bool) (s : State) : Out :=
  vissue h [a] [] (.vscatAdd h r a b scale sx o msk skip) (vkMem skip) (capA a) s
def execVscatIadd (h : Hdr) (r : BitVec 5) (a : BitVec 6) (b : BitVec 5) (scale : BitVec 2) (sx : Bool) (o : MemOrd)
    (msk : BitVec 3) (skip : Bool) (s : State) : Out :=
  vissue h [a] [] (.vscatIadd h r a b scale sx o msk skip) (vkMem skip) (capA a) s
def execVscatImin (h : Hdr) (r : BitVec 5) (a : BitVec 6) (b : BitVec 5) (scale : BitVec 2) (sx : Bool) (o : MemOrd)
    (msk : BitVec 3) (skip : Bool) (s : State) : Out :=
  vissue h [a] [] (.vscatImin h r a b scale sx o msk skip) (vkMem skip) (capA a) s
def execVscatImax (h : Hdr) (r : BitVec 5) (a : BitVec 6) (b : BitVec 5) (scale : BitVec 2) (sx : Bool) (o : MemOrd)
    (msk : BitVec 3) (skip : Bool) (s : State) : Out :=
  vissue h [a] [] (.vscatImax h r a b scale sx o msk skip) (vkMem skip) (capA a) s

/-! ## Lanes (R215, R216) -/

/-- The address of a lane. -/
def eaStride (e : VEntry) (str : Bool) (j : Nat) : Word :=
  e.x + e.y + (if str then w64 j * e.z else w64 (4 * j))
def eaIndexed (e : VEntry) (idx : VReg) (scale : BitVec 2) (sx : Bool) (j : Nat) : Word :=
  let i := lane idx j
  e.x + ((if sx then wInt (s32 i) else w64 i) <<< scale.toNat)

/-- The checks of a lane: PEER and HOST raise ACCESS (R215). -/
def laneOpen (s : State) (p : Word) (kind : AccKind) (plain : Bool) : Except FaultRec (Loc × State) :=
  if ptrSpace p = 4 ∨ ptrSpace p = 5 then
    match decodePtr p with
    | none => .error (recOf s cAddrSpace p)
    | some _ => .error (recOf s (if p.toNat % 4 ≠ 0 then cAlign else cAccess) p)
  else openAccess s p 4 kind plain

/-- The causes that SKIP covers: the address checks of R125 and poisoned entries. -/
def skippable (c : Nat) : Bool :=
  c == cAddrSpace || c == cAlign || c == cAccess || c == cPage || c == cPoison

/-- A lane's fault is one that SKIP covers, whatever the lane. -/
def skipsRec (_ : Nat) (_ : State) (r : FaultRec) : Bool := skippable r.cause

/-- Lanes in ascending order (R216): the lane of a fault and the state with the lanes below performed, or the skipped
lanes and the state. `covers` tells the faults that SKIP covers. -/
def lanesGo (skip : Bool) (covers : Nat → State → FaultRec → Bool) (act : Nat → State → Except FaultRec State) :
    List Nat → Nat → State → Except (FaultRec × Nat × State) (Nat × State)
  | [], sk, s => .ok (sk, s)
  | j :: js, sk, s =>
    match act j s with
    | .ok t => lanesGo skip covers act js sk t
    | .error r => if skip && covers j s r then lanesGo skip covers act js (sk + 2 ^ j) s else .error (r, j, s)

/-- Writes of one instruction stand as one write to be performed. -/
def joinOut (before : Ctx) (o : MemOrd) (s : State) : State :=
  let x := me s
  let new := x.out.drop before.out.length
  if new.isEmpty then s
  else setMe s { x with out := before.out ++
    [⟨o.oc, new.foldl (fun h a => h ||| a.holds) 0, none, new.flatMap (fun a => a.late)⟩] }

def setVstart (s : State) (j : Nat) : State := setCr s crVstart (w64 j)
def vstart (s : State) : Nat := (getCr s crVstart).toNat % 64

/-- The lanes a vector memory instruction takes. -/
def memLanes (s : State) (msk : BitVec 3) : List Nat :=
  laneIds.filter (fun j => decide (vstart s ≤ j) && active s msk j)

/-- A vector memory instruction: every lane, then VSTART and the reply (R216). `wr`: it may write memory. -/
def vecMem (wr : Bool) (e : VEntry) (o : MemOrd) (msk : BitVec 3) (skip : Bool) (covers : Nat → State → FaultRec → Bool)
    (act : Nat → State → Except FaultRec State) (s : State) : VOut :=
  if orderHeld s o || (wr && lateOut (me s)) then .wait
  else match lanesGo skip covers act (memLanes s msk) 0 s with
    | .error (r, j, t) => .fault { r with agent := 1, lane := some j, pc := e.pc } (setVstart (joinOut (me s) o t) j)
    | .ok (sk, t) =>
      .answered (setVstart (joinOut (me s) o t) 0) (w64 sk)

/-! ## Execution (R217) -/

def loadLane (d : BitVec 5) (plain : Bool) (p : Nat → Word) (j : Nat) (s : State) : Except FaultRec State :=
  match laneOpen s (p j) .load plain with
  | .error r => .error r
  | .ok (l, t) => .ok (setMe t (ctxSetV (me t) d.toNat (setLane (vreg t d.toNat) j (locRead t l 4))))

def storeLane (v : VReg) (o : MemOrd) (p : Nat → Word) (j : Nat) (s : State) : Except FaultRec State :=
  match laneOpen s (p j) .store false with
  | .error r => .error r
  | .ok (l, t) => .ok (noteWrite (locWrite t l (leBytes 4 (lane v j))) l o.oc)

/-- A read-modify-write lane: an atomic of R129 by its number. -/
def rmwLane (fn : Nat) (v : VReg) (o : MemOrd) (p : Nat → Word) (j : Nat) (s : State) : Except FaultRec State :=
  match laneOpen s (p j) .atomic false with
  | .error r => .error r
  | .ok (l, t) =>
    match atomicNew fn 4 (rmwRead t l 4) (lane v j) 0 with
    | some n => .ok (rmwWrite t l (leBytes 4 n) o (if o.ord = 0 then BitVec.ofNat 4 (2 ^ o.oc.toNat) else 15))
    | none => .ok t

def runVld (d : BitVec 5) (str : Bool) (o : MemOrd) (msk : BitVec 3) (skip : Bool) (e : VEntry) (s : State) : VOut :=
  vecMem false e o msk skip skipsRec (loadLane d true (eaStride e str)) s
def runVst (r : BitVec 5) (str : Bool) (o : MemOrd) (msk : BitVec 3) (skip : Bool) (e : VEntry) (s : State) : VOut :=
  vecMem true e o msk skip skipsRec (storeLane (vreg s r.toNat) o (eaStride e str)) s
def runVgath (d b : BitVec 5) (scale : BitVec 2) (sx : Bool) (o : MemOrd) (msk : BitVec 3) (skip : Bool) (e : VEntry)
    (s : State) : VOut :=
  vecMem false e o msk skip skipsRec (loadLane d false (eaIndexed e (vreg s b.toNat) scale sx)) s
def runVscat (r b : BitVec 5) (scale : BitVec 2) (sx : Bool) (o : MemOrd) (msk : BitVec 3) (skip : Bool) (e : VEntry)
    (s : State) : VOut :=
  vecMem true e o msk skip skipsRec (storeLane (vreg s r.toNat) o (eaIndexed e (vreg s b.toNat) scale sx)) s
def runVscatRmw (fn : Nat) (r b : BitVec 5) (scale : BitVec 2) (sx : Bool) (o : MemOrd) (msk : BitVec 3) (skip : Bool)
    (e : VEntry) (s : State) : VOut :=
  vecMem true e o msk skip skipsRec (rmwLane fn (vreg s r.toNat) o (eaIndexed e (vreg s b.toNat) scale sx)) s
def runVscatAdd (r b : BitVec 5) (scale : BitVec 2) (sx : Bool) (o : MemOrd) (msk : BitVec 3) (skip : Bool)
    (e : VEntry) (s : State) : VOut := runVscatRmw 0x20 r b scale sx o msk skip e s
def runVscatIadd (r b : BitVec 5) (scale : BitVec 2) (sx : Bool) (o : MemOrd) (msk : BitVec 3) (skip : Bool)
    (e : VEntry) (s : State) : VOut := runVscatRmw 0x01 r b scale sx o msk skip e s
def runVscatImin (r b : BitVec 5) (scale : BitVec 2) (sx : Bool) (o : MemOrd) (msk : BitVec 3) (skip : Bool)
    (e : VEntry) (s : State) : VOut := runVscatRmw 0x05 r b scale sx o msk skip e s
def runVscatImax (r b : BitVec 5) (scale : BitVec 2) (sx : Bool) (o : MemOrd) (msk : BitVec 3) (skip : Bool)
    (e : VEntry) (s : State) : VOut := runVscatRmw 0x06 r b scale sx o msk skip e s

end Sys2Proof.Machine
end

