-- ==== Sys2Proof/Machine/TensorOps.lean ====
section
/-!
DEFINITION. SPCFG (R301) and the instructions of major 0x18: TREG, TREL, TINFO, TADDR, TLD, TST, VLDT and VSTT
(R324-R333).
-/
namespace Sys2Proof.Machine

/-! ## SPCFG -/

/-- A pointer in the SPAD space. -/
def isSpadPtr (p : Word) : Bool := ptrSpace p == 1

/-- The pointers a copy command works on. -/
def copyPtrs (s : State) (c : CopyCmd) : List Word :=
  match c.op with
  | .linear d s _ _ _ _ => [d, s]
  | .fill d _ _ _ => [d]
  | .tileOut _ _ _ m _ _ _ _ => [m]
  | .tileIn _ _ _ m _ _ _ _ => [m]
  | .patches _ o d _ => [o, d]
  | .gatherRows d b l p n _ sum => [d, l] ++ rowPtrs s c.ctx b l p sum 65536 n 0
  | .scatterRows b r l p n _ => [r, l] ++ rowPtrs s c.ctx b l p false 65536 n 0

/-- The handle that a copy command works through. -/
def copyHandle (c : CopyCmd) : Option Word :=
  match c.op with
  | .tileOut h _ _ _ _ _ _ _ => some h
  | .tileIn h _ _ _ _ _ _ _ => some h
  | .patches h _ _ _ => some h
  | _ => none

/-- A copy command of a core may reach core k's scratchpad. -/
def copyReaches (s : State) (core k : Nat) (c : CopyCmd) : Bool :=
  c.targets.contains k || (copyPtrs s c).any (ptrOnSpad core k)
  || (match copyHandle c with
    | some h => recordOnSpad core k c.record || tensorReaches s core k (h.toNat % 16384)
    | none => false)

/-- A pool command reads or writes the scratchpad of its core (R280, R284, R287). -/
def poolReaches (op : PoolOp) : Bool :=
  match op with
  | .sweep _ _ _ _ _ => true
  | .topk _ _ _ => true
  | .drain _ _ _ _ _ _ _ _ _ => true
  | .load _ _ => false
  | .clear _ _ => false
  | .scan _ _ => false

/-- An access or a command that reads or writes core k's scratchpad has been issued and has not completed. Commands that a
partition in STOP has not started do not count (R301). -/
def spadBusy (s : State) (k : Nat) : Bool :=
  (ctxsOfCore k).any (fun c => ((getCtx s c).vq ++ (getCtx s c).vrun).any (fun e => vectorReaches s k e.instr e.x e.y e.z))
  || s.cores.any (fun kc => kc.2.engines.any (fun ke =>
      ke.2.queues.any (fun q => q.2.any (copyReaches s kc.1 k))
      || ke.2.active.any (fun a => copyReaches s kc.1 k a.2.cmd)))
  || (getDie s (dieOfCore k)).placeq.any (fun c => coreOfCtx c.ctx == k)
  || (match (getDie s (dieOfCore k)).placing with | some (c, _) => coreOfCtx c.ctx == k | none => false)
  || (getCore s k).parts.any (fun kp => (startedPool kp.2).any (fun c => poolReaches c.op)
      || (!kp.2.stop && (kp.2.opq ++ kp.2.drq).any (fun c => poolReaches c.op)))
  || s.dies.any (fun d => d.2.convs.any (convReaches s k))
  || s.ctxs.any (fun c => c.2.out.any (fun a => a.late.any (fun w => match w.1 with | .spad j _ => j == k | _ => false)))

/-- SPCFG (R301). One that changes G joins those of its core that wait, and its context waits with it until SPCFG_APPLY. -/
def spcfgBody (a : BitVec 6) (s : State) : Exe :=
  let w := (rg s a).toNat
  let k := myCore s
  if w / 8 ≠ 0 ∨ 5 < w % 8 then faultAt s cAccess (rg s a)
  else if (getCore s k).spcfgs.any (fun e => e.1 == s.cur) then .stall s
  else if (getCore s k).spmapG = w then .retire s
  else .stall (modCore s k (fun q => { q with spcfgs := q.spcfgs ++ [(s.cur, w)] }))

def execSpcfg (h : Hdr) (a : BitVec 6) (s : State) : Out := issue h 8 true [a] [] (spcfgBody a) s

/-- SPCFG_APPLY: once every earlier scratchpad command has ended, the grouping of the SPCFG that has waited longest takes
effect, and it retires. -/
def execSpcfgApply (core : Nat) (s : State) : Out :=
  if 128 ≤ core then noAgent
  else match (getCore s core).spcfgs with
    | [] => ev s
    | (c, g) :: rest =>
      if spadBusy s core then ev s
      else
        let s1 := modCore s core (fun q => { q with spmapG := g, spcfgs := rest })
        .next (if (getCtx s c).phase = .running then asCtx s1 c (fun t => retireNext (me t) c 8 t) else s1)

/-! ## Handles and coordinates -/

/-- The register pair of field B; field 0 reads coordinates 0 (R61, log 21). -/
def pairRegs (b : BitVec 6) : List (BitVec 6) := if b = 0 then [] else [b, b + 1]
def pairVal (s : State) (b : BitVec 6) : Word × Word := if b = 0 then (0, 0) else (rg s b, rg s (b + 1))

/-- A fault of a handle without a data address names the instruction. -/
def recPc (s : State) (c : Nat) : FaultRec := recOf s c (me s).pc

/-- Steps 1 to 3 of R324 for a scalar form: index, record, coordinates. -/
def openHandle (s : State) (h : Word) (c0 c1 : Word) : Except FaultRec (Nat × List Word × Coord) :=
  match checkHandle s (getCr s crXspace) h with
  | .error c => .error (recPc s c)
  | .ok i =>
    let r := recAll s i
    if tPoisoned r then .error (recPc s cPoison)
    else if c1.getLsbD 63 || !inBounds r (coordOf c0 c1) then .error (recPc s cTensorBounds)
    else .ok (i, r, coordOf c0 c1)

/-- The scales that a value of an element takes. -/
def elemScalePtrs (r : List Word) (c : Coord) (raw : Bool) : List Word :=
  (if raw || !isBlockLay r then [] else [scalePtr r c])
  ++ (if raw || tLayout r != layLb8 then [] else ptrList (bandPtr r c) 2)

/-- Bytes an element's read names: the element, or its slot's head and its value; then scales. -/
def elemReadPtrs (s : State) (r : List Word) (c : Coord) (raw : Bool) : List Word :=
  (if isSparse r then ptrList (tBase r + w64 ((elemPlace r c).1.headD 0)) 34 ++ sparseValuePtrs s (whoMe s) r c
   else elemPtrs r c) ++ elemScalePtrs r c raw

/-- One of the bytes lies in a scratchpad that an SPCFG holds back (R301). -/
def bytesHeld (s : State) (ps : List Word) : Bool :=
  ps.any (fun p => match rawLoc s (whoMe s) p with | some l => spadHeld s l | none => false)

/-- Data breakpoints on bytes (R494). -/
def breakBytes (s : State) (ps : List Word) (write : Bool) : Option FaultRec :=
  if bytesHeld s ps then some (heldRec s)
  else match ps.findSome? (fun p => (dataBreak (me s) p 1 (!write) write).map (fun n => (p, n))) with
    | some (p, n) => some (breakRec s p n)
    | none => none

/-- EARLY_READ and data breakpoints on the bytes of an element (R412, R494). -/
def watchBytes (s : State) (ps : List Word) (write : Bool) : Option FaultRec :=
  let early (p : Word) : Bool := !write && (match rawLoc s (whoMe s) p with | some l => earlyRead s (me s) l 1 | none => false)
  if bytesHeld s ps then some (heldRec s)
  else match ps.find? early with
  | some p => some (recOf s cEarlyRead p)
  | none => breakBytes s ps write

/-- A 64-bit register value of an element (R329), or the 32-bit lane of VLDT (R332). The access waits for an SPCFG before
it reads anything. A malformed slot and an uncorrectable error come before EARLY_READ (DESIGN CHOICE, log 94). -/
def loadedElem (s : State) (r : List Word) (c : Coord) (raw : Bool) (bits : Nat) (band : Option Nat := none) :
    Except FaultRec (Nat × Exc × State) :=
  if bytesHeld s (elemReadPtrs s r c raw) then .error (heldRec s)
  else match readCode s (whoMe s) r c with
  | .error e => .error (recOf s e.1 e.2)
  | .ok (code, s1) =>
    let k := code.getD 0
    let f := tFmt r
    let res : Except (Nat × Word) (Nat × Exc × State) :=
      if raw then .ok (k % 2 ^ bits, excNone, s1)
      else if fmtIsInt f then
        .ok (wrapInt bits (if fmtSigned f then signedOf (fmtWidth f) k else (k : Int)), excNone, s1)
      else if f = 0x10 ∧ bits = 64 then .ok (k, excNone, s1)
      else match readValue s1 (whoMe s) r c code band with
        | .error e => .error e
        | .ok (v, s2) =>
          let d := deliver 0x11 v .rne
          .ok (d.1, d.2, s2)
    match res with
    | .error e => .error (recOf s e.1 e.2)
    | .ok (v, ex, s3) =>
      match watchBytes s3 (elemReadPtrs s r c raw) false with
      | some x => .error x
      | none => .ok (v, ex, s3)

/-- The source value of a store to an element: a code, or a value and whether it is an integer (R330, R332). -/
def storeSource (f : Nat) (g bits : Nat) : FVal × Bool :=
  if fmtIsInt f then (ofInt (if fmtSigned f then signedOf bits g else ((g % 2 ^ bits : Nat) : Int)), true)
  else if f = 0x10 ∧ bits = 64 then (widen 0x10 g, false)
  else (widen 0x11 (g % 2 ^ 32), false)

/-- The code a store writes, with its exceptions: the address of the element is checked first (R324, R330). `r` is the
mapping in use: while a conversion changes the format, the source is read as that mapping's format has it (DESIGN CHOICE,
log 85: R330 and R424 do not say). -/
def storedCode (s : State) (r : List Word) (c : Coord) (raw : Bool) (m : Rnd) (g bits : Nat) (band : Option Nat := none) :
    Except FaultRec (Nat × Exc × State) :=
  let ps := if isSparse r then ptrList (tBase r + w64 ((elemPlace r c).1.headD 0)) (slotBytes r) else elemPtrs r c
  match placeBytes s (whoMe s) .store ps with
  | .error e => .error (recOf s e.1 e.2)
  | .ok (_, s1) =>
    match (if bytesHeld s1 (elemScalePtrs r c raw) then some (heldRec s) else watchBytes s1 ps true) with
    | some x => .error x
    | none =>
      if raw then .ok (g % 2 ^ tBits r, excNone, s1)
      else
        let v := storeSource (tFmt r) g bits
        match narrowElem s1 (whoMe s) r c v.1 v.2 m band with
        | .error e => .error (recOf s e.1 e.2)
        | .ok x => .ok x

/-- The write of an element by the executing context, noted as a write of its class. -/
def storeElem (s : State) (r : List Word) (c : Coord) (code : Nat) (cls : BitVec 2) : Except FaultRec State :=
  match writeElem s (whoMe s) r c code with
  | .error e => .error (recOf s e.1 e.2)
  | .ok t =>
    match rawLoc t (whoMe s) ((elemPtrs r c).headD 0) with
    | some l => .ok (noteWrite t l cls)
    | none => .ok t

def promoteIf (b : Bool) (s : State) (i : Nat) (c : Coord) : State := if b then promote s s.cur i c else s

/-! ## TREG, TREL, TINFO, TADDR -/

/-- A release at scope PKG in all classes (R326, R327). -/
def releaseHeld (s : State) : Bool := !(me s).out.isEmpty

/-- A read of n bytes, naturally aligned, that an instruction makes of a record in memory (R125); from a peer it
waits for the answer (R523). The early-read checker does not watch it (R412). -/
def withBytes (s : State) (p : Word) (n : Nat) (fin : State → List Byte → Exe) : Exe :=
  match checkAccess s (whoMe s) p n .load false with
  | .error c => .fault (recOf s c p) s
  | .ok (.peer dev _, _) => peerScalar s p dev n (.read n) (fun t d => fin t (leBytes n d.toNat))
  | .ok (l, s1) =>
    if spadHeld s1 l then .fault (heldRec s) s
    else if locBad s1 l n then .fault (recOf s cEcc p) s
    else match breakBytes s1 (ptrList p n) false with
      | some x => .fault x s
      | none => fin s1 (locBytes s1 l n)

/-- Double-words of bytes. -/
def wordsOf (n : Nat) (bs : List Byte) : List Word :=
  (List.range n).map (fun k => w64 (leNat ((bs.drop (8 * k)).take 8)))

/-- GEN and VALID of an image replaced by the table's (R326). -/
def withGenValid (img : List Word) (gen : Nat) (valid : Bool) : List Word :=
  let d0 := tw img 0 % 2 ^ 46 + gen * 2 ^ 46
  img.set 0 (setBit (w64 d0) 8 valid)

def setRec (s : State) (i : Nat) (r : List Word) : State :=
  writeHbm s (recPa s i) ((r.map (fun w => leBytes 8 w.toNat)).flatten)

def tregBody (d a b : BitVec 6) (s : State) : Exe :=
  let i := (rg s b).toNat
  if releaseHeld s then .stall s
  else if 16384 ≤ i then .fault (recPc s cAccess) s
  else withBytes s (rg s a) 128 (fun s1 bs =>
    let img := wordsOf 16 bs
    let old := recAll s1 i
    if recBad s1 i then .fault (recPc s cEcc) s
    else if tValid old then .fault (recPc s cTensorBusy) s
    else if !recWellFormed img || tConv img || tPoisoned img || tConvPtr img != 0 then .fault (recPc s cAccess) s
    else .retire (wg (setRec s1 i (withGenValid img (tGen old) true)) d (w64 (tGen old * 2 ^ 14 + i))))
def execTreg (h : Hdr) (d a b : BitVec 6) (s : State) : Out := issue h 8 true [a, b] [d] (tregBody d a b) s

def trelBody (a : BitVec 6) (s : State) : Exe :=
  if releaseHeld s then .stall s
  else match checkHandle s (getCr s crXspace) (rg s a) with
    | .error c => .fault (recPc s c) s
    | .ok i =>
      let r := recAll s i
      if tConv r then .fault (recPc s cTensorBusy) s
      else .retire (setRecWord s i 0 ((withGenValid r ((tGen r + 1) % 2 ^ 18) false).getD 0 0))
def execTrel (h : Hdr) (a : BitVec 6) (s : State) : Out := issue h 8 true [a] [] (trelBody a) s

def tinfoBody (d a : BitVec 6) (k : BitVec 4) (s : State) : Exe :=
  match checkHandle s (getCr s crXspace) (rg s a) with
  | .error c => .fault (recPc s c) s
  | .ok i => .retire (wg s d (recWord s i k.toNat))
def execTinfo (h : Hdr) (d a : BitVec 6) (k : BitVec 4) (s : State) : Out := issue1 h [a] [d] (tinfoBody d a k) s

/-- The mapping that a read of an instruction uses, whose handle has just been checked. -/
def mapFor (s : State) (i : Nat) (r : List Word) (c : Coord) : List Word :=
  match mapElem s i r c false with
  | .use m => m
  | _ => r

/-- TADDR. Its acceptance, no sparse record, is decided from the record as it stands; where the element's unit is NEW under
a sparse mapping, the address is that of the element's slot (DESIGN CHOICE, log 108: R424 takes the new mapping and does
not say which byte that is). -/
def taddrBody (d a b : BitVec 6) (prom : Bool) (s : State) : Exe :=
  match openHandle s (rg s a) (pairVal s b).1 (pairVal s b).2 with
  | .error r => .fault r s
  | .ok (i, r, c) =>
    if isSparse r then .fault (recPc s cAccess) s
    else match mapFault s i r c false with
    | some k => .fault (recPc s k) s
    | none => .retire (wg (promoteIf prom s i c) d ((elemPtrs (mapFor s i r c) c).headD 0))
def execTaddr (h : Hdr) (d a b : BitVec 6) (prom : Bool) (s : State) : Out :=
  issue1 h (a :: pairRegs b) [d] (taddrBody d a b prom) s

/-! ## TLD and TST -/

/-- The pointer of a band scale that an access to an element reads in PEER or HOST. -/
def farBand (m : List Word) (c : Coord) (raw : Bool) : Option Word :=
  let p := bandPtr m c
  if tLayout m = layLb8 ∧ !raw ∧ (ptrSpace p = 4 ∨ ptrSpace p = 5) then some p else none

/-- A band scale of 1, with which the other checks of an element are made before its own band scale is asked for. -/
def bandOne : Nat := 0x3F80

/-- An access to an element whose band scale lies at a peer asks for it (R318, R523): `check` is what the element's other
bytes raise, `fin` goes on with the scale. -/
def withBand (s : State) (m : List Word) (c : Coord) (raw : Bool) (check : Option FaultRec)
    (fin : State → Option Nat → Exe) : Exe :=
  match farBand m c raw with
  | none => fin s none
  | some p =>
    if ptrSpace p = 5 then fin s none
    else match check with
      | some x => .fault x s
      | none =>
        match decodePtr p with
        | some (.peer dev va) =>
          (match locate s (whoMe s) (.peer dev va) 2 .load with
           | .error k => .fault (recOf s k p) s
           | .ok _ => peerScalar s p dev 2 (.read 2) (fun t d => fin t (some (d.toNat % 65536))))
        | _ => .fault (recOf s cAddrSpace p) s

def errRec {α : Type} (e : Except FaultRec α) : Option FaultRec := match e with | .error x => some x | .ok _ => none

def tldBody (d a b : BitVec 6) (raw prom : Bool) (o : MemOrd) (s : State) : Exe :=
  if orderHeld s o then .stall s
  else match openHandle s (rg s a) (pairVal s b).1 (pairVal s b).2 with
    | .error r => .fault r s
    | .ok (i, r, c) =>
      match mapFault s i r c false with
      | some k => .fault (recPc s k) s
      | none =>
      let m := mapFor s i r c
      withBand s m c raw (errRec (loadedElem s m c raw 64 (some bandOne))) (fun t band =>
        match loadedElem t m c raw 64 band with
        | .error x => .fault x s
        | .ok (v, ex, s1) =>
          if flagTraps (me s) ex then .fault (flagRec s ex.flags) s
          else
            let s2 := promoteIf prom (setMe s1 (applyExc (me s1) ex)) i c
            .retire (noteLoad (wg s2 d (w64 v)) d))
def execTld (h : Hdr) (d a b : BitVec 6) (raw prom : Bool) (o : MemOrd) (s : State) : Out :=
  issue1 h (a :: pairRegs b) [d] (tldBody d a b raw prom o) s

/-- The rounding mode of TST and VSTT (R325). -/
def tmode (s : State) (rmen : Bool) (rm : BitVec 3) : Rnd := rndOf (if rmen then rm.toNat else fpctlRm (me s)) 0

def tstBody (v a b : BitVec 6) (raw prom rmen : Bool) (rm : BitVec 3) (o : MemOrd) (s : State) : Exe :=
  if writeHeld s o then .stall s
  else match openHandle s (rg s a) (pairVal s b).1 (pairVal s b).2 with
    | .error r => .fault r s
    | .ok (i, r, c) =>
      if tRo r || isSparse r then .fault (recPc s cAccess) s
      else match mapElem s i r c true with
        | .wait => .stall (setMe s { me s with handleStall := true })
        | .fault k => .fault (recPc s k) s
        | .use m =>
          let mode := tmode s rmen rm
          let g := (rg s v).toNat
          withBand s m c raw (errRec (storedCode s m c raw mode g 64 (some bandOne))) (fun u band =>
            match storedCode u m c raw mode g 64 band with
            | .error x => .fault x s
            | .ok (code, ex, s1) =>
              if flagTraps (me s) ex then .fault (flagRec s ex.flags) s
              else match storeElem (promoteIf prom (setMe s1 (applyExc (me s1) ex)) i c) m c code o.oc with
                | .error x => .fault x s
                | .ok t => .retire t)
def execTst (h : Hdr) (v a b : BitVec 6) (raw prom rmen : Bool) (rm : BitVec 3) (o : MemOrd) (s : State) : Out :=
  issue1 h (v :: a :: pairRegs b) [] (tstBody v a b raw prom rmen rm o) s

/-! ## VLDT and VSTT (R332) -/

/-- The checks made at issue: handle, POISONED, coordinate bit 63, acceptance. -/
def vtensorIssue (i : Instr) (a b : BitVec 6) (store skip : Bool) (s : State) : Exe :=
  match checkHandle s (getCr s crXspace) (rg s a) with
  | .error c => .fault (recPc s c) s
  | .ok n =>
    let r := recAll s n
    let f := tFmt r
    if tPoisoned r then .fault (recPc s cPoison) s
    else if (pairVal s b).2.getLsbD 63 then .fault (recPc s cTensorBounds) s
    else if f = 6 ∨ f = 7 ∨ f = 0x10 ∨ isSparse r ∨ (store ∧ tRo r) then .fault (recPc s cAccess) s
    else vissueBody i (vkMem skip) (fun t => ⟨rg t a, (pairVal t b).1, (pairVal t b).2, 0⟩) s

def execVldt (h : Hdr) (d : BitVec 5) (a b : BitVec 6) (raw prom : Bool) (o : MemOrd) (msk : BitVec 3) (skip : Bool)
    (s : State) : Out :=
  issue1 h (a :: pairRegs b) [] (vtensorIssue (.vldt h d a b raw prom o msk skip) a b false skip) s
def execVstt (h : Hdr) (v : BitVec 5) (a b : BitVec 6) (raw prom rmen : Bool) (rm : BitVec 3) (o : MemOrd) (msk : BitVec 3)
    (skip : Bool) (s : State) : Out :=
  issue1 h (a :: pairRegs b) [] (vtensorIssue (.vstt h v a b raw prom rmen rm o msk skip) a b true skip) s

/-- Coordinates of lane j, if it is in bounds. -/
def laneCoord (r : List Word) (e : VEntry) (j : Nat) : Option Coord :=
  let c := coordOf e.y e.z
  let cj : Coord := { c with x := c.x + j }
  if cj.x < 2 ^ 32 ∧ inBounds r cj then some cj else none

/-- What the lanes of VLDT and VSTT do: a value with exceptions, then its write. -/
abbrev LaneEval := Nat → State → Except FaultRec (Nat × Exc × State)

/-- Flags of the lanes up to the first fault: the flag trap comes first (R332). -/
def laneFlags (skip : Bool) (covers : Nat → State → FaultRec → Bool) (ev1 : LaneEval) : List Nat → State → List (Nat × Exc)
  | [], _ => []
  | j :: js, s =>
    match ev1 j s with
    | .ok (_, ex, t) => (j, ex) :: laneFlags skip covers ev1 js t
    | .error r => if skip && covers j s r then laneFlags skip covers ev1 js s else []

/-- The lanes in ascending order (R332). A fault of a lane keeps the lanes below it, with their flags and counts in FPSTAT
(DESIGN CHOICE, log 75: R103 and R216 do not say). `covers` tells the faults that SKIP covers; `wr`, that it stores. -/
def vtensor (wr : Bool) (e : VEntry) (o : MemOrd) (msk : BitVec 3) (skip : Bool) (covers : Nat → State → FaultRec → Bool)
    (r : List Word) (ev1 : LaneEval)
    (put : Nat → Nat → State → Except FaultRec State) (s : State) : VOut :=
  let lanes := (memLanes s msk).filter (fun j => (laneCoord r e j).isSome)
  let xs := if fpctlEnables (me s) = 0 then [] else laneFlags skip covers ev1 lanes s
  let en := fpctlEnables (me s)
  match (xs.filter (fun p => (p.2.flags &&& en) != 0)).map (·.1) with
  | j :: js =>
    .fault (vecRec s e cArith ((excJoinList (xs.map (·.2))).flags.setWidth 64) (some (js.foldl natMin j))) s
  | [] =>
    if orderHeld s o || (wr && lateOut (me s)) then .wait
    else
      let act (j : Nat) (t : State) : Except FaultRec State :=
        match ev1 j t with
        | .error x => .error x
        | .ok (v, ex, t1) => put j v (setMe t1 (applyExc (me t1) ex))
      match lanesGo skip covers act lanes 0 s with
      | .error (x, j, t) =>
        .fault { x with agent := 1, lane := some j, pc := e.pc } (setVstart (joinOut (me s) o t) j)
      | .ok (sk, t) => .answered (setVstart (joinOut (me s) o t) 0) (w64 sk)

/-- A lane whose band scale lies in PEER or HOST raises ACCESS once its other checks have passed (R215). -/
def bandLane (s : State) (m : List Word) (c : Coord) (raw : Bool) (ev1 : Option Nat → Except FaultRec (Nat × Exc × State)) :
    Except FaultRec (Nat × Exc × State) :=
  match farBand m c raw with
  | none => ev1 none
  | some p =>
    match ev1 (some bandOne) with
    | .error x => .error x
    | .ok _ => .error (recOf s (if (decodePtr p).isNone then cAddrSpace else cAccess) p)

/-- The handle as it stands when the instruction starts. -/
def vhandle (s : State) (e : VEntry) : Except Nat Nat :=
  match checkHandle s (getCr s crXspace) e.x with
  | .error c => .error c
  | .ok i => if tPoisoned (recAll s i) then .error cPoison else .ok i

def runVldt (d : BitVec 5) (raw prom : Bool) (o : MemOrd) (msk : BitVec 3) (skip : Bool) (e : VEntry) (s : State) : VOut :=
  match vhandle s e with
  | .error c => .fault (vecRec s e c e.pc none) s
  | .ok i =>
    let r := recAll s i
    vtensor false e o msk skip skipsRec r
      (fun j t => match laneCoord r e j with
        | none => .ok (0, excNone, t)
        | some c => match mapFault t i r c false with
          | some k => .error (recOf t k e.pc)
          | none => bandLane t (mapFor t i r c) c raw (fun band => loadedElem t (mapFor t i r c) c raw 32 band))
      (fun j v t =>
        let t1 := setMe t (ctxSetV (me t) d.toNat (setLane (vreg t d.toNat) j v))
        match laneCoord r e j with
        | some c => .ok (promoteIf prom t1 i c)
        | none => .ok t1) s

/-- Some lane's unit is BUSY or HELD. -/
def laneWaits (s : State) (i : Nat) (r : List Word) (e : VEntry) (lanes : List Nat) : Bool :=
  lanes.any (fun j => match laneCoord r e j with
    | some c => mapWaits s i r c
    | none => false)

def mapForWrite (s : State) (i : Nat) (r : List Word) (c : Coord) : List Word :=
  match mapElem s i r c true with
  | .use m => m
  | _ => r

/-- The conversion of a lane of VSTT refuses its element's scales, once the element's address has passed its checks: no
check of R125, so SKIP does not cover it (R216, R330). -/
def laneRefused (s : State) (m : List Word) (c : Coord) (raw : Bool) : Bool :=
  !raw && (match placeBytes s (whoMe s) .store (elemPtrs m c) with
    | .error _ => false
    | .ok (_, s1) =>
      match readScales s1 (whoMe s) m c (if (farBand m c raw).isSome then some bandOne else none) with
      | .ok (x, _) => (scalesRefuse m c x).isSome
      | .error _ => false)

def runVstt (v : BitVec 5) (raw prom rmen : Bool) (rm : BitVec 3) (o : MemOrd) (msk : BitVec 3) (skip : Bool) (e : VEntry)
    (s : State) : VOut :=
  match vhandle s e with
  | .error c => .fault (vecRec s e c e.pc none) s
  | .ok i =>
    let r := recAll s i
    let src := vreg s v.toNat
    if laneWaits s i r e (memLanes s msk) then .stalled
    else vtensor true e o msk skip
      (fun j t x => skipsRec j t x && !(match laneCoord r e j with
        | some c => laneRefused t (mapForWrite t i r c) c raw
        | none => false)) r
      (fun j t => match laneCoord r e j with
        | none => .ok (0, excNone, t)
        | some c => match mapFault t i r c true with
          | some k => .error (recOf t k e.pc)
          | none => bandLane t (mapForWrite t i r c) c raw
            (fun band => storedCode t (mapForWrite t i r c) c raw (tmode s rmen rm) (lane src j) 32 band))
      (fun j code t => match laneCoord r e j with
        | none => .ok t
        | some c => storeElem (promoteIf prom t i c) (mapForWrite t i r c) c code o.oc) s

end Sys2Proof.Machine
end

