-- ==== Sys2Proof/Machine/Ranges.lean ====
section
/-!
DEFINITION. The checks that a command makes at issue on the ranges of bytes it names (R393 step 4), and its counter
(R177, R178).
-/
namespace Sys2Proof.Machine

/-- Two places lie in one space: one core, one device (R393). -/
def sameSpace (a b : Space) : Bool :=
  match a, b with
  | .dev _, .dev _ => true
  | .spad _, .spad _ => true
  | .acc _, .acc _ => true
  | .rspad k _, .rspad j _ => k == j
  | .peer d _, .peer e _ => d == e
  | .host _, .host _ => true
  | _, _ => false

/-- The first entry from x on that none of the windows holds, going from window to window. -/
def windowsReach (ws : List (Nat × Nat)) : (fuel : Nat) → Nat → Nat
  | 0, x => x
  | f + 1, x =>
    match ws.find? (fun b => decide (b.1 ≤ x) && decide (x < b.1 + b.2)) with
    | some b => windowsReach ws f (b.1 + b.2)
    | none => x

/-- Every one of n entries from e on may be reached (R303): windows of the cohort that adjoin are one. -/
def entriesAllowed (s : State) (w : Who) (e n : Nat) : Bool :=
  let k := getCore s (coreOfCtx w.ctx)
  let coh := (getCtx s w.ctx).coh
  let ws := (k.parts.filter (fun kv => some kv.2.coh == coh)).map (fun kv => (kv.2.abase, kv.2.asize))
    ++ (k.kept.filter (fun kw => some kw.coh == coh)).map (fun kw => (kw.abase, kw.asize))
  accAllowed s w e n || (coh.isSome && decide (e + n ≤ windowsReach ws ws.length e))

/-- The cause a range of bytes raises, if any (R393). An empty range has only its pointer, which must still be one
(DESIGN CHOICE, log 107). -/
def rangeCause (s : State) (w : Who) (p : Word) (len : Nat) : Option Nat :=
  match decodePtr p, decodePtr (p + w64 (len - 1)) with
  | some a, some b =>
    if len ≠ 0 ∧ (¬ sameSpace a b ∨ (p + w64 (len - 1)).toNat < p.toNat) then some cAddrSpace
    else if len = 0 then none
    else match a with
      | .spad off => if inSpadWindow s w.ctx off len then none else some cAccess
      | .rspad k off => if rspadAllowed s w k off len then none else some cAccess
      | .acc off => if off % 4 = 0 ∧ len % 4 = 0 ∧ entriesAllowed s w (off / 4) (len / 4) then none else some cAccess
      | .peer d _ => if (tabFind s.routes d).isSome then none else some cAccess
      | _ => none
  | some _, none => if len = 0 then none else some cAddrSpace
  | none, _ => some cAddrSpace

/-- The first range that fails: its cause and pointer. -/
def rangesFail (s : State) (w : Who) (rs : List (Word × Nat)) : Option (Nat × Word) :=
  rs.findSome? (fun r => (rangeCause s w r.1 r.2).map (fun c => (c, r.1)))

/-- The counter of a command is owned (R177). -/
def cntOwned (s : State) (cnt : BitVec 5) : Bool := ownsCounter s s.cur cnt.toNat

end Sys2Proof.Machine
end

