-- ==== Sys2Proof/Machine/Layout.lean ====
section
/-!
DEFINITION. RELAYOUT, RELAYOUT.RES, TSTAT and TSYNC, and the layout engine's steps (R417-R433).
-/
namespace Sys2Proof.Machine

/-! ## RELAYOUT (R420, R421) -/

/-- Every page of a DEV area may be read and written, at the context's privilege. -/
def pagesOk (s : State) (w : Who) : (pages : Nat) → (va : Nat) → Option Nat
  | 0, _ => none
  | n + 1, va =>
    match translate s w va .atomic with
    | .error c => some c
    | .ok _ => pagesOk s w n (va / 4096 * 4096 + 4096)

/-- Step 4: the conversion area. -/
def areaCause (s : State) (p : Word) (size : Nat) : Option Nat :=
  if 1 < ptrSpace p then some cAddrSpace
  else if p.toNat % 64 ≠ 0 then some cAlign
  else match rangeCause s (whoMe s) p size with
    | some c => some c
    | none =>
      match decodePtr p with
      | some (.dev va) => pagesOk s (whoMe s) ((va + size - 1) / 4096 - va / 4096 + 1) va
      | _ => none

/-- Step 5: the image. -/
def imageOk (old img : List Word) : Bool :=
  recWellFormed img && !tConv img && !tPoisoned img && tConvPtr img == 0
  && tRank img == tRank old && [0, 1, 2, 3, 4].all (fun i => tExtRaw img i == tExtRaw old i)
  && tAsid img == tAsid old
  && !(tLayout old == layBm && tLayout img == layN24) && !(tLayout old == layN24 && tLayout img == layBm)
  && decide (unitCount old img ≤ 2 ^ 32)

/-- The area's bytes 0-151 and the state bytes of NU units (R418, R421). -/
def areaBytes (img : List Word) (nu : Nat) : List Byte :=
  (img.map (fun w => leBytes 8 w.toNat)).flatten ++ leBytes 8 0 ++ leBytes 8 nu ++ leBytes 8 0

/-- Of the area's state bytes those that hold the state of a unit are set to zero; the bytes behind the last of them, up to
the area's end, are left (R418; DESIGN CHOICE, log 120). -/
def startConv (s : State) (d : BitVec 6) (i : Nat) (img : List Word) (area : Word) (nu : Nat) (cnt : BitVec 5)
    (oc : BitVec 2) : State :=
  let w := whoMe s
  let s1 := rawWrite s w area (areaBytes img nu)
  let s2 := rawWrite s1 w (area + 192) (List.replicate ((nu + 3) / 4) 0)
  let s3 := setRecWord s2 i 11 area
  let s4 := setRecWord s3 i 0 (setBit (recWord s3 i 0) recBitConv true)
  let cv : Conv := { rec_ := i, ctx := s.cur, coh := ((me s).coh).getD 0, sv := (me s).sv, xspace := getCr s crXspace,
                     pc := (me s).pc, cnt := cnt.toNat, oc := oc, area := area, nu := nu, done := 0, held := [],
                     retry := [], news := [], paused := false }
  let s5 := modDie { s4 with lastConv := tabPut s4.lastConv i s.cur } (dieOfCtx s.cur)
    (fun x => { x with convs := x.convs ++ [cv] })
  wg s5 d (w64 nu)

/-- A conversion that is asked for would reach a scratchpad whose core has an SPCFG that waits (R301). -/
def convHeld (s : State) (old img : List Word) (area : Word) : Bool :=
  s.cores.any (fun kc => !kc.2.spcfgs.isEmpty && (ptrOnSpad (myCore s) kc.1 area || recordOnSpad (myCore s) kc.1 old
    || recordOnSpad (myCore s) kc.1 img))

def relayoutBody (cnt : BitVec 5) (oc : BitVec 2) (d a b c : BitVec 6) (s : State) : Exe :=
  if 16 ≤ (getDie s (dieOfCtx s.cur)).convs.length || !classOpen s s.cur oc then .stall s
  else if !cntOwned s cnt then .fault (recPc s cAccess) s
  else match checkHandle s (getCr s crXspace) (rg s a) with
    | .error k => .fault (recPc s k) s
    | .ok i =>
      let old := recAll s i
      if tPoisoned old then .fault (recPc s cPoison) s
      else if tConv old then .fault (recPc s cTensorBusy) s
      else if (rg s b).toNat % 128 ≠ 0 then faultAt s cAlign (rg s b)
      else withBytes s (rg s b) 128 (fun s1 bs =>
        let img := wordsOf 16 bs
        let nu := unitCount old img
        match areaCause s1 (rg s c) (areaSize nu) with
        | some k => faultAt s k (rg s c)
        | none =>
          if !imageOk old img then .fault (recPc s cAccess) s
          else match counterAdd s1 (myCore s) cnt.toNat nu with
            | none => .fault (recPc s cAccess) s
            | some s2 => if convHeld s old img (rg s c) then .stall s else .retire (startConv s2 d i img (rg s c) nu cnt oc))

def execRelayout (h : Hdr) (cnt : BitVec 5) (oc : BitVec 2) (d a b c : BitVec 6) (s : State) : Out :=
  issue1 h [a, b, c] [d] (relayoutBody cnt oc d a b c) s

/-! ## RELAYOUT.RES, TSTAT, TSYNC (R429, R431) -/

def modConv (s : State) (d i : Nat) (f : Conv → Conv) : State :=
  modDie s d (fun x => { x with convs := x.convs.map (fun c => if c.rec_ = i then f c else c) })

/-- BUSY units are converted while their cohort runs, and before it has stopped (R433). -/
def retryRuns (s : State) (c : Conv) : Bool :=
  !c.paused || (match getCohort s c.coh with | some x => x.st == .stopping | none => false)

/-- Every HELD unit becomes BUSY and waits to be converted again. In a paused conversion too the units become BUSY at
once (R431), and are converted when the cohort has been placed again (R433; DESIGN CHOICE, log 121). -/
def retryHeld (s : State) (d : Nat) (c : Conv) : State :=
  let s1 := c.held.foldl (fun t u => setUnitState t (convWho c) c.area u 1) s
  modConv s1 d c.rec_ (fun x => { x with retry := x.retry ++ x.held, held := [] })

def resBody (a b : BitVec 6) (s : State) : Exe :=
  match checkHandle s (getCr s crXspace) (rg s a) with
  | .error k => .fault (recPc s k) s
  | .ok i =>
    match findConv s i with
    | none => .fault (recPc s cAccess) s
    | some (d, c) =>
      if !tConv (recAll s i) || (rg s b).toNat / 2 != 0 then .fault (recPc s cAccess) s
      else if (rg s b).getLsbD 0 then .retire (passAll (abandonConv s d c))
      else .retire (retryHeld s d c)

def execRelayoutResRetry (h : Hdr) (a b : BitVec 6) (s : State) : Out := issue h 8 true [a, b] [] (resBody a b) s
def execRelayoutResAbandon (h : Hdr) (a b : BitVec 6) (s : State) : Out := issue h 8 true [a, b] [] (resBody a b) s

/-- In whose name an area is read: the issuer of the record's last conversion. -/
def areaWho (s : State) (i : Nat) : Who := ⟨tabGet s.cur s.lastConv i, true, getCr s crXspace⟩

/-- A byte of a record's area, as TSTAT reads it (R429, log 95). -/
def areaByte (s : State) (i o : Nat) : Byte := areaByteOf s (areaWho s i) (tConvPtr (recAll s i)) o
def areaWord (s : State) (i o : Nat) : Nat := areaWordOf s (areaWho s i) (tConvPtr (recAll s i)) o

/-- The unit states in the area of an abandoned conversion show a HELD unit. -/
def areaHeld (s : State) (i : Nat) : Bool :=
  (List.range (areaWord s i 136)).any (fun u => (areaByte s i (192 + u / 4)).toNat / 4 ^ (u % 4) % 4 == 3)

/-- The bytes of the area that TSTAT reads (R429): none of a record without one. -/
def tstatPtrs (s : State) (i : Nat) (sel : Nat) : List Word :=
  let area := tConvPtr (recAll s i)
  if area = 0 then []
  else match sel with
    | 0 => ptrList (area + 128) 8
      ++ (if (findConv s i).isSome then [] else ptrList (area + 136) 8 ++ ptrList (area + 192) ((areaWord s i 136 + 3) / 4))
    | 1 => ptrList (area + 136) 8
    | _ => ptrList (area + 144) 8

def tstatVal (s : State) (i : Nat) (sel : Nat) : Nat :=
  let r := recAll s i
  let area := tConvPtr r
  let rd (o : Nat) : Nat := if area = 0 then 0 else areaWord s i o
  match sel with
  | 0 =>
    let cv := (findConv s i).map (·.2)
    let heldNow : Bool := match cv with
      | some c => !c.held.isEmpty
      | none => area != 0 && areaHeld s i
    (if tPoisoned r then 2 ^ 62 else 0) +
    (if area = 0 then 0 else
      (if tConv r then 2 ^ 63 else 0) + (if heldNow then 2 ^ 61 else 0)
      + (match cv with | some c => if c.paused then 2 ^ 60 else 0 | none => 0) + rd 128 % 2 ^ 33)
  | 1 => rd 136 % 2 ^ 33
  | _ => rd 144

/-- TSTAT (R429). An uncorrectable error in what it reads of the area gives a record with the area's base (DESIGN CHOICE,
log 109). -/
def tstatBody (d a : BitVec 6) (sel : BitVec 2) (s : State) : Exe :=
  match checkHandle s (getCr s crXspace) (rg s a) with
  | .error k => .fault (recPc s k) s
  | .ok i =>
    let ps := tstatPtrs s i sel.toNat
    if ps.any (fun p => match rawLoc s (areaWho s i) p with | some l => spadHeld s l | none => false) then
      .fault (heldRec s) s
    else if ptrsBad s (areaWho s i) ps then .fault (recOf s cEcc (tConvPtr (recAll s i))) s
    else .retire (wg s d (w64 (tstatVal s i sel.toNat)))
def execTstat (h : Hdr) (d a : BitVec 6) (sel : BitVec 2) (s : State) : Out := issue1 h [a] [d] (tstatBody d a sel) s

def tsyncBody (a : BitVec 6) (s : State) : Exe :=
  match checkHandle s (getCr s crXspace) (rg s a) with
  | .error k => .fault (recPc s k) s
  | .ok i =>
    if tConv (recAll s i) then .stall s
    else if tPoisoned (recAll s i) then .fault (recPc s cPoison) s
    else .retire s
def execTsync (h : Hdr) (a : BitVec 6) (s : State) : Out := issue1 h [a] [] (tsyncBody a) s

/-! ## The conversion of one unit (R422) -/

/-- Elements of unit u: columns, rows, and the outer coordinates. -/
def unitCols (old new : List Word) (u : Nat) : List Nat :=
  let uw := (unitDims old new).1
  (List.range uw).map (fun k => u % unitNx old new * uw + k) |>.filter (fun x => decide (x < tExt old 0))
def unitRows (old new : List Word) (u : Nat) : List Nat :=
  let uh := (unitDims old new).2
  (List.range uh).map (fun k => u / unitNx old new % unitNy old new * uh + k) |>.filter (fun y => decide (y < tExt old 1))
def unitCoord (old new : List Word) (u x y : Nat) : Coord :=
  let z := u / (unitNx old new * unitNy old new)
  ⟨x, y, z % tExt old 2, z / tExt old 2 % tExt old 3, z / (tExt old 2 * tExt old 3)⟩

/-- The mode at an element of the unit (R91, R422). -/
def unitMode (old new : List Word) (c : Coord) : Rnd :=
  rndOf (tRnd new) (ditherAt (c.y % (unitDims old new).2) (c.x % (unitDims old new).1) 0)

/-- What a unit's conversion carries along: the state written so far, and the counts. -/
abbrev ConvRes := Except (Nat × Word) (State × Exc)

/-- The code of an element in the new format, where blocks do not decide it. -/
def convCode (s : State) (w : Who) (old new : List Word) (c : Coord) : Except (Nat × Word) (Nat × Exc × State) :=
  match readCode s w old c with
  | .error e => .error e
  | .ok (k, s1) =>
    if tFmt old = tFmt new then .ok (k.getD 0, excNone, s1)
    else match readValue s1 w old c k with
      | .error e => .error e
      | .ok (v, s2) =>
        let d := deliver (tFmt new) v (unitMode old new c) (fmtIsInt (tFmt old))
        .ok (d.1, d.2, s2)

/-- One byte written, with its rights checked. -/
def putPtr (s : State) (w : Who) (p : Word) (bs : List Byte) : Except (Nat × Word) State :=
  match placeBytes s w .store (ptrList p bs.length) with
  | .error e => .error e
  | .ok (ls, s1) => .ok (writeLocs s1 ls bs)

/-- An element to a dense mapping; with it, at a block's first element, the block's scale where formats are equal. -/
def convElem (w : Who) (old new : List Word) (acc : ConvRes) (c : Coord) : ConvRes :=
  match acc with
  | .error e => .error e
  | .ok (s, ex) =>
    match convCode s w old new c with
    | .error e => .error e
    | .ok (k, e1, s1) =>
      match writeCode s1 w new c k with
      | .error e => .error e
      | .ok s2 =>
        if isBlockLay new ∧ c.x % tBlock new = 0 then
          match readPtr s2 w (scalePtr old c) 1 with
          | .error e => .error e
          | .ok (x, s3) =>
            (match putPtr s3 w (scalePtr new c) (leBytes 1 x) with
             | .error e => .error e
             | .ok s4 => .ok (s4, excJoin ex e1))
        else .ok (s2, excJoin ex e1)

/-- The exact values of a block's elements. -/
def blockVals (w : Who) (old : List Word) : List Coord → State → Except (Nat × Word) (List FVal × State)
  | [], s => .ok ([], s)
  | c :: cs, s =>
    match readCode s w old c with
    | .error e => .error e
    | .ok (k, s1) =>
      match readValue s1 w old c k with
      | .error e => .error e
      | .ok (v, s2) =>
        match blockVals w old cs s2 with
        | .error e => .error e
        | .ok (vs, s3) => .ok (v :: vs, s3)

def putCodes (w : Who) (new : List Word) : List (Coord × Nat) → State → Except (Nat × Word) State
  | [], s => .ok s
  | (c, k) :: cs, s =>
    match writeCode s w new c k with
    | .error e => .error e
    | .ok s1 => putCodes w new cs s1

/-- The elements of the block that an element lies in. -/
def blockOfElem (new : List Word) (c : Coord) : List Coord :=
  let n := tBlock new
  ((List.range n).map (fun k => { c with x := c.x / n * n + k })).filter (fun e => decide (e.x < tExt new 0))

/-- A row of a unit by the blocks its elements lie in. -/
def rowBlocks (new : List Word) (row : List Coord) : List (List Coord) :=
  ((row.map (fun c => c.x / tBlock new)).eraseDups).map (fun b => row.filter (fun c => c.x / tBlock new == b))

/-- A unit's elements of a block whose scale stands already, under that scale. -/
def underScale (s : State) (w : Who) (old new : List Word) (x : Nat × Nat) : List Coord → ConvRes
  | [] => .ok (s, excNone)
  | c :: cs =>
    match blockVals w old [c] s with
    | .error e => .error e
    | .ok (vs, s1) =>
      let d := scaledCode new x (vs.headD (fzero false)) (fmtIsInt (tFmt old)) (unitMode old new c)
      match writeCode s1 w new c d.1 with
      | .error e => .error e
      | .ok s2 =>
        match underScale s2 w old new x cs with
        | .error e => .error e
        | .ok (s3, ex) => .ok (s3, excJoin d.2 ex)

/-- A unit's elements `cs` of one block that takes another format: scale and codes by R98 or R99 over the whole block. A
block that lies in two units is formed from the old values by the unit that is converted first, and counted with its
first element; what the other unit finds written it leaves: its elements go under the scale that stands, and where that
scale is another than theirs they are counted apart (DESIGN CHOICE, log 89). -/
def convBlock (w : Who) (old new : List Word) (isNew : Coord → Bool) (acc : ConvRes) (cs : List Coord) : ConvRes :=
  match acc, cs with
  | .error e, _ => .error e
  | .ok r, [] => .ok r
  | .ok (s, ex), c :: rest =>
    let block := blockOfElem new c
    match blockVals w old block s with
    | .error e => .error e
    | .ok (vs, s1) =>
      let ms := block.map (unitMode old new)
      let res : Except (Nat × Word) ((Nat × List Nat × Exc) × State) :=
        if tFmt new = 0x28 then
          match readPtr s1 w (bandPtr new c) 2 with
          | .error e => .error e
          | .ok (bd, s2) => if bandOk bd then .ok (toLb8 vs bd ms, s2) else .error (cAccess, bandPtr new c)
        else .ok (toMx (tFmt new) vs ms, s1)
      match res with
      | .error e => .error e
      | .ok ((sc, codes, e1), s3) =>
        let kept : Option (Nat × Nat) := if block.any isNew then
            (match readScales s3 w new c none with
             | .ok (x, _) => if x.1 = sc ∨ (scalesRefuse new c x).isSome then none else some x
             | .error _ => none)
          else none
        let scale (t : State) : Except (Nat × Word) State :=
          if block.any isNew then .ok t else putPtr t w (scalePtr new c) (leBytes 1 sc)
        match kept with
        | some x =>
          (match underScale s3 w old new x (c :: rest) with
           | .error e => .error e
           | .ok (s4, e2) => .ok (s4, excJoin ex e2))
        | none =>
        match putCodes w new ((block.zip codes).filter (fun ck => (c :: rest).contains ck.1)) s3 with
        | .error e => .error e
        | .ok s4 =>
          match scale s4 with
          | .error e => .error e
          | .ok s5 => .ok (s5, if c.x % tBlock new = 0 then excJoin ex e1 else ex)

def foldCodes (w : Who) (old new : List Word) : List Coord → State → Exc → Except (Nat × Word) (List Nat × State × Exc)
  | [], s, ex => .ok ([], s, ex)
  | c :: cs, s, ex =>
    match convCode s w old new c with
    | .error e => .error e
    | .ok (k, e1, s1) =>
      match foldCodes w old new cs s1 (excJoin ex e1) with
      | .error e => .error e
      | .ok (ks, s2, e2) => .ok (k :: ks, s2, e2)

/-- A fibre-fold that becomes a slot. The new image's NANCARRY decides whether a code of sign 1 and magnitude 0 is
present (DESIGN CHOICE, log 90: R422, R401 and R372 do not say which image's). -/
def convSlot (w : Who) (old new : List Word) (acc : ConvRes) (cs : List Coord) : ConvRes :=
  match acc, cs with
  | .error e, _ => .error e
  | .ok r, [] => .ok r
  | .ok (s, ex), c :: rest =>
    match foldCodes w old new (c :: rest) s ex with
    | .error e => .error e
    | .ok (ks, s1, e1) =>
      match putPtr s1 w (tBase new + w64 ((elemPlace new c).1.headD 0)) (encodeSlot new ks).1 with
      | .error e => .error e
      | .ok s2 => .ok (s2, e1)

/-- The checks of the area for unit u, at the issuer's privilege (R430): its image, DONE, NU and counts, and the unit's
state byte. -/
def areaOpen (s : State) (c : Conv) (u : Nat) : Except (Nat × Word) Unit :=
  let w := convWho c
  let reads := ptrList c.area 152 ++ [c.area + w64 (192 + u / 4)]
  match placeBytes s w .load reads, placeBytes s w .store (ptrList (c.area + w64 128) 24 ++ [c.area + w64 (192 + u / 4)]) with
  | .error e, _ => .error e
  | _, .error e => .error e
  | .ok (ls, _), .ok _ =>
    match (reads.zip ls).find? (fun pl => locBad s pl.2 1) with
    | some pl => .error (cEcc, pl.1)
    | none => .ok ()

/-- Every element of unit u converted: the state, and the counts; or the fault it meets (R430). Raw accesses to the regions
during the conversion, which are not ordered with it (R355, R440), find and leave the bytes that the order of the steps
gives: the unit reads all of its bytes in this step (DESIGN CHOICE, log 122). -/
def convertUnit (s : State) (c : Conv) (u : Nat) : ConvRes :=
  let w := convWho c
  let old := recAll s c.rec_
  let new := areaImage s w c.area
  match (if recBad s c.rec_ then .error (cEcc, 0) else areaOpen s c u) with
  | .error e => .error e
  | .ok _ =>
    let rows := (unitRows old new u).map (fun y => (unitCols old new u).map (fun x => unitCoord old new u x y))
    if isSparse new then rows.foldl (convSlot w old new) (.ok (s, excNone))
    else if isBlockLay new ∧ tFmt old ≠ tFmt new then
      ((rows.map (rowBlocks new)).flatten).foldl
        (convBlock w old new (fun e => convUnitState s c (unitOf old new e) == 2)) (.ok (s, excNone))
    else (rows.flatten).foldl (convElem w old new) (.ok (s, excNone))

/-! ## The engine's steps (R423, R426-R430) -/

/-- The units of a conversion in which a command, also one that is saved, has still to land the rest of a compressed slot.
Its write has passed the lookup, and such a unit does not become BUSY before it is performed (R423). -/
def cutSlots (s : State) (c : Conv) : List Nat :=
  let old := recAll s c.rec_
  let new := areaImage s (convWho c) c.area
  let inRun (r : CopyRun) : List Nat :=
    match r.cmd.op with
    | .tileIn h c0 c1 _ d _ _ _ =>
      if h.toNat % 16384 = c.rec_ ∧ tGen r.cmd.record = tGen old then
        (r.works.filter (fun w => w.n == 0)).map (fun w =>
          unitOf old new (tileCoord c0 c1 (w.pos / dTcols d) (w.pos % dTcols d)))
      else []
    | _ => []
  s.cores.flatMap (fun k => k.2.engines.flatMap (fun e => e.2.active.flatMap (fun r => inRun r.2)))
  ++ s.cohorts.flatMap (fun h => match h.2.saved with | some v => v.runs.flatMap (fun l => l.2.flatMap inRun) | none => [])

/-- The lowest OLD unit of a conversion that the engine may take. One that a write has still to reach is passed over
(DESIGN CHOICE, log 110). -/
def lowestOld (s : State) (c : Conv) : Option Nat :=
  let cut := cutSlots s c
  (List.range c.nu).find? (fun u => convUnitState s c u == 0 && !cut.contains u)

/-- The next unit: one that is to be converted again, the oldest promotion, else the lowest OLD unit of the next
conversion in rotation. -/
def nextUnit (s : State) (d : Nat) : Option (Nat × Nat) :=
  let x := getDie s d
  match x.convs.findSome? (fun c => if retryRuns s c then c.retry.head?.map (fun u => (c.rec_, u)) else none) with
  | some r => some r
  | none =>
    let live (e : Nat × Nat) : Bool := x.convs.any (fun c => c.rec_ == e.1 && !c.paused
      && convUnitState s c e.2 == 0 && !(cutSlots s c).contains e.2)
    match x.plist.find? live with
    | some e => some e
    | none => (x.convs.filter (fun c => !c.paused)).findSome? (fun c => (lowestOld s c).map (fun u => (c.rec_, u)))

/-- The conversion of record i goes to the end of the rotation. -/
def rotateConv (l : List Conv) (i : Nat) : List Conv := l.filter (fun c => c.rec_ != i) ++ l.filter (fun c => c.rec_ == i)

/-- LAYOUT_UNIT_TAKE: the unit becomes BUSY. -/
def execLayoutUnitTake (die : Nat) (s : State) : Out :=
  if 4 ≤ die then noAgent
  else if (getDie s die).unit.isSome then ev s
  else match nextUnit s die with
    | none => ev s
    | some (i, u) =>
      match (getDie s die).convs.find? (fun c => c.rec_ == i) with
      | none => ev s
      | some c =>
        let s1 := setUnitState s (convWho c) c.area u 1
        .next (modDie s1 die (fun x => { x with
          unit := some (i, u),
          plist := x.plist.filter (fun e => e != (i, u)),
          convs := rotateConv (x.convs.map (fun k => if k.rec_ = i then { k with retry := k.retry.erase u } else k)) i }))

/-- The unit in hand and its conversion. -/
def unitInHand (s : State) (d : Nat) : Option (Conv × Nat) :=
  match (getDie s d).unit with
  | none => none
  | some (i, u) => ((getDie s d).convs.find? (fun c => c.rec_ == i)).map (fun c => (c, u))

/-- The counts of an area, in the layout of R290. -/
def countsWord (c : Counts) : Word := w64 (c.sat * 2 ^ 40 + c.nanr * 2 ^ 16 + c.bsov)
def countsOf (w : Word) : Counts := ⟨bitsOf w.toNat 63 40, bitsOf w.toNat 39 16, bitsOf w.toNat 15 0⟩

/-- The end of a conversion (R428): the record takes its fields from the image, CONV clears. -/
def endConv (s : State) (d : Nat) (c : Conv) : State :=
  let r := recAll s c.rec_
  let img := areaImage s (convWho c) c.area
  let new0 := withGenValid img (tGen r) (tValid r)
  let new1 := (new0.set 1 (w64 (tw img 1 % 2 ^ 48 + tAsid r * 2 ^ 48))).set 11 (tConvPtr r)
  let s1 := setRec s c.rec_ new1
  passAll (modDie s1 d (fun x => { x with
    convs := x.convs.filter (fun k => k.rec_ != c.rec_), plist := x.plist.filter (fun e => e.1 != c.rec_) }))

/-- LAYOUT_UNIT_COMPLETE: the unit becomes NEW, DONE rises and the counter falls, in one step. -/
def execLayoutUnitComplete (die : Nat) (s : State) : Out :=
  if 4 ≤ die then noAgent
  else match unitInHand s die with
    | none => ev s
    | some (c, u) =>
      match convertUnit s c u with
      | .error _ => ev s
      | .ok (s1, ex) =>
        let w := convWho c
        let old := countsOf (w64 (areaWordOf s1 w c.area 144))
        let s2 := setUnitState s1 w c.area u 2
        let s3 := rawWrite s2 w (c.area + w64 128) (leBytes 8 (c.done + 1))
        let s4 := rawWrite s3 w (c.area + w64 144) (leBytes 8 (countsWord (countsAdd old ex)).toNat)
        let s5 := modConv (modDie s4 die (fun x => { x with unit := none })) die c.rec_ (fun k => { k with done := k.done + 1, news := k.news ++ [u] })
        let s6 := counterSub s5 (coreOfCtx c.ctx) c.cnt 1 c.ctx c.pc
        .next (if c.done + 1 = c.nu then endConv s6 die c else s6)

def convHandle (s : State) (c : Conv) : Nat := tGen (recAll s c.rec_) * 2 ^ 14 + c.rec_

/-- LAYOUT_UNIT_FAULT: the unit becomes HELD, with a record in the issuing core's fault queue (R430). -/
def execLayoutUnitFault (die : Nat) (s : State) : Out :=
  if 4 ≤ die then noAgent
  else match unitInHand s die with
    | none => ev s
    | some (c, u) =>
      match convertUnit s c u with
      | .ok _ => ev s
      | .error (cause, addr) =>
        let s1 := setUnitState s (convWho c) c.area u 3
        let s2 := modConv (modDie s1 die (fun x => { x with unit := none })) die c.rec_ (fun k => { k with held := k.held ++ [u] })
        let s3 := pushFault s2 (coreOfCtx c.ctx) { recBase cause 5 c.ctx c.pc with
          addr := addr, prog := w64 u, info0 := w64 (convHandle s c) }
        .next (orphanConvs s3 (coreOfCtx c.ctx) (some c.coh))

end Sys2Proof.Machine
end

