-- ==== Sys2Proof/Machine/CopyIssue.lean ====
section
/-!
DEFINITION. The copy instructions at issue: operands, checks in the order of R393, contributions (R391-R408).
-/
namespace Sys2Proof.Machine

/-- A command as its operands give it: the work, the record it was looked up with, the contribution before
multicast, the ranges it will write and read (R393 step 4). -/
structure Planned where
  op     : CopyOp
  record : List Word
  size   : Nat
  dsts   : List (Word × Nat)
  srcs   : List (Word × Nat)
  deriving DecidableEq, Repr

/-- The modifiers of a copy command. `red` is the reduction: maximum or sum, and BF16 or FP32. -/
structure CopyMods where
  mc   : Bool
  red  : Option (Bool × Bool)
  bf16 : Bool
  deriving DecidableEq, Repr

/-- A cause with the address of its record; with no address, the record names the instruction. -/
abbrev Bad := Nat × Option Word
def badRec (s : State) (b : Bad) : FaultRec := recOf s b.1 (b.2.getD (me s).pc)
def badAccess : Except Bad Planned := .error (cAccess, none)

def redOf (red rop rfmt : Bool) : Option (Bool × Bool) := if red then some (rop, rfmt) else none

/-- The cores of a multicast, or none for another command (R408). -/
def mcTargets (s : State) (mc : Bool) : List Nat :=
  if mc then
    ((List.range 32).filter (fun i => (getCr s crMcmask).getLsbD i)).map (fun i => dieOfCtx s.cur * 32 + i)
  else []

def isHostPtr (p : Word) : Bool := ptrSpace p == 5
def isAccPtr (p : Word) : Bool := ptrSpace p == 2

/-- The limits of a reduction (R394, R407): alignment of its operands, and its destination. -/
def redOk (m : CopyMods) (dst : Word) (aligned : List Nat) : Bool :=
  match m.red with
  | none => true
  | some (_, bf) => aligned.all (fun n => n % 4 == 0) && !isHostPtr dst && !(bf && isAccPtr dst)

/-- The limits of a multicast (R408), windows apart. -/
def mcOk (s : State) (m : CopyMods) (dst : Word) : Bool :=
  !m.mc || (isSpadPtr dst && !(mcTargets s true).isEmpty)

/-- Step 4 for a destination that every target core must hold. -/
def mcRangeFail (s : State) (targets : List Nat) (rs : List (Word × Nat)) : Option (Nat × Word) :=
  rs.findSome? (fun r =>
    match decodePtr r.1, decodePtr (r.1 + w64 (r.2 - 1)) with
    | some (.spad off), some (.spad _) =>
      if r.2 ≠ 0 ∧ !targets.all (fun k => inCohortWindow s s.cur k off r.2) then some (cAccess, r.1) else none
    | some _, none => if r.2 = 0 then none else some (cAddrSpace, r.1)
    | _, _ => some (cAddrSpace, r.1))

/-- The command reaches a scratchpad whose core has an SPCFG that waits (R301). -/
def heldElsewhere (s : State) (k : Nat) (cmd : CopyCmd) : Bool :=
  s.cores.any (fun kc => !kc.2.spcfgs.isEmpty && copyReaches s k kc.1 cmd)

/-- Issue of a command that `plan` describes (R393). -/
def copyIssue (cnt : BitVec 5) (oc : BitVec 2) (eng : Bool) (m : CopyMods) (reply : Bool)
    (plan : State → Except Bad Planned) (s : State) : Exe :=
  let e := if eng then 1 else 0
  let k := myCore s
  let g := getEngine s k e
  let q := tabGet [] g.queues s.cur
  if 8 ≤ q.length then .stall s
  else if reply && decide (16 ≤ (me s).replies.length) then .stall s
  else if !cntOwned s cnt then .fault (recPc s cAccess) s
  else match plan s with
    | .error b => .fault (badRec s b) s
    | .ok p =>
      let targets := mcTargets s m.mc
      let bad := match (if m.mc then mcRangeFail s targets p.dsts else rangesFail s (whoMe s) p.dsts) with
        | some b => some b
        | none => rangesFail s (whoMe s) p.srcs
      match bad with
      | some b => faultAt s b.1 b.2
      | none =>
        let size := if m.mc then p.size * targets.length else p.size
        match counterAdd s k cnt.toNat size with
        | none => .fault (recPc s cAccess) s
        | some s1 =>
          let ks := if reply then (let r := reserveReply s1 s.cur; (some r.1, r.2)) else (none, s1)
          let cmd : CopyCmd := ⟨p.op, s.cur, (me s).sv, (me s).pc, getCr s crXspace, oc, cnt.toNat, g.nextTag, m.red,
            m.bf16, targets, size, ks.1, p.record⟩
          if heldElsewhere s k cmd then .stall s
          else .retire (putEngine ks.2 k e { g with
            queues := tabPut g.queues s.cur (q ++ [cmd]), nextTag := (g.nextTag + 1) % 65536 })

/-! ## Linear forms (R391) -/

def cpyPlan (a b c : BitVec 6) (m : CopyMods) (s : State) : Except Bad Planned :=
  let len := (rg s c).toNat
  if 2 ^ 32 < len ∨ !redOk m (rg s a) [(rg s a).toNat, (rg s b).toNat, len] ∨ !mcOk s m (rg s a) then badAccess
  else .ok ⟨.linear (rg s a) (rg s b) 1 len 0 0, [], len, [(rg s a, len)], [(rg s b, len)]⟩

def execCpy (h : Hdr) (cnt : BitVec 5) (oc : BitVec 2) (a b c : BitVec 6) (eng mc red rop rfmt : Bool) (s : State) : Out :=
  let m : CopyMods := ⟨mc, redOf red rop rfmt, rfmt⟩
  issue1 h [a, b, c] [] (copyIssue cnt oc eng m false (cpyPlan a b c m)) s

/-- Distinct bytes of rows of `len` bytes, `n` of them, a stride apart (R395). At a peer every byte sent counts (R531). -/
def rowsBytes (n len : Nat) (stride : Int) : Nat :=
  let d := stride.natAbs
  if 1 < n ∧ d < len then (n - 1) * d + len else n * len

def rowRanges (p : Word) (n len : Nat) (stride : Int) : List (Word × Nat) :=
  (List.range n).map (fun (r : Nat) => (p + wInt (r * stride), len))

def cpy2Plan (a b c d : BitVec 6) (m : CopyMods) (s : State) : Except Bad Planned :=
  let gc := (rg s c).toNat
  let gd := (rg s d).toNat
  let n := bitsOf gc 55 32
  let len := gc % 2 ^ 32
  let sp := sextNat (gd / 2 ^ 32) 32
  let dp := sextNat gd 32
  if gc / 2 ^ 56 ≠ 0 ∨ n = 0 ∨ !redOk m (rg s a) [(rg s a).toNat, (rg s b).toNat, len, gd / 2 ^ 32, gd % 2 ^ 32]
      ∨ !mcOk s m (rg s a) then badAccess
  else .ok ⟨.linear (rg s a) (rg s b) n len sp dp, [], if isPeerPtr (rg s a) then n * len else rowsBytes n len dp,
            rowRanges (rg s a) n len dp, rowRanges (rg s b) n len sp⟩

def execCpy2 (h : Hdr) (cnt : BitVec 5) (oc : BitVec 2) (a b c d : BitVec 6) (eng mc red rop rfmt : Bool) (s : State) : Out :=
  let m : CopyMods := ⟨mc, redOf red rop rfmt, rfmt⟩
  issue1 h [a, b, c, d] [] (copyIssue cnt oc eng m false (cpy2Plan a b c d m)) s

/-- CFILL (R391): the limits of LEN come first, then ALIGN, then the checks of a multicast (DESIGN CHOICE, log 107: R393
does not place ALIGN). -/
def cfillPlan (a b c : BitVec 6) (m : CopyMods) (p : BitVec 3) (s : State) : Except Bad Planned :=
  let size := 2 ^ p.toNat
  let len := (rg s c).toNat
  if 2 ^ 32 < len ∨ len % size ≠ 0 then badAccess
  else if (rg s a).toNat % size ≠ 0 then .error (cAlign, some (rg s a))
  else if !mcOk s m (rg s a) then badAccess
  else .ok ⟨.fill (rg s a) (rg s b) size len, [], len, [(rg s a, len)], []⟩

def execCfill (h : Hdr) (cnt : BitVec 5) (oc : BitVec 2) (a b c : BitVec 6) (eng mc : Bool) (p : BitVec 3) (s : State) : Out :=
  let m : CopyMods := ⟨mc, none, false⟩
  issue1 h [a, b, c] [] (copyIssue cnt oc eng m false (cfillPlan a b c m p)) s

/-! ## Tensor forms (R397-R403) -/

/-- The formats CPYT and CPYG accept besides the record's own (R398). -/
def widensTo (f d : Nat) : Bool :=
  match f with
  | 0x00 => [0x02, 0x04, 0x12, 0x13, 0x11].contains d
  | 0x01 => [0x03, 0x02, 0x04, 0x05, 0x12, 0x13, 0x11].contains d
  | 0x02 => [0x04, 0x11].contains d
  | 0x03 => [0x04, 0x11, 0x05].contains d
  | 0x04 => [0x06, 0x10].contains d
  | 0x05 => [0x06, 0x10, 0x07].contains d
  | 0x12 => d == 0x11
  | 0x13 => d == 0x11
  | 0x11 => d == 0x10
  | _ => decide (0x14 ≤ f) && decide (f ≤ 0x18) && [0x12, 0x13, 0x11].contains d

/-- Step 3: the record of a handle, which must not be POISONED. -/
def copyRecord (s : State) (h : Word) : Except Bad (List Word) :=
  match checkHandle s (getCr s crXspace) h with
  | .error c => .error (c, none)
  | .ok i => if tPoisoned (recAll s i) then .error (cPoison, none) else .ok (recAll s i)

/-- Step 2 for the tile descriptor and the coordinates (R397, R321). -/
def tileOperandsOk (d c1 : Word) : Bool :=
  bitsOf d.toNat 55 54 == 0 && dMpitch d != 0 && dTrows d != 0 && dTcols d != 0 && !c1.getLsbD 63

/-- The tile against its record (R397, R399-R401). -/
def tileFits (r : List Word) (d c0 : Word) (xc : Bool) : Bool :=
  let w := fmtWidth (dFmt d)
  w != 0 && dTcols d * w % 8 == 0 && decide (dTcols d * w / 8 ≤ dMpitch d) && (tRank r != 1 || dTrows d == 1)
  && xc == isSparse r
  && (!isSparse r || (c0.toNat % 2 ^ 32 % slotDepth r == 0 && dTcols d % slotDepth r == 0))

/-- In-bounds columns of a tile's row i: the first so many. -/
def inCols (r : List Word) (c0 c1 d : Word) (i : Nat) : Nat :=
  if inBounds r { tileCoord c0 c1 i 0 with x := 0 } then natMin (dTcols d) (tExt r 0 - (coordOf c0 c1).x) else 0

/-- Bytes of each tile row in memory that hold elements moved. -/
def tileRowBytes (r : List Word) (c0 c1 d : Word) (all : Bool) : List Nat :=
  let w := fmtWidth (dFmt d)
  (List.range (dTrows d)).map (fun i => if all then dTcols d * w / 8 else (inCols r c0 c1 d i * w + 7) / 8)

def tileRanges (mem d : Word) (bytes : List Nat) : List (Word × Nat) :=
  ((List.range bytes.length).zip bytes).filterMap
    (fun ib => if ib.2 = 0 then none else some (mem + w64 (ib.1 * dMpitch d), ib.2))

def sumNat (l : List Nat) : Nat := l.foldl (· + ·) 0

def cpytPlan (a b c d : BitVec 6) (m : CopyMods) (zfill xc prom : Bool) (s : State) : Except Bad Planned :=
  let gd := rg s d
  let (c0, c1) := pairVal s b
  if !tileOperandsOk gd c1 ∨ !mcOk s m (rg s c) then badAccess
  else match copyRecord s (rg s a) with
    | .error e => .error e
    | .ok r =>
      if !(dFmt gd == tFmt r || widensTo (tFmt r) (dFmt gd)) || !tileFits r gd c0 xc then badAccess
      else
        let bs := tileRowBytes r c0 c1 gd zfill
        .ok ⟨.tileOut (rg s a) c0 c1 (rg s c) gd zfill xc prom, r, sumNat bs, tileRanges (rg s c) gd bs, []⟩

def execCpyt (h : Hdr) (cnt : BitVec 5) (oc : BitVec 2) (a b c d : BitVec 6) (eng mc zfill xc prom : Bool) (s : State) : Out :=
  let m : CopyMods := ⟨mc, none, false⟩
  issue1 h (a :: c :: d :: pairRegs b) [] (copyIssue cnt oc eng m false (cpytPlan a b c d m zfill xc prom)) s

/-- In-bounds coordinates of a tile. -/
def tileCoords (r : List Word) (c0 c1 d : Word) : List Coord :=
  ((List.range (dTrows d)).map (fun i => (List.range (inCols r c0 c1 d i)).map (tileCoord c0 c1 i))).flatten

/-- The contribution of CPYTS (R395). -/
def tileInSize (r : List Word) (c0 c1 d : Word) (xc : Bool) : Nat :=
  if xc then
    sumNat ((List.range (dTrows d)).map (fun i => inCols r c0 c1 d i / slotDepth r * slotBytes r))
  else ((tileCoords r c0 c1 d).map (fun c => (elemPlace r c).1)).flatten.eraseDups.length

def cpytsPlan (a b c d : BitVec 6) (xc prom : Bool) (p : BitVec 3) (s : State) : Except Bad Planned :=
  let gd := rg s d
  let (c0, c1) := pairVal s b
  if !tileOperandsOk gd c1 then badAccess
  else match copyRecord s (rg s a) with
    | .error e => .error e
    | .ok r =>
      if !(decide (dFmt gd ≤ 0x18) || dFmt gd == tFmt r) || (isBlockLay r && dFmt gd != tFmt r) || tRo r
          || !tileFits r gd c0 xc then badAccess
      else
        .ok ⟨.tileIn (rg s a) c0 c1 (rg s c) gd p.toNat xc prom, r, tileInSize r c0 c1 gd xc, [],
             tileRanges (rg s c) gd (tileRowBytes r c0 c1 gd false)⟩

def execCpyts (h : Hdr) (cnt : BitVec 5) (oc : BitVec 2) (a b c d : BitVec 6) (eng xc prom : Bool) (p : BitVec 3) (s : State) : Out :=
  issue1 h (a :: c :: d :: pairRegs b) [] (copyIssue cnt oc eng ⟨false, none, false⟩ xc (cpytsPlan a b c d xc prom p)) s

def cpygPlan (a b c d : BitVec 6) (m : CopyMods) (s : State) : Except Bad Planned :=
  let gd := rg s d
  if bitsOf gd.toNat 39 16 ≠ 0 ∨ dPh gd = 0 ∨ dPw gd = 0 ∨ dNpatch gd = 0 ∨ !isSpadPtr (rg s b)
      ∨ (rg s b).toNat % 8 ≠ 0 ∨ !mcOk s m (rg s c) then badAccess
  else match copyRecord s (rg s a) with
    | .error e => .error e
    | .ok r =>
      let w := fmtWidth (dFmt gd)
      let bits := dPh gd * dPw gd * w
      if tRank r < 2 || isSparse r || !(dFmt gd == tFmt r || widensTo (tFmt r) (dFmt gd)) || w == 0 || bits % 8 != 0
        then badAccess
      else
        let size := dNpatch gd * (bits / 8)
        .ok ⟨.patches (rg s a) (rg s b) (rg s c) gd, r, size, [(rg s c, size)], [(rg s b, 8 * dNpatch gd)]⟩

def execCpyg (h : Hdr) (cnt : BitVec 5) (oc : BitVec 2) (a b c d : BitVec 6) (eng mc : Bool) (s : State) : Out :=
  let m : CopyMods := ⟨mc, none, false⟩
  issue1 h [a, b, c, d] [] (copyIssue cnt oc eng m false (cpygPlan a b c d m)) s

/-! ## Row forms (R404-R406) -/

def rowPitch (d : Word) : Nat := d.toNat / 2 ^ 32
def rowCount (d : Word) : Nat := bitsOf d.toNat 31 16
def rowBytes (d : Word) : Nat := bitsOf d.toNat 15 0

/-- The limits both forms share. -/
def rowsOk (list d : Word) : Bool :=
  isSpadPtr list && list.toNat % 4 == 0 && rowCount d != 0 && rowBytes d != 0

/-- The index list of a sum: 65536 entries, clipped to the window. -/
def sumList (s : State) (list : Word) : Nat :=
  natMin 262144 ((getCr s crSpLimit).toNat - list.toNat % 2 ^ 22)

def cpyrPlan (a b c d : BitVec 6) (m : CopyMods) (sum : Bool) (s : State) : Except Bad Planned :=
  let gd := rg s d
  let n := rowCount gd
  let rowb := rowBytes gd
  if !rowsOk (rg s c) gd ∨ (sum && rowb % (if m.bf16 then 2 else 4) != 0) ∨ !mcOk s m (rg s a) then badAccess
  else
    let list := if sum then (if sumList s (rg s c) = 0 then 4 else sumList s (rg s c)) else 4 * n
    .ok ⟨.gatherRows (rg s a) (rg s b) (rg s c) (rowPitch gd) n rowb sum, [], n * rowb, [(rg s a, n * rowb)],
         [(rg s c, list)]⟩

def execCpyr (h : Hdr) (cnt : BitVec 5) (oc : BitVec 2) (a b c d : BitVec 6) (eng mc sum rfmt : Bool) (s : State) : Out :=
  let m : CopyMods := ⟨mc, none, rfmt⟩
  issue1 h [a, b, c, d] [] (copyIssue cnt oc eng m false (cpyrPlan a b c d m sum)) s

def cpysPlan (a b c d : BitVec 6) (m : CopyMods) (s : State) : Except Bad Planned :=
  let gd := rg s d
  let n := rowCount gd
  let rowb := rowBytes gd
  if !rowsOk (rg s c) gd ∨ !redOk m (rg s a) [(rg s a).toNat, (rg s b).toNat, rowb, rowPitch gd] then badAccess
  else .ok ⟨.scatterRows (rg s a) (rg s b) (rg s c) (rowPitch gd) n rowb, [], n * rowb, [],
            [(rg s b, n * rowb), (rg s c, 4 * n)]⟩

def execCpys (h : Hdr) (cnt : BitVec 5) (oc : BitVec 2) (a b c d : BitVec 6) (eng red rop rfmt : Bool) (s : State) : Out :=
  let m : CopyMods := ⟨false, redOf red rop rfmt, rfmt⟩
  issue1 h [a, b, c, d] [] (copyIssue cnt oc eng m false (cpysPlan a b c d m)) s

/-! ## ECHK (R412) -/

def echkBody (d a : BitVec 6) (s : State) : Exe :=
  let v := rg s a
  if v.toNat / 2 ≠ 0 then faultAt s cAccess v
  else
    let old := getCr s crEchkst &&& 1
    .retire (wg (setCr s crEchkst (v &&& 1)) d old)
def execEchk (h : Hdr) (d a : BitVec 6) (s : State) : Out := issue1 h [a] [d] (echkBody d a) s

end Sys2Proof.Machine
end

