-- ==== Sys2Proof/Machine/CopyRun.lean ====
section
/-!
DEFINITION. The copy engines' steps: starting a command, and performing its next unit of work (R387, R395-R409,
R424, R527, R531).
-/
namespace Sys2Proof.Machine

def cmdWho (c : CopyCmd) : Who := ⟨c.ctx, c.sv, c.xspace⟩

/-- The context's cohort is placed and not stopping, and the context is not being terminated (R481, R484). -/
def ctxActive (s : State) (c : Nat) : Bool :=
  match cohortOf s c with
  | some h => h.st == .placed && !(getCtx s c).ending
  | none => false

/-! ## Bytes on behalf of a command -/

/-- The place of one byte. An accumulator byte is reached through its entry (R394). -/
def byteLoc (s : State) (w : Who) (p : Word) (kind : AccKind) : Except (Nat × Word) (Loc × State) :=
  match decodePtr p with
  | none => .error (cAddrSpace, p)
  | some (.acc off) =>
    (match locate s w (.acc (off / 4 * 4)) 4 kind with
     | .error c => .error (c, p)
     | .ok (_, s1) => .ok (.acc (coreOfCtx w.ctx) off, s1))
  | some sp =>
    match locate s w sp 1 kind with
    | .error c => .error (c, p)
    | .ok r => .ok r

def byteLocs (s : State) (w : Who) (kind : AccKind) : List Word → Except (Nat × Word) (List Loc × State)
  | [] => .ok ([], s)
  | p :: ps =>
    match byteLoc s w p kind with
    | .error e => .error e
    | .ok (l, s1) =>
      match byteLocs s1 w kind ps with
      | .error e => .error e
      | .ok (ls, s2) => .ok (l :: ls, s2)

/-- A byte that reads with a fault: a poisoned entry, or an uncorrectable error (R394, R409). -/
def badByte (s : State) (p : Word) (l : Loc) : Option (Nat × Word) :=
  if locPoisoned s l 1 then some (cPoison, p) else if locBad s l 1 then some (cEcc, p) else none

/-- n bytes read for a command. -/
def cmdRead (s : State) (w : Who) (p : Word) (n : Nat) : Except (Nat × Word) (List Byte × State) :=
  match byteLocs s w .load (ptrList p n) with
  | .error e => .error e
  | .ok (ls, s1) =>
    match ((ptrList p n).zip ls).findSome? (fun pl => badByte s1 pl.1 pl.2) with
    | some e => .error e
    | none => .ok (ls.map (fun l => locByte s1 l 0), s1)

def locOffset (l : Loc) (i : Nat) : Loc :=
  match l with
  | .mem pa => .mem (pa + i)
  | .spad k off => .spad k (off + i)
  | .acc k off => .acc k (off + i)
  | .peer d va => .peer d (va + i)
  | .host a => .host (a + i)

def putByte (s : State) (l : Loc) (b : Byte) : State :=
  match l with
  | .acc k off =>
    let old := accEntry (getCore s k) (off / 4)
    let bytes := (leBytes 4 old.toNat).set (off % 4) b
    writeAcc s k (off / 4 * 4) bytes
  | _ => locWrite s l [b]

/-- Bytes written at places; a run of consecutive places is one write. -/
def putLocs (s : State) (ls : List Loc) (bs : List Byte) : State :=
  match ls with
  | [] => s
  | l :: _ =>
    let run := ls == (List.range ls.length).map (locOffset l)
    let whole := match l with | .acc _ off => off % 4 == 0 && bs.length % 4 == 0 | _ => true
    if run && whole then locWrite s l bs
    else (ls.zip bs).foldl (fun t lb => putByte t lb.1 lb.2) s

/-- The places a command writes: its destination, or the same offset on every target of a multicast (R408). -/
def cmdPlaces (s : State) (cmd : CopyCmd) (p : Word) (n : Nat) (kind : AccKind) :
    Except (Nat × Word) (List (List Loc) × State) :=
  if cmd.targets.isEmpty then
    match byteLocs s (cmdWho cmd) kind (ptrList p n) with
    | .error e => .error e
    | .ok (ls, s1) => .ok ([ls], s1)
  else .ok (cmd.targets.map (fun k => (List.range n).map (fun i => .spad k (p.toNat % 2 ^ 22 + i))), s)

/-- The low bits of a byte take a new value; its `part` high bits stay. -/
def keepHigh (part : Nat) (old new : Byte) : Byte :=
  BitVec.ofNat 8 (new.toNat % 2 ^ (8 - part) + old.toNat / 2 ^ (8 - part) * 2 ^ (8 - part))

/-- Bytes for one target of a command: of the last byte, the target keeps its own `part` high bits (R399). -/
def keepLast (s : State) (ls : List Loc) (bs : List Byte) (part : Nat) : List Byte :=
  match ls.getLast?, bs.getLast? with
  | some l, some b => if part = 0 then bs else bs.dropLast ++ [keepHigh part (locByte s l 0) b]
  | _, _ => bs

/-- Bytes of a unit land, reduced into what is there where the command says so (R407). Of the last byte, `part` high bits
stay; it is then read, with its check code (R298, R309). -/
def cmdWrite (s : State) (cmd : CopyCmd) (p : Word) (bs : List Byte) (part : Nat) : Except (Nat × Word) State :=
  match cmdPlaces s cmd p bs.length (if cmd.red.isSome then .atomic else .store) with
  | .error e => .error e
  | .ok (places, s1) =>
    match cmd.red with
    | none =>
      let last := p + w64 (bs.length - 1)
      match if part = 0 then none else places.findSome? (fun ls => ls.getLast?.bind (badByte s1 last)) with
      | some e => .error e
      | none => .ok (places.foldl (fun t ls => putLocs t ls (keepLast t ls bs part)) s1)
    | some (wantMax, bf16) =>
      let ls := places.headD []
      match ((ptrList p bs.length).zip ls).findSome? (fun pl => badByte s1 pl.1 pl.2) with
      | some e => .error e
      | none => .ok (putLocs s1 ls (reduceBytes wantMax bf16 (ls.map (fun l => locByte s1 l 0)) bs))

/-! ## What a unit reads (R391, R404, R405) -/

/-- Entry n of an index list. It is read anew for every unit of its row, and a sum of a bag walks its list again from the
start for each of its units (DESIGN CHOICE, log 98: the spec does not say how often an entry is read). -/
def readIndex (s : State) (cmd : CopyCmd) (list : Word) (n : Nat) : Except (Nat × Word) Nat :=
  match cmdRead s (cmdWho cmd) (list + w64 (4 * n)) 4 with
  | .error e => .error e
  | .ok (bs, _) => .ok (leNat bs)

/-- The row an index selects (R404): a range that must lie in one space, whichever its base is in (R393, R409). -/
def rowAt (s : State) (cmd : CopyCmd) (base : Word) (idx pitch rowb : Nat) : Except (Nat × Word) Word :=
  let p := base + w64 (idx * pitch)
  match rangeCause s (cmdWho cmd) p rowb with
  | some c => .error (c, p)
  | none => .ok p

/-- A row that a reduction may not write: in the host, or BF16 in an accumulator (R394, R407). -/
def redRowBad (cmd : CopyCmd) (p : Word) : Bool :=
  match cmd.red with
  | some (_, bf16) => isHostPtr p || (bf16 && isAccPtr p)
  | none => false

/-- The list entry that begins bag b: b ENDs lie before it (R405). -/
def bagStart (s : State) (cmd : CopyCmd) (list : Word) : (fuel : Nat) → (b at_ : Nat) → Except (Nat × Word) Nat
  | _, 0, n => .ok n
  | 0, _ + 1, _ => .error (cAccess, list)
  | f + 1, b + 1, n =>
    match readIndex s cmd list n with
    | .error e => .error e
    | .ok v => bagStart s cmd list f (if v.testBit 31 then b else b + 1) (n + 1)

/-- The sums of a unit's elements with one row more: its first row's, or the FP32 sums so far and this row's (R405). -/
def sumLanes (bf16 first : Bool) (acc : List Nat) (bs : List Byte) : List Nat :=
  let n := if bf16 then 2 else 4
  let f := if bf16 then 0x12 else 0x11
  (List.range (bs.length / n)).map (fun k =>
    let v := widen f (leNat ((bs.drop (n * k)).take n))
    if first then (deliver 0x11 v .rne).1 else (fpAdd 0x11 (widen 0x11 (acc.getD k 0)) v .rne).1)

/-- The bytes of a unit whose sums are whole. -/
def sumBytes (bf16 : Bool) (acc : List Nat) : List Byte :=
  (acc.map (fun a => leBytes (if bf16 then 2 else 4) (deliver (if bf16 then 0x12 else 0x11) (widen 0x11 a) .rne).1)).flatten

/-- The sums of a unit's elements over the list entries from n on, up to the END. `got`: the rows of all the entries, which
have come already. -/
def bagLanes (r : CopyRun) (got : Option (List Byte)) (base list : Word) (pitch rowb : Nat) :
    (fuel : Nat) → (n : Nat) → (first : Bool) → (acc : List Nat) → State → Except (Nat × Word) (List Nat × State)
  | 0, _, _, _, _ => .error (cAccess, list)
  | f + 1, n, first, acc, s =>
    match readIndex s r.cmd list n with
    | .error e => .error e
    | .ok v =>
      match rowAt s r.cmd base (v % 2 ^ 31) pitch rowb with
      | .error e => .error e
      | .ok p =>
        let row : Except (Nat × Word) (List Byte × State) := match got with
          | some b => .ok ((b.drop (n * rowb + r.pos % rowb)).take r.unit, s)
          | none => cmdRead s (cmdWho r.cmd) (p + w64 (r.pos % rowb)) r.unit
        match row with
        | .error e => .error e
        | .ok (bs, s1) =>
          let sums := sumLanes r.cmd.bf16 first acc bs
          if v.testBit 31 then .ok (sums, s1) else bagLanes r got base list pitch rowb f (n + 1) false sums s1

/-- The bytes the next unit reads from memory: pointer and number. `none`: it reads none of its own. -/
def unitSrc (s : State) (r : CopyRun) : Except (Nat × Word) (Option (Word × Nat)) :=
  let cmd := r.cmd
  let n := r.unit
  match cmd.op with
  | .linear _ src _ len sp _ => .ok (some (src + wInt ((r.pos / len : Nat) * sp + (r.pos % len : Nat)), n))
  | .fill _ _ _ _ => .ok none
  | .tileOut _ _ _ _ _ _ _ _ => .ok none
  | .patches _ _ _ _ => .ok none
  | .tileIn _ c0 c1 mem d _ _ _ =>
    let w := fmtWidth (dFmt d)
    let i := r.pos / dTcols d
    let j := r.pos % dTcols d
    let k := natMin n (inCols cmd.record c0 c1 d i - j)
    .ok (if k = 0 then none else some (mem + w64 (i * dMpitch d + j * w / 8), (k * w + 7) / 8))
  | .scatterRows _ src _ _ _ _ => .ok (some (src + w64 r.pos, n))
  | .gatherRows _ src list pitch _ rowb sum =>
    if sum then
      match bagStart s cmd list 65536 (r.pos / rowb) 0 with
      | .error e => .error e
      | .ok b =>
        if 65536 ≤ b + r.sumAt then .error (cAccess, list)
        else match readIndex s cmd list (b + r.sumAt) with
          | .error e => .error e
          | .ok v =>
            match rowAt s cmd src (v % 2 ^ 31) pitch rowb with
            | .error e => .error e
            | .ok p => .ok (some (p + w64 (r.pos % rowb), n))
    else
      match readIndex s cmd list (r.pos / rowb) with
      | .error e => .error e
      | .ok v =>
        match rowAt s cmd src v pitch rowb with
        | .error e => .error e
        | .ok p => .ok (some (p + w64 (r.pos % rowb), n))

/-! ## Elements out of a tensor (R398, R399, R402, R424) -/

/-- A NaN becomes the destination's default NaN with the source's sign (R398). -/
def deliverWide (f : Nat) (v : FVal) (fromInt : Bool) : Nat :=
  match v with
  | .nan sg _ => fmtDefaultNan f % 2 ^ (fmtWidth f - 1) + (if sg then 2 ^ (fmtWidth f - 1) else 0)
  | _ => (deliver f v .rne fromInt).1

/-- The code an element gives in the destination format. -/
def outElem (s : State) (w : Who) (i : Nat) (r : List Word) (xf : Nat) (c : Coord) : Except (Nat × Word) (Nat × State) :=
  match mapRead s i r c with
  | .error e => .error e
  | .ok m =>
    match readCode s w m c with
    | .error e => .error e
    | .ok (code, s1) =>
      if tFmt m = tFmt r ∧ tFmt m = xf then .ok (code.getD 0, s1)
      else if tFmt m ≠ tFmt r ∧ isBlockLay r then .error (cAccess, (elemPtrs r c).headD 0)
      else match readValue s1 w m c code with
        | .error e => .error e
        | .ok (v, s2) =>
          .ok (if tFmt m = tFmt r then deliverWide xf v (fmtIsInt (tFmt m)) else (deliver xf v .rne (fmtIsInt (tFmt m))).1, s2)

/-- Elements at coordinates, `none` out of bounds: their codes. Touched units are promoted. -/
def outElems (s : State) (w : Who) (i : Nat) (r : List Word) (xf : Nat) (prom : Bool) :
    List (Option Coord) → Except (Nat × Word) (List Nat × State)
  | [] => .ok ([], s)
  | none :: cs =>
    match outElems s w i r xf prom cs with
    | .error e => .error e
    | .ok (ks, s1) => .ok (0 :: ks, s1)
  | some c :: cs =>
    match outElem s w i r xf c with
    | .error e => .error e
    | .ok (k, s1) =>
      match outElems (if prom then promote s1 w.ctx i c else s1) w i r xf prom cs with
      | .error e => .error e
      | .ok (ks, s2) => .ok (k :: ks, s2)

/-- The coordinates of a patch element: entry p of the origins, element k of the patch (R402). -/
def patchCoord (entry : Nat) (pw k : Nat) : Option Coord :=
  let x : Int := sextNat entry 24 + (k % pw : Nat)
  let y : Int := sextNat (entry / 2 ^ 24) 24 + (k / pw : Nat)
  if x < 0 ∨ y < 0 then none else some ⟨x.toNat, y.toNat, entry / 2 ^ 48, 0, 0⟩

/-- The unit's coordinates, an element out of bounds being `none`, and how many are written. -/
def unitCoords (s : State) (r : CopyRun) : Except (Nat × Word) (List (Option Coord)) :=
  let cmd := r.cmd
  let n := r.unit
  let keep (c : Coord) : Option Coord := if inBounds cmd.record c then some c else none
  match cmd.op with
  | .tileOut _ c0 c1 _ d zf _ _ =>
    let cs := (List.range n).map (fun k => keep (tileCoord c0 c1 (r.pos / dTcols d) (r.pos % dTcols d + k)))
    .ok (if zf then cs else cs.filter (fun c => c.isSome))
  | .patches _ origins _ d =>
    let per := dPh d * dPw d
    (match cmdRead s (cmdWho cmd) (origins + w64 (8 * (r.pos / per))) 8 with
     | .error e => .error e
     | .ok (bs, _) =>
       .ok ((List.range n).map (fun k => (patchCoord (leNat bs) (dPw d) (r.pos % per + k)).bind keep)))
  | _ => .ok []

/-- Bits of the unit's last byte that the unit leaves as they are. -/
def partialBits (bits : Nat) : Nat := (8 - bits % 8) % 8

/-! ## Elements into a tensor (R400, R401, R424) -/

/-- What a unit of CPYTS has done. -/
structure TileDone where
  exc   : Exc
  slots : Nat
  nnz   : Nat
  deriving DecidableEq, Repr

/-- A source code delivered to an element: under the mapping it uses. Into a mapping of another format, a block-scaled
record takes no codes: ACCESS (DESIGN CHOICE, log 96: R424 says so of reads). -/
def inElem (s : State) (w : Who) (r m : List Word) (sf mode : Nat) (c : Coord) (code : Nat) :
    Except (Nat × Word) (Nat × Exc × State) :=
  if sf = tFmt r ∧ tFmt m = tFmt r then .ok (code, excNone, s)
  else if isBlockLay r ∧ tFmt m ≠ tFmt r then .error (cAccess, (elemPtrs r c).headD 0)
  else match narrowElem s w m c (widen sf code) (fmtIsInt sf) (rndOf mode 0) with
    | .error e => .error e
    | .ok (k, ex, s1) => .ok (k, { ex with flags := 0 }, s1)

def inElems (w : Who) (i : Nat) (r : List Word) (sf mode : Nat) (prom : Bool) :
    List (Coord × Nat) → State → Exc → Except (Nat × Word) (State × Exc)
  | [], s, ex => .ok (s, ex)
  | (c, code) :: cs, s, ex =>
    match mapWrite s i r c with
    | .error e => .error e
    | .ok m =>
      match inElem s w r m sf mode c code with
      | .error e => .error e
      | .ok (k, e1, s1) =>
        match writeElem s1 w m c k with
        | .error e => .error e
        | .ok s2 => inElems w i r sf mode prom cs (if prom then promote s2 w.ctx i c else s2) (excJoin ex e1)

def inCodes (w : Who) (r m : List Word) (sf mode : Nat) :
    List (Coord × Nat) → State → Exc → Except (Nat × Word) (List Nat × State × Exc)
  | [], s, ex => .ok ([], s, ex)
  | (c, code) :: cs, s, ex =>
    match inElem s w r m sf mode c code with
    | .error e => .error e
    | .ok (k, e1, s1) =>
      match inCodes w r m sf mode cs s1 (excJoin ex e1) with
      | .error e => .error e
      | .ok (ks, s2, e2) => .ok (k :: ks, s2, e2)

/-- The slot that a fibre-fold is compressed into: its pointer, its bytes and what that has done. `none`: the mapping that
the fold uses is not sparse. -/
def foldSlot (w : Who) (i : Nat) (r : List Word) (sf mode : Nat) (cs : List (Coord × Nat)) (s : State) :
    Except (Nat × Word) (Option (Word × List Byte × TileDone × State)) :=
  match cs with
  | [] => .ok none
  | (c, _) :: _ =>
    match mapWrite s i r c with
    | .error e => .error e
    | .ok m =>
      if !isSparse m then .ok none
      else match inCodes w r m sf mode cs s excNone with
        | .error e => .error e
        | .ok (ks, s1, ex) =>
          let (bytes, nnz) := encodeSlot m ks
          .ok (some (tBase m + w64 ((elemPlace m c).1.headD 0), bytes, ⟨ex, 1, nnz⟩, s1))

/-- A fold's first element is promoted with its slot. -/
def promoteFold (prom : Bool) (w : Who) (i : Nat) (cs : List (Coord × Nat)) (s : State) : State :=
  match cs with
  | (c, _) :: _ => if prom then promote s w.ctx i c else s
  | [] => s

/-- A fibre-fold compressed into its slot; into a mapping that is not sparse it goes element by element. -/
def inFold (w : Who) (i : Nat) (r : List Word) (sf mode : Nat) (prom : Bool) (cs : List (Coord × Nat)) (s : State) :
    Except (Nat × Word) (State × TileDone) :=
  match foldSlot w i r sf mode cs s with
  | .error e => .error e
  | .ok (some (p, bytes, dn, s1)) =>
    (match placeBytes s1 w .store (ptrList p bytes.length) with
     | .error e => .error e
     | .ok (ls, s2) => .ok (promoteFold prom w i cs (writeLocs s2 ls bytes), dn))
  | .ok none =>
    match inElems w i r sf mode prom cs s excNone with
    | .error e => .error e
    | .ok (s1, ex) => .ok (s1, ⟨ex, 0, 0⟩)

/-- Codes of w bits from bytes. -/
def codesOf (w n : Nat) (bs : List Byte) : List Nat :=
  let v := leNat bs
  (List.range n).map (fun k => (v >>> (k * w)) % 2 ^ w)

/-! ## Landing, completion, failure (R395, R401, R409) -/

def modRun (s : State) (core eng slot : Nat) (f : CopyRun → CopyRun) : State :=
  let g := getEngine s core eng
  match tabFind g.active slot with
  | some r => putEngine s core eng { g with active := tabPut g.active slot (f r) }
  | none => s

def dropRun (s : State) (core eng slot : Nat) : State :=
  let g := getEngine s core eng
  putEngine s core eng { g with active := tabErase g.active slot }

/-- CPYEXC takes a command's counts (R400, R416). -/
def addCpyexc (s : State) (r : CopyRun) : State :=
  modCtx s r.cmd.ctx (fun x =>
    let v := (ctxCr x crCpyexc).toNat
    ctxSetCr x crCpyexc (w64 (satAdd 32 (v / 2 ^ 32) r.sat * 2 ^ 32 + satAdd 32 (v % 2 ^ 32) r.nanr)))

/-- The reply of COMPRESS (R401). -/
def compressReply (r : CopyRun) : Word :=
  w64 (r.slots % 2 ^ 24 * 2 ^ 40 + r.maxNnz % 512 * 2 ^ 31 + natMin r.total (2 ^ 31 - 1))

/-- A command whose last byte has landed leaves the engine. -/
def finishRun (s : State) (core eng slot : Nat) (r : CopyRun) : State :=
  fillReplyOpt (addCpyexc (dropRun s core eng slot) r) r.cmd.ctx r.cmd.key (.filled (compressReply r))

/-- A command that faults (R409): its unlanded contribution is subtracted, its counter marked, a record queued. -/
def failRun (s : State) (core eng slot : Nat) (r : CopyRun) (rec0 : FaultRec) : State :=
  let s1 := addCpyexc (dropRun s core eng slot) r
  let s2 := counterSub s1 core r.cmd.cnt (r.cmd.size - r.landed) r.cmd.ctx r.cmd.pc
  let s3 := fillReplyOpt (markFaulted s2 core r.cmd.cnt) r.cmd.ctx r.cmd.key .faulted
  pushFault s3 core { rec0 with cnt := some r.cmd.cnt, tag := r.cmd.tag, prog := w64 r.landed }

def failRunAt (s : State) (core eng slot : Nat) (r : CopyRun) (e : Nat × Word) : State :=
  failRun s core eng slot r { recBase e.1 (3 + eng) r.cmd.ctx r.cmd.pc with addr := e.2 }

def failRunLink (s : State) (core eng slot : Nat) (r : CopyRun) (ptr : Word) (cause port : Nat) : State :=
  failRun s core eng slot r (linkRec r.cmd.ctx r.cmd.pc ptr cause port)

/-- Destination bytes of a unit that its command may write more than once and counts once, as keys: where rows of a CPY2
overlap or elements of a tensor share bytes. -/
def workKeys (cmd : CopyCmd) (u : Work) : Option (List Nat) :=
  match cmd.op with
  | .linear dst _ rows len _ dp =>
    if 1 < rows ∧ dp.natAbs < len ∧ !isPeerPtr dst then some ((ptrList u.dst u.bytes.length).map (fun p => p.toNat))
    else none
  | .tileIn _ c0 c1 _ d _ cp _ =>
    if cp then none
    else
      let cs := (List.range u.n).map (fun k => tileCoord c0 c1 (u.pos / dTcols d) (u.pos % dTcols d + k))
      some (((cs.filter (inBounds cmd.record)).map (fun c => (elemPlace cmd.record c).1)).flatten)
  | _ => none

/-- n bytes of the run have landed, of which those with keys count once (R395). -/
def credit (s : State) (core eng slot n : Nat) (keys : Option (List Nat)) (r : CopyRun) : State :=
  let fresh := match keys with
    | some ks => ks.eraseDups.filter (fun k => !r.seen.contains k)
    | none => []
  let got := (match keys with | some _ => fresh.length | none => n) * (if r.cmd.targets.isEmpty then 1 else r.cmd.targets.length)
  counterSub (modRun s core eng slot (fun _ => { r with landed := r.landed + got, seen := r.seen ++ fresh }))
    core r.cmd.cnt got r.cmd.ctx r.cmd.pc

/-- The run's unit has landed. -/
def landUnit (s : State) (core eng slot : Nat) (keys : Option (List Nat)) (r : CopyRun) : State :=
  let bits := r.bits + 8 * r.unit
  let r1 : CopyRun := { r with
    unit := 0, bits := bits, edge := decide (r.bits / 32768 < bits / 32768), pos := r.pos + r.unit,
    peer := none, buf := [], sumAt := 0, sumVal := 0 }
  let t := credit s core eng slot r.unit keys r1
  if r1.pos ≥ unitEnd r.cmd.op then finishRun t core eng slot r1 else t

/-- A run that has landed all that it has read ends: with the fault that its reading met, if any. -/
def endLoaded (s : State) (core eng slot : Nat) : State :=
  match tabFind (getEngine s core eng).active slot with
  | none => s
  | some r =>
    if !r.works.isEmpty || !r.kept.isEmpty then s
    else match r.bad with
      | some e => failRunAt s core eng slot r e
      | none => finishRun s core eng slot r

/-! ## PEER units (R523, R528, R531) -/

/-- A request for a unit: its answer at once, or the unit waits. -/
def sendUnit (s : State) (core eng slot : Nat) (r : CopyRun) (p : Word) (op : PeerOp) (rows : List (Nat × Nat))
    (fin : State → BitVec 1024 → State) : State :=
  match decodePtr p with
  | some (.peer dev _) =>
    let port := tabGet 0 s.routes dev
    match sendPeer s ⟨r.cmd.ctx, r.cmd.pc, p, op, port, s.clk, .beat core eng slot⟩ dev rows with
    | (.inl (.ok d), s1) => fin s1 d
    | (.inl (.failed c), s1) => failRunLink s1 core eng slot r p c.toNat port
    | (.inr id, s1) => modRun s1 core eng slot (fun _ => { r with peer := some id })
  | _ => s

/-- Bytes that a request has brought join the unit's. -/
def gotBytes (core eng slot n : Nat) (r : CopyRun) (s : State) (d : BitVec 1024) : State :=
  modRun s core eng slot (fun _ => { r with peer := none, buf := r.buf ++ leBytes n d.toNat })

/-- The ranges that a command writes at the peer of pointer p, from which the port knows whether blocks are whole (R530). -/
def peerRows (s : State) (cmd : CopyCmd) (p : Word) : List (Nat × Nat) :=
  let rows : List (Word × Nat) := match cmd.op with
    | .linear dst _ n len _ dp => rowRanges dst n len dp
    | .fill dst _ _ len => [(dst, len)]
    | .tileOut _ c0 c1 mem d zf _ _ => tileRanges mem d (tileRowBytes cmd.record c0 c1 d zf)
    | .patches _ _ dst _ => [(dst, cmd.size)]
    | .gatherRows dst _ _ _ n rowb _ => [(dst, n * rowb)]
    | .scatterRows _ _ _ _ n rowb => (List.range n).map (fun i => (dstPtr s cmd (i * rowb), rowb))
    | .tileIn _ _ _ _ _ _ _ _ => []
  (rows.filter (fun pn => pn.1.toNat / 2 ^ 48 == p.toNat / 2 ^ 48)).map (fun pn => (pn.1.toNat % 2 ^ 48, pn.2))

/-- Bytes go to a peer; `fin` follows once they have landed there. -/
def sendBytes (s : State) (core eng slot : Nat) (r : CopyRun) (p : Word) (bs : List Byte) (fin : State → State) : State :=
  let op : PeerOp := match r.cmd.red with
    | some (mx, bf) => .reduce mx bf bs
    | none => .write bs
  sendUnit s core eng slot r p op (peerRows s r.cmd p) (fun t _ => fin t)

/-! ## Reading: what units land -/

/-- Elements of a tensor, as the bytes they are in memory; a last byte written in part keeps its other bits (R399, R409). -/
def outWork (s : State) (r : CopyRun) (h : Word) (xf : Nat) (prom : Bool) : Except (Nat × Word) (Work × State) :=
  match unitCoords s r with
  | .error e => .error e
  | .ok cs =>
    let bits := cs.length * fmtWidth xf
    match outElems s (cmdWho r.cmd) (h.toNat % 16384) r.cmd.record xf prom cs with
    | .error e => .error e
    | .ok (ks, s1) =>
      .ok (⟨0, 0, dstPtr s r.cmd r.pos, leBytes ((bits + 7) / 8) (packBits (fmtWidth xf) ks), partialBits bits⟩, s1)

/-- What the run's unit lands, from its source bytes. -/
def unitWork (s : State) (r : CopyRun) (bs : List Byte) : Except (Nat × Word) (Work × State) :=
  let lands (p : Word) (cs : List Byte) : Except (Nat × Word) (Work × State) := .ok (⟨0, 0, p, cs, 0⟩, s)
  match r.cmd.op with
  | .linear _ _ _ _ _ _ => lands (dstPtr s r.cmd r.pos) bs
  | .fill _ pat size _ =>
    lands (dstPtr s r.cmd r.pos) ((List.range r.unit).map (fun k => (leBytes size pat.toNat).getD ((r.pos + k) % size) 0))
  | .tileOut h _ _ _ d _ _ prom => outWork s r h (dFmt d) prom
  | .patches h _ _ d => outWork s r h (dFmt d) false
  | .tileIn _ _ _ _ _ _ _ _ => .ok (⟨r.pos, r.unit, 0, bs, 0⟩, s)
  | .gatherRows dst _ _ _ _ _ _ => lands (dst + w64 r.pos) bs
  | .scatterRows base _ list pitch _ rowb =>
    match readIndex s r.cmd list (r.pos / rowb) with
    | .error e => .error e
    | .ok v =>
      match rowAt s r.cmd base v pitch rowb with
      | .error e => .error e
      | .ok p => if redRowBad r.cmd p then .error (cAccess, p) else lands (p + w64 (r.pos % rowb)) bs

/-- The bytes of the unit's source, and how many it takes of `got`, which has been read before. -/
def unitBytes (s : State) (r : CopyRun) (got : Option (List Byte)) : Except (Nat × Word) (List Byte × Nat × State) :=
  match r.cmd.op, got with
  | .gatherRows _ src list pitch _ rowb true, _ =>
    (match bagStart s r.cmd list 65536 (r.pos / rowb) 0 with
     | .error e => .error e
     | .ok b =>
       match bagLanes r got src list pitch rowb (65536 - b) b true [] s with
       | .error e => .error e
       | .ok (sums, s1) => .ok (sumBytes r.cmd.bf16 sums, 0, s1))
  | _, _ =>
    match unitSrc s r with
    | .error e => .error e
    | .ok none => .ok ([], 0, s)
    | .ok (some (p, n)) =>
      match got with
      | some bs => .ok (bs.take n, n, s)
      | none =>
        match cmdRead s (cmdWho r.cmd) p n with
        | .error e => .error e
        | .ok (bs, s1) => .ok (bs, 0, s1)

/-- The run with its next unit begun. -/
def beginUnit (s : State) (r : CopyRun) : CopyRun :=
  if r.unit = 0 then { r with unit := unitLen s r.cmd r.pos } else r

/-- The in-bounds elements of a unit of a tensor. -/
def workCoords (cmd : CopyCmd) (u : Work) : List Coord :=
  match cmd.op with
  | .tileIn _ c0 c1 _ d _ _ _ =>
    let row := u.pos / dTcols d
    let col := u.pos % dTcols d
    (List.range (natMin u.n (inCols cmd.record c0 c1 d row - col))).map (fun k => tileCoord c0 c1 row (col + k))
  | _ => []

/-- A unit of no bytes and no elements. -/
def workEmpty (cmd : CopyCmd) (u : Work) : Bool := if u.n = 0 then u.bytes.isEmpty else (workCoords cmd u).isEmpty

/-- The units of a run from its position on, all read before one of them lands; and the fault that the unit behind them
meets. `got`: its source, where some of it has come from a peer. -/
def readUnits : (fuel : Nat) → CopyRun → Option (List Byte) → State → List Work × Option (Nat × Word) × State
  | 0, _, _, s => ([], none, s)
  | f + 1, r0, got, s =>
    if unitEnd r0.cmd.op ≤ r0.pos then ([], none, s)
    else
      let r := beginUnit s r0
      match unitBytes s r got with
      | .error e => ([], some e, s)
      | .ok (bs, n, s1) =>
        match unitWork s1 r bs with
        | .error e => ([], some e, s1)
        | .ok (u, s2) =>
          let (us, e, s3) := readUnits f { r with unit := 0, pos := r.pos + r.unit } (got.map (fun b => b.drop n)) s2
          (if workEmpty r.cmd u then us else u :: us, e, s3)

/-! ## Landing: a unit in a step (R387) -/

/-- The bytes of the unit under way land, or go to the peer that they are for. -/
def putUnit (s : State) (core eng slot : Nat) (r : CopyRun) (u : Work) : State :=
  if isPeerPtr u.dst then sendBytes s core eng slot r u.dst u.bytes (fun t => landUnit t core eng slot none r)
  else match cmdWrite s r.cmd u.dst u.bytes u.part with
    | .error e => failRunAt s core eng slot r e
    | .ok t => landUnit t core eng slot (workKeys r.cmd u) r

/-- The unit under way is read and moves. -/
def moveUnit (s : State) (core eng slot : Nat) (r : CopyRun) (got : Option (List Byte)) : State :=
  match unitBytes s r got with
  | .error e => failRunAt s core eng slot r e
  | .ok (bs, _, s1) =>
    match unitWork s1 r bs with
    | .error e => failRunAt s core eng slot r e
    | .ok (u, s2) => putUnit s2 core eng slot r u

/-! ## Landing: a chunk in a step (R339, R387, R392, R411) -/

/-- Some element of the unit waits for its conversion unit to leave BUSY or HELD (R424). -/
def workWaits (s : State) (r : CopyRun) (u : Work) : Bool :=
  match r.cmd.op with
  | .tileIn h _ _ _ _ _ _ _ => (workCoords r.cmd u).any (mapWaits s (h.toNat % 16384) r.cmd.record)
  | _ => false

/-- A command that compresses into slots. -/
def compresses (cmd : CopyCmd) : Bool := match cmd.op with | .tileIn _ _ _ _ _ _ cp _ => cp | _ => false

/-- The elements of a unit of a tensor with their codes. -/
def workItems (cmd : CopyCmd) (d : Word) (u : Work) : List (Coord × Nat) :=
  let cs := workCoords cmd u
  cs.zip (codesOf (fmtWidth (dFmt d)) cs.length u.bytes)

/-- What a unit of CPYTS has done joins the run's figures. -/
def countTile (r : CopyRun) (dn : TileDone) : CopyRun :=
  { r with
    sat := r.sat + dn.exc.sat, nanr := r.nanr + dn.exc.nanr, slots := r.slots + dn.slots,
    maxNnz := Nat.max r.maxNnz dn.nnz, total := r.total + dn.nnz }

/-- Elements of memory land in a tensor. -/
def landTile (s : State) (core eng slot : Nat) (r : CopyRun) (h d : Word) (mode : Nat) (cp prom : Bool) (u : Work) : State :=
  let i := h.toNat % 16384
  let items := workItems r.cmd d u
  let w := cmdWho r.cmd
  let res : Except (Nat × Word) (State × TileDone) :=
    if cp then inFold w i r.cmd.record (dFmt d) mode prom items s
    else match inElems w i r.cmd.record (dFmt d) mode prom items s excNone with
      | .error e => .error e
      | .ok (t, ex) => .ok (t, ⟨ex, 0, 0⟩)
  match res with
  | .error e => failRunAt s core eng slot r e
  | .ok (t, dn) => credit t core eng slot (slotBytes r.cmd.record) (workKeys r.cmd u) (countTile r dn)

/-- A unit of a run that has read its source lands. -/
def landWork (s : State) (core eng slot : Nat) (r : CopyRun) (u : Work) : State :=
  match r.cmd.op with
  | .tileIn h _ _ _ d mode cp prom =>
    if u.n ≠ 0 then landTile s core eng slot r h d mode cp prom u
    else (match cmdWrite s r.cmd u.dst u.bytes 0 with
      | .error e => failRunAt s core eng slot r e
      | .ok t => credit t core eng slot u.bytes.length none r)
  | _ =>
    match cmdWrite s r.cmd u.dst u.bytes u.part with
    | .error e => failRunAt s core eng slot r e
    | .ok t => credit t core eng slot u.bytes.length (workKeys r.cmd u) r

/-- Units land in order, until the command has ended. -/
def landAll (core eng slot : Nat) : List Work → State → State
  | [], s => s
  | u :: us, s =>
    match tabFind (getEngine s core eng).active slot with
    | none => s
    | some r => landAll core eng slot us (landWork s core eng slot r u)

/-- Bytes cut after k of them. -/
def splitBytes (k : Nat) (u : Work) : Work × Work :=
  ({ u with bytes := u.bytes.take k, part := if u.bytes.length ≤ k then u.part else 0 },
   { u with dst := u.dst + w64 k, bytes := u.bytes.drop k })

/-- A unit of a tensor cut after k of its elements, w bits each in memory. -/
def splitTile (w k : Nat) (u : Work) : Work × Work :=
  let cs := codesOf w u.n u.bytes
  (⟨u.pos, k, 0, leBytes ((k * w + 7) / 8) (packBits w (cs.take k)), 0⟩,
   ⟨u.pos + k, u.n - k, 0, leBytes (((u.n - k) * w + 7) / 8) (packBits w (cs.drop k)), 0⟩)

/-- Bits of a tile's elements in memory. -/
def tileBits (cmd : CopyCmd) : Nat := match cmd.op with | .tileIn _ _ _ _ d _ _ _ => fmtWidth (dFmt d) | _ => 8

/-- What lies within the next b bits of a command's destination; a slot that they cut, with the bytes of it within them;
and the rest. -/
def takeChunk (cmd : CopyCmd) : (b : Nat) → List Work → List Work × Option (Work × Nat) × List Work
  | _, [] => ([], none, [])
  | b, u :: us =>
    let n := workBits cmd u
    if n ≤ b then
      let (now, cut, rest) := takeChunk cmd (b - n) us
      (u :: now, cut, rest)
    else if b < 8 ∧ (b = 0 ∨ u.n = 0) then ([], none, u :: us)
    else if u.n = 0 then
      let (x, y) := splitBytes (b / 8) u
      ([x], none, y :: us)
    else if compresses cmd then ([], some (u, b / 8), us)
    else
      let (x, y) := splitTile (tileBits cmd) ((b + tBits cmd.record - 1) / tBits cmd.record) u
      ([x], none, y :: us)

/-- Bytes cut at the ends of words and of 64-byte lines. -/
def cutBytes : (fuel : Nat) → Work → List Work
  | 0, u => [u]
  | f + 1, u =>
    let a := u.dst.toNat
    let n := u.bytes.length
    let k := if a % 4 ≠ 0 then 4 - a % 4 else if n < 4 then n else natMin (64 - a % 64) (n / 4 * 4)
    if n ≤ k then [u] else (splitBytes k u).1 :: cutBytes f (splitBytes k u).2

/-- Spans of bytes that follow each other as one: its first byte and the one behind it. -/
def oneSpan : List (Word × Nat) → Option (Nat × Nat)
  | [] => none
  | (p, n) :: ds => ds.foldl (fun o d => match o with
      | none => none
      | some (a, b) =>
        let x := d.1.toNat
        if x = b then some (a, b + d.2) else if a ≤ x ∧ x + d.2 ≤ b then some (a, b) else none) (some (p.toNat, p.toNat + n))

/-- The unit writes whole 4-byte words and nothing else. -/
def wholeWords (s : State) (cmd : CopyCmd) (u : Work) : Bool :=
  match oneSpan (workDst s cmd u) with
  | some (a, b) => a % 4 == 0 && b % 4 == 0 && u.part == 0 && workBits cmd u == 8 * (b - a)
  | none => false

/-- A piece that lands whatever follows it: a fibre-fold, or whole words. -/
def landsWhole (s : State) (cmd : CopyCmd) (u : Work) : Bool := compresses cmd || wholeWords s cmd u

/-- Pieces of a unit that are of whole words, or else small. Fibre-folds stay whole. -/
def cutWork (s : State) (cmd : CopyCmd) (u : Work) : List Work :=
  if u.n = 0 then cutBytes u.bytes.length u
  else if landsWhole s cmd u then [u]
  else (List.range u.n).map (fun k => (splitTile (tileBits cmd) 1 (splitTile (tileBits cmd) k u).2).1)

/-- Two sets of bytes share a 4-byte word. -/
def wordsMeet (l m : List (Word × Nat)) : Bool :=
  l.any (fun x => m.any (fun y =>
    decide (x.1.toNat / 4 ≤ (y.1.toNat + y.2 - 1) / 4) && decide (y.1.toNat / 4 ≤ (x.1.toNat + x.2 - 1) / 4)))

/-- Of pieces in order, those that land now, and those that wait because the rest of the command, which lands in `rest`, or
a later piece that waits, goes on with a word of theirs (R411); with the bytes of the waiting ones, and of whole words that
land. -/
def holdBack (s : State) (cmd : CopyCmd) (rest : List (Word × Nat)) :
    List Work → List Work × List Work × List (Word × Nat) × List (Word × Nat)
  | [] => ([], [], [], [])
  | u :: us =>
    let (go, keep, held, whole) := holdBack s cmd rest us
    let d := workDst s cmd u
    if landsWhole s cmd u then (u :: go, keep, held, d ++ whole)
    else if !wordsMeet d whole && (wordsMeet d held || wordsMeet d rest) then
      (go, u :: keep, d ++ held, whole)
    else (u :: go, keep, held, whole)

/-- A slot that the end of a chunk cuts: k bytes of it land, and the others come next. Its unit does not become BUSY
before them (R423, cutSlots). -/
def landCut (s : State) (core eng slot k : Nat) (u : Work) : State :=
  match tabFind (getEngine s core eng).active slot with
  | none => s
  | some r =>
    match r.cmd.op with
    | .tileIn h _ _ _ d mode cp prom =>
      let i := h.toNat % 16384
      let items := workItems r.cmd d u
      (match foldSlot (cmdWho r.cmd) i r.cmd.record (dFmt d) mode items s with
       | .error e => failRunAt s core eng slot r e
       | .ok none => landTile s core eng slot { r with bits := r.bits + 8 * (slotBytes r.cmd.record - k) } h d mode cp prom u
       | .ok (some (p, bytes, dn, s1)) =>
         let (x, y) := splitBytes k ⟨u.pos, 0, p, bytes, 0⟩
         match cmdWrite s1 r.cmd x.dst x.bytes 0 with
         | .error e => failRunAt s core eng slot r e
         | .ok t => credit (promoteFold prom (cmdWho r.cmd) i items t) core eng slot k none
            (countTile { r with works := y :: r.works } dn))
    | _ => s

/-- What lies up to the next end of a chunk, or to bytes for a peer, lands in this module. `none`: it waits. -/
def landChunk (s : State) (core eng slot : Nat) (r : CopyRun) : Option State :=
  let b := 32768 - r.bits % 32768
  let (mine, others) := r.works.span (fun u => !isPeerPtr u.dst)
  let (now, cut, left) := takeChunk r.cmd b mine
  let rest := left ++ others
  let pieces := r.kept ++ (if rest.isEmpty then now else now.flatMap (cutWork s r.cmd))
  let (go, keep) := if rest.isEmpty || pieces.all (landsWhole s r.cmd) then (pieces, []) else
    let h := holdBack s r.cmd (rest.flatMap (workDst s r.cmd)) pieces
    (h.1, h.2.1)
  if (go ++ cut.toList.map (fun c => c.1)).any (workWaits s r) then none
  else
    let bits := r.bits + (now.map (workBits r.cmd)).foldl (· + ·) 0 + (match cut with | some c => 8 * c.2 | none => 0)
    let s1 := modRun s core eng slot (fun _ => { r with works := rest, kept := keep, bits := bits, edge := true })
    let s2 := landAll core eng slot go s1
    some (endLoaded (match cut with | some (u, k) => landCut s2 core eng slot k u | none => s2) core eng slot)

/-! ## Units to and from a peer -/

/-- A unit that begins where bytes end joins them, as far as a beat reaches. -/
def joinInto (u : Work) : List Work → Work × List Work
  | [] => (u, [])
  | v :: vs =>
    if u.bytes.length < 64 ∧ u.part = 0 ∧ v.dst = u.dst + w64 u.bytes.length then
      joinInto { u with bytes := u.bytes ++ v.bytes, part := v.part } vs
    else (u, v :: vs)

/-- Bytes of a request that begins at `a`, of n that lie there, b of them before the end of the chunk: no word is cut where
they go on. 0: the end of the chunk cuts the next word. -/
def requestLen (a n b : Nat) : Nat :=
  let k := natMin (natMin (64 - a % 64) n) b
  if k = n then k else k - (a + k) % 4

/-- Bytes up to the end of the chunk. -/
def chunkLeft (r : CopyRun) : Nat := 4096 - r.bits / 8 % 4096

/-- The next request of a run that has read its source begins a chunk. -/
def beginsChunk (r : CopyRun) : Bool :=
  r.bits % 32768 == 0 || (match r.works with
    | u :: us =>
      let v := (joinInto u us).1
      requestLen v.dst.toNat v.bytes.length (chunkLeft r) == 0
    | [] => true)

/-- The first bytes of a run have landed at the peer. -/
def landSent (s : State) (core eng slot : Nat) (r : CopyRun) : State :=
  let n := (r.works.headD ⟨0, 0, 0, [], 0⟩).bytes.length
  let r1 : CopyRun := { r with works := r.works.drop 1, bits := r.bits + 8 * n, peer := none, buf := [] }
  endLoaded (credit s core eng slot n none { r1 with edge := beginsChunk r1 }) core eng slot

/-- The next bytes of a run that has read its source go to a peer; a last byte written in part is read there first. -/
def sendNext (s : State) (core eng slot : Nat) (r : CopyRun) : State :=
  match r.works with
  | [] => endLoaded s core eng slot
  | w :: ws =>
    let (u, rest) := joinInto w ws
    let n := u.bytes.length
    let k0 := requestLen u.dst.toNat n (chunkLeft r)
    let (x, y) := splitBytes (if k0 = 0 then requestLen u.dst.toNat n 64 else k0) u
    let lastP := x.dst + w64 (x.bytes.length - 1)
    if x.part ≠ 0 ∧ r.buf = [] then
      sendUnit s core eng slot r lastP (.read 1) [(lastP.toNat % 2 ^ 48, 1)] (gotBytes core eng slot 1 r)
    else
      let r1 : CopyRun := { r with works := x :: (if y.bytes.isEmpty then rest else y :: rest) }
      sendBytes s core eng slot r1 x.dst
        (if x.part = 0 then x.bytes else x.bytes.dropLast ++ [keepHigh x.part (r.buf.headD 0) (x.bytes.getLastD 0)])
        (fun t => landSent t core eng slot r1)

/-- The next step of a run that has read its source. `none`: it waits. -/
def landNext (s : State) (core eng slot : Nat) (r : CopyRun) : Option State :=
  match r.works with
  | u :: _ => if isPeerPtr u.dst then some (sendNext s core eng slot r) else landChunk s core eng slot r
  | [] => landChunk s core eng slot r

/-- A row of a bag joins the unit's sums; the last one gives its elements (R405). -/
def sumUnit (s : State) (core eng slot : Nat) (r : CopyRun) (dst list : Word) (rowb : Nat) (bs : List Byte) : State :=
  let sums := sumLanes r.cmd.bf16 (r.sumAt == 0) [r.sumVal.toNat % 2 ^ 32, r.sumVal.toNat / 2 ^ 32] bs
  match bagStart s r.cmd list 65536 (r.pos / rowb) 0 with
  | .error e => failRunAt s core eng slot r e
  | .ok b =>
    match readIndex s r.cmd list (b + r.sumAt) with
    | .error e => failRunAt s core eng slot r e
    | .ok e =>
      if e.testBit 31 then putUnit s core eng slot r ⟨0, 0, dst + w64 r.pos, sumBytes r.cmd.bf16 sums, 0⟩
      else modRun s core eng slot (fun _ => { r with
        sumAt := r.sumAt + 1, sumVal := BitVec.ofNat 64 (packBits 32 sums), buf := [], peer := none })

/-- The rows that an index list selects for n rows, or n bags, from entry `i` on: as far as they can be read. -/
def listRows (s : State) (cmd : CopyCmd) (src list : Word) (pitch rowb : Nat) (sum : Bool) : (fuel n i : Nat) →
    List (Word × Nat)
  | 0, _, _ => []
  | _, 0, _ => []
  | f + 1, n + 1, i =>
    match readIndex s cmd list i with
    | .error _ => []
    | .ok v =>
      match rowAt s cmd src (if sum then v % 2 ^ 31 else v) pitch rowb with
      | .error _ => []
      | .ok p => (p, rowb) :: listRows s cmd src list pitch rowb sum f (if sum && !v.testBit 31 then n + 1 else n) (i + 1)

/-- The source of a command in memory, in the order of its positions: a sum's in the order of its list. -/
def srcRanges (s : State) (cmd : CopyCmd) : List (Word × Nat) :=
  match cmd.op with
  | .linear _ src rows len sp _ => rowRanges src rows len sp
  | .gatherRows _ src list pitch n rowb sum => listRows s cmd src list pitch rowb sum 65536 n 0
  | .scatterRows _ src _ _ n rowb => [(src, n * rowb)]
  | .tileIn _ c0 c1 mem d _ _ _ =>
    (List.range (dTrows d)).map (fun i =>
      (mem + w64 (i * dMpitch d), (inCols cmd.record c0 c1 d i * fmtWidth (dFmt d) + 7) / 8))
  | _ => []

/-- Some row of the unit's bag lies at a peer. -/
def bagFromPeer (s : State) (r : CopyRun) (src list : Word) (pitch rowb : Nat) : Bool :=
  match bagStart s r.cmd list 65536 (r.pos / rowb) 0 with
  | .error _ => false
  | .ok b => (listRows s r.cmd src list pitch rowb true (65536 - b) 1 b).any (fun pn => isPeerPtr pn.1)

/-- Ranges that follow each other as one. -/
def joinRanges : List (Word × Nat) → List (Word × Nat)
  | [] => []
  | (p, n) :: rs =>
    match joinRanges rs with
    | (q, m) :: ts => if q = p + w64 n then (p, n + m) :: ts else (p, n) :: (q, m) :: ts
    | [] => [(p, n)]

/-- The rest of the first range that has more than `o` bytes before it: no more than to the end of a 64-byte line. -/
def nextPiece : List (Word × Nat) → Nat → Option (Word × Nat)
  | [], _ => none
  | (p, n) :: rs, o =>
    if o < n then some (p + w64 o, natMin (64 - (p + w64 o).toNat % 64) (n - o)) else nextPiece rs (o - n)

/-- The next bytes of a source that lies at a peer, in part at least, come; it comes whole before anything lands. -/
def fetchPiece (s : State) (core eng slot : Nat) (r : CopyRun) (q : Word) (k : Nat) : State :=
  if isPeerPtr q then
    sendUnit s core eng slot r q (.read k) [(q.toNat % 2 ^ 48, k)] (gotBytes core eng slot k r)
  else match cmdRead s (cmdWho r.cmd) q k with
    | .error e => failRunAt s core eng slot r e
    | .ok (bs, s1) => modRun s1 core eng slot (fun _ => { r with buf := r.buf ++ bs })

/-- The unit under way of a command: its source bytes first, from a peer at most 64 at a time. -/
def beatUnit (s : State) (core eng slot : Nat) (r : CopyRun) : State :=
  match unitSrc s r with
  | .error e => failRunAt s core eng slot r e
  | .ok none => moveUnit s core eng slot r none
  | .ok (some (p, n)) =>
    if !isPeerPtr p then
      match r.cmd.op with
      | .gatherRows dst src list pitch _ rowb true =>
        if !bagFromPeer s r src list pitch rowb then moveUnit s core eng slot r none
        else (match cmdRead s (cmdWho r.cmd) p n with
          | .error e => failRunAt s core eng slot r e
          | .ok (bs, s1) => sumUnit s1 core eng slot r dst list rowb bs)
      | _ => moveUnit s core eng slot r none
    else if r.buf.length < n then
      let q := p + w64 r.buf.length
      let k := natMin 64 (n - r.buf.length)
      sendUnit s core eng slot r q (.read k) [(q.toNat % 2 ^ 48, k)] (gotBytes core eng slot k r)
    else match r.cmd.op with
      | .gatherRows dst _ list _ _ rowb true => sumUnit s core eng slot r dst list rowb r.buf
      | _ => moveUnit s core eng slot r (some r.buf)

/-- A command whose words are not alike has its source whole: it is read, and the first of it lands. -/
def loadRun (s : State) (core eng slot : Nat) (r : CopyRun) (got : Option (List Byte)) : Option State :=
  let (us, e, s1) := readUnits (unitEnd r.cmd.op) r got s
  let r1 : CopyRun := { r with loaded := true, works := us, bad := e, pos := unitEnd r.cmd.op, buf := [] }
  landNext (modRun s1 core eng slot (fun _ => r1)) core eng slot r1

/-- The next step of a command. `none`: it waits. -/
def beat (s : State) (core eng slot : Nat) (r : CopyRun) : Option State :=
  if wordWise r.cmd then some (beatUnit s core eng slot (beginUnit s r))
  else if r.loaded then landNext s core eng slot r
  else
    let rs := srcRanges s r.cmd
    if !rs.any (fun pn => isPeerPtr pn.1) then loadRun s core eng slot r none
    else match nextPiece (joinRanges rs) r.buf.length with
      | some (q, k) => some (fetchPiece s core eng slot r q k)
      | none => loadRun s core eng slot r (some r.buf)

/-! ## The engine's steps -/

def runOf (c : CopyCmd) : CopyRun where
  cmd := c
  pos := 0
  landed := 0
  seen := []
  sat := 0
  nanr := 0
  slots := 0
  maxNnz := 0
  total := 0
  peer := none
  buf := []
  sumAt := 0
  sumVal := 0
  unit := 0
  bits := 0
  edge := true
  loaded := false
  works := []
  kept := []
  bad := none

/-- A command that waits, interrupted, for an active slot; and the table without it. -/
def waitingRun (g : CopyEngine) : Option (CopyRun × Tab CopyRun) :=
  (g.active.find? (fun sr => decide (4 ≤ sr.1))).map (fun sr => (sr.2, tabErase g.active sr.1))

/-- COPY_COMMAND_START (R387): an interrupted command first (R491, log 102); else the head of the next queue in rotation
whose cohort is not stopping, once the earlier accesses of its class are performed (R347, R349, R413). -/
def execCopyCommandStart (core eng : Nat) (s : State) : Out :=
  if 128 ≤ core ∨ 2 ≤ eng then noAgent
  else
    let g := getEngine s core eng
    let free := [0, 1, 2, 3].find? (fun k => (tabFind g.active k).isNone)
    match waitingRun g, free with
    | some (r, rest), some slot => .next (putEngine s core eng { g with active := tabPut rest slot r })
    | some _, none => ev s
    | none, _ =>
    let ready (i : Nat) : Bool :=
      let c := 4 * core + i
      ctxActive s c && (match tabGet [] g.queues c with | cmd :: _ => classOpen s c cmd.oc | [] => false)
    match [1, 2, 3, 4].find? (fun n => ready ((g.ptr + n) % 4)), free with
    | some n, some slot =>
      let c := 4 * core + (g.ptr + n) % 4
      (match tabGet [] g.queues c with
       | [] => ev s
       | cmd :: rest =>
         let s1 := putEngine s core eng { g with
           queues := (if rest.isEmpty then tabErase g.queues c else tabPut g.queues c rest),
           active := tabPut g.active slot (runOf cmd), ptr := (g.ptr + n) % 4 }
         .next (if unitEnd cmd.op = 0 then finishRun s1 core eng slot (runOf cmd) else s1))
    | _, _ => ev s

/-- A command of a cohort that is stopping halts at the end of a chunk (R387, R484). -/
def runHalts (s : State) (r : CopyRun) : Bool := !ctxActive s r.cmd.ctx && atChunk r

/-- COPY_BEAT_LAND (R387, R395): the next unit of the command in a slot, which has then been served. -/
def execCopyBeatLand (core eng slot : Nat) (s : State) : Out :=
  if 128 ≤ core ∨ 2 ≤ eng ∨ 4 ≤ slot then noAgent
  else match tabFind (getEngine s core eng).active slot with
    | none => ev s
    | some r =>
      if r.peer.isSome || runHalts s r then ev s
      else match beat s core eng slot r with
        | some t => .next (modCore t core (fun q => { q with
            engines := tabPut q.engines eng { tabGet engineReset q.engines eng with beat := slot } }))
        | none => ev s

/-- What a run has sent has landed. -/
def landAnswered (s : State) (core eng slot : Nat) (r : CopyRun) : State :=
  if r.loaded then landSent s core eng slot r else landUnit s core eng slot none r

/-- The answer to a unit's request (R526, R531). -/
def peerBeatAnswer (s : State) (core eng slot : Nat) (req : PeerReq) (a : PeerResponse) : State :=
  match tabFind (getEngine s core eng).active slot with
  | none => s
  | some r =>
    match a, req.op with
    | .failed c, _ => failRunLink s core eng slot r req.ptr c.toNat req.port
    | .ok d, .read n => gotBytes core eng slot n r s d
    | .ok _, .write _ => landAnswered s core eng slot r
    | .ok _, .reduce _ _ _ => landAnswered s core eng slot r
    | .ok _, .atomic _ _ _ _ => s

end Sys2Proof.Machine
end

