-- ==== Sys2Proof/Machine/Sync.lean ====
section
/-!
DEFINITION. YIELD, PARK, WAKE, counters, barriers and gates (R175-R185), with the steps that end a park, deliver a wake
and take an arrival to its barrier.
-/
namespace Sys2Proof.Machine

/-! ## YIELD (R180) -/

/-- Another context of the core is RUNNING. -/
def otherRunning (s : State) : Bool :=
  (ctxsOfCore (myCore s)).any (fun c => c != s.cur && (getCtx s c).phase == .running)

/-- YIELD.Q ends the quantum of a time-shared cohort, and the scheduler makes a pass. -/
def endQuantum (s : State) : State :=
  match (me s).coh with
  | none => s
  | some h =>
    match getCohort s h with
    | none => s
    | some x => if lrTshare x.lrec then passAll (putCohort s h { x with quantumOver := true }) else s

def yieldBody (q : Bool) (s : State) : Exe :=
  let s1 := if otherRunning s then setMe s { me s with yieldEnd := s.clk + 4 } else s
  .retire (if q then endQuantum s1 else s1)
def execYieldI (h : Hdr) (q : Bool) (s : State) : Out := issue1 h [] [] (yieldBody q) s

/-! ## PARK and WAKE (R181) -/

/-- A pending wake is consumed; else the context parks, and has not retired. -/
def parkBody (d a : BitVec 6) (s : State) : Exe :=
  let x := me s
  if x.wakePend then .retire (wg (setMe s { x with wakePend := false }) d 0)
  else .stall (setMe s { x with
    phase := .parked, parkD := d.toNat, parkEnd := if rg s a = 0 then none else some (s.clk + (rg s a).toNat) })
def execPark (h : Hdr) (d a : BitVec 6) (s : State) : Out := issue1 h [a] [d] (parkBody d a) s

/-- A park ends with `v` in its destination, and retires. -/
def unpark (s : State) (c : Nat) (v : Word) : State :=
  asCtx s c (fun t =>
    let x := me t
    let y : Ctx := { ctxSetG x x.parkD v with phase := .running, parkEnd := none }
    retireNext x c 8 (setMe t y))

/-- PARK_TIMEOUT: enabled once the time of the PARK has passed. A stopped PARK re-executes instead (R485). -/
def execParkTimeout (ctx : Nat) (s : State) : Out :=
  if 512 ≤ ctx then noAgent
  else
    let x := getCtx s ctx
    match x.parkEnd with
    | none => ev s
    | some t => if x.phase = .parked ∧ t ≤ s.clk ∧ ctxStopping s ctx = false then .next (unpark s ctx 1) else ev s

/-- A WAKE is a release at scope PKG: it leaves once the context's writes are performed. -/
def wakeBody (a : BitVec 6) (s : State) : Exe :=
  let v := (rg s a).toNat
  if releaseHeld s then .stall s
  else if 512 ≤ v then .fault (recPc s cAccess) s
  else if !(me s).sv && (getCtx s v).coh != (me s).coh then .fault (recPc s cAccess) s
  else .retire (modCtx s v (fun x => { x with wakesIn := x.wakesIn + 1 }))
def execWake (h : Hdr) (a : BitVec 6) (s : State) : Out := issue1 h [a] [] (wakeBody a) s

/-- A cohort that is placed, or stopping, holds the context. -/
def ctxHeld (s : State) (c : Nat) : Bool :=
  match cohortOf s c with
  | some x => x.st == .placed || x.st == .stopping
  | none => false

/-- WAKE_ARRIVAL: a wake on its way reaches the context. One that reaches a stopped PARK is kept (R485), and so is one for
a number that no placed cohort holds: it is for the STOPPED contexts of that number (R181, keepWake). -/
def execWakeArrival (ctx : Nat) (s : State) : Out :=
  if 512 ≤ ctx then noAgent
  else
    let x := getCtx s ctx
    if x.wakesIn = 0 then ev s
    else
      let s1 := putCtx s ctx { x with wakesIn := x.wakesIn - 1 }
      match x.phase with
      | .parked => .next (if ctxStopping s ctx then modCtx s1 ctx (fun y => { y with wakePend := true }) else unpark s1 ctx 0)
      | .exited => .next (if ctxHeld s ctx then s1 else modCtx s1 ctx (fun y => { y with wakePend := true }))
      | _ => .next (modCtx s1 ctx (fun y => { y with wakePend := true }))

/-! ## Counters (R182) -/

/-- A counter that the cohort does not own raises ACCESS (R177). -/
def onCounter (c : BitVec 5) (f : State → Counter → Exe) (s : State) : Exe :=
  if cntOwned s c then f s (getCounter s (myCore s) c.toNat) else .fault (recPc s cAccess) s

def csetBody (c : BitVec 5) (a : BitVec 6) : State → Exe :=
  onCounter c (fun s _ => .retire (putCounter s (myCore s) c.toNat ⟨(rg s a).toNat % counterMax, false⟩))
def execCset (h : Hdr) (c : BitVec 5) (a : BitVec 6) (s : State) : Out := issue1 h [a] [] (csetBody c a) s

def caddBody (c : BitVec 5) (a : BitVec 6) : State → Exe :=
  onCounter c (fun s x =>
    let v : Int := x.value + (rg s a).toInt
    if v < 0 then .fault { recPc s cUnderflow with cnt := some c.toNat } s
    else if (counterMax : Int) ≤ v then .fault (recPc s cAccess) s
    else .retire (putCounter s (myCore s) c.toNat { x with value := v.toNat }))
def execCadd (h : Hdr) (c : BitVec 5) (a : BitVec 6) (s : State) : Out := issue1 h [a] [] (caddBody c a) s

def cwaitBody (c : BitVec 5) (a : BitVec 6) : State → Exe :=
  onCounter c (fun s x =>
    if x.faulted then .fault (recPc s cEngine) s
    else if x.value ≤ (rg s a).toNat then .retire s
    else .stall s)
def execCwait (h : Hdr) (c : BitVec 5) (a : BitVec 6) (s : State) : Out := issue1 h [a] [] (cwaitBody c a) s

def counterWord (x : Counter) : Word := w64 ((if x.faulted then 2 ^ 63 else 0) + x.value)
def crdcBody (d : BitVec 6) (c : BitVec 5) : State → Exe :=
  onCounter c (fun s x => .retire (wg s d (counterWord x)))
def execCrdc (h : Hdr) (d : BitVec 6) (c : BitVec 5) (s : State) : Out := issue1 h [] [d] (crdcBody d c) s

/-! ## Barriers (R183, R184) -/

def getBarrier (s : State) (d b : Nat) : Barrier := tabGet barrierReset (getDie s d).barriers b
def putBarrier (s : State) (d b : Nat) (x : Barrier) : State :=
  modDie s d (fun q => { q with barriers := tabPut q.barriers b x })

/-- The die and number of barrier n of the executing cohort. -/
def barrierAt (s : State) (n : Word) : Option (Nat × Nat) :=
  match cohortOf s s.cur with
  | none => none
  | some x => if n.toNat < lrNbar x.lrec then some (lrHome x.lrec, x.bars.getD n.toNat 0) else none

def onBarrier (a : BitVec 6) (f : State → Nat → Nat → Exe) (s : State) : Exe :=
  match barrierAt s (rg s a) with
  | none => .fault (recPc s cAccess) s
  | some (d, b) => f s d b

def barinitBody (a b : BitVec 6) : State → Exe :=
  onBarrier a (fun s d n =>
    let v := (rg s b).toNat
    if v = 0 ∨ 512 < v then .fault (recPc s cAccess) s
    else .retire (putBarrier s d n { getBarrier s d n with exp := v, arr := 0, broken := false }))
def execBarinit (h : Hdr) (a b : BitVec 6) (s : State) : Out := issue1 h [a, b] [] (barinitBody a b) s

/-- BARA is a release: its arrival leaves once the context's writes are performed. The context then waits for it. -/
def baraBody (d a : BitVec 6) : State → Exe :=
  onBarrier a (fun s _ n =>
    if releaseHeld s then .stall s else .stall (setMe s { me s with baraIn := some (n, d.toNat) }))
def execBara (h : Hdr) (d a : BitVec 6) (s : State) : Out := issue1 h [a] [d] (baraBody d a) s

/-- An arrival takes its place: counted, and the generation advanced by the last one. -/
def arrive (x : Barrier) : Barrier :=
  if x.arr + 1 = x.exp then { x with arr := 0, gen := x.gen + 1 } else { x with arr := x.arr + 1 }

/-- BARRIER_ARRIVAL: BROKEN is tested here; the BARA retires with the generation, or raises BARRIER_BROKEN. -/
def execBarrierArrival (ctx : Nat) (s : State) : Out :=
  if 512 ≤ ctx then noAgent
  else match (getCtx s ctx).baraIn, cohortOf s ctx with
    | some (n, d), some x =>
      let home := lrHome x.lrec
      let b := getBarrier s home n
      .next (asCtx s ctx (fun t =>
        let y : Ctx := { me t with baraIn := none }
        if b.broken then raiseFault (setMe t y) ctx (recPc t cBarrier) y.pc
        else retireNext y ctx 8 (setMe (putBarrier t home n (arrive b)) (ctxSetG y d (b.gen.setWidth 64)))))
    | _, _ => ev s

def barwBody (a b : BitVec 6) : State → Exe :=
  onBarrier a (fun s d n =>
    let x := getBarrier s d n
    if x.broken then .fault (recPc s cBarrier) s
    else if x.gen ≠ (rg s b).setWidth 32 then .retire s
    else .stall s)
def execBarw (h : Hdr) (a b : BitVec 6) (s : State) : Out := issue1 h [a, b] [] (barwBody a b) s

/-! ## Gates (R175, R176, R185) -/

def getGate (s : State) (n : Nat) : BitVec 32 := tabGet 0 s.gates n
/-- A gate takes a value; a change of it makes the schedulers pass (R171). -/
def setGate (s : State) (n : Nat) (v : BitVec 32) : State :=
  if getGate s n = v then s else passAll { s with gates := tabSet 0 s.gates n v }
/-- clamp(gate + v, 0, 2^32 - 1). -/
def clampGate (v : Int) : BitVec 32 := BitVec.ofNat 32 (natMin v.toNat (2 ^ 32 - 1))

def onGate (a : BitVec 6) (rel : Bool) (f : State → Nat → Exe) (s : State) : Exe :=
  if rel && releaseHeld s then .stall s
  else if 1024 ≤ (rg s a).toNat then .fault (recPc s cAccess) s
  else f s (rg s a).toNat

def gsetBody (a b : BitVec 6) : State → Exe :=
  onGate a true (fun s n => .retire (setGate s n ((rg s b).setWidth 32)))
def execGset (h : Hdr) (a b : BitVec 6) (s : State) : Out := issue1 h [a, b] [] (gsetBody a b) s

def gaddBody (d a b : BitVec 6) : State → Exe :=
  onGate a true (fun s n =>
    .retire (wg (setGate s n (clampGate ((getGate s n).toNat + (rg s b).toInt))) d ((getGate s n).setWidth 64)))
def execGadd (h : Hdr) (d a b : BitVec 6) (s : State) : Out := issue1 h [a, b] [d] (gaddBody d a b) s

def grdBody (d a : BitVec 6) : State → Exe :=
  onGate a false (fun s n => .retire (wg s d ((getGate s n).setWidth 64)))
def execGrd (h : Hdr) (d a : BitVec 6) (s : State) : Out := issue1 h [a] [d] (grdBody d a) s

/-- HNOTIFY (R535): MSI-X vector 1 when a completion decrement brings a notified gate to zero. -/
def notifyGate (s : State) (n : Nat) : State :=
  if getGate s n = 0 ∧ s.hnotify.contains n then { s with msix := s.msix ++ [1] } else s

/-- The completion decrement (R167, R176). -/
def doneGate (s : State) (n : Nat) : State :=
  if getGate s n = 0 then modDie s (n / 256) (fun d => { d with gateErr := d.gateErr + 1 })
  else notifyGate (setGate s n (getGate s n - 1)) n

end Sys2Proof.Machine
end

