-- ==== Sys2Proof/Machine/Queues.lean ====
section
/-!
DEFINITION. RPOP, QFLUSH, QSTAT (R222-R225, R273, R410) and FRPOP (R475), and the asynchronous traps of the fault queue
(R476).
-/
namespace Sys2Proof.Machine

/-! ## RPOP (R224) -/

def popReply (s : State) : State := setMe s { me s with replies := (me s).replies.drop 1 }

def rpopBody (d : BitVec 6) (c : BitVec 3) (nb : Bool) (s : State) : Exe :=
  match (me s).replies with
  | [] => if nb then .retire (wp s c false) else .fault (recPc s cAccess) s
  | .reserved _ :: _ => if nb then .retire (wp s c false) else .stall s
  | .faulted :: _ => .fault (recPc s cEngine) (popReply s)
  | .filled v :: _ =>
    let s1 := wg (popReply s) d v
    .retire (if nb then wp s1 c true else s1)
def execRpop (h : Hdr) (d : BitVec 6) (c : BitVec 3) (nb : Bool) (s : State) : Out := issue1 h [] [d] (rpopBody d c nb) s

/-! ## QFLUSH and QSTAT (R225) -/

/-- The bound partition. -/
def boundPart (s : State) : Option (Nat × Part) :=
  match (me s).bind with
  | some p => (getPart s (myCore s) p).map (fun x => (p, x))
  | none => none

/-- A queue of the bound partition: configuration, operand, drain. -/
def poolQueue (x : Part) (sel : Nat) : List PoolCmd := if sel = 4 then x.cfgq else if sel = 5 then x.opq else x.drq
def clearPoolQueue (x : Part) (sel : Nat) : Part :=
  if sel = 4 then { x with cfgq := [] } else if sel = 5 then { x with opq := [] } else { x with drq := [] }

/-- The unstarted entries of a queue are discarded: their number and the state; or ACCESS. -/
def flushQueue (s : State) (sel : Nat) : Option (Nat × State) :=
  match sel with
  | 0 =>
    let x := me s
    some (x.vq.length, x.vq.foldl (fun t e => releaseReply t s.cur e.key) (setMe s { x with vq := [] }))
  | 1 =>
    let isRes (r : Reply) : Bool := match r with | .reserved _ => true | _ => false
    let rs := (me s).replies
    some ((rs.filter (fun r => !isRes r)).length, setMe s { me s with replies := rs.filter isRes })
  | 2 => some (flushEngine s s.cur 0)
  | 3 => some (flushEngine s s.cur 1)
  | 4 => flushPool s 4
  | 5 => flushPool s 5
  | 6 => flushPool s 6
  | _ => none
where
  flushPool (s : State) (sel : Nat) : Option (Nat × State) :=
    match boundPart s with
    | none => none
    | some (p, x) =>
      some ((poolQueue x sel).length, discardPool (myCore s) (putPart s (myCore s) p (clearPoolQueue x sel)) (poolQueue x sel))

def qflushBody (d a : BitVec 6) (s : State) : Exe :=
  match flushQueue s (rg s a).toNat with
  | none => .fault (recPc s cAccess) s
  | some (n, t) => .retire (wg t d (w64 n))
def execQflush (h : Hdr) (d a : BitVec 6) (s : State) : Out := issue1 h [a] [d] (qflushBody d a) s

def qstatWord (depth active waiting : Nat) : Word := w64 (depth * 2 ^ 32 + active * 2 ^ 16 + waiting)

def engineStat (s : State) (e : Nat) : Word :=
  let g := getEngine s (myCore s) e
  qstatWord 8 (g.active.filter (fun kv => kv.2.cmd.ctx == s.cur)).length (tabGet [] g.queues s.cur).length

def queueStat (s : State) (sel : Nat) : Option Word :=
  let flag (b : Bool) : Nat := if b then 1 else 0
  match sel with
  | 0 => some (qstatWord 16 (me s).vrun.length (me s).vq.length)
  | 1 =>
    let n := ((me s).replies.filter (fun r => match r with | .reserved _ => true | _ => false)).length
    some (qstatWord 16 n ((me s).replies.length - n))
  | 2 => some (engineStat s 0)
  | 3 => some (engineStat s 1)
  | 4 => (boundPart s).map (fun px => qstatWord 4 (flag (px.2.shadow != .empty)) px.2.cfgq.length)
  | 5 => (boundPart s).map (fun px => qstatWord 16 px.2.runs.length px.2.opq.length)
  | 6 => (boundPart s).map (fun px => qstatWord 8 (flag px.2.drRun.isSome) px.2.drq.length)
  | _ => none

def qstatBody (d a : BitVec 6) (s : State) : Exe :=
  match queueStat s (rg s a).toNat with
  | none => .fault (recPc s cAccess) s
  | some w => .retire (wg s d w)
def execQstat (h : Hdr) (d a : BitVec 6) (s : State) : Out := issue1 h [a] [d] (qstatBody d a) s

/-! ## FRPOP (R475) -/

/-- Every double-word of `n` at p may be stored; or the record of the first fault. -/
def storesOk (s : State) (p : Word) (n : Nat) : Except FaultRec Unit :=
  match decodePtr p with
  | none => .error (recOf s cAddrSpace p)
  | some _ =>
    if p.toNat % 64 ≠ 0 then .error (recOf s cAlign p)
    else (List.range n).foldl (fun (r : Except FaultRec Unit) i =>
      match r with
      | .error e => .error e
      | .ok _ =>
        match openAccess s (p + w64 (8 * i)) 8 .store false with
        | .error e => .error e
        | .ok _ => .ok ()) (.ok ())

/-- One double-word stored in class C0. -/
def storeDword (s : State) (p v : Word) : State :=
  match openAccess s p 8 .store false with
  | .error _ => s
  | .ok (.peer dev _, s1) =>
    (match peerStore s1 p dev (leBytes 8 v.toNat) 0 with
     | .retire t => t
     | _ => s1)
  | .ok (l, s1) => noteWrite (locWrite s1 l (leBytes 8 v.toNat)) l 0

def storeDwords : State → Word → List Word → State
  | s, _, [] => s
  | s, p, v :: vs => storeDwords (storeDword s p v) (p + 8) vs

/-- The records of a cohort in core k's queue. -/
def recordsOf (s : State) (k : Nat) (coh : Option Nat) : List FaultRec :=
  (getCore s k).faultq.filter (fun r => recCohort s r == coh)

def removeFirst (p : FaultRec → Bool) : List FaultRec → List FaultRec
  | [] => []
  | r :: rs => if p r then rs else r :: removeFirst p rs

def lostFlag (s : State) : Nat :=
  match (me s).coh with
  | some h => if (getCore s (myCore s)).lost.contains h then 1 else 0
  | none => 0
def clearLost (s : State) : State :=
  match (me s).coh with
  | some h => modCore s (myCore s) (fun k => { k with lost := k.lost.filter (fun x => x != h) })
  | none => s

def frpopBody (d a : BitVec 6) (s : State) : Exe :=
  let k := myCore s
  match recordsOf s k (me s).coh with
  | [] => .retire (wg (clearLost s) d (w64 (lostFlag s * 2 ^ 62)))
  | r :: rest =>
    if writeHeld s ⟨0, 0, 0⟩ then .stall s
    else match storesOk s (rg s a) 8 with
      | .error e => .fault e s
      | .ok _ =>
        let s1 := modCore s k (fun q => { q with faultq := removeFirst (fun e => recCohort s e == (me s).coh) q.faultq })
        let s2 := storeDwords s1 (rg s a) (recWords { r with async := true })
        .retire (wg (clearLost s2) d (w64 (2 ^ 63 + lostFlag s * 2 ^ 62 + rest.length)))
def execFrpop (h : Hdr) (d a : BitVec 6) (s : State) : Out := issue1 h [a] [d] (frpopBody d a) s

/-! ## Asynchronous traps (R476, R524) -/

/-- A record that is delivered as a trap: from the layout engine, or from a store that a peer did not perform. -/
def isAsync (r : FaultRec) : Bool := r.agent == 5 || (r.agent == 7 && r.cnt.isNone)

/-- The context's cohort has not been saved: a stop leaves it a trap that is due (R473). -/
def unsaved (s : State) (c : Nat) : Bool :=
  match cohortOf s c with
  | some h => h.st == .placed || h.st == .stopping
  | none => false

/-- The context is at a boundary at which it may take one: running or parked, not waiting inside an instruction. -/
def asyncReady (s : State) (c : Nat) : Bool :=
  let x := getCtx s c
  exctlAen x && !estatInh x && (x.phase == .running || x.phase == .parked) && unsaved s c
  && x.peerWait.isNone && x.peerData.isNone && (!ctxBlocked x || x.handleStall)

/-- A trap that the context takes before its next instruction, a halt or the save of its cohort (R473, R476). -/
def asyncDue (s : State) (c : Nat) : Bool :=
  asyncReady s c && (getCore s (coreOfCtx c)).faultq.any (fun r => isAsync r && asyncTarget s r == some c)

/-- The instruction that a context waits in is given up: an SPCFG, and a blocked entry whose handle write stalls, with its
reply slot (R301, R471, R424). -/
def dropStalled (s0 : State) (c : Nat) : State :=
  let s := dropSpcfg s0 c
  let x := getCtx s c
  if x.handleStall then
    (x.vq.filter (fun e => e.blocks)).foldl (fun t e => releaseReply t c e.key)
      (putCtx s c { x with vq := x.vq.filter (fun e => !e.blocks), handleStall := false })
  else s

/-- ASYNC_TRAP_DELIVER: the oldest record whose target is the context is taken as a trap, with ASYNC set. -/
def execAsyncTrapDeliver (ctx : Nat) (s : State) : Out :=
  if 512 ≤ ctx then noAgent
  else
    let k := coreOfCtx ctx
    let due (r : FaultRec) : Bool := isAsync r && asyncTarget s r == some ctx
    match (getCore s k).faultq.find? due with
    | none => ev s
    | some r =>
      if !asyncReady s ctx then ev s
      else
        let s1 := modCore s k (fun q => { q with faultq := removeFirst due q.faultq })
        let s2 := modCtx (dropStalled s1 ctx) ctx (fun x => { x with phase := .running, parkEnd := none })
        .next (takeTrap s2 ctx { r with async := true } (getCtx s2 ctx).pc)

end Sys2Proof.Machine
end

