-- ==== Sys2Proof/Machine/PoolSet.lean ====
section
/-!
DEFINITION. Configuration sets: their words, the conditions of a valid set, the groups and their clusters and chains
(R239-R246, R258-R261, R364).
-/
namespace Sys2Proof.Machine

/-- A stream word (R242); `clean`: its reserved bits are zero. -/
structure Stream where
  scpitch : Nat
  nsel    : Nat
  scbase  : Nat
  fpitch  : Nat
  rpitch  : Nat
  rows    : Nat
  side    : Nat
  kind    : Nat
  fmt     : Nat
  base    : Nat
  clean   : Bool
  deriving DecidableEq, Repr

/-- A group word with its index (R244); `raw` is the word. -/
structure Group where
  index  : Nat
  brow   : Nat
  arow   : Nat
  bstr   : Nat
  astr   : Nat
  lcut   : Bool
  lend   : Bool
  accix  : Nat
  accen  : Bool
  mode   : Nat
  cfmt   : Nat
  nquad  : Nat
  firstq : Nat
  raw    : Nat
  deriving DecidableEq, Repr

/-- A set as its words: header double-word 0, whether double-words 1-7 are zero, streams, groups (R240). -/
structure SetView where
  hdr     : Nat
  clean   : Bool
  streams : List Stream
  groups  : List Group
  deriving DecidableEq, Repr

def streamOf (w : Nat) : Stream where
  scpitch := bitsOf w 127 116
  nsel := bitsOf w 115 114
  scbase := bitsOf w 113 92
  fpitch := bitsOf w 91 70
  rpitch := bitsOf w 69 48
  rows := bitsOf w 46 34
  side := bitsOf w 32 32
  kind := bitsOf w 31 30
  fmt := bitsOf w 29 22
  base := bitsOf w 21 0
  clean := !w.testBit 47 && !w.testBit 33

def groupOf (i w : Nat) : Group where
  index := i
  brow := bitsOf w 89 78
  arow := bitsOf w 77 66
  bstr := bitsOf w 65 60
  astr := bitsOf w 57 52
  lcut := w.testBit 50
  lend := w.testBit 49
  accix := bitsOf w 48 32
  accen := w.testBit 31
  mode := bitsOf w 30 28
  cfmt := bitsOf w 27 24
  nquad := bitsOf w 23 12
  firstq := bitsOf w 11 0
  raw := w

def hdrNgrp (h : Nat) : Nat := bitsOf h 26 16
def hdrNstr (h : Nat) : Nat := bitsOf h 14 8
def hdrQneed (h : Nat) : Nat := bitsOf h 43 32
def hdrTag (h : Nat) : Nat := bitsOf h 63 48
def hdrFdep (h : Nat) : Bool := h.testBit 15

/-- NSTR and NGRP are within their limits, so that the set has an extent. -/
def hdrSized (h : Nat) : Bool := decide (hdrNstr h ≤ 64) && decide (hdrNgrp h ≤ 1024)
/-- The bytes a set occupies; a header with counts out of range is read alone. -/
def setSize (h : Nat) : Nat := if hdrSized h then 64 + 16 * (hdrNstr h + hdrNgrp h) else 64

/-- 16-byte words from the front of a list. -/
def words16 : (n : Nat) → List Byte → List Nat
  | 0, _ => []
  | n + 1, bs => leNat (bs.take 16) :: words16 n (bs.drop 16)

def setView (bs : List Byte) : SetView :=
  let h := leNat (bs.take 8)
  let ns := if hdrSized h then hdrNstr h else 0
  let ng := if hdrSized h then hdrNgrp h else 0
  let ws := words16 (ns + ng) (bs.drop 64)
  { hdr := h, clean := ((bs.take 64).drop 8).all (fun b => b == 0),
    streams := (ws.take ns).map streamOf,
    groups := ((List.range ng).zip (ws.drop ns)).map (fun iw => groupOf iw.1 iw.2) }

/-- Fold depth D (R241). -/
def depthOf (v : SetView) : Nat := if hdrFdep v.hdr then 240 else 256
def enabled (v : SetView) : List Group := v.groups.filter (fun g => g.nquad != 0)

/-! ## Kinds, modes, compute formats (R239, R242, R244) -/

def kDense : Nat := 0
def kBitmap : Nat := 1
def kN24 : Nat := 2
def kOne : Nat := 3
def mSum : Nat := 0
def mScan : Nat := 1
def mMaxfwd : Nat := 2
def mMinfwd : Nat := 3
def mBridge : Nat := 4
def isCompare (g : Group) : Bool := g.mode == mMaxfwd || g.mode == mMinfwd

def cfmtAccepts (c f : Nat) : Bool :=
  match c with
  | 0 => [0x14, 0x15, 0x16, 0x17, 0x20, 0x21, 0x22, 0x23].contains f
  | 1 => f == 0 || f == 1
  | 2 => f == 0x25
  | 3 => f == 0x18 || f == 0x24 || f == 0x28
  | 4 => f == 0x12
  | 5 => f == 0x13
  | _ => false
def lanesPerQuad (c : Nat) : Nat :=
  match c with
  | 3 => 8
  | 4 => 2
  | 5 => 2
  | _ => 4
def lanesOf (g : Group) : Nat := lanesPerQuad g.cfmt * g.nquad
def nselOf (n : Nat) : Nat := if n = 3 then 12 else 4 + 2 * n

def strAt (v : SetView) (i : Nat) : Stream := v.streams.getD i (streamOf 0)
def aStr (v : SetView) (g : Group) : Stream := strAt v g.astr
def bStr (v : SetView) (g : Group) : Stream := strAt v g.bstr

/-- Block size of a group (R239); 256 stands for the whole fold. -/
def blockOf (v : SetView) (g : Group) : Nat :=
  let a := aStr v g
  let b := bStr v g
  let f (x : Nat) : Bool := (a.kind != kOne && a.fmt == x) || (b.kind != kOne && b.fmt == x)
  let mx := (a.kind != kOne && fmtIsMx a.fmt) || (b.kind != kOne && fmtIsMx b.fmt)
  match g.cfmt with
  | 2 => 32
  | 3 => if f 0x28 then 8 else if mx then 32 else 256
  | 4 => 16
  | 5 => 16
  | 0 => if mx then 32 else 256
  | _ => 256

/-- Blocks of a stream's own scales (R243). -/
def scaleBlock (fmt : Nat) : Nat := if fmt = 0x28 then 8 else 32

/-! ## Validity (R245, R364) -/

def qneed (v : SetView) : Nat :=
  (enabled v).foldl (fun acc g => if acc ≤ g.firstq + g.nquad then g.firstq + g.nquad else acc) 0

def headerOk (v : SetView) (psize : Nat) : Bool :=
  bitsOf v.hdr 7 0 == 1 && bitsOf v.hdr 47 44 == 0 && bitsOf v.hdr 31 27 == 0 && v.clean && hdrSized v.hdr
  && hdrQneed v.hdr == qneed v && decide (hdrQneed v.hdr ≤ psize)

def streamOk (fdep : Bool) (t : Stream) : Bool :=
  t.clean &&
  (if t.kind = kOne then
    t.fmt == 0 && t.base == 0 && t.rpitch == 0 && t.fpitch == 0 && t.scbase == 0 && t.scpitch == 0 && t.nsel == 0
    && t.rows == 1
  else
    t.base % 64 == 0 && t.rpitch % 64 == 0 && t.fpitch % 64 == 0 && decide (1 ≤ t.rows) && decide (t.rows ≤ 4096)
    && [0, 1, 2, 3, 4, 5].any (fun c => cfmtAccepts c t.fmt)
    && (if fmtIsBlock t.fmt then t.scbase % 8 == 0 else t.scbase == 0 && t.scpitch == 0)
    && (t.kind != kBitmap || !fdep)
    && (t.kind != kN24 || (fdep && !fmtIsMx t.fmt))
    && (t.nsel == 0 || t.kind == kN24)
    && (!fdep || !fmtIsMx t.fmt))

def refsOk (v : SetView) (g : Group) : Bool :=
  decide (g.astr < v.streams.length) && decide (g.bstr < v.streams.length)
  && (aStr v g).side == 0 && (bStr v g).side == 1
  && decide (g.arow < (aStr v g).rows) && decide (g.brow < (bStr v g).rows)

def formatsOk (v : SetView) (g : Group) : Bool :=
  let a := aStr v g
  let b := bStr v g
  let lb (t : Stream) : Bool := t.fmt == 0x28
  (a.kind == kOne || cfmtAccepts g.cfmt a.fmt) && (b.kind == kOne || cfmtAccepts g.cfmt b.fmt)
  && (g.cfmt != 3 || a.kind == kOne || b.kind == kOne || lb a == lb b)

def modeOk (g : Group) (ganged : Bool) : Bool :=
  match g.mode with
  | 0 => true
  | 1 => g.cfmt != 1
  | 2 => (g.cfmt == 0 || g.cfmt == 4 || g.cfmt == 5) && !g.accen && !g.lend && !g.lcut
  | 3 => (g.cfmt == 0 || g.cfmt == 4 || g.cfmt == 5) && !g.accen && !g.lend && !g.lcut
  | 4 => ganged
  | _ => false

/-- The conditions on one group that depend on the set alone. -/
def groupOk (v : SetView) (g : Group) : Bool :=
  if g.nquad = 0 then g.raw == 0
  else bitsOf g.raw 127 90 == 0 && bitsOf g.raw 59 58 == 0 && !g.raw.testBit 51
    && decide (g.cfmt ≤ 5) && decide (g.nquad ≤ 3072) && refsOk v g && formatsOk v g
    && (!g.lcut || g.lend)

/-- Those that depend on the partition. -/
def groupFits (psize accsize : Nat) (ganged : Bool) (g : Group) : Bool :=
  g.nquad == 0 || (modeOk g ganged && decide (g.firstq + g.nquad ≤ psize) && decide (g.accix < accsize))

def ascending : List Group → Bool
  | [] => true
  | [_] => true
  | g :: h :: t => decide (g.firstq + g.nquad ≤ h.firstq) && ascending (h :: t)

def distinctAcc (gs : List Group) : Bool := (gs.map (fun g => g.accix)).eraseDups.length == gs.length

/-- The lending clusters (R258), in order: a run goes on while LEND is set and LCUT is not. -/
def clusters : List Group → List (List Group)
  | [] => []
  | g :: gs =>
    match clusters gs with
    | [] => [[g]]
    | c :: cs =>
      match c with
      | h :: _ => if g.lend && h.lend && !h.lcut then (g :: c) :: cs else [g] :: c :: cs
      | [] => [g] :: cs

def clusterOk (c : List Group) : Bool :=
  decide (c.length ≤ 8) && c.all (fun g => g.cfmt == (c.map (fun h => h.cfmt)).headD 0)

/-- R245 and R364 but for what depends on a partition. -/
def setSound (v : SetView) : Bool :=
  headerOk v 4095 && v.streams.all (streamOk (hdrFdep v.hdr)) && v.groups.all (groupOk v)
  && (enabled v).all (fun g => modeOk g true)
  && ascending (enabled v) && distinctAcc (enabled v) && (clusters (enabled v)).all clusterOk

/-- R245 and R364 for a partition. -/
def setValid (v : SetView) (psize accsize : Nat) (ganged : Bool) : Bool :=
  setSound v && headerOk v psize && v.groups.all (groupFits psize accsize ganged)

/-! ## Chains (R259) -/

/-- Maximal runs of adjacent enabled groups in SCAN mode. -/
def scanChains : List Group → List (List Group)
  | [] => []
  | g :: gs =>
    if g.mode ≠ mScan then scanChains gs
    else match gs with
      | h :: _ =>
        if h.mode = mScan then
          match scanChains gs with
          | c :: cs => (g :: c) :: cs
          | [] => [[g]]
        else [g] :: scanChains gs
      | [] => [[g]]

/-- The multicast map (R248): the pairs some enabled group names, streams ascending, then fibres. -/
def fibrePairs (v : SetView) : List (Nat × Nat) :=
  let used := ((enabled v).map (fun g => [(g.astr, g.arow), (g.bstr, g.brow)])).flatten.eraseDups
  (List.range v.streams.length).flatMap (fun i =>
    let rows := (used.filter (fun p => p.1 == i)).map (·.2)
    ((List.range (strAt v i).rows).filter (fun r => rows.contains r)).map (fun r => (i, r)))

end Sys2Proof.Machine
end

