-- ==== Sys2Proof/Machine/PoolIssue.lean ====
section
/-!
DEFINITION. The pool instructions at issue: PPART, the queued commands, PEXC, PPROG and PSTAT (R270-R288, R290-R294,
R383).
-/
namespace Sys2Proof.Machine

def partReset (ctx coh qbase qsize abase asize : Nat) : Part where
  ctx := ctx
  coh := coh
  qbase := qbase
  qsize := qsize
  abase := abase
  asize := asize
  cfgq := []
  opq := []
  drq := []
  shadow := .empty
  active := none
  counts := ⟨0, 0, 0⟩
  thresh := ⟨0, 0, 0⟩
  phase := 0
  stop := false
  misses := 0
  runs := []
  drRun := none
  progTag := 0
  progDone := 0
  progNf := 0
  progFlt := false
  cfgNo := 0
  opNo := 0
  drNo := 0
  seqNo := 0
  gangSeq := 0
  gang := none

def modPart (s : State) (k p : Nat) (f : Part → Part) : State :=
  match getPart s k p with
  | some x => putPart s k p (f x)
  | none => s

def accEntries : Nat := 131072
def rangesMeet (a n b m : Nat) : Bool := decide (a < b + m) && decide (b < a + n)

/-! ## PPART (R275, R276) -/

/-- Numbers of the core's partitions and of windows kept in place (R275, R490). -/
def partNumbers (q : Core) : List Nat := tabKeys q.parts ++ q.kept.map (fun w => w.part)

/-- The fields of PPART's operands are within their limits. -/
def ppartFieldsOk (ga gb : Nat) : Bool :=
  ga / 2 ^ 28 == 0 && bitsOf ga 15 12 == 0 && gb / 2 ^ 50 == 0 && bitsOf gb 31 17 == 0
  && decide (1 ≤ bitsOf ga 27 16) && decide (bitsOf ga 27 16 ≤ 3072)
  && decide (64 ≤ bitsOf gb 49 32) && decide (bitsOf gb 49 32 ≤ accEntries) && bitsOf gb 49 32 % 64 == 0
  && bitsOf gb 16 0 % 64 == 0

def ppartBody (d a b : BitVec 6) (s : State) : Exe :=
  let ga := (rg s a).toNat
  let gb := (rg s b).toNat
  let k := myCore s
  let q := getCore s k
  let psize := bitsOf ga 27 16
  let qoff := bitsOf ga 11 0
  let asize := bitsOf gb 49 32
  let abase := bitsOf gb 16 0
  match cohortOf s s.cur, (me s).coh with
  | some x, some h =>
    let pbase := (match seatOn x k with | some t => t.quad | none => 0) + qoff
    let clash := q.parts.any (fun kp => rangesMeet pbase psize kp.2.qbase kp.2.qsize
        || rangesMeet abase asize kp.2.abase kp.2.asize)
      || q.kept.any (fun w => rangesMeet abase asize w.abase w.asize)
    if !ppartFieldsOk ga gb || (me s).bind.isSome || decide (lrQuads x.lrec < qoff + psize) || clash
        || decide (accEntries < abase + asize) || decide (4 ≤ (partNumbers q).length) then .fault (recPc s cAccess) s
    else if q.clearing.any (fun w => rangesMeet abase asize w.1 w.2) then .stall s
    else
      let n := ([0, 1, 2, 3].find? (fun i => !(partNumbers q).contains i)).getD 0
      let s1 := putPart s k n (partReset s.cur h pbase psize abase asize)
      .retire (wg (setMe s1 { me s1 with bind := some n }) d (w64 n))
  | _, _ => .fault (recPc s cAccess) s
def execPpart (h : Hdr) (d a b : BitVec 6) (s : State) : Out := issue1 h [a, b] [d] (ppartBody d a b) s

/-- The name of a partition among the composer's slots and commands. -/
def holderOf (x : Part) (k p : Nat) : Nat × Nat × Nat := (x.coh, k, p)

/-- The composer has a command of the partition. -/
def placePending (s : State) (k : Nat) (holder : Nat × Nat × Nat) : Bool :=
  let d := getDie s (dieOfCore k)
  d.placeq.any (fun c => c.holder == holder)
  || (match d.placing with | some (c, _) => c.holder == holder | none => false)

/-- Every command of the partition has completed, faulted or been discarded. -/
def partIdle (s : State) (k p : Nat) (x : Part) : Bool :=
  x.cfgq.isEmpty && x.opq.isEmpty && x.drq.isEmpty && x.shadow == .empty && x.runs.isEmpty && x.drRun.isNone
  && !placePending s k (holderOf x k p)

def ppartRelBody (s : State) : Exe :=
  match boundPart s with
  | none => .fault (recPc s cAccess) s
  | some (p, x) =>
    if x.gang.isSome then .fault (recPc s cAccess) s
    else if !partIdle s (myCore s) p x then .stall s
    else .retire (passAll (freePartition s (myCore s) p))
def execPpartRel (h : Hdr) (s : State) : Out := issue1 h [] [] ppartRelBody s

/-- PARTITION_WINDOW_CLEARED (R276): a freed window holds zero entries without poison, and the dies make a pass. -/
def execPartitionWindowCleared (core base : Nat) (s : State) : Out :=
  if 128 ≤ core then noAgent
  else match (getCore s core).clearing.find? (fun w => w.1 == base) with
    | none => ev s
    | some w =>
      let out (e : Nat) : Bool := !(decide (w.1 ≤ e) && decide (e < w.1 + w.2))
      .next (passAll (modCore s core (fun q => { q with
        acc := q.acc.filter (fun kv => out kv.1),
        poison := q.poison.filter out,
        badAcc := q.badAcc.filter out,
        clearing := q.clearing.filter (fun v => v != w) })))

/-! ## Queued commands (R262, R272-R274) -/

inductive PoolQueue where
  | config | operand | drain
  deriving DecidableEq, Repr

/-- Started operand, drain and clear commands hold no place of their queue (DESIGN CHOICE, log 79); a load holds its
place until it is active (R262). -/
def queueFull (x : Part) (q : PoolQueue) : Bool :=
  match q with
  | .config => decide (4 ≤ x.cfgq.length + (if x.shadow == .empty then 0 else 1))
  | .operand => decide (16 ≤ x.opq.length)
  | .drain => decide (8 ≤ x.drq.length)

/-- A command joins its queue. -/
def pushPool (x : Part) (q : PoolQueue) (mk : Nat → Nat → Nat → PoolCmd) : Part :=
  let y : Part := { x with seqNo := x.seqNo + 1 }
  match q with
  | .config => { y with cfgq := x.cfgq ++ [mk (x.cfgNo % 65536) x.seqNo 0], cfgNo := x.cfgNo + 1 }
  | .operand => { y with
      opq := x.opq ++ [mk (x.opNo % 65536) x.seqNo x.gangSeq], opNo := x.opNo + 1,
      gangSeq := if x.gang.isSome then x.gangSeq + 1 else x.gangSeq }
  | .drain => { y with drq := x.drq ++ [mk (x.drNo % 65536) x.seqNo 0], drNo := x.drNo + 1 }

/-- Issue of a queued pool command. The counter's owner is checked before the command's own faults, and its overflow
after them (DESIGN CHOICE, log 82). -/
def poolIssue (e : CmdCtl) (q : PoolQueue) (plan : State → Part → Except Bad PoolOp) (s : State) : Exe :=
  match boundPart s with
  | none => .fault (recPc s cAccess) s
  | some (p, x) =>
    if queueFull x q then .stall s
    else if e.cnten && !cntOwned s e.cnt then .fault (recPc s cAccess) s
    else match plan s x with
      | .error b => .fault (badRec s b) s
      | .ok op =>
        let cnt : Option Nat := if e.cnten then some e.cnt.toNat else none
        let counted := match cnt with
          | some i => counterAdd s (myCore s) i 1
          | none => some s
        match counted with
        | none => .fault (recPc s cAccess) s
        | some s1 =>
          if coreHeld s s.cur && poolReaches op then .stall s else
          let mk (tag seq gno : Nat) : PoolCmd :=
            ⟨op, s.cur, (me s).sv, (me s).pc, getCr s crXspace, e.oc, cnt, tag, seq, (getCr s crDitctl).getLsbD 0, gno⟩
          .retire (putPart s1 (myCore s) p (pushPool x q mk))

def badOp : Except Bad PoolOp := .error (cAccess, none)

/-! ### PCFG (R277) -/

def pcfgPlan (a : BitVec 6) (s : State) (_x : Part) : Except Bad PoolOp :=
  let v := rg s a
  match decodePtr v with
  | some (.dev _) => if v.toNat % 64 ≠ 0 then .error (cAlign, some v) else .ok (.load v false)
  | _ => .error (cAddrSpace, some v)
def execPcfg (h : Hdr) (e : CmdCtl) (a : BitVec 6) (s : State) : Out :=
  issue1 h [a] [] (poolIssue e .config (pcfgPlan a)) s

def pcfgPlcPlan (a : BitVec 6) (s : State) (_x : Part) : Except Bad PoolOp :=
  if (rg s a).toNat / 65536 ≠ 0 then badOp else .ok (.load (rg s a) true)
def execPcfgPlc (h : Hdr) (e : CmdCtl) (a : BitVec 6) (s : State) : Out :=
  issue1 h [a] [] (poolIssue e .config (pcfgPlcPlan a)) s

/-! ### PCLR (R279) -/

def pclrPlan (a b : BitVec 6) (s : State) (x : Part) : Except Bad PoolOp :=
  let f := (rg s a).toNat
  let n := (rg s b).toNat
  if f / 2 ^ 18 ≠ 0 ∨ n / 2 ^ 18 ≠ 0 ∨ n = 0 ∨ accEntries < n ∨ x.asize < f + n then badOp else .ok (.clear f n)
def execPclr (h : Hdr) (e : CmdCtl) (a b : BitVec 6) (s : State) : Out :=
  issue1 h [a, b] [] (poolIssue e .drain (pclrPlan a b)) s

/-! ### Sweeps (R280, R383) -/

/-- An offset pair of R280: scale offset in bits 53:32, data offset in bits 21:0. -/
def offOk (w : Word) : Bool :=
  w.toNat / 2 ^ 54 == 0 && bitsOf w.toNat 31 22 == 0 && bitsOf w.toNat 21 0 % 64 == 0 && bitsOf w.toNat 53 32 % 8 == 0

def sweepCOk (c : Word) : Bool := bitsOf c.toNat 62 49 == 0 && bitsOf c.toNat 15 0 != 0

def psweepPlan (a b c d : BitVec 6) (s : State) (_x : Part) : Except Bad PoolOp :=
  if !offOk (rg s a) || !offOk (rg s b) || !sweepCOk (rg s c) || (rg s d).toNat / 65536 != 0 then badOp
  else .ok (.sweep (rg s a) (rg s b) (rg s c) (rg s d).toNat none)
def execPsweep (h : Hdr) (e : CmdCtl) (a b c d : BitVec 6) (s : State) : Out :=
  issue1 h [a, b, c, d] [] (poolIssue e .operand (psweepPlan a b c d)) s

def psweepsPlan (a b c d : BitVec 6) (s : State) (_x : Part) : Except Bad PoolOp :=
  let gd := (rg s d).toNat
  let cap := bitsOf gd 40 32
  if !offOk (rg s a) || !offOk (rg s b) || !sweepCOk (rg s c) || gd / 2 ^ 41 != 0 || bitsOf gd 31 16 != 0
      || cap == 0 || decide (256 < cap) then badOp
  else .ok (.sweep (rg s a) (rg s b) (rg s c) (gd % 65536) (some cap))
def execPsweeps (h : Hdr) (e : CmdCtl) (a b c d : BitVec 6) (s : State) : Out :=
  issue1 h [a, b, c, d] [] (poolIssue e .operand (psweepsPlan a b c d)) s

/-! ### PSCAN and PTOPK (R283, R284) -/

def pscanPlan (a b : BitVec 6) (s : State) (_x : Part) : Except Bad PoolOp :=
  if (rg s a).toNat / 2 ^ 32 ≠ 0 ∨ (rg s b).toNat / 2 ^ 17 ≠ 0 then badOp
  else .ok (.scan ((rg s a).setWidth 32) (rg s b).toNat)
def execPscan (h : Hdr) (e : CmdCtl) (a b : BitVec 6) (s : State) : Out :=
  issue1 h [a, b] [] (poolIssue e .operand (pscanPlan a b)) s

def topkBOk (w : Word) : Bool :=
  let n := w.toNat
  n / 2 ^ 48 == 0 && bitsOf n 31 28 == 0 && bitsOf n 23 22 == 0 && decide (1 ≤ bitsOf n 27 24)
  && decide (bitsOf n 27 24 ≤ 8) && bitsOf n 21 0 % 64 == 0
def topkCOk (w : Word) : Bool :=
  let n := w.toNat
  n / 2 ^ 48 == 0 && bitsOf n 31 22 == 0 && bitsOf n 47 32 != 0 && bitsOf n 47 32 % 64 == 0 && bitsOf n 21 0 % 64 == 0

def ptopkPlan (a b c : BitVec 6) (rb : Bool) (s : State) (_x : Part) : Except Bad PoolOp :=
  if !offOk (rg s a) || !topkBOk (rg s b) || (rb && !topkCOk (rg s c)) then badOp
  else .ok (.topk (rg s a) (rg s b) (if rb then some (rg s c) else none))
def execPtopk (h : Hdr) (e : CmdCtl) (a b c : BitVec 6) (rb : Bool) (s : State) : Out :=
  issue1 h (if rb then [a, b, c] else [a, b]) [] (poolIssue e .operand (ptopkPlan a b c rb)) s

/-! ### PDRAIN (R287, R288) -/

def rectE0 (w : Word) : Nat := bitsOf w.toNat 16 0
def rectRows (w : Word) : Nat := bitsOf w.toNat 27 17
def rectCols (w : Word) : Nat := bitsOf w.toNat 38 28
def rectStride (w : Word) : Nat := bitsOf w.toNat 55 39

def rectOk (w : Word) (asize : Nat) : Bool :=
  w.toNat / 2 ^ 56 == 0 && rectCols w != 0 && rectRows w != 0
  && decide (rectE0 w + (rectRows w - 1) * rectStride w + rectCols w ≤ asize)

/-- Destination formats (R288). -/
def drainFmtOk (r : List Word) : Bool :=
  let f := tFmt r
  if fmtIsMx f then tLayout r == layMx
  else [0x00, 0x01, 0x02, 0x03, 0x04, 0x05, 0x11, 0x12, 0x13, 0x14, 0x15, 0x16, 0x17, 0x18].contains f && tLayout r != layMx

/-- The conditions of R287 on a record that is not POISONED, but for the coordinates. -/
def drainRecordOk (r : List Word) (c0 c1 rect : Word) : Bool :=
  !c1.getLsbD 63 && ptrSpace (tBase r) == 1 && !tRo r
  && [layRow, layCol, layTile, laySwz, layMx].contains (tLayout r) && drainFmtOk r
  && (tRank r != 1 || rectRows rect == 1)
  && (!fmtIsMx (tFmt r) || (c0.toNat % 32 == 0 && rectCols rect % 32 == 0))

/-- The rows of R287's table but for its last, in its order, on the handle h: the record, or the first that applies. -/
def drainRecord (s : State) (h c0 c1 rect : Word) : Except Bad (List Word) :=
  match checkHandle s (getCr s crXspace) h with
  | .error e => .error (e, none)
  | .ok i =>
    let r := recAll s i
    if tPoisoned r then .error (cPoison, none) else if !drainRecordOk r c0 c1 rect then .error (cAccess, none) else .ok r

/-- The limits of the registers come before the conditions of R287's table (DESIGN CHOICE, log 81). -/
def pdrainPlan (a b c d : BitVec 6) (rm : BitVec 3) (clr int bs : Bool) (s : State) (x : Part) : Except Bad PoolOp :=
  let rect := rg s c
  let gd := (rg s d).toNat
  let (c0, c1) := pairVal s b
  if (rg s a).toNat / 2 ^ 32 ≠ 0 ∨ !rectOk rect x.asize ∨ (bs && (gd / 2 ^ 22 != 0 || gd % 2 != 0)) then badOp
  else match drainRecord s (rg s a) c0 c1 rect with
    | .error e => .error e
    | .ok r => .ok (.drain (rg s a) r c0 c1 rect (if bs then some gd else none) rm.toNat clr int)

/-- The fault of a PDRAIN with an RM of 6 or 7: ILLEGAL_INSTR (R56, R87), as the last row of R287's table. Where the guard
is true, a row above it that applies is raised (DESIGN CHOICE, log 81). -/
def pdrainRmFault (h : Hdr) (a b c : BitVec 6) (s : State) : FaultRec :=
  if guardRuns s h then
    match drainRecord s (w64 ((rg s a).toNat % 2 ^ 32)) (pairVal s b).1 (pairVal s b).2 (rg s c) with
    | .error e => badRec s e
    | .ok _ => recPc s cIllegal
  else recPc s cIllegal

/-- An RM of 6 or 7 makes the encoding illegal: it faults in the legality check, before the wait field, the operands, the
guard and what R272 checks (R33, R34, R56), with the fault that the order of R287's table gives (DESIGN CHOICE, log 81). -/
def execPdrain (h : Hdr) (e : CmdCtl) (a b c d : BitVec 6) (rm : BitVec 3) (clr int bs : Bool) (s : State) : Out :=
  if 6 ≤ rm.toNat ∧ !ctxBlocked (me s) then .next (settle s 8 (.fault (pdrainRmFault h a b c s) s))
  else issue1 h (a :: c :: (pairRegs b ++ if bs then [d] else [])) []
    (poolIssue e .drain (pdrainPlan a b c d rm clr int bs)) s

/-! ## PEXC (R292) -/

/-- The shadow's load has started and will complete: it is LOADING, or READY behind no operand command that STOP holds
unstarted (DEDUCED, log 31). -/
def shadowMoves (x : Part) : Bool :=
  match x.shadow with
  | .loading _ _ _ => true
  | .ready c _ => !x.stop || !x.opq.any (fun o => decide (o.seq < c.seq))
  | .empty => false

/-- Every earlier command has settled or is held unstarted by STOP. -/
def pexcWaits (s : State) (k p : Nat) (x : Part) : Bool :=
  let queued := !x.cfgq.isEmpty || !x.opq.isEmpty || !x.drq.isEmpty
  !x.runs.isEmpty || x.drRun.isSome || shadowMoves x || (queued && !x.stop) || placePending s k (holderOf x k p)

/-- PEXC's operation on a partition, by its number: what G[D] receives, and the partition. -/
def pexcOp (x : Part) (op b : Word) : Option (Word × Part) :=
  match op.toNat with
  | 0 => some (countsWord x.counts, x)
  | 1 => some (countsWord x.thresh, x)
  | 2 => some (countsWord x.thresh, { x with thresh := countsOf b })
  | 3 => some (countsWord x.counts, { x with counts := ⟨0, 0, 0⟩ })
  | 4 => if b.toNat / 16 ≠ 0 then none else some (w64 x.phase, { x with phase := b.toNat })
  | 5 => some (wBool x.stop, { x with stop := false })
  | _ => none

def pexcBody (d a b : BitVec 6) (s : State) : Exe :=
  match boundPart s with
  | none => .fault (recPc s cAccess) s
  | some (p, x) =>
    if pexcWaits s (myCore s) p x then .stall s
    else match pexcOp x (rg s a) (rg s b) with
      | none => .fault (recPc s cAccess) s
      | some (v, y) => .retire (wg (putPart s (myCore s) p y) d v)
def execPexcReadCounters (h : Hdr) (d a b : BitVec 6) (s : State) : Out := issue1 h [a, b] [d] (pexcBody d a b) s
def execPexcReadThresholds (h : Hdr) (d a b : BitVec 6) (s : State) : Out := issue1 h [a, b] [d] (pexcBody d a b) s
def execPexcSetThresholds (h : Hdr) (d a b : BitVec 6) (s : State) : Out := issue1 h [a, b] [d] (pexcBody d a b) s
def execPexcReadClearCounters (h : Hdr) (d a b : BitVec 6) (s : State) : Out := issue1 h [a, b] [d] (pexcBody d a b) s
def execPexcSetDitherPhase (h : Hdr) (d a b : BitVec 6) (s : State) : Out := issue1 h [a, b] [d] (pexcBody d a b) s
def execPexcResume (h : Hdr) (d a b : BitVec 6) (s : State) : Out := issue1 h [a, b] [d] (pexcBody d a b) s

/-! ## PPROG and PSTAT (R293, R294) -/

def cmdTag (c : PoolCmd) : Nat := match c.op with | .sweep _ _ _ t _ => t | _ => 0
/-- NF of a sweep; 1 for PSCAN and PTOPK. -/
def cmdNf (c : PoolCmd) : Nat := match c.op with | .sweep _ _ g _ _ => bitsOf g.toNat 15 0 | _ => 1

def progWord (tag done nf : Nat) (flt act stop : Bool) : Word :=
  let f (b : Bool) (n : Nat) : Nat := if b then n else 0
  w64 (tag % 65536 * 2 ^ 48 + done % 65536 * 2 ^ 32 + nf % 65536 * 2 ^ 16 + f flt 4 + f act 2 + f stop 1)

/-- The oldest started command, or the one that ended last (R293). Bit 0 shows STOP before any command too (DESIGN
CHOICE, log 106). -/
def partProg (x : Part) : Word :=
  match x.runs with
  | r :: _ => progWord (cmdTag r.cmd) r.done (cmdNf r.cmd) false true x.stop
  | [] => progWord x.progTag x.progDone x.progNf x.progFlt false x.stop

def pprogBody (d : BitVec 6) (s : State) : Exe :=
  match boundPart s with
  | none => .fault (recPc s cAccess) s
  | some (_, x) => .retire (wg s d (partProg x))
def execPprog (h : Hdr) (d : BitVec 6) (s : State) : Out := issue1 h [] [d] (pprogBody d) s

def shadowCode (x : Shadow) : Nat := match x with | .empty => 0 | .loading _ _ _ => 1 | .ready _ _ => 2

/-- An item of R294. -/
def pstatItem (p : Nat) (x : Part) (item : Nat) : Option Word :=
  match item with
  | 0 => some (w64 (p * 2 ^ 32 + x.qsize * 2 ^ 16 + x.qbase))
  | 1 => some (w64 (x.asize * 2 ^ 32 + x.abase))
  | 2 => some (match x.active with
    | some a => if a.composed then w64 (2 ^ 63) else w64 (a.addr % 2 ^ 56)
    | none => 0)
  | 3 => some (match x.active with
    | some a => w64 (hdrQneed (setView a.bytes).hdr * 2 ^ 16 + hdrTag (setView a.bytes).hdr)
    | none => 0)
  | 4 => some (w64 x.misses)
  | 5 => some (w64 (shadowCode x.shadow * 256 + x.phase * 16 + (if x.stop then 1 else 0)))
  | _ => none

def pstatBody (d a : BitVec 6) (s : State) : Exe :=
  match boundPart s with
  | none => .fault (recPc s cAccess) s
  | some (p, x) =>
    match pstatItem p x (rg s a).toNat with
    | none => .fault (recPc s cAccess) s
    | some v => .retire (wg s d v)
def execPstat (h : Hdr) (d a : BitVec 6) (s : State) : Out := issue1 h [a] [d] (pstatBody d a) s

end Sys2Proof.Machine
end

