-- ==== Sys2Proof/Machine/PoolConfig.lean ====
section
/-!
DEFINITION. Loading a configuration: the configuration cache, the shadow, activation, and the end of a pool command
(R246, R247, R263-R265, R273, R277, R455).
-/
namespace Sys2Proof.Machine

/-! ## Reading device memory for a command -/

def poolWho (c : PoolCmd) : Who := ⟨c.ctx, c.sv, c.xspace⟩

/-- A span joined to the one before it where it continues it. -/
def addSpan (l : List (Nat × Nat)) (pa n : Nat) : List (Nat × Nat) :=
  match l.reverse with
  | (p, m) :: t => if p + m = pa then (t.reverse ++ [(p, m + n)]) else l ++ [(pa, n)]
  | [] => [(pa, n)]

/-- n bytes of device memory at a pointer that is a multiple of 64, line by line, with where they lie. -/
def readDev (w : Who) : (lines : Nat) → State → Word → Nat → List Byte → List (Nat × Nat) →
    Except (Nat × Word) (List Byte × List (Nat × Nat) × State)
  | 0, s, _, _, bs, sp => .ok (bs, sp, s)
  | f + 1, s, p, n, bs, sp =>
    if n = 0 then .ok (bs, sp, s)
    else
      let k := if n < 64 then n else 64
      match decodePtr p with
      | some (.dev va) =>
        (match translate s w va .load with
         | .error c => .error (c, p)
         | .ok (pa, s1) =>
           if locBad s1 (.mem pa) k then .error (cEcc, p)
           else readDev w f s1 (p + 64) (n - k) (bs ++ memReadBytes s1.hbm pa k) (addSpan sp pa k))
      | _ => .error (cAddrSpace, p)

/-- A set in device memory: its header, then the rest of it. -/
def readSet (s : State) (w : Who) (p : Word) : Except (Nat × Word) (List Byte × List (Nat × Nat) × State) :=
  match readDev w 1 s p 64 [] [] with
  | .error e => .error e
  | .ok (hd, sp, s1) =>
    let size := setSize (leNat (hd.take 8))
    readDev w 273 s1 (p + 64) (size - 64) hd sp

/-! ## The configuration cache (R247) -/

/-- Bytes for address-tagged sets: 2 MiB (R454). -/
def cacheBytes : Nat := 2097152

def cacheKeep : Nat → List CachedSet → List CachedSet
  | _, [] => []
  | room, e :: es => if e.bytes.length ≤ room then e :: cacheKeep (room - e.bytes.length) es else []

/-- A set is tagged by its virtual address and the ASID of the context that loads it; it is found there after the page
is mapped elsewhere (DESIGN CHOICE, log 78). -/
def cacheFind (s : State) (d asid addr : Nat) : Option CachedSet :=
  (getDie s d).cfgCache.find? (fun e => e.asid == asid && e.addr == addr)

/-- A set enters as the most recently used one; the least recently used ones leave. -/
def cachePut (s : State) (d : Nat) (e : CachedSet) : State :=
  modDie s d (fun x => { x with
    cfgCache := cacheKeep cacheBytes (e :: x.cfgCache.filter (fun f => !(f.asid == e.asid && f.addr == e.addr))) })

/-- A set through the cache: its bytes, whether it missed, and the state. The rights of a set that hits are checked at
its first byte. -/
def loadSet (s : State) (d : Nat) (w : Who) (p : Word) : Except (Nat × Word) (List Byte × Bool × State) :=
  let asid := xspaceAsid w.xspace
  let addr := p.toNat % 2 ^ 56
  match cacheFind s d asid addr with
  | some e =>
    (match translate s w addr .load with
     | .error c => .error (c, p)
     | .ok (_, s1) => .ok (e.bytes, false, cachePut s1 d e))
  | none =>
    match readSet s w p with
    | .error e => .error e
    | .ok (bs, sp, s1) => .ok (bs, true, cachePut s1 d ⟨asid, addr, bs, sp⟩)

/-! ## The end of a pool command (R273, R467) -/

def poolRec (c : PoolCmd) (part cause : Nat) (addr : Word) : FaultRec :=
  { recBase cause 2 c.ctx c.pc with
    cnt := c.cnt
    part := part
    addr := addr
    tag := c.tag
    stag := cmdTag c }

/-- A command completes, or faults with a record: the counter falls by 1 and is marked faulted. -/
def endCmd (s : State) (k : Nat) (c : PoolCmd) (r : Option FaultRec) : State :=
  let s1 := counterSubOpt s k c.cnt 1 c.ctx c.pc
  match r with
  | none => s1
  | some rec0 =>
    pushFault (match c.cnt with | some i => markFaulted s1 k i | none => s1) k rec0

/-! ## The steps of the shadow -/

def onPart (core part : Nat) (s : State) (f : Part → State → Out) : Out :=
  if 128 ≤ core ∨ 4 ≤ part then noAgent
  else match getPart s core part with
    | none => ev s
    | some x => f x s

def nameSlot (arg : Word) : Nat := arg.toNat % 128
def nameGen (arg : Word) : BitVec 9 := BitVec.ofNat 9 (arg.toNat / 128)

/-- The slot of a name is held by the partition under the name's generation (R455). A PLACE that has started holds its
slot so, and a load may name it before that PLACE completes (DESIGN CHOICE, log 123). -/
def nameGood (s : State) (core part : Nat) (x : Part) (arg : Word) : Bool :=
  let sl := getSlot s (dieOfCore core) (nameSlot arg)
  decide (nameSlot arg < 120) && sl.held == some (holderOf x core part) && sl.gen == nameGen arg

/-- CONFIG_LOAD_START: the head load enters LOADING; its set is taken from its slot or from the cache. -/
def execConfigLoadStart (core part : Nat) (s : State) : Out :=
  onPart core part s (fun x s =>
    match x.cfgq, x.shadow with
    | c :: rest, .empty =>
      if x.stop || !ctxActive s c.ctx || !classOpen s c.ctx c.oc then ev s
      else
        let put (t : State) (set : Option PoolSet) (flt : Option FaultRec) : Out :=
          .next (putPart t core part { x with cfgq := rest, shadow := .loading c set flt })
        (match c.op with
         | .load arg true =>
           if nameGood s core part x arg then
             put s (some ⟨true, arg.toNat, (getSlot s (dieOfCore core) (nameSlot arg)).bytes⟩) none
           else put s none (some (poolRec c part cConfig arg))
         | .load arg false =>
           (match cacheFind s (dieOfCore core) (xspaceAsid c.xspace) (arg.toNat % 2 ^ 56) with
            | none => put s none none
            | some _ =>
              match loadSet s (dieOfCore core) (poolWho c) arg with
              | .error e => put s none (some (poolRec c part e.1 e.2))
              | .ok (bs, _, t) => put t (some ⟨false, arg.toNat % 2 ^ 56, bs⟩) none)
         | _ => ev s)
    | _, _ => ev s)

/-- A load of the set at `addr` that waits for a miss. -/
def awaits (addr : Nat) (x : Part) : Option (PoolCmd × Word) :=
  match x.shadow with
  | .loading c none none =>
    (match c.op with
     | .load arg false => if arg.toNat % 2 ^ 56 = addr then some (c, arg) else none
     | _ => none)
  | _ => none

def partKeys : List (Nat × Nat) := (List.range 32).flatMap (fun i => [(i, 0), (i, 1), (i, 2), (i, 3)])

/-- CONFIG_CACHE_FILL: a missing set is fetched for the first load of the die that waits for it, and entered. -/
def execConfigCacheFill (die addr : Nat) (s : State) : Out :=
  if 4 ≤ die then noAgent
  else
    let found := partKeys.findSome? (fun ip =>
      let core := 32 * die + ip.1
      match getPart s core ip.2 with
      | some x => (awaits addr x).map (fun ca => (core, ip.2, x, ca))
      | none => none)
    match found with
    | none => ev s
    | some (core, part, x, c, arg) =>
      let y : Part := { x with misses := (x.misses + 1) % 2 ^ 64 }
      match loadSet s die (poolWho c) arg with
      | .error e =>
        .next (putPart s core part { y with shadow := .loading c none (some (poolRec c part e.1 e.2)) })
      | .ok (bs, _, t) =>
        .next (putPart t core part { y with shadow := .loading c (some ⟨false, addr, bs⟩) none })

/-- A load that faults leaves the shadow, and its composed set is released (R246, R454). -/
def failLoad (s : State) (core part : Nat) (x : Part) (c : PoolCmd) (set : Option PoolSet) (r : FaultRec) : State :=
  let s1 := putPart s core part { x with shadow := .empty }
  let s2 := match set with
    | some y => if y.composed then releaseSlot s1 (dieOfCore core) (y.addr % 128) else s1
    | none => s1
  endCmd s2 core c (some r)

/-- CONFIG_READY: the checks of R245, on the words as read. -/
def execConfigReady (core part : Nat) (s : State) : Out :=
  onPart core part s (fun x s =>
    match x.shadow with
    | .loading c set (some r) => .next (failLoad s core part x c set r)
    | .loading c (some y) none =>
      if setValid (setView y.bytes) x.qsize x.asize x.gang.isSome then
        .next (putPart s core part { x with shadow := .ready c y })
      else .next (failLoad s core part x c (some y) (poolRec c part cConfig (w64 y.addr)))
    | _ => ev s)

/-- The command's last operand cycle has ended. -/
def opEnded (r : OpRun) : Bool := isSweep r.cmd && (r.halted || decide (cmdNf r.cmd ≤ r.begun))

/-- CONFIG_ACTIVATE (R264): after the operand cycles of every command issued before the load. -/
def execConfigActivate (core part : Nat) (s : State) : Out :=
  onPart core part s (fun x s =>
    match x.shadow with
    | .ready c y =>
      if x.opq.any (fun o => decide (o.seq < c.seq)) || x.runs.any (fun r => decide (r.cmd.seq < c.seq) && !opEnded r)
          || !ctxActive s x.ctx then ev s
      else
        let s1 := putPart s core part { x with shadow := .empty, active := some y }
        let s2 := if y.composed then releaseSlot s1 (dieOfCore core) (y.addr % 128) else s1
        .next (endCmd s2 core c none)
    | _ => ev s)

end Sys2Proof.Machine
end

