-- ==== Sys2Proof/Machine/PoolFold.lean ====
section
/-!
DEFINITION. A fold: its fibre-folds and scales, products and the order of summation, the checks made before any pair
issues, and the updates of entries (R243, R248, R254-R256, R365-R375, R382, R478).
-/
namespace Sys2Proof.Machine

/-! ## Fibre-folds (R243, R365, R368) -/

/-- The offsets of a command: data and scale offset of the A side, then of the B side (R280). -/
structure Offs where
  ad : Nat
  as_ : Nat
  bd : Nat
  bs : Nat
  deriving DecidableEq, Repr

def offsOf (a b : Word) : Offs :=
  ⟨bitsOf a.toNat 21 0, bitsOf a.toNat 53 32, bitsOf b.toNat 21 0, bitsOf b.toNat 53 32⟩
def dataOff (o : Offs) (t : Stream) : Nat := if t.side = 0 then o.ad else o.bd
def scaleOff (o : Offs) (t : Stream) : Nat := if t.side = 0 then o.as_ else o.bs

/-- Bytes of one fibre-fold or slot. -/
def foldBytes (d : Nat) (t : Stream) : Nat :=
  let e := fmtWidth t.fmt
  if t.kind = kBitmap then slotBytesBm e
  else if t.kind = kN24 then slotBytesN24 (nselOf t.nsel) e
  else if t.kind = kOne then 0
  else d * e / 8

def foldAddr (o : Offs) (t : Stream) (row f : Nat) : Nat := t.base + dataOff o t + row * t.rpitch + f * t.fpitch

def isScaled (t : Stream) : Bool := t.kind != kOne && fmtIsBlock t.fmt
/-- The scales of a fibre-fold: first offset and number of bytes. -/
def scaleRange (o : Offs) (d : Nat) (t : Stream) (row f : Nat) : Nat × Nat :=
  let n := d / scaleBlock t.fmt
  (t.scbase + scaleOff o t + 8 * t.scpitch * row + n * f, n)

def spadNat (s : State) (k off n : Nat) : Nat := locRead s (.spad k off) n

/-- The value of an element code, without its scale (R76, R79, R84). -/
def poolElem (fmt code : Nat) : FVal :=
  if fmtIsMx fmt then mxElementValue fmt code false
  else if fmt = 0x28 then widen 0x18 code
  else widen fmt code

/-- A fibre-fold as read: its stream, fold depth and bytes as a number. -/
structure Fibre where
  str  : Stream
  d    : Nat
  data : Nat
  deriving DecidableEq, Repr

def readFibre (s : State) (k : Nat) (v : SetView) (o : Offs) (si row f : Nat) : Fibre :=
  let t := strAt v si
  ⟨t, depthOf v, spadNat s k (foldAddr o t row f) (foldBytes (depthOf v) t)⟩

/-- The position is offered by the side (R363, R373). -/
def present (x : Fibre) (i : Nat) : Bool :=
  decide (i < x.d) && (x.str.kind == kDense || x.str.kind == kOne || x.data.testBit i)

/-- The value at a position, if the side offers it. -/
def fibreVal (x : Fibre) (i : Nat) : Option FVal :=
  if !present x i then none
  else if x.str.kind = kOne then some (ofInt 1)
  else
    let e := fmtWidth x.str.fmt
    let at_ := if x.str.kind = kDense then i * e else 512 + popcount i x.data * e
    some (poolElem x.str.fmt ((x.data >>> at_) % 2 ^ e))

/-! ## Products and sums (R254, R255) -/

def poolProd (x y : FVal) : FVal :=
  let p := exactMul x y
  if isZero p then fzero false else p

/-- The product at a position; +0 where an operand is absent. -/
def pairProd (a b : Fibre) (i : Nat) : FVal :=
  match fibreVal a i, fibreVal b i with
  | some x, some y => poolProd x y
  | _, _ => fzero false

def exactAdd (x y : FVal) : FVal :=
  if isNan x then x
  else if isNan y then y
  else match addVal false x y with
    | none => defaultNan
    | some v => v

def pairUp (add : FVal → FVal → FVal) : List FVal → List FVal
  | x :: y :: t => add x y :: pairUp add t
  | t => t

/-- The tree over a block of up to 256 leaves. -/
def treeLevels (add : FVal → FVal → FVal) : (n : Nat) → List FVal → List FVal
  | 0, l => l
  | n + 1, l => treeLevels add n (pairUp add l)

def treeSum (wide : Bool) (leaves : List FVal) : FVal :=
  wideRound ((treeLevels (if wide then wideAdd else exactAdd) 8 leaves).headD (fzero false))

/-- One scale step: the scaled sum, and 1 where a finite sum becomes an infinity (R290). -/
def scaleStep (s : FVal) (fmt code : Nat) : FVal × Nat :=
  let r := wideMul s (widen (if fmt = 0x28 then 0x31 else 0x30) code)
  (r, if isInf r && !isInf s && !isNan s then 1 else 0)

/-- The scale codes of block k of a group: format and code for each scaled side. -/
def blockScales (s : State) (core : Nat) (v : SetView) (g : Group) (o : Offs) (f k : Nat) : List (Nat × Nat) :=
  let one (t : Stream) (row : Nat) : List (Nat × Nat) :=
    if isScaled t then [(t.fmt, spadNat s core ((scaleRange o (depthOf v) t row f).1 + k) 1)] else []
  one (aStr v g) g.arow ++ one (bStr v g) g.brow

def scaleBlockSum (s : FVal) (codes : List (Nat × Nat)) : FVal × Nat :=
  if codes.any (fun c => c.1 == 0x28 && c.2 == 0) then (fzero false, 0)
  else codes.foldl (fun acc c => let r := scaleStep acc.1 c.1 c.2; (r.1, acc.2 + r.2)) (s, 0)

/-- F of R255 for a group, with the overflows of its block steps. -/
def foldValue (s : State) (core : Nat) (v : SetView) (g : Group) (o : Offs) (f : Nat) : FVal × Nat :=
  let a := readFibre s core v o g.astr g.arow f
  let b := readFibre s core v o g.bstr g.brow f
  let bs := blockOf v g
  let wide := g.cfmt == 4 || g.cfmt == 5
  (List.range (256 / bs)).foldl (fun acc k =>
    if depthOf v ≤ k * bs then acc
    else
      let t := treeSum wide ((List.range bs).map (fun i => pairProd a b (k * bs + i)))
      let r := scaleBlockSum t (blockScales s core v g o f k)
      (wideAdd acc.1 r.1, acc.2 + r.2)) (fzero false, 0)

/-! ## The checks at the start of a fold (R375, R382, R478) -/

/-- What is wrong with a slot: NNZ or N, and the popcount found; of several malformed runs of an N24 slot the lowest one's
(DESIGN CHOICE, log 92: R375 does not say which). -/
def slotFault (x : Fibre) : Option (Nat × Nat) :=
  if x.str.kind = kBitmap then
    let nnz := (x.data >>> 256) % 65536
    if popcount 256 x.data = nnz then none else some (nnz, popcount 256 x.data)
  else if x.str.kind = kN24 then
    let n := nselOf x.str.nsel
    (List.range 10).findSome? (fun m =>
      let c := popcount 24 (x.data >>> (24 * m))
      if c = n then none else some (n, c))
  else none

/-- m_g (R373). -/
def matched (a b : Fibre) : Nat := ((List.range a.d).filter (fun i => present a i && present b i)).length

/-- The group's charge is marked K: a BITMAP stream with any partner (R378). -/
def charged (v : SetView) (g : Group) : Bool := (aStr v g).kind == kBitmap || (bStr v g).kind == kBitmap

/-- The first byte of a fibre-fold, or else of its scales, that reads with an uncorrectable error. -/
def fibreBad (s : State) (core : Nat) (v : SetView) (o : Offs) (si row f : Nat) : Option Nat :=
  let t := strAt v si
  let sc := scaleRange o (depthOf v) t row f
  if t.kind = kOne then none
  else match firstBad s core (foldAddr o t row f) (foldBytes (depthOf v) t) with
    | some a => some a
    | none => if isScaled t then firstBad s core sc.1 sc.2 else none

def lowest : List Nat → Nat
  | [] => 0
  | x :: xs => xs.foldl (fun a b => if b < a then b else a) x

def spadPtr (off : Nat) : Word := w64 (2 ^ 60 + off)

/-- The groups of a sweep: enabled, and not compare groups (R281). -/
def sweepGroups (v : SetView) : List Group := (enabled v).filter (fun g => !isCompare g)

/-- Entry number of a group (R281). -/
def groupEntry (x : Part) (accoff : Nat) (g : Group) : Nat := x.abase + accoff + g.accix

/-- A sweep's operands: offsets, first fold, entry offset, CONT (R280). -/
structure SweepArgs where
  o      : Offs
  f0     : Nat
  accoff : Nat
  cont   : Bool
  cap    : Option Nat
  deriving DecidableEq, Repr

def sweepArgs (c : PoolCmd) : SweepArgs :=
  match c.op with
  | .sweep a b g _ cap => ⟨offsOf a b, bitsOf g.toNat 31 16, bitsOf g.toNat 48 32, g.getLsbD 63, cap⟩
  | _ => ⟨⟨0, 0, 0, 0⟩, 0, 0, false, none⟩

/-- The pointer of an accumulator entry, for a record. -/
def accPtr (e : Nat) : Word := w64 (2 * 2 ^ 60 + 4 * e)

/-- The fault that stops a sweep at fold f, in the order of R551, with the entries that R478 poisons whatever the cause
reported. Of several groups that exceed K the record names the first in word order (DESIGN CHOICE, log 97: R382 does not
say which). -/
def foldFault (s : State) (core part : Nat) (x : Part) (v : SetView) (c : PoolCmd) (f : Nat) :
    Option (FaultRec × List Nat) :=
  let w := sweepArgs c
  let pairs := fibrePairs v
  let slot := pairs.findSome? (fun p =>
    (slotFault (readFibre s core v w.o p.1 p.2 f)).map (fun nc => (p, nc)))
  let capped := match w.cap with
    | none => none
    | some cap => ((sweepGroups v).filter (charged v)).findSome? (fun g =>
        let m := matched (readFibre s core v w.o g.astr g.arow f) (readFibre s core v w.o g.bstr g.brow f)
        if cap < m then some (g.index, m, cap) else none)
  let bad := pairs.filterMap (fun p => (fibreBad s core v w.o p.1 p.2 f).map (fun a => (p, a)))
  let hit (g : Group) : Bool := bad.any (fun pa => pa.1 == (g.astr, g.arow) || pa.1 == (g.bstr, g.brow))
  let es := ((sweepGroups v).filter hit).map (groupEntry x w.accoff)
  match slot, capped, bad with
  | some (p, nc), _, _ =>
    some ({ poolRec c part cSparse (spadPtr (foldAddr w.o (strAt v p.1) p.2 f)) with
      prog := w64 f, info0 := w64 (p.1 + p.2 * 65536), info1 := w64 (nc.1 + nc.2 * 65536) }, es)
  | none, some (g, m, cap), _ =>
    some ({ poolRec c part cDitCap 0 with prog := w64 f, info0 := w64 g, info1 := w64 (m + cap * 65536) }, es)
  | none, none, (p, a) :: _ =>
    some ({ poolRec c part cEcc (spadPtr a) with
      prog := w64 f, info0 := w64 (p.1 + p.2 * 65536), info1 := w64 (lowest es) }, es)
  | none, none, [] => none

/-- The updates of fold f, with the group of each, and the block-step overflows. `first`: it is the sweep's first
fold and CONT is 0. -/
def foldUpdates (s : State) (core : Nat) (x : Part) (v : SetView) (c : PoolCmd) (f : Nat) (first : Bool) :
    List (Group × FoldUpdate) × Nat :=
  let w := sweepArgs c
  (sweepGroups v).foldl (fun acc g =>
    let r := foldValue s core v g w.o f
    (acc.1 ++ [(g, ⟨groupEntry x w.accoff g, g.index, g.accen || !first, g.cfmt == 1, r.1⟩)], acc.2 + r.2)) ([], 0)

/-! ## Updates (R256, R304) -/

/-- The entry after an update, and its counts; `none` where a poisoned entry is read. -/
def updateVal (q : Core) (u : FoldUpdate) : Option (BitVec 32 × Exc) :=
  if u.accum && accPoisoned q u.entry then none
  else
    let old := (accEntry q u.entry).toNat
    let x := if u.accum then exactAdd (widen (if u.int32 then 0x04 else 0x11) old) u.value else u.value
    if u.int32 then
      let d := toInteger 0x04 x .rne true
      some (BitVec.ofNat 32 d.1, { d.2 with flags := 0 })
    else if isNan x then some (0x7FC00000#32, excNanr)
    else
      let d := deliver 0x11 x .rne
      some (BitVec.ofNat 32 d.1, if !isInf x && isInf (widen 0x11 d.1) then excSat else excNone)

/-- An entry written with a fresh check code: its poison bit is clear (R302, R480). -/
def putEntry (q : Core) (e : Nat) (w : BitVec 32) : Core :=
  { q with
    acc := tabSet 0 q.acc e w, poison := q.poison.filter (fun p => p != e), badAcc := q.badAcc.filter (fun p => p != e) }
def poisonEntries (q : Core) (es : List Nat) : Core :=
  { q with poison := q.poison ++ (es.filter (fun e => !q.poison.contains e)).eraseDups }

/-- The updates of a fold land: the core, the counts, the poisoned entries met. -/
def landUpdates : Core → List FoldUpdate → Core × Exc × List Nat
  | q, [] => (q, excNone, [])
  | q, u :: us =>
    match updateVal q u with
    | none => let r := landUpdates q us; (r.1, r.2.1, u.entry :: r.2.2)
    | some (w, ex) => let r := landUpdates (putEntry q u.entry w) us; (r.1, excJoin ex r.2.1, r.2.2)

end Sys2Proof.Machine
end

