-- ==== Sys2Proof/Machine/PoolRun.lean ====
section
/-!
DEFINITION. The operand queue: starting commands, folds, scans, tournaments, threshold crossings, and the matched sets
of a gang (R256, R266, R278, R281-R286, R291, R304, R478, R518, R519, R551).
-/
namespace Sys2Proof.Machine

/-! ## Members (R516, R518) -/

/-- The partitions that run a command together: the gang's members in ascending core id, or the partition alone. -/
def memberSet (s : State) (k p : Nat) : List (Nat × Nat) :=
  match (getPart s k p).bind (fun x => x.gang) with
  | none => [(k, p)]
  | some g => (match tabFind s.gangs g with | some q => q.members | none => [(k, p)])

def partAt (s : State) (m : Nat × Nat) : Option Part := getPart s m.1 m.2
/-- A test that every member's partition passes. -/
def allParts (s : State) (ms : List (Nat × Nat)) (f : Nat × Nat → Part → Bool) : Bool :=
  ms.all (fun m => match partAt s m with | some x => f m x | none => false)

/-! ## Counters and STOP (R290, R291) -/

def crosses (t old new : Nat) : Bool := t != 0 && decide (old < t) && decide (t ≤ new)
def countsCross (t old new : Counts) : Bool :=
  crosses t.sat old.sat new.sat || crosses t.nanr old.nanr new.nanr || crosses t.bsov old.bsov new.bsov

def haltRuns (x : Part) : Part := { x with runs := x.runs.map (fun r => { r with halted := true }) }

/-- The partition's counters take an update; a crossing stops it, and with it every run of its gang (R291, R519). -/
def addCounts (s : State) (k p : Nat) (e : Exc) : Bool × State :=
  match getPart s k p with
  | none => (false, s)
  | some x =>
    let new := countsAdd x.counts e
    if countsCross x.thresh x.counts new then
      let y : Part := { x with
        counts := new, stop := true, runs := x.runs.map (fun r => { r with thr := true, halted := true }) }
      (true, (memberSet s k p).foldl (fun t m => modPart t m.1 m.2 haltRuns) (putPart s k p y))
    else (false, putPart s k p { x with counts := new })

/-! ## The end of an operand command (R273, R519, R551) -/

/-- The fault a started command ends with, if any. -/
def runFault (x : Part) (p : Nat) (r : OpRun) : Option FaultRec :=
  match r.fault with
  | some f => some f
  | none =>
    if !r.met.isEmpty then some { poolRec r.cmd p cPoison (accPtr (lowest r.met)) with prog := w64 r.done, info1 := w64 (lowest r.met) }
    else if r.thr then some { poolRec r.cmd p cArith 0 with prog := w64 r.done, info2 := countsWord x.counts }
    else none

/-- The place of a cause in the order of R551. -/
def causeRank (c : Nat) : Nat :=
  if c = cSparse then 1 else if c = cDitCap then 2 else if c = cEcc then 3 else if c = cPoison then 4
  else if c = cArith then 5 else 0

/-- The fault that the members of a set report: the first of R551, of the lowest core. -/
def leadFault : List (Nat × Option FaultRec) → Option (Nat × FaultRec)
  | [] => none
  | (k, f) :: rest =>
    match f, leadFault rest with
    | none, l => l
    | some r, none => some (k, r)
    | some r, some (k2, r2) => if causeRank r2.cause < causeRank r.cause then some (k2, r2) else some (k, r)

/-- A member's command ends: with its own fault, with that of another member, or without one. -/
def endRun (s : State) (m : Nat × Nat) (r : OpRun) (lead : Option (Nat × FaultRec)) : State :=
  match partAt s m with
  | none => s
  | some x =>
    let own := runFault x m.2 r
    let flt := match own, lead with
      | some f, _ => some f
      | none, some (k, f) => some { poolRec r.cmd m.2 f.cause 0 with prog := f.prog, info2 := w64 k }
      | none, none => none
    let y : Part := { x with
      runs := x.runs.drop 1, progTag := cmdTag r.cmd, progDone := r.done, progNf := cmdNf r.cmd, progFlt := flt.isSome }
    endCmd (modCore (putPart s m.1 m.2 y) m.1 (fun q => poisonEntries q r.poison)) m.1 r.cmd flt

/-- The oldest command of every member ends. -/
def endSet (s : State) (ms : List (Nat × Nat)) : State :=
  let fr (m : Nat × Nat) : Option OpRun := (partAt s m).bind (fun x => x.runs.head?)
  let faults := ms.map (fun m => (m.1, match partAt s m, fr m with
    | some x, some r => runFault x m.2 r
    | _, _ => none))
  ms.foldl (fun t m => match fr m with | some r => endRun t m r (leadFault faults) | none => t) s

/-- A sweep with nothing more to land. -/
def runDone (r : OpRun) : Bool := opEnded r && r.flight.isEmpty

/-- Sweeps at the front that have ended complete, in order. -/
def settleRuns (ms : List (Nat × Nat)) : (fuel : Nat) → State → State
  | 0, s => s
  | n + 1, s =>
    if allParts s ms (fun _ x => match x.runs with | r :: _ => runDone r | [] => false) then
      settleRuns ms n (endSet s ms)
    else s

def settleAll (s : State) (ms : List (Nat × Nat)) : State := settleRuns ms 17 s

/-! ## Starting a command (R264, R278, R281, R283, R285, R518) -/

/-- Of extents in the scratchpad, the first byte that lies outside the command's window (R299; DESIGN CHOICE, log 111: the
spec does not say which byte a record names). -/
def outsideWin (s : State) (c : PoolCmd) (l : List (Nat × Nat)) : Option Word :=
  let lo := (ctxCr (getCtx s c.ctx) crSpBase).toNat
  let hi := (ctxCr (getCtx s c.ctx) crSpLimit).toNat
  (l.find? (fun e => !inSpadWindow s c.ctx e.1 e.2)).map (fun e => spadPtr (if lo ≤ e.1 ∧ e.1 < hi then hi else e.1))

/-- The first of the groups whose entry, `off` behind its own, lies outside the partition's window. -/
def outsideAcc (x : Part) (off : Nat) (gs : List Group) : Option Word :=
  (gs.find? (fun g => decide (x.asize ≤ off + g.accix))).map (fun g => accPtr (groupEntry x off g))

/-- R281's extents: fibre-folds, then their scales, of each stream. -/
def sweepExtents (v : SetView) (c : PoolCmd) : List (Nat × Nat) :=
  let w := sweepArgs c
  let last := w.f0 + cmdNf c - 1
  let d := depthOf v
  (v.streams.filter (fun t => t.kind != kOne)).flatMap (fun t =>
    let lo := foldAddr w.o t 0 w.f0
    let hi := foldAddr w.o t (t.rows - 1) last + foldBytes d t
    let a := (scaleRange w.o d t 0 w.f0).1
    let b := (scaleRange w.o d t (t.rows - 1) last).1 + (scaleRange w.o d t 0 0).2
    (lo, hi - lo) :: (if isScaled t then [(a, b - a)] else []))

def topkArgs (c : PoolCmd) : Word × Word × Option Word :=
  match c.op with
  | .topk a b rb => (a, b, rb)
  | _ => (0, 0, none)
def compareGroups (v : SetView) : List Group := (enabled v).filter isCompare
def topkToken (c : PoolCmd) (g : Group) : Nat := g.accix + bitsOf (topkArgs c).2.1.toNat 47 32
def topkK (c : PoolCmd) : Nat := bitsOf (topkArgs c).2.1.toNat 27 24
def topkRec (c : PoolCmd) (g : Group) : Nat := bitsOf (topkArgs c).2.1.toNat 21 0 + 64 * topkToken c g
/-- The byte that holds the token's bit of bitmap i. -/
def topkByte (rb : Word) (c : PoolCmd) (g : Group) (i : Nat) : Nat :=
  bitsOf rb.toNat 21 0 + i * bitsOf rb.toNat 47 32 + topkToken c g / 8

/-- What R285 has PTOPK test against the window: its records, and the bytes of its bitmaps. Its operands' fibre-folds are
read untested (DESIGN CHOICE, log 112: R285 names no fault for them, where R299 has commands test the window). -/
def topkExtents (v : SetView) (c : PoolCmd) : List (Nat × Nat) :=
  (compareGroups v).flatMap (fun g => (topkRec c g, 8 * topkK c)
    :: (match (topkArgs c).2.2 with
        | none => []
        | some rb => (List.range 256).map (fun i => (topkByte rb c g i, 1))))

def scanArgs (c : PoolCmd) : BitVec 32 × Nat := match c.op with | .scan a o => (a, o) | _ => (0, 0)

/-- The address of the active set. -/
def setAddr (x : Part) : Word := match x.active with | some y => w64 y.addr | none => 0

/-- The cause a command faults with at its start, if any, and the address that faulted, or the set's (R468). A PTOPK that
meets both of R285's conditions reports ACCESS (DESIGN CHOICE, log 80). -/
def startBad (s : State) (x : Part) (c : PoolCmd) : Option (Nat × Word) :=
  match x.active with
  | none => some (cConfig, setAddr x)
  | some y =>
    let v := setView y.bytes
    let access (p : Option Word) : Option (Nat × Word) := p.map (fun a => (cAccess, a))
    match c.op with
    | .sweep _ _ _ _ _ =>
      access ((outsideWin s c (sweepExtents v c)).or (outsideAcc x (sweepArgs c).accoff (enabled v)))
    | .scan _ off => access (outsideAcc x off (scanChains (enabled v)).flatten)
    | .topk _ _ _ =>
      (access (outsideWin s c (topkExtents v c))).or
        (if (compareGroups v).any (fun g => [kBitmap, kN24].contains (aStr v g).kind
          || [kBitmap, kN24].contains (bStr v g).kind) then some (cConfig, setAddr x) else none)
    | _ => none

/-! ### The interlock with drains (R266) -/

/-- A drain or clear issued before the command has still to reach the entry (R266). -/
def drainHas (x : Part) (c : PoolCmd) (e : Nat) : Bool :=
  match c.op with
  | .clear f n => decide (x.abase + f ≤ e) && decide (e < x.abase + f + n)
  | .drain _ _ _ _ r _ _ _ _ =>
    decide (x.abase + rectE0 r ≤ e) && (List.range (rectRows r)).any (fun i =>
      let b := x.abase + rectE0 r + i * rectStride r
      decide (b ≤ e) && decide (e < b + rectCols r))
  | _ => false

def drainsBefore (x : Part) (seq : Nat) : List PoolCmd :=
  (x.drq ++ (match x.drRun with | some c => [c] | none => [])).filter (fun c => decide (c.seq < seq))

/-- Entries that an operand command of the partition updates under its active set. -/
def cmdEntries (x : Part) (c : PoolCmd) : List Nat :=
  match x.active with
  | none => []
  | some y =>
    let v := setView y.bytes
    match c.op with
    | .sweep _ _ _ _ _ => (sweepGroups v).map (groupEntry x (sweepArgs c).accoff)
    | .scan _ off => ((scanChains (enabled v)).flatten).map (groupEntry x off)
    | _ => []

def heldByDrain (x : Part) (c : PoolCmd) : Bool :=
  (drainsBefore x c.seq).any (fun d => (cmdEntries x c).any (drainHas x d))

/-- The kind of a command, in which the members of a set must agree (R518). -/
def cmdKind (c : PoolCmd) : Nat :=
  match c.op with
  | .sweep _ _ _ _ cap => if cap.isSome then 1 else 0
  | .scan _ _ => 2
  | _ => 3

/-- The head of the operand queue can start: no STOP, the context's cohort runs, no earlier access of its class is
outstanding, every started command has ended its operand cycles, no load issued before it is pending, and with no
active configuration none is queued (R278). A sweep, and a scan (DEDUCED, log 83), waits before its first cycle for the
earlier drains that have still to read its entries (R266): it has not started then (R273). -/
def canStart (s : State) (x : Part) : Bool :=
  match x.opq with
  | [] => false
  | c :: _ =>
    let loads := x.cfgq ++ (match x.shadow with | .loading l _ _ => [l] | .ready l _ => [l] | .empty => [])
    !x.stop && ctxActive s x.ctx && classOpen s c.ctx c.oc && x.runs.all opEnded && loads.all (fun l => decide (c.seq < l.seq))
    && (x.active.isSome || loads.isEmpty) && !heldByDrain x c

def opRunOf (c : PoolCmd) (flt : Option FaultRec) : OpRun where
  cmd := c
  begun := 0
  done := 0
  flight := []
  fault := flt
  poison := []
  met := []
  thr := false
  halted := flt.isSome

/-- The head of a member starts, with a fault that it has met, or a cause that another member has. -/
def startOne (s : State) (m : Nat × Nat) (own : Option (Nat × Word)) (lead : Option (Nat × Nat)) : State :=
  match partAt s m with
  | none => s
  | some x =>
    match x.opq with
    | [] => s
    | c :: rest =>
      let y : Part := { x with opq := rest }
      let flt := match own, lead with
        | some e, _ => some (poolRec c m.2 e.1 e.2)
        | none, some (k, cause) => some { poolRec c m.2 cause 0 with info2 := w64 k }
        | none, none => none
      match flt with
      | some f =>
        endCmd (putPart s m.1 m.2 { y with
          progTag := cmdTag c, progDone := 0, progNf := cmdNf c, progFlt := true }) m.1 c (some f)
      | none => putPart s m.1 m.2 { y with runs := x.runs ++ [opRunOf c none] }

/-- The heads of the members start together. `all` is a cause that every member faults with. -/
def startSet (s : State) (ms : List (Nat × Nat)) (all : Option Nat) : State :=
  let own (m : Nat × Nat) : Option (Nat × Word) :=
    (partAt s m).bind (fun x => match all, x.opq with
      | some c, _ => some (c, setAddr x)
      | none, c :: _ => startBad s x c
      | none, [] => none)
  let lead := ms.findSome? (fun m => (own m).map (fun e => (m.1, e.1)))
  ms.foldl (fun t m => startOne t m (own m) lead) s

def headCmd (s : State) (m : Nat × Nat) : Option PoolCmd := (partAt s m).bind (fun x => x.opq.head?)

def bridgeIndices (s : State) (m : Nat × Nat) : List Nat :=
  match (partAt s m).bind (fun x => x.active) with
  | some y => ((enabled (setView y.bytes)).filter (fun g => g.mode == mBridge)).map (fun g => g.index)
  | none => []

/-- The members agree in kind, NF and BRIDGE groups. -/
def setAgrees (s : State) (ms : List (Nat × Nat)) : Bool :=
  match ms with
  | [] => false
  | m :: rest =>
    match headCmd s m with
    | none => false
    | some c => rest.all (fun n => match headCmd s n with
        | some e => cmdKind e == cmdKind c && cmdNf e == cmdNf c && bridgeIndices s n == bridgeIndices s m
        | none => false)

/-! ## Folds (R252, R256, R266) -/

def lastRun (x : Part) : Option OpRun := x.runs.getLast?
def setLastRun (x : Part) (r : OpRun) : Part := { x with runs := x.runs.dropLast ++ [r] }

/-- The next fold of the newest sweep can begin. -/
def canBegin (s : State) (x : Part) : Bool :=
  match lastRun x with
  | none => false
  | some r => !opEnded r && isSweep r.cmd && !x.stop && ctxActive s x.ctx && !heldByDrain x r.cmd

/-- The next fold of a member: the fault that stops it, or its updates and overflows. -/
def planFold (s : State) (m : Nat × Nat) : Option (FaultRec × List Nat) × List (Group × FoldUpdate) × Nat :=
  match partAt s m with
  | none => (none, [], 0)
  | some x =>
    match lastRun x, x.active with
    | some r, some y =>
      let v := setView y.bytes
      let f := (sweepArgs r.cmd).f0 + r.begun
      match foldFault s m.1 m.2 x v r.cmd f with
      | some e => (some e, [], 0)
      | none =>
        let u := foldUpdates s m.1 x v r.cmd f (r.begun == 0 && !(sweepArgs r.cmd).cont)
        (none, u.1, u.2)
    | _, _ => (none, [], 0)

/-- The fold value that crosses the bridge: the values of the groups of one index, in ascending core id (R261). -/
def bridgeSum (plans : List (List (Group × FoldUpdate))) (index : Nat) : FVal :=
  match plans.filterMap (fun us => (us.find? (fun gu => gu.1.index == index)).map (fun gu => gu.2.value)) with
  | [] => fzero false
  | v :: vs => vs.foldl wideAdd v

/-- A member's updates: BRIDGE groups update on the gang's lowest core alone. Where the gang is dissolved, a BRIDGE group
of a set that is still active updates its own entry (DESIGN CHOICE, log 77). -/
def memberUpdates (plans : List (List (Group × FoldUpdate))) (lead ganged : Bool) (us : List (Group × FoldUpdate)) :
    List FoldUpdate :=
  us.filterMap (fun gu =>
    if ganged && gu.1.mode == mBridge then
      (if lead then some { gu.2 with value := bridgeSum plans gu.1.index } else none)
    else some gu.2)

def beginFold (s : State) (m : Nat × Nat) (us : List FoldUpdate) (bsov : Nat) : State :=
  modPart s m.1 m.2 (fun x => match lastRun x with
    | some r => setLastRun x { r with
        begun := r.begun + 1, flight := r.flight ++ [⟨(sweepArgs r.cmd).f0 + r.begun, us, bsov⟩] }
    | none => x)

def stopFold (s : State) (m : Nat × Nat) (e : Option (FaultRec × List Nat)) : State :=
  modPart s m.1 m.2 (fun x => match lastRun x with
    | some r => setLastRun x (match e with
        | some (f, es) => { r with halted := true, fault := some f, poison := es }
        | none => { r with halted := true })
    | none => x)

/-- The next fold begins on every member, or stops the command on every member. -/
def beginFolds (s : State) (ms : List (Nat × Nat)) (ganged : Bool) : State :=
  let plans := ms.map (fun m => (m, planFold s m))
  if plans.any (fun mp => mp.2.1.isSome) then
    settleAll (plans.foldl (fun t mp => stopFold t mp.1 mp.2.1) s) ms
  else
    let us := plans.map (fun mp => mp.2.2.1)
    let lead := (ms.headD (0, 0)).1
    plans.foldl (fun t mp => beginFold t mp.1 (memberUpdates us (mp.1.1 == lead) ganged mp.2.2.1) mp.2.2.2) s

def canBeginAll (s : State) (ms : List (Nat × Nat)) : Bool := allParts s ms (fun _ y => canBegin s y)

/-- FOLD_BEGIN. -/
def execFoldBegin (core part : Nat) (s : State) : Out :=
  onPart core part s (fun x s =>
    let ms := memberSet s core part
    if canBeginAll s ms then .next (beginFolds s ms x.gang.isSome) else ev s)

/-- The heads of the members start, and with a sweep its first fold begins (R273). -/
def startAndBegin (s : State) (ms : List (Nat × Nat)) (ganged : Bool) (all : Option Nat) : State :=
  let t := startSet s ms all
  if canBeginAll t ms then beginFolds t ms ganged else t

/-- OPERAND_COMMAND_START, for a partition in no gang. -/
def execOperandCommandStart (core part : Nat) (s : State) : Out :=
  onPart core part s (fun x s =>
    if x.gang.isSome || !canStart s x then ev s else .next (startAndBegin s [(core, part)] false none))

/-- GANG_SET_START (R518): every member's head is of one set and can start. -/
def execGangSetStart (gang : Nat) (s : State) : Out :=
  match tabFind s.gangs gang with
  | none => ev s
  | some g =>
    let gno := ((g.members.head?).bind (headCmd s)).map (fun c => c.gno)
    if !allParts s g.members (fun m x => canStart s x && (headCmd s m).map (fun c => c.gno) == gno) then ev s
    else .next (startAndBegin s g.members true (if setAgrees s g.members then none else some cConfig))

/-- The oldest fold in flight of a member lands. -/
def landFold (s : State) (m : Nat × Nat) : State :=
  match partAt s m with
  | none => s
  | some x =>
    let go : List OpRun → Option (FoldRun × List OpRun) := fun rs =>
      match rs.span (fun r => r.flight.isEmpty) with
      | (before, r :: after) =>
        (match r.flight with
         | f :: fs =>
           let met := (landUpdates (getCore s m.1) f.updates).2.2
           some (f, before ++ { r with flight := fs, done := r.done + 1, met := r.met ++ met } :: after)
         | [] => none)
      | _ => none
    match go x.runs with
    | none => s
    | some (f, runs) =>
      let l := landUpdates (getCore s m.1) f.updates
      let s1 := putPart (putCore s m.1 l.1) m.1 m.2 { x with runs := runs }
      (addCounts s1 m.1 m.2 { l.2.1 with bsov := l.2.1.bsov + f.bsov }).2

/-- FOLD_LAND: the oldest fold in flight lands on every member; commands whose last fold has landed complete. -/
def execFoldLand (core part : Nat) (s : State) : Out :=
  onPart core part s (fun _ s =>
    let ms := memberSet s core part
    if !allParts s ms (fun _ y => y.runs.any (fun r => !r.flight.isEmpty)) then ev s
    else .next (settleAll (ms.foldl landFold s) ms))

/-! ## PSCAN (R283, R304) -/

/-- One chain: the core, the counts, the first poisoned entry. `y` is the value that comes in. -/
def scanChain (alpha : BitVec 32) : Core → Option Nat → Bool → List Nat → Core × Exc × Option Nat
  | q, _, _, [] => (q, excNone, none)
  | q, y, bad, e :: es =>
    if bad || accPoisoned q e then
      let r := scanChain alpha (poisonEntries q [e]) y true es
      (r.1, r.2.1, if bad then none else some e)
    else
      let acc := (accEntry q e).toNat
      match y with
      | none => scanChain alpha (putEntry q e (accEntry q e)) (some acc) false es
      | some prev =>
        let a := widen 0x11 alpha.toNat
        let r := (fpFma 0x11 a (widen 0x11 prev) (widen 0x11 acc) .rne).1
        let nan := isNan (widen 0x11 r)
        let fin (c : Nat) : Bool := !isNan (widen 0x11 c) && !isInf (widen 0x11 c)
        let w := if nan then 0x7FC00000 else r
        let ex := if nan then excNanr
          else if isInf (widen 0x11 r) && fin alpha.toNat && fin prev && fin acc then excSat else excNone
        let t := scanChain alpha (putEntry q e (BitVec.ofNat 32 w)) (some w) false es
        (t.1, excJoin ex t.2.1, t.2.2)

def scanChainsRun (alpha : BitVec 32) : Core → List (List Nat) → Core × Exc × List Nat
  | q, [] => (q, excNone, [])
  | q, c :: cs =>
    let a := scanChain alpha q none false c
    let b := scanChainsRun alpha a.1 cs
    (b.1, excJoin a.2.1 b.2.1, (match a.2.2 with | some e => [e] | none => []) ++ b.2.2)

/-- The scan or tournament that is the oldest started command, with its set. -/
def frontRun (x : Part) (scan : Bool) : Option (OpRun × SetView) :=
  match x.runs, x.active with
  | r :: _, some y => if cmdKind r.cmd = (if scan then 2 else 3) then some (r, setView y.bytes) else none
  | _, _ => none

def setFront (x : Part) (f : OpRun → OpRun) : Part :=
  match x.runs with
  | r :: rs => { x with runs := f r :: rs }
  | [] => x

/-- The entries of a scan's chains, in the order in which they are read. -/
def scanEntries (x : Part) (v : SetView) (c : PoolCmd) : List (List Nat) :=
  (scanChains (enabled v)).map (fun gs => gs.map (groupEntry x (scanArgs c).2))

/-- Of each chain that reads an entry whose check code shows an uncorrectable error, the entries from that one onwards:
they become poisoned (R478). -/
def scanHits (q : Core) (chains : List (List Nat)) : List (List Nat) :=
  (chains.map (fun es => es.dropWhile (fun e => !accPoisoned q e))).filter (fun es => match es with
    | e :: _ => q.badAcc.contains e
    | [] => false)

/-- The ECC fault of a member's scan (R478; DEDUCED, log 101). -/
def scanFault (s : State) (m : Nat × Nat) : Option FaultRec :=
  match partAt s m with
  | none => none
  | some x =>
    match frontRun x true with
    | none => none
    | some (r, v) =>
      let hit := scanHits (getCore s m.1) (scanEntries x v r.cmd)
      match hit with
      | (e :: _) :: _ =>
        some { poolRec r.cmd m.2 cEcc (accPtr e) with info1 := w64 (lowest hit.flatten) }
      | _ => none

/-- A member's scan ends. With `stopped`, a member of its set has met an error and its fold lands nowhere (R519): of its
chains, only what the error poisons changes. -/
def scanOne (stopped : Bool) (s : State) (m : Nat × Nat) : State :=
  match partAt s m with
  | none => s
  | some x =>
    match frontRun x true with
    | none => s
    | some (r, v) =>
      let flt := scanFault s m
      let q := getCore s m.1
      let chains := scanEntries x v r.cmd
      let t := if stopped then (poisonEntries q (scanHits q chains).flatten, excNone, [])
        else scanChainsRun (scanArgs r.cmd).1 q chains
      let s1 := putPart (putCore s m.1 t.1) m.1 m.2 (setFront x (fun r => { r with
        done := if stopped || flt.isSome then 0 else 1, fault := flt, met := t.2.2 }))
      (addCounts s1 m.1 m.2 t.2.1).2

/-- PSCAN_COMPLETE: the chains are written, on every member. -/
def execPscanComplete (core part : Nat) (s : State) : Out :=
  onPart core part s (fun x s =>
    let ms := memberSet s core part
    if !allParts s ms (fun _ y => (frontRun y true).isSome) then ev s
    else
      let stopped := x.gang.isSome && ms.any (fun m => (scanFault s m).isSome)
      .next (settleAll (endSet (ms.foldl (scanOne stopped) s) ms) ms))

/-! ## PTOPK (R260, R285, R478) -/

/-- The right candidate wins against the left (R260). -/
def rightWins (maxf : Bool) (l r : FVal) : Bool :=
  !isNan r && (isNan l || (if maxf then ltVal l r else ltVal r l))

def winner (maxf : Bool) : List (Nat × FVal) → Option (Nat × FVal)
  | [] => none
  | c :: cs => some (cs.foldl (fun w n => if rightWins maxf w.2 n.2 then n else w) c)

/-- K winners, each taken out of the candidates. -/
def winners (maxf : Bool) : (k : Nat) → List (Nat × FVal) → List (Option (Nat × FVal))
  | 0, _ => []
  | k + 1, cs =>
    match winner maxf cs with
    | none => none :: winners maxf k []
    | some w => some w :: winners maxf k (cs.filter (fun c => c.1 != w.1))

def candidates (a b : Fibre) : List (Nat × FVal) :=
  (List.range a.d).filterMap (fun i =>
    match fibreVal a i, fibreVal b i with
    | some x, some y => some (i, poolProd x y)
    | _, _ => none)

/-- A winner's value as FP32 (R285). -/
def topkCode (v : FVal) : Nat :=
  if isNan v then 0x7FC00000
  else
    let c := (deliver 0x11 v .rne).1
    if c % 2 ^ 31 = 0 then 0 else c

def topkRecord (ws : List (Option (Nat × FVal))) : List Byte :=
  (ws.map (fun w => match w with
    | some (i, v) => leBytes 4 i ++ leBytes 4 (topkCode v)
    | none => leBytes 4 0xFFFFFFFF ++ leBytes 4 0)).flatten

/-- The winners of one group (R260). -/
def topkWinners (s : State) (k : Nat) (c : PoolCmd) (v : SetView) (g : Group) : List (Option (Nat × FVal)) :=
  let o := offsOf (topkArgs c).1 0
  winners (g.mode == mMaxfwd) (topkK c)
    (candidates (readFibre s k v o g.astr g.arow 0) (readFibre s k v o g.bstr g.brow 0))

/-- One group's record and bits. -/
def topkGroup (k : Nat) (c : PoolCmd) (s : State) (gw : Group × List (Option (Nat × FVal))) : State :=
  let (g, ws) := gw
  let s1 := writeSpad s k (topkRec c g) (topkRecord ws)
  match (topkArgs c).2.2 with
  | none => s1
  | some rb =>
    (ws.filterMap (fun w => w.map (·.1))).foldl (fun t i =>
      let off := topkByte rb c g i
      writeSpad t k off [locByte t (.spad k off) 0 ||| BitVec.ofNat 8 (2 ^ (topkToken c g % 8))]) s1

/-- The byte of a group's fibre-folds or of its bitmap bytes that reads with an uncorrectable error, with the stream and
fibre of a fibre-fold. -/
def topkBad (s : State) (k : Nat) (c : PoolCmd) (v : SetView) (g : Group) : Option (Nat × Nat) :=
  let o := offsOf (topkArgs c).1 0
  match fibreBad s k v o g.astr g.arow 0, fibreBad s k v o g.bstr g.brow 0 with
  | some a, _ => some (a, g.astr + g.arow * 65536)
  | none, some a => some (a, g.bstr + g.brow * 65536)
  | none, none =>
    match (topkArgs c).2.2 with
    | none => none
    | some rb =>
      ((topkWinners s k c v g).filterMap (fun w => w.map (·.1))).findSome? (fun i =>
        (firstBad s k (topkByte rb c g i) 1).map (fun a => (a, 0)))

/-- The ECC fault of a member's tournament: of its first group that meets an error. -/
def topkFault (s : State) (m : Nat × Nat) : Option FaultRec :=
  match (partAt s m).bind (fun x => frontRun x false) with
  | none => none
  | some (r, v) =>
    ((compareGroups v).findSome? (topkBad s m.1 r.cmd v)).map (fun ai =>
      { poolRec r.cmd m.2 cEcc (spadPtr ai.1) with info0 := w64 ai.2 })

/-- A member's tournament ends: every operand has been read before a record is written (R286). With `stopped`, a member
of its set has met a fault and its fold lands nowhere (R519). -/
def topkOne (stopped : Bool) (s : State) (m : Nat × Nat) : State :=
  match (partAt s m).bind (fun x => frontRun x false) with
  | none => s
  | some (r, v) =>
    let flt := topkFault s m
    let gs := if stopped then [] else (compareGroups v).filter (fun g => (topkBad s m.1 r.cmd v g).isNone)
    let won := gs.map (fun g => (g, topkWinners s m.1 r.cmd v g))
    modPart (won.foldl (topkGroup m.1 r.cmd) s) m.1 m.2 (fun y => setFront y (fun r => { r with
      done := if stopped || flt.isSome then 0 else 1, fault := flt }))

/-- PTOPK_COMPLETE: the records are written, on every member. -/
def execPtopkComplete (core part : Nat) (s : State) : Out :=
  onPart core part s (fun x s =>
    let ms := memberSet s core part
    if !allParts s ms (fun _ y => (frontRun y false).isSome) then ev s
    else
      let stopped := x.gang.isSome && ms.any (fun m => (topkFault s m).isSome)
      .next (settleAll (endSet (ms.foldl (topkOne stopped) s) ms) ms))

end Sys2Proof.Machine
end

