-- ==== Sys2Proof/Machine/PoolDrain.lean ====
section
/-!
DEFINITION. The drain queue: clears and drains, their interlock with operand commands, and the conversion of entries
into a scratchpad tensor (R266, R279, R288, R289, R424).
-/
namespace Sys2Proof.Machine

/-! ## The interlock (R266) -/

/-- An operand command issued before has not started. -/
def opsBefore (x : Part) (seq : Nat) : Bool := x.opq.any (fun c => decide (c.seq < seq))

/-- A started command issued before may still update one of the drain's entries. -/
def updatesPending (x : Part) (c : PoolCmd) : Bool :=
  x.runs.any (fun r => decide (r.cmd.seq < c.seq) &&
    (if opEnded r then r.flight.any (fun f => f.updates.any (fun u => drainHas x c u.entry))
     else (cmdEntries x r.cmd).any (drainHas x c)))

/-- The head of the drain queue starts, once the entries that it names have had their earlier updates: what has started
completes, whatever stops the partition's folds (R266, R484). -/
def startDrain (clear : Bool) (core part : Nat) (s : State) : Out :=
  onPart core part s (fun x s =>
    match x.drq, x.drRun with
    | c :: rest, none =>
      let isClear := match c.op with | .clear _ _ => true | _ => false
      if isClear != clear || x.stop || !ctxActive s x.ctx || !classOpen s c.ctx c.oc || opsBefore x c.seq || updatesPending x c then ev s
      else .next (putPart s core part { x with drq := rest, drRun := some c })
    | _, _ => ev s)

/-- CLEAR_START. -/
def execClearStart (core part : Nat) (s : State) : Out := startDrain true core part s
/-- DRAIN_START. -/
def execDrainStart (core part : Nat) (s : State) : Out := startDrain false core part s

/-- CLEAR_COMPLETE (R279): zero entries without poison. -/
def execClearComplete (core part : Nat) (s : State) : Out :=
  onPart core part s (fun x s =>
    match x.drRun with
    | none => ev s
    | some c =>
      match c.op with
      | .clear f n =>
        if updatesPending x c then ev s
        else
          let out (e : Nat) : Bool := !(decide (x.abase + f ≤ e) && decide (e < x.abase + f + n))
          let s1 := modCore s core (fun q => { q with
            acc := q.acc.filter (fun kv => out kv.1), poison := q.poison.filter out,
            badAcc := q.badAcc.filter out })
          .next (endCmd (putPart s1 core part { x with drRun := none }) core c none)
      | _ => ev s)

/-! ## Conversion (R288, R289) -/

/-- A drain's operands. -/
structure DrainArgs where
  handle : Word
  record : List Word
  c0     : Word
  c1     : Word
  rect   : Word
  band   : Option Nat
  rm     : Nat
  clr    : Bool
  int    : Bool
  deriving DecidableEq, Repr

/-- A drain in the middle: the state, its counts, the lowest poisoned entry written. -/
structure DrainRun where
  s   : State
  exc : Exc
  met : List Nat
  deriving Repr

/-- Row, column and entry of the elements, in order. -/
def drainElems (x : Part) (rect : Word) : List (Nat × Nat × Nat) :=
  (List.range (rectRows rect)).flatMap (fun r =>
    (List.range (rectCols rect)).map (fun c => (r, c, x.abase + rectE0 rect + r * rectStride rect + c)))

/-- The coordinates of an element, if it is in bounds. -/
def drainCoord (d : DrainArgs) (row col : Nat) : Option Coord :=
  let o := coordOf d.c0 d.c1
  let c : Coord := { o with x := o.x + col, y := o.y + row }
  if inBounds d.record c then some c else none

/-- The band scale of a row (R288): its value, or the fault. Where BSB + 2·(row div 64) is outside SPAD, the drain ends
with ADDR_SPACE (DESIGN CHOICE, log 105). -/
def bandScale (s : State) (w : Who) (off row : Nat) : Except (Nat × Word) (Option FVal) :=
  let p := spadPtr (off + 2 * (row / 64))
  match decodePtr p with
  | some sp =>
    (match locate s w sp 2 .load with
     | .error c => .error (c, p)
     | .ok (l, s1) =>
       if locBad s1 l 2 then .error (cEcc, p)
       else
         let b := locRead s1 l 2
         if bandOk b then .ok (some (widen 0x12 b)) else .error (cAccess, p))
  | none => .error (cAddrSpace, p)

/-- Every band scale of the rectangle is sound. -/
def bandFault (s : State) (w : Who) (d : DrainArgs) : Option (Nat × Word) :=
  match d.band with
  | none => none
  | some off => (List.range ((rectRows d.rect + 63) / 64)).findSome? (fun i =>
      match bandScale s w off (64 * i) with
      | .error e => some e
      | .ok _ => none)

/-- The exact value of an element: its entry, times its band scale as it stands when the element is delivered. A scale
that the drain itself has overwritten with one that is not valid leaves the value unmultiplied (DESIGN CHOICE, log 105). -/
def drainValue (s : State) (w : Who) (core : Nat) (d : DrainArgs) (row e : Nat) : FVal :=
  let v := widen (if d.int then 0x04 else 0x11) (accEntry (getCore s core) e).toNat
  match d.band with
  | none => v
  | some off => (match bandScale s w off row with | .ok (some b) => exactMul v b | _ => v)

/-- A value delivered to an element of a mapping (R288, R97): code and counts. -/
def drainCode (s : State) (w : Who) (m : List Word) (c : Coord) (v : FVal) (poisoned : Bool) (md : Rnd) :
    Except (Nat × Word) (Nat × Exc × State) :=
  if poisoned && !fmtIsBlock (tFmt m) then .ok (fmtDefaultNan (tFmt m), excNone, s)
  else if fmtIsInt (tFmt m) && isNan v then .ok (0, excNanr, s)
  else match narrowElem s w m c (if poisoned then defaultNan else v) true md with
    | .error e => .error e
    | .ok (k, ex, s1) => .ok (k, if poisoned then excNone else { ex with flags := 0 }, s1)

/-- CLR: an entry that is not poisoned becomes +0. -/
def clearEntry (clr : Bool) (core e : Nat) (s : State) : State :=
  if clr && !accPoisoned (getCore s core) e then modCore s core (fun q => { q with acc := tabSet 0 q.acc e 0 })
  else s

def drainMode (d : DrainArgs) (row col phase : Nat) : Rnd := rndOf d.rm (ditherAt row col phase)

/-- One element of a drain. -/
def drainElem (w : Who) (core phase : Nat) (d : DrainArgs) (t : DrainRun) (el : Nat × Nat × Nat) :
    Except ((Nat × Word) × DrainRun) DrainRun :=
  let (row, col, e) := el
  match drainCoord d row col with
  | none => .ok { t with s := clearEntry d.clr core e t.s }
  | some c =>
    let pois := accPoisoned (getCore t.s core) e
    let met := if pois then e :: t.met else t.met
    match mapWrite t.s (d.handle.toNat % 16384) d.record c with
    | .error f => .error (f, t)
    | .ok m =>
      match drainCode t.s w m c (drainValue t.s w core d row e) pois (drainMode d row col phase) with
      | .error f => .error (f, t)
      | .ok (k, ex, s1) =>
        match writeElem s1 w m c k with
        | .error f => .error (f, t)
        | .ok s2 => .ok ⟨clearEntry d.clr core e s2, excJoin t.exc ex, met⟩

/-- Poisoned inputs add nothing to NANR (R289). -/
def mxCounts (f : Nat) (ex : Exc) (poisoned : Nat) : Exc :=
  { ex with flags := 0, nanr := if f ≥ 0x22 then ex.nanr - poisoned else ex.nanr }

/-- An in-bounds element of a block: its coordinates, its row, column and entry, and the mapping that its write uses
(R424). -/
structure BlockElem where
  at_ : Coord
  el  : Nat × Nat × Nat
  map : List Word
  deriving DecidableEq, Repr

def blockElems (s : State) (d : DrainArgs) : List (Nat × Nat × Nat) → Except (Nat × Word) (List BlockElem)
  | [] => .ok []
  | el :: els =>
    match drainCoord d el.1 el.2.1 with
    | none => blockElems s d els
    | some c =>
      match mapWrite s (d.handle.toNat % 16384) d.record c with
      | .error f => .error f
      | .ok m =>
        match blockElems s d els with
        | .error f => .error f
        | .ok bs => .ok (⟨c, el, m⟩ :: bs)

def elemsOneByOne (w : Who) (core phase : Nat) (d : DrainArgs) (t : DrainRun) (els : List (Nat × Nat × Nat)) :
    Except ((Nat × Word) × DrainRun) DrainRun :=
  els.foldl (fun r el => match r with | .ok u => drainElem w core phase d u el | .error e => .error e) (.ok t)

/-- A run of 32 elements of one row as an MX block over its in-bounds elements (R98, R288). Where a conversion sends a
part of them to a mapping that is no MX block, that part is delivered element by element, the rest under the scale of the
whole block (DESIGN CHOICE, log 89). -/
def drainBlock (w : Who) (core phase : Nat) (d : DrainArgs) (t : DrainRun) (els : List (Nat × Nat × Nat)) :
    Except ((Nat × Word) × DrainRun) DrainRun :=
  match blockElems t.s d els with
  | .error f => .error (f, t)
  | .ok ins =>
    let mx := ins.filter (fun b => fmtIsMx (tFmt b.map))
    let apart := (ins.filter (fun b => !fmtIsMx (tFmt b.map))).map (fun b => b.el)
    match mx with
    | [] => elemsOneByOne w core phase d t els
    | b0 :: _ =>
      let f := tFmt b0.map
      let pois (b : BlockElem) : Bool := accPoisoned (getCore t.s core) b.el.2.2
      let val (b : BlockElem) : FVal := if pois b then defaultNan else drainValue t.s w core d b.el.1 b.el.2.2
      let mode (b : BlockElem) : Rnd := drainMode d b.el.1 b.el.2.1 phase
      let r := toMx f (ins.map val) (ins.map mode)
      let met := (mx.filter pois).map (fun b => b.el.2.2)
      let counts : Exc := if apart.isEmpty || r.1 == 255 then mxCounts f r.2.2 (ins.filter pois).length
        else { excJoinList ((mx.filter (fun b => !pois b)).map (fun b => (scaledCode b.map (r.1, 0) (val b) true (mode b)).2))
               with flags := 0 }
      let put := ((ins.zip r.2.1).filter (fun bk => mx.contains bk.1)).foldl (fun (u : Except (Nat × Word) State) bk =>
        match u with
        | .error e => .error e
        | .ok u1 => writeCode u1 w bk.1.map bk.1.at_ bk.2) (.ok t.s)
      match put with
      | .error e => .error (e, t)
      | .ok s1 =>
        match placeBytes s1 w .store [scalePtr b0.map b0.at_] with
        | .error e => .error (e, t)
        | .ok (ls, s2) =>
          let rest := els.filter (fun el => !apart.contains el)
          elemsOneByOne w core phase d
            ⟨rest.foldl (fun u el => clearEntry d.clr core el.2.2 u) (writeLocs s2 ls [BitVec.ofNat 8 r.1]),
             excJoin t.exc counts, met ++ t.met⟩ apart

/-- Groups of 32 consecutive elements; rows hold multiples of 32 of them for an MX destination (R287). -/
def groups32 : (n : Nat) → List (Nat × Nat × Nat) → List (List (Nat × Nat × Nat))
  | 0, _ => []
  | n + 1, l => l.take 32 :: groups32 n (l.drop 32)

def drainFold (w : Who) (core phase : Nat) (d : DrainArgs) :
    DrainRun → List (List (Nat × Nat × Nat)) → Except ((Nat × Word) × DrainRun) DrainRun
  | t, [] => .ok t
  | t, g :: gs =>
    match (if fmtIsMx (tFmt d.record) then drainBlock w core phase d t g
        else match g with | el :: _ => drainElem w core phase d t el | [] => .ok t) with
    | .error e => .error e
    | .ok u => drainFold w core phase d u gs

def drainAll (w : Who) (core phase : Nat) (d : DrainArgs) (x : Part) (s : State) :
    Except ((Nat × Word) × DrainRun) DrainRun :=
  let els := drainElems x d.rect
  drainFold w core phase d ⟨s, excNone, []⟩
    (if fmtIsMx (tFmt d.record) then groups32 ((els.length + 31) / 32) els else els.map (fun e => [e]))

/-- Some element waits for its conversion unit (R424). -/
def drainWaits (s : State) (d : DrainArgs) : Bool :=
  (List.range (rectRows d.rect)).any (fun r => (List.range (rectCols d.rect)).any (fun c =>
    match drainCoord d r c with
    | none => false
    | some k => mapWaits s (d.handle.toNat % 16384) d.record k))

/-- The drain has ended: its counts, the dither phase, and its cause by R551. -/
def endDrain (s : State) (core part : Nat) (c : PoolCmd) (ex : Exc) (met : List Nat) (f : Option (Nat × Word)) :
    State :=
  let s1 := modPart s core part (fun x => { x with drRun := none, phase := (x.phase + 1) % 16 })
  let a := addCounts s1 core part ex
  let counts := match getPart a.2 core part with | some x => x.counts | none => ⟨0, 0, 0⟩
  let flt := match f with
    | some e => some (poolRec c part e.1 e.2)
    | none =>
      if !met.isEmpty then some { poolRec c part cPoison (accPtr (lowest met)) with info1 := w64 (lowest met) }
      else if a.1 then some { poolRec c part cArith 0 with info2 := countsWord counts }
      else none
  let ms := memberSet a.2 core part
  endCmd (settleAll a.2 ms) core c flt

/-- DRAIN_COMPLETE (R289): every element is read, converted and written. -/
def execDrainComplete (core part : Nat) (s : State) : Out :=
  onPart core part s (fun x s =>
    match x.drRun with
    | none => ev s
    | some c =>
      match c.op with
      | .drain h r c0 c1 rect band rm clr int =>
        let d : DrainArgs := ⟨h, r, c0, c1, rect, band, rm, clr, int⟩
        if updatesPending x c || drainWaits s d then ev s
        else match bandFault s (poolWho c) d with
          | some e => .next (endDrain s core part c excNone [] (some e))
          | none =>
            match drainAll (poolWho c) core x.phase d x s with
            | .error (e, t) => .next (endDrain t.s core part c t.exc t.met (some e))
            | .ok t => .next (endDrain t.s core part c t.exc t.met none)
      | _ => ev s)

end Sys2Proof.Machine
end

