-- ==== Sys2Proof/Machine/Routing.lean ====
section
/-!
DEFINITION. Routing bitmaps: RBSET, RIDX, RRANK, RSEL and RHIST, scalar and vector (R442-R453).
-/
namespace Sys2Proof.Machine

/-! ## Descriptors and keys (R443, R444, R447) -/

structure Rdesc where
  nsb  : Nat
  ne   : Nat
  rbs  : Nat
  base : Nat
  deriving DecidableEq, Repr

def rdescOf (w : Word) : Option Rdesc :=
  let n := w.toNat
  let d : Rdesc := ⟨bitsOf n 63 56, bitsOf n 55 47, bitsOf n 37 22, bitsOf n 21 0⟩
  if bitsOf n 46 38 = 0 ∧ 1 ≤ d.nsb ∧ d.nsb ≤ 128 ∧ 1 ≤ d.ne ∧ d.ne ≤ 256 ∧ d.rbs % 64 = 0 ∧ 64 * d.nsb ≤ d.rbs
      ∧ d.base % 64 = 0 then some d else none

/-- Expert and index of a key of 32 bits; RSEL takes any index. -/
def keyOf (d : Rdesc) (sel : Bool) (k : Nat) : Option (Nat × Nat) :=
  let e := bitsOf k 23 16
  let i := k % 65536
  if k / 2 ^ 24 = 0 ∧ e < d.ne ∧ (sel ∨ i < 512 * d.nsb) then some (e, i) else none

/-- DOFF and COFF. -/
def dirOff (w : Word) : Option Nat := if w.toNat / 2 ^ 22 = 0 ∧ w.toNat % 4 = 0 then some w.toNat else none

def bitmapOff (d : Rdesc) (e : Nat) : Nat := d.base + e * d.rbs
def sblockOff (d : Rdesc) (e s : Nat) : Nat := bitmapOff d e + 64 * s
def dirWord (d : Rdesc) (doff e s : Nat) : Nat := doff + 4 * ((d.nsb + 1) * e + s)

/-! ## Accesses of the executing context (R447, R453) -/

/-- The checks on one unit of 1, 4 or 8 bytes; no EARLY_READ among them (R412). -/
def touch (s : State) (off n : Nat) (kind : AccKind) : Except FaultRec Unit :=
  if !inSpadWindow s s.cur off n then .error (recOf s cAccess (spadPtr off))
  else match openWith false s (spadPtr off) n kind false with
    | .error r => .error r
    | .ok _ => .ok ()

/-- n words from an offset. -/
def wordsAt (off n : Nat) : List Nat := (List.range n).map (fun i => off + 4 * i)

/-- The checks of a word that do not depend on what it holds: those of `touch` but for the check code. -/
def watchWord (s : State) (kind : AccKind) (off : Nat) : Option FaultRec :=
  match touch s off 4 kind with
  | .error r => if r.cause = cEcc then none else some r
  | .ok _ => none

/-- The checks before an instruction that touches many words: every word read or written against the window first (R447,
step 3 of R125), then each as `watchWord` checks it. -/
def touchAll (s : State) (reads writes : List Nat) : Option FaultRec :=
  match (reads ++ writes).find? (fun o => !inSpadWindow s s.cur o 4) with
  | some o => some (recOf s cAccess (spadPtr o))
  | none =>
    match reads.findSome? (watchWord s .load) with
    | some r => some r
    | none => writes.findSome? (watchWord s .store)

def mySpad (s : State) (off n : Nat) : Nat := spadNat s (myCore s) off n
def putMySpad (s : State) (off : Nat) (bs : List Byte) : State := writeSpad s (myCore s) off bs

/-- An instruction of the class OC on a descriptor. -/
def onDesc (oc : BitVec 2) (a : BitVec 6) (f : State → Rdesc → Exe) (s : State) : Exe :=
  if writeHeld s ⟨oc, 0, 0⟩ then .stall s
  else match rdescOf (rg s a) with
    | none => .fault (recPc s cAccess) s
    | some d => f s d

/-- The same on a scalar key. -/
def onKey (oc : BitVec 2) (a c : BitVec 6) (sel : Bool) (f : State → Rdesc → Nat → Nat → Exe) : State → Exe :=
  onDesc oc a (fun s d =>
    if (rg s c).toNat / 2 ^ 32 ≠ 0 then .fault (recPc s cAccess) s
    else match keyOf d sel (rg s c).toNat with
      | none => .fault (recPc s cAccess) s
      | some (e, i) => f s d e i)

/-! ## RBSET (R448) -/

def clearBitmaps (d : Rdesc) (s : State) : State :=
  (List.range d.ne).foldl (fun t e => putMySpad t (bitmapOff d e) (List.replicate (64 * d.nsb) 0)) s

def rbsetClrBody (oc : BitVec 2) (a : BitVec 6) : State → Exe :=
  onDesc oc a (fun s d =>
    match touchAll s [] ((List.range d.ne).flatMap (fun e => wordsAt (bitmapOff d e) (16 * d.nsb))) with
    | some r => .fault r s
    | none => .retire (clearBitmaps d s))
def execRbsetClr (h : Hdr) (oc : BitVec 2) (a : BitVec 6) (s : State) : Out := issue1 h [a] [] (rbsetClrBody oc a) s

/-- Bit t of a bitmap set or cleared: one read and write of its byte. -/
def putBit (d : Rdesc) (e t : Nat) (set : Bool) (s : State) : Except FaultRec State :=
  let off := bitmapOff d e + t / 8
  match touch s off 1 .atomic with
  | .error r => .error r
  | .ok _ =>
    let b := BitVec.ofNat 8 (mySpad s off 1)
    let m := BitVec.ofNat 8 (2 ^ (t % 8))
    .ok (putMySpad s off [if set then b ||| m else b &&& ~~~ m])

def rbsetBitBody (oc : BitVec 2) (a c : BitVec 6) (set : Bool) : State → Exe :=
  onKey oc a c false (fun s d e t =>
    match putBit d e t set s with
    | .error r => .fault r s
    | .ok u => .retire u)
def execRbsetSet (h : Hdr) (oc : BitVec 2) (a c : BitVec 6) (s : State) : Out :=
  issue1 h [a, c] [] (rbsetBitBody oc a c true) s
def execRbsetUnset (h : Hdr) (oc : BitVec 2) (a c : BitVec 6) (s : State) : Out :=
  issue1 h [a, c] [] (rbsetBitBody oc a c false) s

/-! ## RIDX and RHIST (R449) -/

/-- A run of words: the state, or an uncorrectable error with the words written before it (R451). -/
abbrev WordRun := Except (FaultRec × State) State

/-- The set bits of superblock i of bitmap e. -/
def sblockCount (s : State) (d : Rdesc) (e i : Nat) : Except (FaultRec × State) Nat :=
  match firstBad s (myCore s) (sblockOff d e i) 64 with
  | some a => .error (recOf s cEcc (spadPtr a), s)
  | none => .ok (popcount 512 (mySpad s (sblockOff d e i) 64))

/-- d_e[i + 1] for n superblocks from i on, d_e[i] being `acc`; each word is written before the next is read. -/
def indexRow (d : Rdesc) (doff e : Nat) : (n i acc : Nat) → State → WordRun
  | 0, _, _, s => .ok s
  | n + 1, i, acc, s =>
    match sblockCount s d e i with
    | .error r => .error r
    | .ok k => indexRow d doff e n (i + 1) (acc + k) (putMySpad s (dirWord d doff e (i + 1)) (leBytes 4 (acc + k)))

/-- The directory of every bitmap. -/
def buildIndex (d : Rdesc) (doff : Nat) : List Nat → State → WordRun
  | [], s => .ok s
  | e :: es, s =>
    match indexRow d doff e d.nsb 0 0 (putMySpad s (dirWord d doff e 0) (leBytes 4 0)) with
    | .error r => .error r
    | .ok t => buildIndex d doff es t

/-- The words of every bitmap. -/
def bitmapWords (d : Rdesc) : List Nat := (List.range d.ne).flatMap (fun e => wordsAt (bitmapOff d e) (16 * d.nsb))

def ridxBody (oc : BitVec 2) (a b : BitVec 6) : State → Exe :=
  onDesc oc a (fun s d =>
    match dirOff (rg s b) with
    | none => .fault (recPc s cAccess) s
    | some doff =>
      match touchAll s (bitmapWords d) (wordsAt doff ((d.nsb + 1) * d.ne)) with
      | some r => .fault r s
      | none =>
        match buildIndex d doff (List.range d.ne) s with
        | .error (r, t) => .fault r t
        | .ok t => .retire t)
def execRidx (h : Hdr) (oc : BitVec 2) (a b : BitVec 6) (s : State) : Out := issue1 h [a, b] [] (ridxBody oc a b) s

/-- The set bits of n superblocks of bitmap e, from superblock i on. -/
def bitmapCount (s : State) (d : Rdesc) (e : Nat) : (n i : Nat) → Except (FaultRec × State) Nat
  | 0, _ => .ok 0
  | n + 1, i =>
    match sblockCount s d e i with
    | .error r => .error r
    | .ok k =>
      match bitmapCount s d e n (i + 1) with
      | .error r => .error r
      | .ok m => .ok (k + m)

/-- The count of each expert, written before the next bitmap is read, and their sum. -/
def writeHist (d : Rdesc) (coff : Nat) : List Nat → Nat → State → Except (FaultRec × State) (Nat × State)
  | [], total, s => .ok (total, s)
  | e :: es, total, s =>
    match bitmapCount s d e d.nsb 0 with
    | .error r => .error r
    | .ok n => writeHist d coff es (total + n) (putMySpad s (coff + 4 * e) (leBytes 4 n))

def rhistBody (oc : BitVec 2) (dst a c : BitVec 6) : State → Exe :=
  onDesc oc a (fun s d =>
    match dirOff (rg s c) with
    | none => .fault (recPc s cAccess) s
    | some coff =>
      match touchAll s (bitmapWords d) (wordsAt coff d.ne) with
      | some r => .fault r s
      | none =>
        match writeHist d coff (List.range d.ne) 0 s with
        | .error (r, t) => .fault r t
        | .ok (total, t) => .retire (wg t dst (w64 total)))
def execRhist (h : Hdr) (oc : BitVec 2) (d a c : BitVec 6) (s : State) : Out := issue1 h [a, c] [d] (rhistBody oc d a c) s

/-! ## RRANK and RSEL (R450) -/

/-- A directory word, checked. -/
def dirRead (s : State) (d : Rdesc) (doff e i : Nat) : Except FaultRec Nat :=
  match touch s (dirWord d doff e i) 4 .load with
  | .error r => .error r
  | .ok _ => .ok (mySpad s (dirWord d doff e i) 4)

/-- The result word of RRANK. -/
def rankWord (s : State) (d : Rdesc) (doff e t : Nat) : Except FaultRec Nat :=
  let off := sblockOff d e (t / 512)
  match touchAll s (dirWord d doff e (t / 512) :: wordsAt off 16) [] with
  | some r => .error r
  | none =>
    match dirRead s d doff e (t / 512) with
    | .error r => .error r
    | .ok dw =>
      match firstBad s (myCore s) off 64 with
      | some a => .error (recOf s cEcc (spadPtr a))
      | none =>
        let sb := mySpad s off 64
        .ok ((if sb.testBit (t % 512) then 0 else 2 ^ 31) + (dw + popcount (t % 512) sb) % 65536)

/-- The binary search of RSEL: the superblock. -/
def selSearch (s : State) (d : Rdesc) (doff e j : Nat) : (fuel : Nat) → (lo hi : Nat) → Except FaultRec Nat
  | 0, lo, _ => .ok lo
  | f + 1, lo, hi =>
    if lo < hi then
      let mid := (lo + hi + 1) / 2
      match dirRead s d doff e mid with
      | .error r => .error r
      | .ok w => if w ≤ j then selSearch s d doff e j f mid hi else selSearch s d doff e j f lo (mid - 1)
    else .ok lo

/-- The position of the set bit of ordinal c in n bits. -/
def nthSet (n v c : Nat) : Option Nat :=
  (List.range n).find? (fun i => v.testBit i && popcount i v == c)

/-- The scan of RSEL: the set bit of ordinal c in n words of 64 bits from word i on of the superblock at `off`. -/
def selScan (s : State) (off : Nat) : (n i c : Nat) → Except FaultRec (Option Nat)
  | 0, _, _ => .ok none
  | n + 1, i, c =>
    match touch s (off + 8 * i) 8 .load with
    | .error r => .error r
    | .ok _ =>
      let v := mySpad s (off + 8 * i) 8
      match nthSet 64 v c with
      | some p => .ok (some (64 * i + p))
      | none => selScan s off n (i + 1) (c - popcount 64 v)

/-- The result word of RSEL. -/
def selWord (s : State) (d : Rdesc) (doff e j : Nat) : Except FaultRec Nat :=
  match selSearch s d doff e j 8 0 (d.nsb - 1) with
  | .error r => .error r
  | .ok lo =>
    match dirRead s d doff e lo with
    | .error r => .error r
    | .ok w =>
      if j < w then .ok (2 ^ 31)
      else match selScan s (sblockOff d e lo) 8 0 (j - w) with
        | .error r => .error r
        | .ok none => .ok (2 ^ 31)
        | .ok (some p) => .ok ((512 * lo + p) % 65536)

def searchBody (oc : BitVec 2) (dst a b c : BitVec 6) (sel : Bool)
    (f : State → Rdesc → Nat → Nat → Nat → Except FaultRec Nat) : State → Exe :=
  onDesc oc a (fun s d =>
    match dirOff (rg s b) with
    | none => .fault (recPc s cAccess) s
    | some doff =>
      onKey oc a c sel (fun s _ e i =>
        match f s d doff e i with
        | .error r => .fault r s
        | .ok w => .retire (wg s dst (w64 w))) s)
def execRrank (h : Hdr) (oc : BitVec 2) (d a b c : BitVec 6) (s : State) : Out :=
  issue1 h [a, b, c] [d] (searchBody oc d a b c false rankWord) s
def execRsel (h : Hdr) (oc : BitVec 2) (d a b c : BitVec 6) (s : State) : Out :=
  issue1 h [a, b, c] [d] (searchBody oc d a b c true selWord) s

/-! ## Vector forms (R452) -/

def capAB (a b : BitVec 6) (s : State) : Captured := ⟨rg s a, rg s b, 0, 0⟩

/-- A vector form whose descriptor and directory offset are sound enters the queue. -/
def rvBody (i : Instr) (a : BitVec 6) (dir : Option (BitVec 6)) (skip : Bool) (cap : State → Captured) (s : State) : Exe :=
  let dirOk := match dir with | some b => (dirOff (rg s b)).isSome | none => true
  if (rdescOf (rg s a)).isNone || !dirOk then .fault (recPc s cAccess) s
  else vissueBody i (vkMem skip) cap s

def execRbsetSetV (h : Hdr) (oc : BitVec 2) (a : BitVec 6) (c : BitVec 5) (msk : BitVec 3) (skip : Bool) (s : State) : Out :=
  issue1 h [a] [] (rvBody (.rbsetSetV h oc a c msk skip) a none skip (capA a)) s
def execRbsetUnsetV (h : Hdr) (oc : BitVec 2) (a : BitVec 6) (c : BitVec 5) (msk : BitVec 3) (skip : Bool) (s : State) : Out :=
  issue1 h [a] [] (rvBody (.rbsetUnsetV h oc a c msk skip) a none skip (capA a)) s
def execRrankV (h : Hdr) (oc : BitVec 2) (d : BitVec 5) (a b : BitVec 6) (c : BitVec 5) (msk : BitVec 3) (skip : Bool)
    (s : State) : Out :=
  issue1 h [a, b] [] (rvBody (.rrankV h oc d a b c msk skip) a (some b) skip (capAB a b)) s
def execRselV (h : Hdr) (oc : BitVec 2) (d : BitVec 5) (a b : BitVec 6) (c : BitVec 5) (msk : BitVec 3) (skip : Bool)
    (s : State) : Out :=
  issue1 h [a, b] [] (rvBody (.rselV h oc d a b c msk skip) a (some b) skip (capAB a b)) s

/-- The key of a lane under the entry's descriptor. -/
def laneKey (s : State) (e : VEntry) (c : BitVec 5) (sel : Bool) (j : Nat) : Except FaultRec (Rdesc × Nat × Nat) :=
  match rdescOf e.x with
  | none => .error (recPc s cAccess)
  | some d =>
    match keyOf d sel (lane (vreg s c.toNat) j) with
    | none => .error (recPc s cAccess)
    | some ei => .ok (d, ei)

def bitLane (e : VEntry) (c : BitVec 5) (set : Bool) (j : Nat) (s : State) : Except FaultRec State :=
  match laneKey s e c false j with
  | .error r => .error r
  | .ok (d, x, t) => putBit d x t set s

def runRbsetV (oc : BitVec 2) (c : BitVec 5) (msk : BitVec 3) (skip set : Bool) (e : VEntry) (s : State) : VOut :=
  vecMem true e ⟨oc, 0, 0⟩ msk skip skipsRec (bitLane e c set) s

/-- The result of a lane, from the keys `src` as the instruction found them. -/
def searchLane (e : VEntry) (dst : BitVec 5) (src : State) (c : BitVec 5) (sel : Bool)
    (f : State → Rdesc → Nat → Nat → Nat → Except FaultRec Nat) (j : Nat) (s : State) : Except FaultRec State :=
  match laneKey src e c sel j with
  | .error r => .error r
  | .ok (d, x, i) =>
    match f s d (e.y.toNat % 2 ^ 22) x i with
    | .error r => .error r
    | .ok w => .ok (setMe s (ctxSetV (me s) dst.toNat (setLane (vreg s dst.toNat) j w)))

def runRrankV (oc : BitVec 2) (d c : BitVec 5) (msk : BitVec 3) (skip : Bool) (e : VEntry) (s : State) : VOut :=
  vecMem false e ⟨oc, 0, 0⟩ msk skip skipsRec (searchLane e d s c false rankWord) s
def runRselV (oc : BitVec 2) (d c : BitVec 5) (msk : BitVec 3) (skip : Bool) (e : VEntry) (s : State) : VOut :=
  vecMem false e ⟨oc, 0, 0⟩ msk skip skipsRec (searchLane e d s c true selWord) s

end Sys2Proof.Machine
end

