-- ==== Sys2Proof/Machine/Place.lean ====
section
/-!
DEFINITION. The configuration composer: PLACE at issue, the template table, the allocation of units, the composed set,
and the composer's two steps (R454-R462).
-/
namespace Sys2Proof.Machine

/-! ## Issue (R456) -/

/-- The commands of the composer's queue; those of a cohort that has stopped have left it (R461). -/
def placeWaiting (s : State) (d : Nat) : List PlaceCmd := (getDie s d).placeq.filter (fun c => ctxActive s c.ctx)
/-- The composer's queue with the command that has started. -/
def placeLoad (s : State) (d : Nat) : Nat :=
  (placeWaiting s d).length + (if (getDie s d).placing.isSome then 1 else 0)

/-- The fields of PLACE's operands are within their limits. An HOFF or AOFF that is no multiple of 4 raises ACCESS as the
reserved bits do (DESIGN CHOICE, log 100: R456 gives the limit and its table names no fault for it). -/
def placeFieldsOk (ga gc gd : Nat) : Bool :=
  ga / 2 ^ 39 == 0 && bitsOf ga 31 22 == 0 && gc / 2 ^ 12 == 0 && gd / 2 ^ 22 == 0
  && decide (1 ≤ bitsOf ga 38 32) && decide (bitsOf ga 38 32 ≤ 64) && decide (1 ≤ gc) && decide (gc ≤ 3072)
  && bitsOf ga 21 0 % 4 == 0 && gd % 4 == 0

/-- The first condition of R456 that a PLACE of partition p meets. -/
def placeBad (s : State) (p : Nat) (x : Part) (ga gb gc gd : Word) : Option Bad :=
  let e := bitsOf ga.toNat 38 32
  let d := dieOfCtx s.cur
  let holder := holderOf x (myCore s) p
  if !placeFieldsOk ga.toNat gc.toNat gd.toNat then some (cAccess, none)
  else if !inSpadWindow s s.cur (bitsOf ga.toNat 21 0) (4 * e) || !inSpadWindow s s.cur gd.toNat (4 * e) then
    some (cAccess, none)
  else if ptrSpace gb != 0 || (decodePtr gb).isNone then some (cAddrSpace, some gb)
  else if gb.toNat % 64 ≠ 0 then some (cAlign, some gb)
  else if 2 < (slotsHeld s d holder).length + ((getDie s d).placeq.filter (fun c => c.holder == holder)).length + 1 then
    some (cAccess, none)
  else none

def placeBody (cnt : BitVec 5) (oc : BitVec 2) (a b c d : BitVec 6) (s : State) : Exe :=
  let die := dieOfCtx s.cur
  if 64 ≤ placeLoad s die || decide (16 ≤ (me s).replies.length) || coreHeld s s.cur then .stall s
  else if !cntOwned s cnt then .fault (recPc s cAccess) s
  else match boundPart s with
    | none => .fault (recPc s cAccess) s
    | some (p, x) =>
      match placeBad s p x (rg s a) (rg s b) (rg s c) (rg s d) with
      | some bad => .fault (badRec s bad) s
      | none =>
        match counterAdd s (myCore s) cnt.toNat 1 with
        | none => .fault (recPc s cAccess) s
        | some s1 =>
          let r := reserveReply s1 s.cur
          let ga := (rg s a).toNat
          let cmd : PlaceCmd :=
            { ctx := s.cur, sv := (me s).sv, xspace := getCr s crXspace, pc := (me s).pc, oc := oc, cnt := cnt.toNat,
              key := some r.1, holder := holderOf x (myCore s) p, experts := bitsOf ga 38 32, hoff := bitsOf ga 21 0,
              tptr := rg s b, quads := (rg s c).toNat, aoff := (rg s d).toNat }
          .retire (modDie r.2 die (fun q => { q with placeq := q.placeq ++ [cmd] }))
def execPlace (h : Hdr) (cnt : BitVec 5) (oc : BitVec 2) (a b c d : BitVec 6) (s : State) : Out :=
  issue1 h [a, b, c, d] [] (placeBody cnt oc a b c d) s

/-! ## The template table (R457) -/

structure Template where
  part    : Nat
  umax    : Nat
  umin    : Nat
  uq      : Nat
  rowstep : Nat
  accstep : Nat
  accb    : Nat
  clean   : Bool
  deriving DecidableEq, Repr

def templateOf (bs : List Byte) : Template :=
  let d (i : Nat) : Nat := leNat ((bs.drop (8 * i)).take 8)
  { part := bitsOf (d 0) 55 0, umax := bitsOf (d 1) 35 24, umin := bitsOf (d 1) 23 12, uq := bitsOf (d 1) 11 0,
    rowstep := bitsOf (d 2) 45 34, accstep := bitsOf (d 2) 33 17, accb := bitsOf (d 2) 16 0,
    clean := bitsOf (d 0) 63 56 == 0 && bitsOf (d 1) 63 36 == 0 && bitsOf (d 2) 63 46 == 0 && d 3 == 0 }

/-- UQ is stated as 1-3072. -/
def templateOk (t : Template) : Bool :=
  t.clean && t.part % 64 == 0 && t.uq != 0 && decide (t.umin ≤ t.umax) && decide (t.uq * t.umax ≤ 3072)
  && decide (t.uq ≤ 3072)

def templatesOf : (n : Nat) → List Byte → List Template
  | 0, _ => []
  | n + 1, bs => templateOf (bs.take 32) :: templatesOf n (bs.drop 32)

/-! ## Allocation (R458) -/

def natMax (a b : Nat) : Nat := if a < b then b else a

/-- An expert in the allocation: its count, its template, the units it has. -/
structure Expert where
  n : Nat
  t : Template
  u : Nat
  deriving DecidableEq, Repr

def expertQuads (x : Expert) : Nat := x.u * x.t.uq
def quadsUsed (es : List Expert) : Nat := es.foldl (fun acc x => acc + expertQuads x) 0

/-- The units of the first pass. -/
def firstUnits (q total : Nat) (x : Expert) : Expert :=
  if x.n = 0 then x
  else { x with u := natMax (natMin (q * x.n / total / x.t.uq) x.t.umax) x.t.umin }

/-- r_a > r_b, with r_e = Q n_e / (N UQ_e) - u_e. -/
def residualGt (q total : Nat) (a b : Expert) : Bool :=
  let num (x : Expert) : Int := (q * x.n : Nat) - (x.u * total * x.t.uq : Nat)
  decide (num a * (b.t.uq : Int) > num b * (a.t.uq : Int))

/-- The expert that takes the next unit; equal residuals go to the lowest. -/
def nextExpert (q total rem : Nat) (es : List Expert) : Option Nat :=
  let ok (x : Expert) : Bool := x.n != 0 && decide (x.u < x.t.umax) && decide (x.t.uq ≤ rem)
  (((List.range es.length).zip es).foldl (fun (best : Option (Nat × Expert)) ix =>
    if !ok ix.2 then best
    else match best with
      | none => some ix
      | some b => if residualGt q total ix.2 b.2 then some ix else best) none).map (·.1)

def giveUnits (q total : Nat) : (fuel rem : Nat) → List Expert → List Expert
  | 0, _, es => es
  | f + 1, rem, es =>
    match nextExpert q total rem es with
    | none => es
    | some i =>
      match es[i]? with
      | none => es
      | some x => giveUnits q total f (rem - x.t.uq) (es.set i { x with u := x.u + 1 })

/-- The units of every expert; none where the minimum units exceed the budget. -/
def allocate (q : Nat) (es : List Expert) : Option (List Expert) :=
  let total := es.foldl (fun acc x => acc + x.n) 0
  if total = 0 then some es
  else
    let first := es.map (firstUnits q total)
    if q < quadsUsed first then none
    else some (giveUnits q total 3073 (q - quadsUsed first) first)

/-- The experts with base_e. -/
def withBases : Nat → List Expert → List (Nat × Expert)
  | _, [] => []
  | b, x :: xs => (b, x) :: withBases (b + expertQuads x) xs

/-! ## The composed set (R459) -/

structure Composed where
  streams : List Nat
  groups  : List Nat
  fdep    : Option Bool
  deriving DecidableEq, Repr

/-- The words of one unit of an expert. -/
def unitGroups (v : SetView) (x : Expert) (base sb r : Nat) : List Nat :=
  (enabled v).map (fun g =>
    g.raw + (base + r * x.t.uq) + (x.t.accb + r * x.t.accstep) * 2 ^ 32 + r * x.t.rowstep * 2 ^ 66
      + sb * 2 ^ 52 + sb * 2 ^ 60)

/-- A shifted ACCIX or AROW stays in range in every unit. -/
def unitsFit (v : SetView) (x : Expert) : Bool :=
  (enabled v).all (fun g => (List.range x.u).all (fun r =>
    decide (g.accix + x.t.accb + r * x.t.accstep < 2 ^ 17) && decide (g.arow + r * x.t.rowstep < (aStr v g).rows)))

/-- One expert's partial is appended; none where R459 faults. -/
def appendPartial (c : Composed) (bs : List Byte) (base : Nat) (x : Expert) : Option Composed :=
  let v := setView bs
  let ns := v.streams.length
  let sb := c.streams.length
  if !setSound v || decide (x.t.uq < hdrQneed v.hdr) || !unitsFit v x
      || decide (64 < sb + ns) || decide (1024 < c.groups.length + x.u * (enabled v).length)
      || (match c.fdep with | some f => f != hdrFdep v.hdr | none => false) then none
  else some { streams := c.streams ++ words16 ns (bs.drop 64),
              groups := c.groups ++ (List.range x.u).flatMap (unitGroups v x base sb),
              fdep := some (hdrFdep v.hdr) }

/-- The bytes of the composed set. -/
def composedBytes (c : Composed) : List Byte :=
  let q := (c.groups.map (groupOf 0)).foldl (fun acc g => natMax acc (g.firstq + g.nquad)) 0
  let hdr := 1 + c.streams.length * 2 ^ 8 + (if c.fdep = some true then 2 ^ 15 else 0) + c.groups.length * 2 ^ 16
    + q * 2 ^ 32
  leBytes 64 hdr ++ (c.streams ++ c.groups).flatMap (leBytes 16)

/-! ## The composer's steps (R460, R461) -/

def placeWho (c : PlaceCmd) : Who := ⟨c.ctx, c.sv, c.xspace⟩

/-- A miss counts in the command's partition and in its context's PLSTALL, while they are still its own. -/
def notePlaceMiss (s : State) (c : PlaceCmd) : State :=
  let s1 := modPart s c.holder.2.1 c.holder.2.2 (fun x =>
    if x.coh = c.holder.1 ∧ x.ctx = c.ctx then { x with misses := (x.misses + 1) % 2 ^ 64 } else x)
  modCtx { s1 with freeCount := s1.freeCount + 1 } c.ctx (fun x =>
    if x.coh = some c.holder.1 then ctxSetCr x crPlstall (ctxCr x crPlstall + Config.missClk s1.freeCount) else x)

/-- One partial through the cache, its miss counted whether or not the fetch faults (R460). -/
def loadPartial (s : State) (c : PlaceCmd) (p : Word) : Except ((Nat × Word) × State) (List Byte × State) :=
  match loadSet s (dieOfCtx c.ctx) (placeWho c) p with
  | .error e =>
    .error (e, match cacheFind s (dieOfCtx c.ctx) (xspaceAsid c.xspace) (p.toNat % 2 ^ 56) with
      | none => notePlaceMiss s c
      | some _ => s)
  | .ok (bs, miss, s1) => .ok (bs, if miss then notePlaceMiss s1 c else s1)

/-- The partials of the experts that have units, in order; a fault comes with the state that it leaves. -/
def composeAll (c : PlaceCmd) :
    State → Composed → List (Nat × Expert) → Except ((Nat × Word) × State) (Composed × State)
  | s, acc, [] => .ok (acc, s)
  | s, acc, (base, x) :: xs =>
    if x.u = 0 then composeAll c s acc xs
    else
      match loadPartial s c (w64 x.t.part) with
      | .error e => .error e
      | .ok (bs, s1) =>
        match appendPartial acc bs base x with
        | none => .error ((cConfig, w64 x.t.part), s1)
        | some acc2 => composeAll c s1 acc2 xs

/-- The histogram's counts. -/
def histogram (s : State) (c : PlaceCmd) : List Nat :=
  (List.range c.experts).map (fun e => locRead s (.spad (coreOfCtx c.ctx) (c.hoff + 4 * e)) 4)

/-- What a PLACE composes: its experts with their bases, the set, the state with caches filled; or its fault, and the
state with the misses met before it. -/
def composePlace (s : State) (c : PlaceCmd) :
    Except ((Nat × Word) × State) (List (Nat × Expert) × Composed × State) :=
  match readDev (placeWho c) 32 s c.tptr (32 * c.experts) [] [] with
  | .error e => .error (e, s)
  | .ok (bs, _, s1) =>
    let ts := templatesOf c.experts bs
    match ((List.range c.experts).zip ts).find? (fun it => !templateOk it.2) with
    | some (i, _) => .error ((cConfig, c.tptr + w64 (32 * i)), s1)
    | none =>
      match firstBad s1 (coreOfCtx c.ctx) c.hoff (4 * c.experts) with
      | some a => .error ((cEcc, spadPtr a), s1)
      | none =>
        match allocate c.quads (((histogram s1 c).zip ts).map (fun nt => (⟨nt.1, nt.2, 0⟩ : Expert))) with
        | none => .error ((cConfig, c.tptr), s1)
        | some es =>
          match composeAll c s1 ⟨[], [], none⟩ (withBases 0 es) with
          | .error e => .error e
          | .ok (set, s2) => .ok (withBases 0 es, set, s2)

/-- PLACE_START: the head takes the lowest free slot. -/
def execPlaceStart (die : Nat) (s : State) : Out :=
  if 4 ≤ die then noAgent
  else
    match placeWaiting s die, (getDie s die).placing, slotIds.find? (fun i => (getSlot s die i).held.isNone) with
    | c :: _, none, some i =>
      if !classOpen s c.ctx c.oc then ev s else
      let s1 := modDie s die (fun q => { q with placeq := q.placeq.erase c, placing := some (c, i) })
      .next (putSlot s1 die i { getSlot s1 die i with held := some c.holder })
    | _, _, _ => ev s

def allocWord (be : Nat × Expert) : Nat := expertQuads be.2 + be.1 * 2 ^ 12

def placeRecord (c : PlaceCmd) (slot : Nat) (e : Nat × Word) : FaultRec :=
  { recBase e.1 6 c.ctx c.pc with cnt := some c.cnt, addr := e.2, info0 := w64 slot }

/-- The reply of R461. -/
def placeReply (s : State) (die slot : Nat) (es : List (Nat × Expert)) : Word :=
  w64 ((es.filter (fun be => be.2.u != 0)).length * 2 ^ 28 + quadsUsed (es.map (·.2)) * 2 ^ 16
    + (getSlot s die slot).gen.toNat * 2 ^ 7 + slot)

/-- PLACE_COMPLETE. A command whose partition was freed meanwhile has lost its slot but completes (R460): its allocation
record is written and its contribution subtracted; its context has EXITED and has no reply slot any more. -/
def execPlaceComplete (die : Nat) (s : State) : Out :=
  if 4 ≤ die then noAgent
  else match (getDie s die).placing with
    | none => ev s
    | some (c, i) =>
      let k := coreOfCtx c.ctx
      let mine := (getSlot s die i).held == some c.holder
      let s0 := modDie s die (fun q => { q with placing := none })
      let ended (t : State) (v : Reply) : State := counterSub (fillReplyOpt t c.ctx c.key v) k c.cnt 1 c.ctx c.pc
      match composePlace s0 c with
      | .error (e, t) =>
        let s1 := pushFault t k (placeRecord c i e)
        .next (markFaulted (ended (if mine then releaseSlot s1 die i else s1) .faulted) k c.cnt)
      | .ok (es, set, s1) =>
        let s2 := writeSpad s1 k c.aoff (es.flatMap (fun be => leBytes 4 (allocWord be)))
        let s3 := if mine then putSlot s2 die i { getSlot s2 die i with bytes := composedBytes set } else s2
        .next (ended s3 (.filled (placeReply s3 die i es)))

end Sys2Proof.Machine
end

