-- ==== Sys2Proof/Machine/VecXf.lean ====
section
/-!
DEFINITION. The six transcendental functions (R200): values in fixed point with 900 fraction bits, far below any
rounding boundary that an FP32 input can come near, then one delivery to FP32.
-/
namespace Sys2Proof.Machine

/-! ## Issue -/

def execVexp2 (h : Hdr) (d a : BitVec 5) (msk : BitVec 3) (zi : Bool) (s : State) : Out :=
  vissue h [] [] (.vexp2 h d a msk zi) vkFlags capNone s
def execVlog2 (h : Hdr) (d a : BitVec 5) (msk : BitVec 3) (zi : Bool) (s : State) : Out :=
  vissue h [] [] (.vlog2 h d a msk zi) vkFlags capNone s
def execVsin (h : Hdr) (d a : BitVec 5) (msk : BitVec 3) (zi : Bool) (s : State) : Out :=
  vissue h [] [] (.vsin h d a msk zi) vkFlags capNone s
def execVcos (h : Hdr) (d a : BitVec 5) (msk : BitVec 3) (zi : Bool) (s : State) : Out :=
  vissue h [] [] (.vcos h d a msk zi) vkFlags capNone s
def execVsinpi (h : Hdr) (d a : BitVec 5) (msk : BitVec 3) (zi : Bool) (s : State) : Out :=
  vissue h [] [] (.vsinpi h d a msk zi) vkFlags capNone s
def execVcospi (h : Hdr) (d a : BitVec 5) (msk : BitVec 3) (zi : Bool) (s : State) : Out :=
  vissue h [] [] (.vcospi h d a msk zi) vkFlags capNone s

/-! ## Fixed point -/

def fxBits : Nat := 900
def fxOne : Int := ((2 ^ fxBits : Nat) : Int)

/-- A fixed-point value as an exact value with a last bit that marks it inexact. -/
def fxVal (x : Int) : FVal := .fin (x < 0) (2 * x.natAbs + 1) (-(fxBits : Int) - 1)

/-- (mag * 2^exp) in fixed point; exact where exp is at least -900. -/
def fxOf (neg : Bool) (mag : Nat) (exp : Int) : Int :=
  let n : Int := if 0 ≤ exp + fxBits then ((mag <<< (exp + fxBits).toNat : Nat) : Int)
    else ((mag >>> (-(exp + fxBits)).toNat : Nat) : Int)
  if neg then -n else n

/-- The sum over i of sign^i * p_i / (2i+1), where p_i = p / k^(2i). -/
def atanGo (k2 : Int) (alt : Bool) : (fuel : Nat) → (p : Int) → (n : Int) → Int
  | 0, _, _ => 0
  | f + 1, p, n => p / n + (if alt then -1 else 1) * atanGo k2 alt f (p / k2) (n + 2)

/-- arctan(1/k), and artanh(1/k), in fixed point. -/
def fxAtanInv (k : Int) : Int := atanGo (k * k) true 220 (fxOne / k) 1
def fxAtanhInv (k : Int) : Int := atanGo (k * k) false 300 (fxOne / k) 1
def fxPi : Int := 4 * (4 * fxAtanInv 5 - fxAtanInv 239)
def fxLn2 : Int := 2 * fxAtanhInv 3

/-- Product of fixed-point values. -/
def fxMul (a b : Int) : Int := a * b / fxOne

/-- e^x by its series, for |x| below 1. -/
def expGo (x : Int) : (fuel : Nat) → (term : Int) → (n : Int) → Int
  | 0, _, _ => 0
  | f + 1, t, n => t + expGo x f (fxMul t x / n) (n + 1)
def fxExp (x : Int) : Int := expGo x 200 fxOne 1

/-- sin by its series (first term x) and cos (first term 1), for |x| up to pi. -/
def sinGo (x2 : Int) : (fuel : Nat) → (term : Int) → (n : Int) → Int
  | 0, _, _ => 0
  | f + 1, t, n => t + sinGo x2 f (-(fxMul t x2 / ((n + 1) * (n + 2)))) (n + 2)
def fxSin (x : Int) : Int := sinGo (fxMul x x) 150 x 1
def fxCos (x : Int) : Int := sinGo (fxMul x x) 150 fxOne 0

/-- ln of m/2^k for m/2^k from 1 to 2: 2 artanh((m - 2^k)/(m + 2^k)). -/
def lnGo (z2 : Int) : (fuel : Nat) → (p : Int) → (n : Int) → Int
  | 0, _, _ => 0
  | f + 1, p, n => p / n + lnGo z2 f (fxMul p z2) (n + 2)
def fxLn (m k : Nat) : Int :=
  let z := (((m : Int) - (2 ^ k : Nat)) * fxOne) / ((m : Int) + (2 ^ k : Nat))
  2 * lnGo (fxMul z z) 320 z 1

/-- x modulo 2 pi, in fixed point. -/
def fxReduce (x : Int) : Int :=
  let tau := 2 * fxPi
  let k := (2 * x + tau) / (2 * tau)
  x - k * tau

/-! ## The functions -/

/-- An integer power of two that a rounding decides exactly. -/
def pow2Val (n : Int) : FVal := .fin false 1 n

/-- The integer a finite value is, if it is one. -/
def intOf (neg : Bool) (mag : Nat) (exp : Int) : Option Int :=
  let sg (n : Nat) : Int := if neg then -(n : Int) else (n : Int)
  if 0 ≤ exp then some (sg (mag <<< exp.toNat))
  else if mag % 2 ^ (-exp).toNat = 0 then some (sg (mag >>> (-exp).toNat)) else none

def nan1 (v : FVal) (invalid : Bool) : Nat × Exc := nanOutcome 0x11 [v] invalid
def plainOf (v : FVal) : Nat × Exc := ((deliver 0x11 v .rne).1, excNone)

def exp2 (x : Nat) : Nat × Exc :=
  match f32 x with
  | .nan n p => nan1 (.nan n p) false
  | .inf n => plainOf (if n then fzero false else .inf false)
  | .fin n m e =>
    if m = 0 then plainOf (pow2Val 0)
    else if !n && !ltMag m e 1 7 then infOverflow false
    else if n && !ltMag m e 1 9 then approx 2 x (.fin false 3 (-1000))
    else match intOf n m e with
      | some i => if -149 ≤ i then plainOf (pow2Val i) else approx 2 x (pow2Val i)
      | none =>
        let v := fxOf n m e
        let i := v / fxOne
        match fxVal (fxExp (fxMul (v - i * fxOne) fxLn2)) with
        | .fin s mm ee => approx 2 x (.fin s mm (ee + i))
        | w => plainOf w

def log2f (x : Nat) : Nat × Exc :=
  match f32 x with
  | .nan n p => nan1 (.nan n p) false
  | .inf n => if n then nan1 (.inf true) true else plainOf (.inf false)
  | .fin n m e =>
    if m = 0 then infDivZero true
    else if n then nan1 (.fin n m e) true
    else
      let k := Nat.log2 m
      if m = 2 ^ k then plainOf (ofInt (e + k))
      else approx 3 x (fxVal ((e + k) * fxOne + fxLn m k * fxOne / fxLn2))

def sinf (x : Nat) : Nat × Exc :=
  match f32 x with
  | .nan n p => nan1 (.nan n p) false
  | .inf n => nan1 (.inf n) true
  | .fin n m e => if m = 0 then plainOf (fzero n) else approx 4 x (fxVal (fxSin (fxReduce (fxOf n m e))))

def cosf (x : Nat) : Nat × Exc :=
  match f32 x with
  | .nan n p => nan1 (.nan n p) false
  | .inf n => nan1 (.inf n) true
  | .fin n m e =>
    if m = 0 then plainOf (pow2Val 0) else approx 5 x (fxVal (fxCos (fxReduce (fxOf n m e))))

/-- x modulo 2 in fixed point, from -1 to 1. -/
def fxMod2 (x : Int) : Int := x - ((x + fxOne) / (2 * fxOne)) * (2 * fxOne)

def sinpi (x : Nat) : Nat × Exc :=
  match f32 x with
  | .nan n p => nan1 (.nan n p) false
  | .inf n => nan1 (.inf n) true
  | .fin n m e =>
    match intOf n m e with
    | some _ => plainOf (fzero n)
    | none =>
      let r := fxMod2 (fxOf n m e)
      if 2 * r = fxOne then plainOf (pow2Val 0)
      else if 2 * r = -fxOne then plainOf (negate (pow2Val 0))
      else deliver 0x11 (fxVal (fxSin (fxMul r fxPi))) .rne

def cospi (x : Nat) : Nat × Exc :=
  match f32 x with
  | .nan n p => nan1 (.nan n p) false
  | .inf n => nan1 (.inf n) true
  | .fin n m e =>
    match intOf n m e with
    | some i => plainOf (if i % 2 = 0 then pow2Val 0 else negate (pow2Val 0))
    | none =>
      let r := fxMod2 (fxOf n m e)
      if 2 * r = fxOne ∨ 2 * r = -fxOne then plainOf (fzero false)
      else deliver 0x11 (fxVal (fxCos (fxMul r fxPi))) .rne

def runVexp2 (d a : BitVec 5) (msk : BitVec 3) (zi : Bool) (e : VEntry) (s : State) : VOut :=
  vecFlags e d msk zi (fun j => exp2 (lane (vreg s a.toNat) j)) s
def runVlog2 (d a : BitVec 5) (msk : BitVec 3) (zi : Bool) (e : VEntry) (s : State) : VOut :=
  vecFlags e d msk zi (fun j => log2f (lane (vreg s a.toNat) j)) s
def runVsin (d a : BitVec 5) (msk : BitVec 3) (zi : Bool) (e : VEntry) (s : State) : VOut :=
  vecFlags e d msk zi (fun j => sinf (lane (vreg s a.toNat) j)) s
def runVcos (d a : BitVec 5) (msk : BitVec 3) (zi : Bool) (e : VEntry) (s : State) : VOut :=
  vecFlags e d msk zi (fun j => cosf (lane (vreg s a.toNat) j)) s
def runVsinpi (d a : BitVec 5) (msk : BitVec 3) (zi : Bool) (e : VEntry) (s : State) : VOut :=
  vecFlags e d msk zi (fun j => sinpi (lane (vreg s a.toNat) j)) s
def runVcospi (d a : BitVec 5) (msk : BitVec 3) (zi : Bool) (e : VEntry) (s : State) : VOut :=
  vecFlags e d msk zi (fun j => cospi (lane (vreg s a.toNat) j)) s

end Sys2Proof.Machine
end

