-- ==== Sys2Proof/Machine/VectorRun.lean ====
section
/-!
DEFINITION. The vector unit: what each queued instruction reads, writes and does, and the steps that start and complete
one (R189-R193, R550).
-/
namespace Sys2Proof.Machine

/-- A vector instruction as the unit sees it. -/
structure VecOp where
  reads  : VUse
  writes : VUse
  run    : VEntry → State → VOut

/-- With ZI clear, inactive lanes keep their value, so the destination is read. -/
def useD (d : Nat) (zi : Bool) : List Nat := if zi then [] else [d]

def vop1 (d a : BitVec 5) (msk : BitVec 3) (zi : Bool) (run : VEntry → State → VOut) : VecOp :=
  ⟨vuse (a.toNat :: useD d.toNat zi) [msk.toNat], vuse [d.toNat] [], run⟩
def vop2 (d a : BitVec 5) (b : BitVec 6) (bs : Bool) (msk : BitVec 3) (zi : Bool) (run : VEntry → State → VOut) : VecOp :=
  ⟨vuse (a.toNat :: useB b bs ++ useD d.toNat zi) [msk.toNat], vuse [d.toNat] [], run⟩
def vint2 (d a : BitVec 5) (b : BitVec 6) (bs : Bool) (msk : BitVec 3) (zi : Bool) (f : Nat → Nat → Nat) : VecOp :=
  vop2 d a b bs msk zi (runVint2 d a b bs msk zi f)
/-- A comparison into a mask. -/
def vopM (d : BitVec 3) (a : BitVec 5) (b : BitVec 6) (bs : Bool) (msk : BitVec 3) (zi : Bool)
    (run : VEntry → State → VOut) : VecOp :=
  ⟨vuse (a.toNat :: useB b bs) (msk.toNat :: useD d.toNat zi), vuse [] [d.toNat], run⟩
def mop (d : BitVec 3) (rs : List Nat) (run : State → VOut) : VecOp := ⟨vuse [] rs, vuse [] [d.toNat], fun _ => run⟩
/-- A memory instruction that loads vD: inactive lanes keep their value. -/
def vload (d : BitVec 5) (vs : List Nat) (msk : BitVec 3) (run : VEntry → State → VOut) : VecOp :=
  ⟨vuse (d.toNat :: vs) [msk.toNat], vuse [d.toNat] [], run⟩
def vstore (vs : List Nat) (msk : BitVec 3) (run : VEntry → State → VOut) : VecOp :=
  ⟨vuse vs [msk.toNat], vuse [] [], run⟩

/-- The vector instructions of R190. -/
def vecOp (i : Instr) : Option VecOp :=
  match i with
  | .vadd _ d a b bs msk zi rm => some (vop2 d a b bs msk zi (runVadd d a b bs msk zi rm))
  | .vsub _ d a b bs msk zi rm => some (vop2 d a b bs msk zi (runVsub d a b bs msk zi rm))
  | .vmul _ d a b bs msk zi rm => some (vop2 d a b bs msk zi (runVmul d a b bs msk zi rm))
  | .vfma _ d a b bs c msk zi rm =>
    some ⟨vuse (a.toNat :: c.toNat :: useB b bs ++ useD d.toNat zi) [msk.toNat], vuse [d.toNat] [],
      runVfma d a b bs c msk zi rm⟩
  | .vdiv _ d a b bs msk zi rm => some (vop2 d a b bs msk zi (runVdiv d a b bs msk zi rm))
  | .vsqrt _ d a msk zi rm => some (vop1 d a msk zi (runVsqrt d a msk zi rm))
  | .vrcp _ d a msk zi => some (vop1 d a msk zi (runVrcp d a msk zi))
  | .vrsq _ d a msk zi => some (vop1 d a msk zi (runVrsq d a msk zi))
  | .vmin _ d a b bs msk zi => some (vop2 d a b bs msk zi (runVmin d a b bs msk zi))
  | .vmax _ d a b bs msk zi => some (vop2 d a b bs msk zi (runVmax d a b bs msk zi))
  | .vsgn _ d a b bs op msk zi => some (vop2 d a b bs msk zi (runVsgn d a b bs op msk zi))
  | .vexp2 _ d a msk zi => some (vop1 d a msk zi (runVexp2 d a msk zi))
  | .vlog2 _ d a msk zi => some (vop1 d a msk zi (runVlog2 d a msk zi))
  | .vsin _ d a msk zi => some (vop1 d a msk zi (runVsin d a msk zi))
  | .vcos _ d a msk zi => some (vop1 d a msk zi (runVcos d a msk zi))
  | .vsinpi _ d a msk zi => some (vop1 d a msk zi (runVsinpi d a msk zi))
  | .vcospi _ d a msk zi => some (vop1 d a msk zi (runVcospi d a msk zi))
  | .viadd _ d a b bs sat u msk zi => some (vop2 d a b bs msk zi (runViadd d a b bs sat u msk zi))
  | .visub _ d a b bs sat u msk zi => some (vop2 d a b bs msk zi (runVisub d a b bs sat u msk zi))
  | .vimul _ d a b bs hi u msk zi => some (vint2 d a b bs msk zi (mulLane hi u))
  | .vand _ d a b bs msk zi => some (vint2 d a b bs msk zi (fun x y => x &&& y))
  | .vor _ d a b bs msk zi => some (vint2 d a b bs msk zi (fun x y => x ||| y))
  | .vxor _ d a b bs msk zi => some (vint2 d a b bs msk zi (fun x y => x ^^^ y))
  | .vshl _ d a b bs msk zi => some (vint2 d a b bs msk zi shlLane)
  | .vshr _ d a b bs msk zi => some (vint2 d a b bs msk zi shrLane)
  | .vsar _ d a b bs msk zi => some (vint2 d a b bs msk zi sarLane)
  | .vimin _ d a b bs u msk zi => some (vint2 d a b bs msk zi (iminLane u))
  | .vimax _ d a b bs u msk zi => some (vint2 d a b bs msk zi (imaxLane u))
  | .vpopc _ d a msk zi => some (vop1 d a msk zi (fun _ => runVpopc d a msk zi))
  | .vclmul _ d a b bs hi msk zi => some (vint2 d a b bs msk zi (clmulLane hi))
  | .vcvt _ d a c adv part dfmt sfmt rm =>
    some ⟨vuse [a.toNat, d.toNat] [c.toNat], vuse [d.toNat] [], runVcvt d a c adv part dfmt sfmt rm⟩
  | .vcmp _ d a b bs cc msk zi => some (vopM d a b bs msk zi (runVcmp d a b bs cc msk zi))
  | .vicmp _ d a b bs cc msk zi => some (vopM d a b bs msk zi (runVicmp d a b bs cc msk zi))
  | .mand _ d a b na nb => some (mop d [a.toNat, b.toNat] (runMlogic d a b na nb (fun x y => x &&& y)))
  | .mor _ d a b na nb => some (mop d [a.toNat, b.toNat] (runMlogic d a b na nb (fun x y => x ||| y)))
  | .mxor _ d a b na nb => some (mop d [a.toNat, b.toNat] (runMlogic d a b na nb (fun x y => x ^^^ y)))
  | .mnot _ d a => some (mop d [a.toNat] (runMnot d a))
  | .mpopc _ d a => some ⟨vuse [] [a.toNat], vuse [] [], fun _ => runMpopc d a⟩
  | .vmovVector _ d a msk zi => some (vop1 d a msk zi (fun _ => runVmovVector d a msk zi))
  | .vmovLaneToGeneral _ d a _ => some ⟨vuse [a.toNat] [], vuse [] [], runVmovLaneToGeneral d a⟩
  | .vmovGeneralToLane _ d _ _ => some ⟨vuse [d.toNat] [], vuse [d.toNat] [], runVmovGeneralToLane d⟩
  | .vmovGeneralToMask _ d _ => some ⟨vuse [] [], vuse [] [d.toNat], runVmovGeneralToMask d⟩
  | .vmovMaskToGeneral _ d a => some ⟨vuse [] [a.toNat], vuse [] [], fun _ => runVmovMaskToGeneral d a⟩
  | .vbcast _ d a _ src msk zi =>
    some ⟨vuse ((if src then [a.toNat] else []) ++ useD d.toNat zi) [msk.toNat], vuse [d.toNat] [],
      runVbcast d a src msk zi⟩
  | .vext _ d a b k msk zi =>
    some ⟨vuse (a.toNat :: b.toNat :: useD d.toNat zi) [msk.toNat], vuse [d.toNat] [], fun _ => runVext d a b k msk zi⟩
  | .vperm _ d a b c t2 msk zi =>
    some ⟨vuse (a.toNat :: b.toNat :: (if t2 then [c.toNat] else []) ++ useD d.toNat zi) [msk.toNat],
      vuse [d.toNat] [], fun _ => runVperm d a b c t2 msk zi⟩
  | .vpswap _ d a n neg msk zi => some (vop1 d a msk zi (fun _ => runVpswap d a n neg msk zi))
  | .vslide _ d a _ _ dn msk zi => some (vop1 d a msk zi (runVslide d a dn msk zi))
  | .vcompress _ d a msk zi => some (vop1 d a msk zi (fun _ => runVcompress d a msk zi))
  | .vexpand _ d a msk zi => some (vop1 d a msk zi (fun _ => runVexpand d a msk zi))
  | .vsel _ d a b c => some ⟨vuse [a.toNat, b.toNat] [c.toNat], vuse [d.toNat] [], fun _ => runVsel d a b c⟩
  | .viota _ d a msk zi =>
    some ⟨vuse (useD d.toNat zi) [a.toNat, msk.toNat], vuse [d.toNat] [], fun _ => runViota d a msk zi⟩
  | .vred _ d a op rm msk => some ⟨vuse [a.toNat] [msk.toNat], vuse [] [], runVred d a op rm msk⟩
  | .vscan _ d a op rm msk zi => some (vop1 d a msk zi (runVscan d a op rm msk zi))
  | .vscanExcl _ d a op rm msk zi => some (vop1 d a msk zi (runVscanExcl d a op rm msk zi))
  | .vconfl _ d a c msk zi =>
    some ⟨vuse (a.toNat :: useD d.toNat zi) [msk.toNat], vuse [d.toNat] [c.toNat], fun _ => runVconfl d a c msk zi⟩
  | .vcomb _ d a b op rm msk zi =>
    some ⟨vuse (a.toNat :: b.toNat :: useD d.toNat zi) [msk.toNat], vuse [d.toNat] [], runVcomb d a b op rm msk zi⟩
  | .vld _ d _ _ _ str o msk skip => some (vload d [] msk (runVld d str o msk skip))
  | .vst _ r _ _ _ str o msk skip => some (vstore [r.toNat] msk (runVst r str o msk skip))
  | .vgath _ d _ b scale sx o msk skip => some (vload d [b.toNat] msk (runVgath d b scale sx o msk skip))
  | .vscat _ r _ b scale sx o msk skip => some (vstore [r.toNat, b.toNat] msk (runVscat r b scale sx o msk skip))
  | .vscatAdd _ r _ b scale sx o msk skip => some (vstore [r.toNat, b.toNat] msk (runVscatAdd r b scale sx o msk skip))
  | .vscatIadd _ r _ b scale sx o msk skip => some (vstore [r.toNat, b.toNat] msk (runVscatIadd r b scale sx o msk skip))
  | .vscatImin _ r _ b scale sx o msk skip => some (vstore [r.toNat, b.toNat] msk (runVscatImin r b scale sx o msk skip))
  | .vscatImax _ r _ b scale sx o msk skip => some (vstore [r.toNat, b.toNat] msk (runVscatImax r b scale sx o msk skip))
  | .vldt _ d _ _ raw prom o msk skip => some (vload d [] msk (runVldt d raw prom o msk skip))
  | .vstt _ r _ _ raw prom rmen rm o msk skip => some (vstore [r.toNat] msk (runVstt r raw prom rmen rm o msk skip))
  | .rbsetSetV _ oc _ c msk skip => some (vstore [c.toNat] msk (runRbsetV oc c msk skip true))
  | .rbsetUnsetV _ oc _ c msk skip => some (vstore [c.toNat] msk (runRbsetV oc c msk skip false))
  | .rrankV _ oc d _ _ c msk skip => some (vload d [c.toNat] msk (runRrankV oc d c msk skip))
  | .rselV _ oc d _ _ c msk skip => some (vload d [c.toNat] msk (runRselV oc d c msk skip))
  | _ => none

/-! ## Starting (R191) -/

/-- The destinations of the started instructions. -/
def vecInFlight (x : Ctx) : List VUse := x.vrun.filterMap (fun e => (vecOp e.instr).map (fun o => o.writes))

/-- An entry executed for context c. An access to its core's own scratchpad was issued before an SPCFG that waits
(R301), so that does not hold it. -/
def runEntry (s : State) (c : Nat) (o : VecOp) (e : VEntry) : VOut :=
  let k := coreOfCtx c
  let held := (getCore s k).spcfgs
  let back (t : State) : State := modCore { t with cur := s.cur } k (fun q => { q with spcfgs := held })
  match o.run e (modCore { s with cur := c } k (fun q => { q with spcfgs := [] })) with
  | .done t => .done (back t)
  | .answered t v => .answered (back t) v
  | .fault r t => if r.cause = 0 then .wait else .fault r (back t)
  | .wait => .wait
  | .stalled => .stalled

/-- The latency of a load by context c from an address, in clk at 3.3 GHz (R127; device memory answers: log 5). -/
def loadLatency (c : Nat) (p : Word) : Nat :=
  match decodePtr p with
  | some (.dev _) => 1300
  | some (.rspad k _) => if k = coreOfCtx c then 4 else if dieOfCore k = dieOfCtx c then 40 else 100
  | _ => 4

/-- The addresses of the active lanes of VLD or VGATH, in the context as it starts. -/
def loadAddrs (x : Ctx) (e : VEntry) : List Word :=
  let lanes (msk : BitVec 3) : List Nat :=
    laneIds.filter (fun j => decide ((ctxCr x crVstart).toNat % 64 ≤ j) && (ctxM x msk.toNat).getLsbD j)
  match e.instr with
  | .vld _ _ _ _ _ str _ msk _ => (lanes msk).map (eaStride e str)
  | .vgath _ _ _ b scale sx _ msk _ => (lanes msk).map (eaIndexed e (ctxV x b.toNat) scale sx)
  | _ => []

/-- The function unit serves the instruction (R189). -/
def onFunctionUnit (i : Instr) : Bool :=
  match i with
  | .vdiv _ _ _ _ _ _ _ _ => true
  | .vsqrt _ _ _ _ _ _ => true
  | .vrcp _ _ _ _ _ => true
  | .vrsq _ _ _ _ _ => true
  | .vexp2 _ _ _ _ _ => true
  | .vlog2 _ _ _ _ _ => true
  | .vsin _ _ _ _ _ => true
  | .vcos _ _ _ _ _ => true
  | .vsinpi _ _ _ _ _ => true
  | .vcospi _ _ _ _ _ => true
  | .vred _ _ _ _ _ _ => true
  | .vscan _ _ _ _ _ _ _ => true
  | .vscanExcl _ _ _ _ _ _ _ => true
  | .vconfl _ _ _ _ _ _ => true
  | .vcomb _ _ _ _ _ _ _ _ => true
  | _ => false

/-- Latencies of R192; a load's is that of its slowest active lane. -/
def vecLatency (x : Ctx) (c : Nat) (e : VEntry) : Nat :=
  if onFunctionUnit e.instr then 16 else ((loadAddrs x e).map (loadLatency c)).foldl Nat.max 4

/-- A result so far off that the engines' work goes on before it comes (log 5). -/
def lateResult (s : State) (e : VEntry) : Bool := decide (s.clk + 16 < e.due)

/-- The head leaves the queue for the started instructions; an instruction the context waits for retires. -/
def noteStart (x : Ctx) (c : Nat) (e : VEntry) (rest : List VEntry) (t : State) : State :=
  let t1 := modCtx t c (fun y => { y with vq := rest, vrun := y.vrun ++ [{ e with due := t.clk + vecLatency x c e }] })
  if e.blocks then retireNext x c 8 t1 else t1

/-- The head of context c's queue starts, or nothing can. -/
def startHead (s : State) (c : Nat) : Option State :=
  let x := getCtx s c
  match x.vq with
  | [] => none
  | e :: rest =>
    match vecOp e.instr with
    | none => none
    | some o =>
      if !usesReady o.reads (vecInFlight x) then none
      else match runEntry s c o e with
        | .done t => some (noteStart x c e rest t)
        | .answered t v => some (noteStart x c { e with w := v } rest t)
        | .fault r t => some (raiseFault (releaseReply (modCtx t c (fun y => { y with vq := rest })) c e.key) c r e.pc)
        | .wait => none
        | .stalled => if x.handleStall then none else some (putCtx s c { x with handleStall := true })

/-- The first context after the pointer whose head can start, and the state with it started. A head that finds its unit
BUSY stays at the head, and the pointer where it is. -/
def vecStart (s : State) (k : Nat) : Option State :=
  let last := (getCore s k).vlast
  [1, 2, 3, 4].findSome? (fun i =>
    let n := (last + i) % 4
    (startHead s (4 * k + n)).map (fun t =>
      if (getCtx t (4 * k + n)).vq.length = (getCtx s (4 * k + n)).vq.length then t
      else modCore t k (fun q => { q with vlast := n })))

/-- VECTOR_START. -/
def execVectorStart (core : Nat) (s : State) : Out :=
  if 128 ≤ core then noAgent
  else match vecStart s core with
    | some t => .next t
    | none => ev s

/-- The started instruction whose results are ready first, the oldest of several (R192). -/
def nextReady (x : Ctx) : Option VEntry :=
  x.vrun.foldl (fun b e => match b with | some f => if e.due < f.due then some e else b | none => some e) none

/-- VECTOR_COMPLETE: the context's started instruction with the earliest results has completed (R192, R550), and fills
its reply slot (R222). -/
def execVectorComplete (ctx : Nat) (s : State) : Out :=
  if 512 ≤ ctx then noAgent
  else match nextReady (getCtx s ctx) with
    | none => ev s
    | some e => .next (fillReplyOpt (modCtx s ctx (fun x => { x with vrun := x.vrun.erase e })) ctx e.key (.filled e.w))

end Sys2Proof.Machine
end

