-- ==== Sys2Proof/Machine/System.lean ====
section
/-!
DEFINITION. CRD and CWR of every control register (R25-R32, R101, R102, R186, R187, R226, R295, R334, R380, R415, R434,
R463, R500, R537, R548).
-/
namespace Sys2Proof.Machine

/-! ## Fields -/

/-- Bits of a register that are reserved (R5, R25). -/
def crReservedBits (n : Nat) : Word :=
  if n = 0x008 ∨ n = 0x009 ∨ n = 0x00C ∨ n = 0x00D then 0xFF00000000000007
  else if n = 0x00A ∨ n = 0x00E then 0xFFFFFFFF00000000
  else if n = 0x010 then 0xFFFFFFFFFFFFFFFC
  else if n = 0x018 then 0xFFFFFFFFFFFFE008
  else if n = 0x019 then 0x0000000000FFFFE0
  else if n = 0x060 then 0xFFFFFFFFFFFFFFC0
  else if n = 0x0A0 then 0xFFFFFFFFFFC00FFF
  else if n = 0x0A1 then 0xFFFFFFFFFF800FFF
  else if n = 0x0A3 then 0x0000FF0000000FFF
  else if n = 0x0B0 then 0xFFFFFFFFFFFFFFFC
  else if n = 0x0C0 then 0xFFFFFFFF00000000
  else if n = 0x0C1 then 0xFFFFFFFFFFFFFFFE
  else if n = 0x0D1 then 0xFFFFFFFF00000000
  else if n = 0x100 ∨ n = 0x101 then 0xFF00000000000007
  else if n = 0x102 ∨ n = 0x103 then 0xFFFFFFFFFFFFFFFC
  else if 0x11C ≤ n ∧ n ≤ 0x11F then 0xFFFFFFFFFFFFFE00
  else if n = 0x120 then 0xFFFFFFFFFFFFFFF0
  else if n = 0x121 ∨ n = 0x122 ∨ n = 0x132 then 0xFFFFFFFF00000000
  else if n = 0x001 then 0xFFFFFFFFFFFFFFFE
  else 0

/-- A value every field of the register permits (R25 step 5, R101, R335). -/
def crPermits (n : Nat) (v : Word) : Bool :=
  v &&& crReservedBits n == 0
  && (n != 0x018 || decide (v.toNat % 8 ≤ 4))
  && (n != 0x0A1 || decide (bitsOf v.toNat 22 12 ≤ 1024))

/-- A user-mode write that the defining chapter refuses (R25 step 4, R334, R380). -/
def crUserRefused (s : State) (n : Nat) (v : Word) : Bool :=
  n == 0x0A0 || n == 0x0A1 || n == 0x0A3
  || (n == 0x0B0 &&
      (let old := getCr s crDitctl
       (v.getLsbD 1 != old.getLsbD 1) || (old.getLsbD 1 && old.getLsbD 0 && !v.getLsbD 0)))

/-! ## Registers that are views of other state -/

def lrSize (r : LaunchRec) : Nat := lrNcore r * lrCpc r
def lrCohctl (r : LaunchRec) : Word :=
  w64 (lrTag r * 2 ^ 8 + lrPrio r * 2 ^ 5 + (if lrTshare r then 4 else 0) + (if lrPreempt r then 2 else 0)
    + (if lrSv r then 1 else 0))
def lrCohres (r : LaunchRec) : Word :=
  w64 (lrNcore r * 2 ^ 44 + lrCpc r * 2 ^ 41 + lrNbar r * 2 ^ 32 + lrCmask r)

/-- The home die of a handle (R164). -/
def handleDie (h : Nat) : Nat := h / 2 ^ 30
/-- QUEUED and PREEMPTED cohorts of a level of a die (R169). -/
def cohPending (x : Cohort) : Bool := x.st == .queued || x.st == .preempted
def levelCount (s : State) (d lv : Nat) : Nat :=
  (s.cohorts.filter (fun hc => handleDie hc.1 == d && cohPending hc.2 && lrPrio hc.2.lrec == lv)).length
/-- SCHPEND (R187). A level that holds more than 127 cohorts, which log 73's choice makes possible, carries into the next
level's field (DESIGN CHOICE, log 73). -/
def schpend (s : State) (d : Nat) : Word :=
  w64 ((List.range 8).foldl (fun acc l => acc + levelCount s d l * 2 ^ (7 * l)) 0)

def onCohort (s : State) (f : Nat → Cohort → Word) : Word :=
  match (me s).coh with
  | none => 0
  | some h => match getCohort s h with | some x => f h x | none => 0

def isReserved (r : Reply) : Bool := match r with | .reserved _ => true | _ => false
/-- VQSTAT (R227). -/
def vqstat (x : Ctx) : Word :=
  w64 ((x.replies.filter isReserved).length * 2 ^ 16 + (x.replies.filter (fun r => !isReserved r)).length * 2 ^ 8
    + x.vq.length)

def pbind (x : Ctx) : Word := match x.bind with | some p => w64 (4 + p) | none => 0

/-- LESTAT (R435). -/
def lestat (d : Die) : Word :=
  w64 (d.convs.length * 2 ^ 16 + d.plist.length * 2 ^ 8 + (d.convs.filter (fun c => !c.held.isEmpty)).length)

/-- PLSTAT (R464). -/
def plstat (s : State) : Word :=
  let die := dieOfCtx s.cur
  let free := (slotIds.filter (fun i => (getSlot s die i).held.isNone)).length
  let held := match boundPart s with
    | some (p, x) => (slotsHeld s die (holderOf x (myCore s) p)).length
    | none => 0
  w64 (free * 2 ^ 16 + held * 2 ^ 8 + placeLoad s die)

/-- Frames of a die in use. -/
def framesUsed (s : State) (d : Nat) : List Nat :=
  s.cohorts.flatMap (fun hc => (hc.2.frames.filter (fun f => f.die == d)).map (·.num))
def savefree (s : State) (d : Nat) : Word :=
  let total := (getDie s d).saveTotal
  w64 (total * 2 ^ 32 + (total - (framesUsed s d).length))

/-- The position of a pair in a list. -/
def indexOf (a : Nat × Nat) : List (Nat × Nat) → Nat
  | [] => 0
  | b :: bs => if a = b then 0 else indexOf a bs + 1

/-- GANGST (R537) of a partition. -/
def gangst (s : State) (core p : Nat) : Word :=
  match getPart s core p with
  | none => 0
  | some x =>
    match x.gang with
    | none => 0
    | some g =>
      match tabFind s.gangs g with
      | none => 0
      | some y => w64 (y.first * 2 ^ 16 + 2 ^ 15 + (if y.col then 2 ^ 14 else 0) + y.nlog * 2 ^ 12
          + indexOf (core, p) y.members * 2 ^ 9 + y.hedge * 2 ^ 8 + y.hdie * 2 ^ 4)
def gangstMine (s : State) : Word :=
  match (me s).bind with | some p => gangst s (myCore s) p | none => 0

def islandReset : Island := ⟨0, 0, 0, 0, 0, 0, 0, false⟩
def getIsland (s : State) (n : Nat) : Island := tabGet islandReset s.islands n
/-- ISLST (R549). -/
def islst (s : State) (n : Nat) : Word :=
  let x := getIsland s n
  w64 (n * 2 ^ 59 + x.rosc.toNat * 2 ^ 32 + x.vmv.toNat * 2 ^ 16 + x.temp.toNat)

/-- The registers that no context holds. -/
def viewCr (s : State) (n : Nat) : Option Word :=
  let isl := islandOfCore (myCore s)
  match n with
  | 0x000 => some (w64 s.cur)
  | 0x001 => some (wBool (me s).sv)
  | 0x002 => some (w64 (s.clk - tabGet 0 s.lost isl))
  | 0x040 => some (onCohort s (fun h _ => w64 h))
  | 0x041 => some (onCohort s (fun _ x => lrCohctl x.lrec))
  | 0x042 => some (onCohort s (fun _ x => lrCohres x.lrec))
  | 0x043 => some (onCohort s (fun _ x => w64 (lrSize x.lrec * 2 ^ 32 + (me s).rank)))
  | 0x048 => some (onCohort s (fun h _ => schpend s (handleDie h)))
  | 0x049 => some ((getDie s (dieOfCtx s.cur)).quantum.setWidth 64)
  | 0x04A => some (wBool (me s).wakePend)
  | 0x04B => some ((getDie s (dieOfCtx s.cur)).gateErr.setWidth 64)
  | 0x061 => some (vqstat (me s))
  | 0x080 => some (pbind (me s))
  | 0x0A2 => some (w64 (getCore s (myCore s)).spmapG)
  | 0x0A4 => some s.ttbase
  | 0x0D0 => some (lestat (getDie s (dieOfCtx s.cur)))
  | 0x0E0 => some (plstat s)
  | 0x130 => some (getDie s (dieOfCtx s.cur)).saveBase
  | 0x131 => some (savefree s (dieOfCtx s.cur))
  | 0x180 => some (w64 s.devnum)
  | 0x181 => some (s.linkUp.setWidth 64)
  | 0x182 => some (gangstMine s)
  | 0x183 => some s.xpeer
  | 0x184 => some (s.ltmo.setWidth 64)
  | 0x1C0 => some (islst s isl)
  | 0x1C1 => some ((getIsland s isl).mhz.setWidth 64)
  | 0x1C2 => some (getIsland s isl).stretch
  | 0x1C3 => some (s.modpwr.setWidth 64)
  | 0x1C4 => some (w64 s.pcap)
  | _ => none

/-- A control register as the executing context reads it. -/
def readCr (s : State) (n : Nat) : Word :=
  match viewCr s n with
  | some v => v
  | none => getCr s n

/-- Accesses of FPCTL, FPSTAT, VSTART and VQSTAT wait for the context's vector instructions (R105, R226). -/
def crWaits (s : State) (n : Nat) : Bool :=
  (n == 0x018 || n == 0x019 || n == 0x060 || n == 0x061) && !((me s).vq.isEmpty && (me s).vrun.isEmpty)

/-- Registers 0x100-0x1FF are supervisor-only (R24). -/
def crPriv (n : BitVec 12) : Bool := decide (0x100 ≤ n.toNat)

def crdBody (d : BitVec 6) (num : BitVec 12) (s : State) : Exe :=
  if crWaits s num.toNat then .stall s
  else .retire (wg s d (readCr s num.toNat))
def execCrd (h : Hdr) (d : BitVec 6) (num : BitVec 12) (s : State) : Out :=
  issue h 8 (crPriv num) [] [d] (crdBody d num) s

def cwrBody (a : BitVec 6) (num : BitVec 12) (s : State) : Exe :=
  let n := num.toNat
  if crWaits s n then .stall s
  else if !(me s).sv && crUserRefused s n (rg s a) then .fault (recPc s cPriv) s
  else if !crPermits n (rg s a) then .fault (recPc s cIllegal) s
  else .retire (setCr s n (rg s a))
def execCwr (h : Hdr) (a : BitVec 6) (num : BitVec 12) (s : State) : Out :=
  issue h 8 (crPriv num) [a] [] (cwrBody a num) s

end Sys2Proof.Machine
end

