-- ==== Sys2Proof/Machine/Launch.lean ====
section
/-!
DEFINITION. Launch records, acceptance, LAUNCH and EXIT, and the host's launch windows (R156-R167).
-/
namespace Sys2Proof.Machine

/-! ## Records (R156-R159) -/

def lrecOf (bs : List Byte) : LaunchRec :=
  let d (i : Nat) : Word := w64 (leNat ((bs.drop (8 * i)).take 8))
  { entry := d 0, stack := d 1, argp := d 2, lctl := d 3, lres := d 4, cmask := d 5, sel0 := d 6, sel1 := d 7 }

/-- The dies that may supply cores. -/
def permittedDies (r : LaunchRec) : List Nat :=
  if lrSpan r then [0, 1, 2, 3].filter (fun d => (lrDieMask r).testBit d) else [lrHome r]

/-- A core that the record allows (R159, R160). -/
def coreAllowed (s : State) (r : LaunchRec) (k : Nat) : Bool :=
  !(getCore s k).out && (permittedDies r).contains (dieOfCore k) && (lrSel r == 0 || (lrSel r).testBit k)

def allCores : List Nat := List.range 128
def allowedCores (s : State) (r : LaunchRec) : List Nat := allCores.filter (coreAllowed s r)
def selectedCores (r : LaunchRec) : List Nat := allCores.filter (fun k => (lrSel r).testBit k)

/-- Reserved bits of a record that are set, or addresses that are not as R159 asks. -/
def lrecBits (r : LaunchRec) : Bool :=
  r.entry &&& 0xFF00000000000007 != 0 || r.stack.toNat % 16 != 0
  || bitsOf r.lctl.toNat 15 11 != 0 || bitsOf r.lctl.toNat 7 4 != 0 || r.lctl.getLsbD 1
  || bitsOf r.lres.toNat 14 3 != 0 || r.cmask.toNat / 2 ^ 32 != 0

def malformed (s : State) (r : LaunchRec) : Bool :=
  lrecBits r
  || lrCpc r == 0 || decide (4 < lrCpc r) || lrNcore r == 0 || decide (3072 < lrQuads r) || decide (1024 < lrSpadPg r)
  || decide (256 < lrNbar r)
  || (lrTshare r && !lrPreempt r)
  || (if lrSpan r then !(lrDieMask r).testBit (lrHome r) else lrDieMask r != 0)
  || (lrMode r == 3 && ((selectedCores r).length != lrNcore r
        || (selectedCores r).any (fun k => !(permittedDies r).contains (dieOfCore k))))
  || decide ((allowedCores s r).length < lrNcore r)

/-! ## Acceptance (R164, R169) -/

def duePass (s : State) (d : Nat) : State := modDie s d (fun x => { x with passDue := true })

def cohortNew (r : LaunchRec) (qnum : Nat) (xspace tvec : Word) : Cohort where
  lrec := r
  st := .queued
  qnum := qnum
  hold := false
  xspace := xspace
  tvec := tvec
  seats := []
  bars := []
  placedAt := 0
  quantumOver := false
  headSince := none
  headExpired := false
  stopReq := false
  reservedFor := none
  takeCores := []
  rotated := false
  termed := []
  haltOnResume := false
  frames := []
  saved := none

/-- The next number of a die's acceptance sequence. -/
def nextAcc (s : State) (d : Nat) : Nat × State :=
  ((getDie s d).accNo, modDie s d (fun x => { x with accNo := x.accNo + 1 }))

/-- A record is accepted in its home die's queue: its handle, and the state. -/
def acceptCohort (s : State) (r : LaunchRec) (xspace tvec : Word) : Nat × State :=
  let d := lrHome r
  let n := nextAcc s d
  let h := d * 2 ^ 30 + n.1 % 2 ^ 30
  (h, duePass (putCohort n.2 h (cohortNew r n.1 xspace tvec)) d)

/-! ## LAUNCH and EXIT (R164, R165, R167) -/

def ownPrio (s : State) : Nat := match cohortOf s s.cur with | some x => lrPrio x.lrec | none => 0

/-- The refusal of a record, by its code. -/
def launchRefusal (s : State) (r : LaunchRec) : Option Nat :=
  if malformed s r then some 2
  else if !(me s).sv && (lrSv r || decide (ownPrio s < lrPrio r)) then some 3
  else if 64 ≤ levelCount s (lrHome r) (lrPrio r) then some 1
  else none

def launchRec (d : BitVec 6) (s : State) (bs : List Byte) : Exe :=
  let r := lrecOf bs
  match launchRefusal s r with
  | some c => .retire (wg s d (w64 (2 ^ 63 + c)))
  | none =>
    let a := acceptCohort s r (getCr s crXspace) (getCr s crTvec)
    .retire (wg a.2 d (w64 a.1))

def launchBody (d a : BitVec 6) (s : State) : Exe :=
  if releaseHeld s then .stall s else withBytes s (rg s a) 64 (launchRec d)
def execLaunch (h : Hdr) (d a : BitVec 6) (s : State) : Out := issue1 h [a] [d] (launchBody d a) s

def exitBody (s : State) : Exe :=
  .retire (stopLapses (orphanConvs (setMe s { me s with phase := .exited }) (myCore s) (me s).coh) (me s).coh)
def execExit (h : Hdr) (s : State) : Out := issue1 h [] [] exitBody s

/-! ## Host launch windows (R166, R535, R539) -/

def dropWindowWrite (s : State) (d : Nat) : State := modDie s d (fun x => { x with lwdrop := x.lwdrop + 1 })

/-- HOST_LAUNCH_WINDOW_WRITE: a write to a die's window, at an offset from its first slot. -/
def execHostLaunchWindowWrite (die offset : Nat) (data : List Byte) (s : State) : Out :=
  if 4 ≤ die then noAgent
  else if s.modState ≠ .ready ∨ data.length ≠ 64 ∨ offset % 64 ≠ 0 ∨ 1024 ≤ offset
      ∨ 16 ≤ (getDie s die).window.length then .next (dropWindowWrite s die)
  else
    let r := lrecOf data
    if malformed s r ∨ lrHome r ≠ die then .next (modDie s die (fun x => { x with lwbad := x.lwbad + 1 }))
    else .next (modDie s die (fun x => { x with window := x.window ++ [r] }))

/-- LWFREE. -/
def lwFree (s : State) (d : Nat) : Nat := 16 - (getDie s d).window.length

/-- LAUNCH_WINDOW_ACCEPT: the oldest waiting record of the level enters its queue. -/
def execLaunchWindowAccept (die level : Nat) (s : State) : Out :=
  if 4 ≤ die ∨ 8 ≤ level then noAgent
  else
    let x := getDie s die
    match x.window.find? (fun r => lrPrio r == level) with
    | none => ev s
    | some r =>
      if 64 ≤ levelCount s die level then ev s
      else
        let s1 := modDie s die (fun y => { y with window := y.window.erase r })
        .next (acceptCohort s1 r x.defXspace x.defTvec).2

end Sys2Proof.Machine
end

