-- ==== Sys2Proof/Machine/Frames.lean ====
section
/-!
DEFINITION. Save frames: where they lie, context images, cohort frames and windows, written to device memory and read
back (R486-R491).
-/
namespace Sys2Proof.Machine

/-! ## The pool of frames (R486) -/

/-- The physical address of a frame of a die. -/
def framePa (s : State) (f : FrameUse) : Nat := (getDie s f.die).saveBase.toNat / 16384 * 16384 + 16384 * f.num

def usedFrames (s : State) : List FrameUse := s.cohorts.flatMap (fun hc => hc.2.frames)

/-- Frame n of die d is among those in use. -/
def frameTaken (used : List FrameUse) (d n : Nat) : Bool := used.any (fun f => f.die == d && f.num == n)

/-- The lowest-numbered free frame of each item's die in turn; none where one has no more. -/
def takeFrames (s : State) : List FrameUse → List (FrameItem × Nat) → Option (List FrameUse)
  | _, [] => some []
  | used, (i, d) :: needs =>
    match (List.range (getDie s d).saveTotal).find? (fun n => !frameTaken used d n) with
    | none => none
    | some n => (takeFrames s (⟨i, d, n⟩ :: used) needs).map (fun fs => ⟨i, d, n⟩ :: fs)

/-- The frames of an item, the first n of them. -/
def itemFrames (fs : List FrameUse) (i : FrameItem) (n : Nat) : List FrameUse := (fs.filter (fun f => f.item == i)).take n

/-- Frames of a window of `asize` entries. -/
def windowFrames (asize : Nat) : Nat := (4 * asize + asize / 8 + 16383) / 16384

/-- The partitions of a cohort on a core. -/
def partsOf (s : State) (h k : Nat) : List (Nat × Part) := (getCore s k).parts.filter (fun kp => kp.2.coh == h)

def imageFrames (s : State) (c : Nat) : Nat := if (getCtx s c).bind.isSome then 3 else 1

/-- The frames a cohort's save takes, each with its die, in the order of R491: images, cohort frame, saved windows. -/
def frameNeeds (s : State) (h : Nat) (x : Cohort) (take : List Nat) : List (FrameItem × Nat) :=
  x.seats.flatMap (fun t =>
    let on (i : FrameItem) (n : Nat) : List (FrameItem × Nat) := List.replicate n (i, dieOfCore t.core)
    t.ctxs.flatMap (fun c => on (.image c) (imageFrames s c)) ++ on (.core t.core) 1
      ++ (if take.contains t.core then
            (partsOf s h t.core).flatMap (fun kp => on (.window t.core kp.1) (windowFrames kp.2.asize))
          else []))

/-! ## Double-words of a frame -/

/-- n bytes of device memory are zeroed. -/
def clearBytes (n : Nat) (s : State) (pa : Nat) : State :=
  { s with
    hbm := s.hbm.filter (fun kv => !(decide (pa ≤ kv.1) && decide (kv.1 < pa + n)))
    dies := dropCachedSets s.dies pa n
    badHbm := s.badHbm.filter (fun l => !(decide (pa ≤ 64 * l) && decide (64 * l + 64 ≤ pa + n))) }
def clearFrame : State → Nat → State := clearBytes 16384

/-- Offset o of an item that takes several frames. -/
def frameAddr (pas : List Nat) (o : Nat) : Nat := pas.getD (o / 16384) 0 + o % 16384

def putWords (addr : Nat → Nat) (ws : List (Nat × Word)) (s : State) : State :=
  ws.foldl (fun t ow => writeHbm t (addr ow.1) (leBytes 8 ow.2.toNat)) s

def frameWord (s : State) (pas : List Nat) (o : Nat) : Word := w64 (memReadLe s.hbm (frameAddr pas o) 8)

/-- An uncorrectable error in a frame. -/
def frameBad (s : State) (pas : List Nat) : Bool :=
  pas.any (fun pa => s.badHbm.any (fun l => decide (64 * l < pa + 16384) && decide (pa < 64 * l + 64)))

/-! ## Context images (R487, R488) -/

/-- Control registers an image holds, MODE apart. -/
def imageCrs : List Nat :=
  [0x003, 0x008, 0x009, 0x00A, 0x00C, 0x00D, 0x00E, 0x010, 0x018, 0x019, 0x020, 0x060, 0x0A0, 0x0A1, 0x0A3, 0x0B0,
   0x0C0, 0x0C1, 0x0C2, 0x0D1, 0x0E1, 0x100, 0x101, 0x102, 0x103, 0x104, 0x105, 0x106, 0x107, 0x108, 0x109, 0x10A,
   0x10B, 0x10C, 0x10D, 0x10E, 0x10F, 0x118, 0x119, 0x11A, 0x11B, 0x11C, 0x11D, 0x11E, 0x11F, 0x120, 0x121, 0x122,
   0x132]

def replyState (r : Reply) : Nat := match r with | .reserved _ => 1 | .filled _ => 2 | .faulted => 3
def replyValue (r : Reply) : Word := match r with | .filled v => v | _ => 0

/-- Bytes 0x0000-0x0007. -/
def imageHead (x : Ctx) (c : Nat) : Word :=
  let f (b : Bool) (n : Nat) : Nat := if b then n else 0
  w64 (1 + 256 * (f x.bind.isSome 1 + f (x.phase == .halted) 2 + f (x.phase == .parked) 4 + f x.wakePend 8) + 65536 * c)

/-- Eight bytes in the device's own form: the free values from number n (log 9). -/
def freeWord (n : Nat) : Word := w64 (leNat ((List.range 8).map (fun j => Config.freeByte (n + j))))
def freeWords (n o count : Nat) : List (Nat × Word) :=
  (List.range count).map (fun i => (o + 8 * i, freeWord (n + 8 * i)))

def imageWords (x : Ctx) (c free : Nat) : List (Nat × Word) :=
  [(0x0000, imageHead x c), (0x0008, x.pc)]
  ++ (List.range 64).map (fun i => (0x0040 + 8 * i, ctxG x i))
  ++ [(0x0240, w64 ((List.range 8).foldl (fun a i => if ctxP x i then a + 2 ^ i else a) 0))]
  ++ (List.range 8).map (fun i => (0x0248 + 8 * i, ctxM x i))
  ++ [(0x0400 + 8 * 0x001, wBool x.sv)]
  ++ imageCrs.map (fun n => (0x0400 + 8 * n, ctxCr x n))
  ++ ((List.range x.replies.length).zip x.replies).flatMap (fun ir =>
      [(0x1400 + 16 * ir.1, replyValue ir.2), (0x1408 + 16 * ir.1, w64 (replyState ir.2))])
  ++ freeWords free 0x1500 128
  ++ (List.range 32).flatMap (fun i => (List.range 32).map (fun j =>
      (0x2000 + 256 * i + 8 * j, (ctxV x i).extractLsb' (64 * j) 64)))

/-- The partition block. -/
def partWords (x : Part) (p free : Nat) : List (Nat × Word) :=
  let item (i : Nat) : Word := (pstatItem p x i).getD 0
  [(0x4000, item 0), (0x4008, item 1), (0x4010, item 2), (0x4018, item 3), (0x4020, partProg x),
   (0x4028, countsWord x.counts), (0x4030, countsWord x.thresh), (0x4038, item 5)]
  ++ freeWords free 0x4040 504
  ++ (match x.active with
      | some a => if a.composed then
          (List.range ((a.bytes.length + 7) / 8)).map (fun i => (0x5000 + 8 * i, w64 (leNat ((a.bytes.drop (8 * i)).take 8))))
        else []
      | none => [])

/-- The image of context c: its double-words, and the state with the free values counted. -/
def contextImage (s : State) (c : Nat) : List (Nat × Word) × State :=
  let x := getCtx s c
  let s1 := { s with freeCount := s.freeCount + 8 * (128 + 504) }
  match x.bind with
  | some p => (match getPart s (coreOfCtx c) p with
    | some y => (imageWords x c s.freeCount ++ partWords y p (s.freeCount + 1024), s1)
    | none => (imageWords x c s.freeCount, s1))
  | none => (imageWords x c s.freeCount, s1)

/-! ### Reading an image back -/

def tabOf {α : Type} [DecidableEq α] (dflt : α) (l : List (Nat × α)) : Tab α :=
  l.foldl (fun t kv => tabSet dflt t kv.1 kv.2) []

/-- The registers that an image gives a context: PC, MODE, g, p, m, v, the wake-pending flag and the control registers
(R497). `rd` reads the double-word at an offset. -/
def loadImage (rd : Nat → Word) (x : Ctx) : Ctx :=
  { x with
    pc := rd 0x0008
    g := tabOf 0 ((List.range 64).map (fun i => (i, if i = 0 then 0 else rd (0x0040 + 8 * i))))
    p := (rd 0x0240).setWidth 8
    m := tabOf 0 ((List.range 8).map (fun i => (i, if i = 0 then 0 else rd (0x0248 + 8 * i))))
    v := tabOf 0 ((List.range 32).map (fun i =>
      (i, BitVec.ofNat 2048 (packBits 64 ((List.range 32).map (fun j => (rd (0x2000 + 256 * i + 8 * j)).toNat))))))
    sv := (rd (0x0400 + 8 * 0x001)).getLsbD 0
    wakePend := (rd 0).getLsbD 11
    cr := imageCrs.foldl (fun t n => tabSet 0 t n (rd (0x0400 + 8 * n))) x.cr }

/-- The reply queue of an image; a reserved slot keeps its producer. -/
def loadReplies (rd : Nat → Word) (old : List Reply) : List Reply :=
  (List.range 16).filterMap (fun i =>
    match (rd (0x1408 + 16 * i)).toNat with
    | 1 => some (match old.getD i .faulted with | .reserved k => .reserved k | _ => .faulted)
    | 2 => some (.filled (rd (0x1400 + 16 * i)))
    | 3 => some .faulted
    | _ => none)

/-- The bytes of a block of double-words. -/
def blockBytes (rd : Nat → Word) (o n : Nat) : List Byte :=
  (List.range n).map (fun i => (rd (o + 8 * (i / 8))).extractLsb' (8 * (i % 8)) 8)

/-- The partition block: counts, progress, and a composed active set (R488, R491). -/
def loadPartBlock (rd : Nat → Word) (x : Part) : Part :=
  let prog := (rd 0x4020).toNat
  let st := (rd 0x4038).toNat
  { x with
    active := x.active.map (fun a => if a.composed then { a with bytes := blockBytes rd 0x5000 a.bytes.length } else a)
    counts := countsOf (rd 0x4028)
    thresh := countsOf (rd 0x4030)
    phase := bitsOf st 7 4
    stop := st.testBit 0
    progTag := bitsOf prog 63 48
    progDone := bitsOf prog 47 32
    progNf := bitsOf prog 31 16
    progFlt := prog.testBit 2 }

/-! ## Cohort frames (R489) -/

def barrierWord (b : Barrier) : Word :=
  w64 (b.exp % 1024 + b.arr % 1024 * 2 ^ 10 + (if b.broken then 2 ^ 20 else 0) + b.gen.toNat * 2 ^ 32)
def barrierOf (w : Word) : Barrier :=
  ⟨bitsOf w.toNat 9 0, bitsOf w.toNat 19 10, BitVec.ofNat 32 (bitsOf w.toNat 63 32), w.getLsbD 20⟩

/-- The records of a cohort in core k's queue. -/
def recordsFor (s : State) (k h : Nat) : List FaultRec := (getCore s k).faultq.filter (fun r => recCohort s r == some h)

/-- The cohort frame of core k; the barriers stand in that of the lowest core. -/
def cohortFrame (s : State) (h : Nat) (x : Cohort) (k : Nat) (first : Bool) : List (Nat × Word) :=
  let recs := recordsFor s k h
  ((List.range 32).filter (fun i => (lrCmask x.lrec).testBit i)).map (fun i => (8 * i, counterWord (getCounter s k i)))
  ++ (if first then
      ((List.range x.bars.length).zip x.bars).map (fun ib => (0x0100 + 16 * ib.1, barrierWord (getBarrier s (lrHome x.lrec) ib.2)))
    else [])
  ++ [(0x1F00, w64 (recs.length + (if (getCore s k).lost.contains h then 2 ^ 63 else 0)))]
  ++ ((List.range recs.length).zip recs).flatMap (fun ir =>
      ((List.range 8).zip (recWords ir.2)).map (fun jw => (0x2000 + 64 * ir.1 + 8 * jw.1, jw.2)))

/-- A record from its eight double-words. -/
def recParse (rd : Nat → Word) : FaultRec :=
  let d0 := (rd 0).toNat
  let d3 := (rd 3).toNat
  { cause := bitsOf d0 7 0, async := d0.testBit 8, lane := if d0.testBit 9 then some (bitsOf d0 15 10) else none,
    agent := bitsOf d0 19 16, ctx := bitsOf d0 28 20, cnt := if d0.testBit 29 then some (bitsOf d0 34 30) else none,
    part := bitsOf d0 36 35, pc := rd 1, addr := rd 2, tag := bitsOf d3 15 0, stag := bitsOf d3 31 16, prog := rd 4,
    info0 := rd 5, info1 := rd 6, info2 := rd 7 }

/-- Counters, records and the LOST flag of core k come back from its cohort frame. -/
def loadCohortFrame (s : State) (h : Nat) (x : Cohort) (k pa : Nat) : State :=
  let rd := frameWord s [pa]
  let s1 := ((List.range 32).filter (fun i => (lrCmask x.lrec).testBit i)).foldl (fun t i =>
    putCounter t k i ⟨(rd (8 * i)).toNat % counterMax, (rd (8 * i)).getLsbD 63⟩) s
  let n := bitsOf (rd 0x1F00).toNat 62 0
  let s2 := if (rd 0x1F00).getLsbD 63 then modCore s1 k (fun q => { q with lost := h :: q.lost.filter (fun j => j != h) })
    else s1
  (List.range (natMin n 64)).foldl (fun t i => pushFault t k (recParse (fun j => rd (0x2000 + 64 * i + 8 * j)))) s2

def loadBarriers (s : State) (x : Cohort) (pa : Nat) : State :=
  let rd := frameWord s [pa]
  ((List.range x.bars.length).zip x.bars).foldl (fun t ib =>
    putBarrier t (lrHome x.lrec) ib.2 (barrierOf (rd (0x0100 + 16 * ib.1)))) s

/-! ## Windows (R490) -/

/-- A window's entries, 4 bytes each, then one poison bit per entry, into cleared frames. -/
def saveWindow (s : State) (k abase asize : Nat) (pas : List Nat) : State :=
  let q := getCore s k
  let s1 := pas.foldl clearFrame s
  let s2 := (q.acc.filter (fun kv => decide (abase ≤ kv.1) && decide (kv.1 < abase + asize))).foldl (fun t kv =>
    writeHbm t (frameAddr pas (4 * (kv.1 - abase))) (leBytes 4 kv.2.toNat)) s1
  ((List.range asize).filter (fun i => accPoisoned q (abase + i))).foldl (fun t i =>
    let a := frameAddr pas (4 * asize + i / 8)
    writeHbm t a [memRead t.hbm a ||| BitVec.ofNat 8 (2 ^ (i % 8))]) s2

/-- One byte of a saved window goes to its entry, or to the poison bits of eight entries. -/
def restoreByte (abase asize o : Nat) (b : Byte) (q : Core) : Core :=
  if o < 4 * asize then
    let e := abase + o / 4
    { q with acc := tabSet 0 q.acc e (accEntry q e ||| BitVec.ofNat 32 (b.toNat * 2 ^ (8 * (o % 4)))) }
  else if o < 4 * asize + asize / 8 then
    { q with poison := ((List.range 8).filter (fun i => b.getLsbD i)).map (fun i => abase + 8 * (o - 4 * asize) + i) ++ q.poison }
  else q

def clearEntries (abase asize : Nat) (q : Core) : Core :=
  let out (e : Nat) : Bool := !(decide (abase ≤ e) && decide (e < abase + asize))
  { q with acc := q.acc.filter (fun kv => out kv.1), poison := q.poison.filter out, badAcc := q.badAcc.filter out }

def restoreWindow (s : State) (w : SavedWindow) : State :=
  let cells := ((List.range w.pas.length).zip w.pas).flatMap (fun jp =>
    (s.hbm.filter (fun kv => decide (jp.2 ≤ kv.1) && decide (kv.1 < jp.2 + 16384))).map
      (fun kv => (16384 * jp.1 + (kv.1 - jp.2), kv.2)))
  modCore s w.core (fun q =>
    cells.foldl (fun t ob => restoreByte w.abase w.asize ob.1 ob.2 t) (clearEntries w.abase w.asize q))

end Sys2Proof.Machine
end

