-- ==== Sys2Proof/Machine/Schedule.lean ====
section
/-!
DEFINITION. The die scheduler: eligibility, which cores fit, placement, and the pass with pre-emption and rotation
(R160-R162, R168-R174, R39, R183, R490).
-/
namespace Sys2Proof.Machine

/-! ## Resources (R161, R170, R173) -/

/-- The gate of a waiting cohort reads zero, and it is not held (R170, R499). -/
def eligible (s : State) (x : Cohort) : Bool :=
  !x.hold && (!lrWaitEn x.lrec || getGate s (lrWaitGate x.lrec) == 0)

/-- Cohort z's seats are not free for cohort h, were the cohorts `freed` stopped. A victim's seats stay reserved for
the cohort it was stopped for. -/
def occupies (h : Nat) (freed : List Nat) (z : Nat × Cohort) : Bool :=
  match z.2.st with
  | .queued => false
  | .preempted => (match z.2.reservedFor with | some j => j != h | none => false)
  | _ => z.1 != h && !freed.contains z.1

/-- The cohorts whose seats and barriers are not free for h: victims that have ended stay reserved too. -/
def occupants (s : State) (h : Nat) (freed : List Nat) : List Cohort :=
  (s.cohorts.filter (occupies h freed)).map (·.2) ++ (s.reserves.filter (fun r => r.1 != h)).map (·.2)

/-- The occupants of core k with their seats. -/
def seatsAt (zs : List Cohort) (k : Nat) : List (Seat × Cohort) :=
  zs.filterMap (fun z => (seatOn z k).map (fun t => (t, z)))

/-- The lowest place of `need` units below `cap` that meets no used range. -/
def lowestFit (used : List (Nat × Nat)) (need cap : Nat) : Option Nat :=
  let us := used.filter (fun u => u.2 != 0)
  let ok (a : Nat) : Bool := decide (a + need ≤ cap) && !us.any (fun u => rangesMeet a need u.1 u.2)
  if need = 0 then some 0
  else (0 :: us.map (fun u => u.1 + u.2)).foldl (fun best a =>
    if !ok a then best else match best with | none => some a | some b => some (natMin a b)) none

def quadRanges (l : List (Seat × Cohort)) : List (Nat × Nat) := l.map (fun tz => (tz.1.quad, lrQuads tz.2.lrec))
def pageRanges (l : List (Seat × Cohort)) : List (Nat × Nat) := l.map (fun tz => (tz.1.page, lrSpadPg tz.2.lrec))
def countersFree (l : List (Seat × Cohort)) (r : LaunchRec) : Bool :=
  l.all (fun tz => lrCmask tz.2.lrec &&& lrCmask r == 0)

/-- The seat of a record on core k, if the core fits it (R161). -/
def seatFor (zs : List Cohort) (r : LaunchRec) (k : Nat) : Option Seat :=
  let l := seatsAt zs k
  let free := (ctxsOfCore k).filter (fun c => !l.any (fun tz => tz.1.ctxs.contains c))
  match lowestFit (quadRanges l) (lrQuads r) 3072, lowestFit (pageRanges l) (lrSpadPg r) 1024 with
  | some q, some p =>
    if free.length < lrCpc r ∨ ¬ countersFree l r then none else some ⟨k, free.take (lrCpc r), q, p⟩
  | _, _ => none

/-! ### The cores by MODE (R160) -/

/-- The smallest power of two that is at least n, for n up to 128. -/
def powerAbove (n : Nat) : Nat := (([1, 2, 4, 8, 16, 32, 64, 128] : List Nat).find? (fun p => decide (n ≤ p))).getD 128

/-- One core in turn from each die, a die with none left leaving the rotation. -/
def spreadCores : (fuel n : Nat) → List (List Nat) → List Nat
  | 0, _, _ => []
  | _, 0, _ => []
  | _, _, [] => []
  | f + 1, n, [] :: ds => spreadCores f n ds
  | f + 1, n + 1, (k :: ks) :: ds => k :: spreadCores f n (ds ++ [ks])

/-- The cores a record takes among those that fit. -/
def pickCores (r : LaunchRec) (fit : List Nat) : Option (List Nat) :=
  let n := lrNcore r
  let whole (l : List Nat) : Option (List Nat) := if l.length = n then some l else none
  match lrMode r with
  | 0 => whole (fit.take n)
  | 1 =>
    let p := powerAbove n
    (((List.range (128 / p)).map (fun i => (List.range n).map (fun j => i * p + j))).find? (fun run =>
      run.all (fun k => fit.contains k)))
  | 2 => whole (spreadCores 512 n ((permittedDies r).map (fun d => fit.filter (fun k => dieOfCore k == d))))
  | _ => if (selectedCores r).all (fun k => fit.contains k) then some (selectedCores r) else none

/-- Barriers of a die that no occupant holds. -/
def freeBarriers (zs : List Cohort) (d : Nat) : List Nat :=
  let used := (zs.filter (fun z => lrHome z.lrec == d)).flatMap (fun z => z.bars)
  (List.range 256).filter (fun b => !used.contains b)

/-- Where a cohort would be placed: seats in ascending core id, and barriers. -/
structure Plan where
  seats : List Seat
  bars  : List Nat
  deriving DecidableEq, Repr

def planQueued (s : State) (zs : List Cohort) (r : LaunchRec) : Option Plan :=
  let fits := (allowedCores s r).filterMap (seatFor zs r)
  match pickCores r (fits.map (fun t => t.core)) with
  | none => none
  | some cores =>
    let bars := freeBarriers zs (lrHome r)
    if bars.length < lrNbar r then none
    else some ⟨fits.filter (fun t => cores.contains t.core), bars.take (lrNbar r)⟩

/-- A victim saved for another cohort holds the partition number reserved (R173). -/
def partReserved (s : State) (h core p : Nat) : Bool :=
  s.cohorts.any (fun z => z.1 != h && (match z.2.reservedFor with | some j => j != h | none => false)
    && (match z.2.saved with | some v => (tabFind v.parts (4 * core + p)).isSome | none => false))

/-- The partition's number and accumulator window can be had again on its core (R170). -/
def partReturns (s : State) (h : Nat) (freed : List Nat) (core p : Nat) (x : Part) : Bool :=
  let q := getCore s core
  q.parts.all (fun kp => freed.contains kp.2.coh
    || (kp.1 != p && !rangesMeet x.abase x.asize kp.2.abase kp.2.asize))
  && q.kept.all (fun w => w.coh == h || w.part != p)
  && q.clearing.all (fun w => !rangesMeet x.abase x.asize w.1 w.2)
  && !partReserved s h core p

/-- A pre-empted cohort gets back everything it held (R170). -/
def planReturn (s : State) (h : Nat) (x : Cohort) (freed : List Nat) (zs : List Cohort) : Option Plan :=
  let back (t : Seat) : Bool :=
    let l := seatsAt zs t.core
    !(getCore s t.core).out
    && t.ctxs.all (fun c => !l.any (fun tz => tz.1.ctxs.contains c))
    && (lrQuads x.lrec == 0 || (quadRanges l).all (fun u => u.2 == 0 || !rangesMeet t.quad (lrQuads x.lrec) u.1 u.2))
    && (lrSpadPg x.lrec == 0 || (pageRanges l).all (fun u => u.2 == 0 || !rangesMeet t.page (lrSpadPg x.lrec) u.1 u.2))
    && countersFree l x.lrec
  let free := freeBarriers zs (lrHome x.lrec)
  let parts := match x.saved with | some v => v.parts | none => []
  if x.seats.all back && x.bars.all (fun b => free.contains b)
      && parts.all (fun kp => partReturns s h freed (kp.1 / 4) (kp.1 % 4) kp.2) then some ⟨x.seats, x.bars⟩
  else none

/-! ### Windows kept in place that must be saved first (R490) -/

/-- Kept windows of other cohorts on the cores of a cohort with quads. -/
def keptOthers (s : State) (h : Nat) (r : LaunchRec) (cores : List Nat) : List (Nat × KeptWindow) :=
  if lrQuads r = 0 then []
  else cores.flatMap (fun k => ((getCore s k).kept.filter (fun w => w.coh != h)).map (fun w => (k, w)))

def keptNeeds (l : List (Nat × KeptWindow)) : List (FrameItem × Nat) :=
  l.flatMap (fun kw => List.replicate (windowFrames kw.2.asize) (.window kw.1 kw.2.part, dieOfCore kw.1))

/-- Where the cohort fits now, were the cohorts `freed` stopped (R161, R170). -/
def fitPlan (s : State) (h : Nat) (x : Cohort) (freed : List Nat) : Option Plan :=
  let zs := occupants s h freed
  let plan := if x.st = .preempted then planReturn s h x freed zs else planQueued s zs x.lrec
  match plan with
  | none => none
  | some p =>
    if (takeFrames s (usedFrames s) (keptNeeds (keptOthers s h x.lrec (p.seats.map (fun t => t.core))))).isSome then some p
    else none

/-- A kept window is saved to frames of its cohort. -/
def saveKept (s : State) (k : Nat) (w : KeptWindow) : State :=
  match getCohort s w.coh, takeFrames s (usedFrames s) (keptNeeds [(k, w)]) with
  | some x, some fs =>
    (match x.saved with
     | some v =>
       let pas := fs.map (framePa s)
       let s1 := saveWindow s k w.abase w.asize pas
       let s2 := putCohort s1 w.coh { x with
         frames := x.frames ++ fs, saved := some { v with windows := v.windows ++ [⟨k, w.part, w.abase, w.asize, pas⟩] } }
       modCore s2 k (fun q => { q with kept := q.kept.filter (fun u => u != w) })
     | none => s)
  | _, _ => s

/-! ## Placement (R39, R40, R162, R183, R300) -/

/-- A context at cohort entry. -/
def enterCtx (h : Nat) (x : Cohort) (t : Seat) (rank : Nat) : Ctx :=
  let r := x.lrec
  let base : Ctx := { ctxReset with phase := .running, coh := some h, rank := rank, sv := lrSv r, pc := r.entry }
  let g := ctxSetG (ctxSetG (ctxSetG (ctxSetG base 2 (r.stack - w64 (16 * lrStkStride r * rank))) 3 r.argp) 4 (w64 rank)) 5
    (w64 (lrSize r))
  let c1 := ctxSetCr (ctxSetCr g crEntrypc r.entry) crXspace x.xspace
  ctxSetCr (ctxSetCr (ctxSetCr c1 crTvec x.tvec) crSpBase (w64 (4096 * t.page))) crSpLimit
    (w64 (4096 * (t.page + lrSpadPg r)))

/-- A STOPPED context number c of a saved cohort has a WAKE pending (R181). -/
def wakeSaved (c : Nat) (v : Saved) : Saved :=
  { v with ctxs := v.ctxs.map (fun kv => if kv.1 = c then (kv.1, { kv.2 with wakePend := true }) else kv) }

/-- A WAKE that reached context number c while no placed cohort held it, or that is on its way to it then, stays with the
STOPPED contexts of that number (R181; where several cohorts have one, with each: DESIGN CHOICE, log 58). -/
def keepWake (s : State) (c : Nat) : State :=
  let y := getCtx s c
  if y.wakePend ∨ y.wakesIn ≠ 0 then
    modCtx { s with cohorts := s.cohorts.map (fun hx => (hx.1, { hx.2 with saved := hx.2.saved.map (wakeSaved c) })) } c
      (fun x => { x with wakePend := false, wakesIn := 0 })
  else s

/-- The members with their seats, by rank. -/
def memberSeats (x : Cohort) : List (Seat × Nat) := x.seats.flatMap (fun t => t.ctxs.map (fun c => (t, c)))

/-- The victims of a cohort are reserved for it no more. -/
def endReservation (s : State) (h : Nat) : State :=
  { s with
    cohorts := s.cohorts.map (fun kv =>
      if kv.2.reservedFor = some h then (kv.1, { kv.2 with reservedFor := none }) else kv)
    reserves := s.reserves.filter (fun r => r.1 != h) }

/-- The instruction caches of the cores of a placed cohort are empty (R14). -/
def clearIcaches (s : State) (seats : List Seat) : State :=
  seats.foldl (fun t u => modCore t u.core (fun q => { q with icache := [] })) s

/-- The placement of a cohort that was never placed: its contexts, its barriers, empty instruction caches. It changes no
counter (R39), so one that a pre-empted cohort also owns shows its value and flag to the cohort placed meanwhile (DESIGN
CHOICE, log 56). -/
def placeQueued (s : State) (h : Nat) (x : Cohort) (p : Plan) : State :=
  let y : Cohort := { x with
    st := .placed, seats := p.seats, bars := p.bars, placedAt := s.clk, quantumOver := false, headSince := none,
    headExpired := false }
  let s1 := putCohort s h y
  let ms := memberSeats y
  let s2 := ((List.range ms.length).zip ms).foldl (fun t im =>
    putCtx (keepWake t im.2.2) im.2.2 (enterCtx h y im.2.1 im.1)) s1
  clearIcaches (p.bars.foldl (fun t b => putBarrier t (lrHome x.lrec) b ⟨lrSize x.lrec, 0, 0, false⟩) s2) p.seats

/-- A cohort that was pre-empted holds its resources again; its frames are read next (R491). -/
def placeReturned (s : State) (h : Nat) (x : Cohort) : State :=
  let s1 := (members x).foldl keepWake s
  match getCohort s1 h with
  | some y => clearIcaches (putCohort s1 h { y with
      st := .restoring, placedAt := s.clk, quantumOver := false, headSince := none, headExpired := false,
      reservedFor := none }) x.seats
  | none => s1

def placeCohort (s : State) (h : Nat) (x : Cohort) (p : Plan) : State :=
  let s1 := (keptOthers s h x.lrec (p.seats.map (fun t => t.core))).foldl (fun t kw => saveKept t kw.1 kw.2) s
  let s2 := if x.st = .preempted then placeReturned s1 h x else placeQueued s1 h x p
  endReservation s2 h

/-! ## Stopping (R173, R484, R490) -/

/-- A stop reaches a placed cohort: it takes its frames, and its conversions pause. One whose members have all EXITED
completes instead. -/
def beginStop (s : State) (h : Nat) (x : Cohort) (res : Option Nat) (take : List Nat) (rotated : Bool)
    (frames : List FrameUse) : State :=
  let s1 := putCohort s h { x with
    st := .stopping, reservedFor := res, takeCores := take, rotated := rotated, frames := frames }
  stopLapses (pauseConvs s1 h true) (some h)

/-- Every victim stops, with its frames; none where some frame cannot be had. -/
def stopAll (s : State) (h : Nat) (take : List Nat) (rotated : Bool) : List Nat → Option State
  | [] => some s
  | v :: vs =>
    match getCohort s v with
    | none => stopAll s h take rotated vs
    | some x =>
      match takeFrames s (usedFrames s) (frameNeeds s v x take) with
      | none => none
      | some fs => stopAll (beginStop s v x (some h) take rotated fs) h take rotated vs

/-- Cohorts stopped for h that neither have been saved nor have ended. -/
def victimsOf (s : State) (h : Nat) : List Nat :=
  (s.cohorts.filter (fun z => (z.2.st == .stopping || z.2.st == .placed) && z.2.reservedFor == some h)).map (·.1)

/-- Candidates are taken until the cohort would fit; one whose frames cannot be had is passed over (R173, R486). -/
def findVictims (s : State) (h : Nat) (x : Cohort) (rotated : Bool) : (taken cands : List Nat) → Option State
  | _, [] => none
  | taken, c :: cs =>
    let try1 := taken ++ [c]
    match stopAll s h [] rotated try1 with
    | none => findVictims s h x rotated taken cs
    | some _ =>
      match fitPlan s h x try1 with
      | none => findVictims s h x rotated try1 cs
      | some p =>
        let take := if lrQuads x.lrec = 0 then [] else p.seats.map (fun t => t.core)
        match stopAll s h take rotated try1 with
        | some t => some t
        | none => findVictims s h x rotated taken cs

/-- A placed cohort holds resources on the dies that x may use. -/
def holdsNear (x z : Cohort) : Bool :=
  let ds := permittedDies x.lrec
  z.seats.any (fun t => ds.contains (dieOfCore t.core)) || (!z.bars.isEmpty && ds.contains (lrHome z.lrec))

/-- Insertion by a comparison. -/
def insertBy {α : Type} (before : α → α → Bool) (a : α) : List α → List α
  | [] => [a]
  | b :: bs => if before a b then a :: b :: bs else b :: insertBy before a bs
def sortBy {α : Type} (before : α → α → Bool) (l : List α) : List α := l.foldr (insertBy before) []

/-- Lowest PRIO first, within a PRIO the latest placed first; of two placed in the same clk the higher queue number
(DESIGN CHOICE, log 91). -/
def preemptBefore (a b : Nat × Cohort) : Bool :=
  if lrPrio a.2.lrec != lrPrio b.2.lrec then decide (lrPrio a.2.lrec < lrPrio b.2.lrec)
  else if a.2.placedAt != b.2.placedAt then decide (b.2.placedAt < a.2.placedAt)
  else decide (b.2.qnum < a.2.qnum)

def tryPreempt (s : State) (h : Nat) (x : Cohort) : Option State :=
  let cs := s.cohorts.filter (fun z => z.2.st == .placed && z.2.reservedFor.isNone && lrPreempt z.2.lrec
    && decide (lrPrio z.2.lrec + 2 ≤ lrPrio x.lrec) && holdsNear x z.2)
  findVictims s h x false [] ((sortBy preemptBefore cs).map (·.1))

/-- The quantum of a placed cohort has run, or YIELD.Q has ended it (R174, R180). -/
def quantumRun (s : State) (x : Cohort) : Bool :=
  x.quantumOver || decide ((getDie s (lrHome x.lrec)).quantum.toNat ≤ s.clk - x.placedAt)

/-- Longest run first; of two placed in the same clk the lower queue number (DESIGN CHOICE, log 91: R174 does not say
which). -/
def rotateBefore (a b : Nat × Cohort) : Bool :=
  if a.2.placedAt != b.2.placedAt then decide (a.2.placedAt < b.2.placedAt) else decide (a.2.qnum < b.2.qnum)

def tryRotate (s : State) (h : Nat) (x : Cohort) : Option State :=
  if !lrTshare x.lrec then none
  else
    let cs := s.cohorts.filter (fun z => z.2.st == .placed && z.2.reservedFor.isNone && lrTshare z.2.lrec
      && lrPrio z.2.lrec == lrPrio x.lrec && quantumRun s z.2 && holdsNear x z.2)
    findVictims s h x true [] ((sortBy rotateBefore cs).map (·.1))

/-! ## The pass (R171) -/

def headWait : Nat := 1048576

/-- The queue of a level, in ascending queue number (R169). -/
def levelQueue (s : State) (d lv : Nat) : List Nat :=
  (sortBy (fun (a b : Nat × Cohort) => decide (a.2.qnum < b.2.qnum))
    (s.cohorts.filter (fun z => handleDie z.1 == d && cohPending z.2 && lrPrio z.2.lrec == lv))).map (·.1)

/-- The first eligible cohort of a level that is not placed. -/
def levelHead (s : State) (d lv : Nat) : Option Nat :=
  (levelQueue s d lv).find? (fun h => match getCohort s h with | some x => eligible s x | none => false)

/-- A head's wait starts when it becomes the head. -/
def markHeads (s : State) (d : Nat) : State :=
  let heads := (List.range 8).filterMap (levelHead s d)
  { s with cohorts := s.cohorts.map (fun z =>
      if handleDie z.1 ≠ d then z
      else if heads.contains z.1 then
        (match z.2.headSince with | none => (z.1, { z.2 with headSince := some s.clk }) | some _ => z)
      else (z.1, { z.2 with headSince := none, headExpired := false })) }

def startHeadWait (s : State) (h : Nat) : State :=
  match getCohort s h with
  | some x => (match x.headSince with | none => putCohort s h { x with headSince := some s.clk } | some _ => s)
  | none => s

def headWaited (s : State) (h : Nat) : Bool :=
  match getCohort s h with
  | some x => (match x.headSince with | some t => decide (headWait ≤ s.clk - t) | none => false)
  | none => false

/-- The walk of a level: the state, and whether the pass ends. A cohort whose victims' saves run is not placed until the
last of them completes (R173); as after a successful try_preempt, the walk goes on behind it (DESIGN CHOICE, log 72). -/
def walkLevel (s : State) : (head : Bool) → List Nat → State × Bool
  | _, [] => (s, false)
  | head, h :: hs =>
    match getCohort s h with
    | none => walkLevel s head hs
    | some x =>
      if !eligible s x then walkLevel s head hs
      else if !(victimsOf s h).isEmpty then walkLevel s false hs
      else match fitPlan s h x [] with
        | some p => walkLevel (placeCohort s h x p) head hs
        | none =>
          if !head then walkLevel s false hs
          else
            let s1 := startHeadWait s h
            match tryPreempt s1 h x with
            | some t => walkLevel t false hs
            | none =>
              match tryRotate s1 h x with
              | some t => walkLevel t false hs
              | none => if headWaited s1 h then (s1, true) else walkLevel s1 false hs

def walkLevels (d : Nat) : (levels : Nat) → State → State
  | 0, s => s
  | lv + 1, s =>
    match walkLevel s true (levelQueue s d lv) with
    | (t, true) => t
    | (t, false) => walkLevels d lv t

/-- Requested stops that can have their frames begin (R486, R499). -/
def beginStops (s : State) (d : Nat) : State :=
  (s.cohorts.filter (fun z => handleDie z.1 == d && z.2.stopReq && z.2.st == .placed)).foldl (fun t z =>
    match getCohort t z.1 with
    | none => t
    | some x =>
      match takeFrames t (usedFrames t) (frameNeeds t z.1 x []) with
      | none => t
      | some fs => beginStop t z.1 x none [] false fs) s

def pass (s : State) (d : Nat) : State :=
  markHeads (walkLevels d 8 (markHeads (beginStops s d) d)) d

/-- SCHEDULER_PASS. -/
def execSchedulerPass (die : Nat) (s : State) : Out :=
  if 4 ≤ die then noAgent
  else if !(getDie s die).passDue then ev s
  else .next (pass (modDie s die (fun x => { x with passDue := false })) die)

/-- QUANTUM_EXPIRY: a pass follows. -/
def execQuantumExpiry (coh : Nat) (s : State) : Out :=
  match getCohort s coh with
  | none => ev s
  | some x =>
    if x.st = .placed ∧ lrTshare x.lrec ∧ ¬ x.quantumOver ∧ quantumRun s x then
      .next (passAll (putCohort s coh { x with quantumOver := true }))
    else ev s

/-- HEAD_WAIT_EXPIRY: a pass follows. -/
def execHeadWaitExpiry (die level : Nat) (s : State) : Out :=
  if 4 ≤ die ∨ 8 ≤ level then noAgent
  else
    let due (h : Nat) : Bool := match getCohort s h with
      | some x => !x.headExpired && headWaited s h
      | none => false
    match (levelQueue s die level).find? due with
    | none => ev s
    | some h =>
      match getCohort s h with
      | none => ev s
      | some x => .next (duePass (putCohort s h { x with headExpired := true }) die)

end Sys2Proof.Machine
end

