-- ==== Sys2Proof/Machine/Save.lean ====
section
/-!
DEFINITION. The end of a stop and of a resumption, completion and termination of cohorts (R167, R170, R482, R484-R493).
-/
namespace Sys2Proof.Machine

/-! ## When a stopped cohort is quiet (R484, R485) -/

/-- A handle write that stalls is given up (R485). -/
def ctxQuiet (s : State) (c : Nat) : Bool :=
  let x := getCtx s c
  (x.vq.isEmpty || (x.handleStall && x.vq.all (·.blocks))) && x.vrun.isEmpty && x.out.isEmpty && x.loading.isEmpty
  && x.baraIn.isNone && x.peerWait.isNone && x.peerData.isNone && !x.haltReq && !x.ending && !(s.peers.any (fun kr => kr.2.ctx == c))

/-- The started copies of a context stand at their chunk boundaries. -/
def copiesQuiet (s : State) (c : Nat) : Bool :=
  [0, 1].all (fun e => (getEngine s (coreOfCtx c) e).active.all (fun kv =>
    kv.2.cmd.ctx != c || (runHalts s kv.2 && kv.2.peer.isNone)))

def runQuiet (r : OpRun) : Bool := r.flight.isEmpty && isSweep r.cmd && r.fault.isNone && !opEnded r

def partQuiet (x : Part) : Bool :=
  x.runs.all runQuiet && x.drRun.isNone && (match x.shadow with | .loading _ _ _ => false | _ => true)

/-- No unit of the cohort's conversions is BUSY. -/
def convQuiet (s : State) (h d : Nat) : Bool :=
  let q := getDie s d
  q.convs.all (fun c => c.coh != h || (c.retry.isEmpty && (match q.unit with | some u => u.1 != c.rec_ | none => true)))

def placeQuiet (s : State) (h d : Nat) : Bool :=
  match (getDie s d).placing with | some (c, _) => c.holder.1 != h | none => true

/-- Nothing of a stopped cohort is on its way, and no trap is due that a member takes before it stops (R473, R484). -/
def cohortQuiet (s : State) (h : Nat) (x : Cohort) : Bool :=
  (members x).all (fun c => ctxQuiet s c && copiesQuiet s c && !asyncDue s c)
  && x.seats.all (fun t => (partsOf s h t.core).all (fun kp => partQuiet kp.2))
  && [0, 1, 2, 3].all (fun d => convQuiet s h d && placeQuiet s h d)

/-! ## The save (R486-R491) -/

/-- A member as its image shows it: a WAKE on its way has arrived. -/
def stopCtx (x : Ctx) : Ctx :=
  { x with wakePend := x.wakePend || x.wakesIn != 0, wakesIn := 0, parkEnd := none, handleStall := false }

/-- What a save has written: the frames it used, and what lies in them. -/
structure SaveCursor where
  used    : List FrameUse
  images  : List (Nat × List Nat)
  cframes : List (Nat × Nat)
  windows : List SavedWindow
  deriving DecidableEq, Repr

/-- The image of a member, in its own frames; one that is bound no more leaves two of its three (R486). -/
def saveImage (frames : List FrameUse) (c : Nat) (a : State × SaveCursor) : State × SaveCursor :=
  let s := a.1
  let fs := itemFrames frames (.image c) (imageFrames s c)
  let pas := fs.map (framePa s)
  let s1 := modCtx (dropStalled s c) c stopCtx
  let im := contextImage s1 c
  (putWords (frameAddr pas) im.1 (pas.foldl clearFrame im.2),
   { a.2 with used := a.2.used ++ fs, images := a.2.images ++ [(c, pas)] })

def saveCore (h : Nat) (x : Cohort) (first : Nat) (t : Seat) (a : State × SaveCursor) : State × SaveCursor :=
  let b := t.ctxs.foldl (fun u c => saveImage x.frames c u) a
  let s1 := b.1
  let cf := itemFrames x.frames (.core t.core) 1
  let pa := (cf.map (framePa s1)).headD 0
  let s2 := putWords (frameAddr [pa]) (cohortFrame s1 h x t.core (t.core == first)) (clearFrame s1 pa)
  let cur : SaveCursor := { b.2 with used := b.2.used ++ cf, cframes := b.2.cframes ++ [(t.core, pa)] }
  if x.takeCores.contains t.core then
    (partsOf s2 h t.core).foldl (fun u kp =>
      let fs := itemFrames x.frames (.window t.core kp.1) (windowFrames kp.2.asize)
      let pas := fs.map (framePa u.1)
      (saveWindow u.1 t.core kp.2.abase kp.2.asize pas,
       { u.2 with used := u.2.used ++ fs,
                  windows := u.2.windows ++ [⟨t.core, kp.1, kp.2.abase, kp.2.asize, pas⟩] })) (s2, cur)
  else (s2, cur)

/-- What a cohort leaves on a core: its partitions, whose windows not saved stay in place, its records, its copies. -/
def leaveCore (h : Nat) (x : Cohort) (s : State) (t : Seat) : State :=
  modCore s t.core (fun q => { q with
    parts := q.parts.filter (fun kp => kp.2.coh != h)
    kept := q.kept ++ (if x.takeCores.contains t.core then []
      else (q.parts.filter (fun kp => kp.2.coh == h)).map (fun kp => ⟨h, kp.1, kp.2.abase, kp.2.asize⟩))
    faultq := q.faultq.filter (fun r => !(t.ctxs.contains r.ctx))
    lost := q.lost.filter (fun j => j != h)
    engines := q.engines.map (fun ke => (ke.1, { ke.2 with
      queues := ke.2.queues.filter (fun cq => !t.ctxs.contains cq.1)
      active := ke.2.active.filter (fun sr => !t.ctxs.contains sr.2.cmd.ctx) })) })

/-- The parts of a cohort that are saved in the device's own form. -/
def savedOf (s : State) (h : Nat) (x : Cohort) (cur : SaveCursor) : Saved :=
  let cores := x.seats.map (fun t => t.core)
  let ms := members x
  { images := cur.images
    cframes := cur.cframes
    windows := cur.windows
    ctxs := tabOf' (ms.map (fun c => (c, { getCtx s c with wakePend := false })))
    parts := tabOf' (cores.flatMap (fun k => (partsOf s h k).map (fun kp => (4 * k + kp.1, kp.2))))
    queues := tabOf' (ms.flatMap (fun c => [0, 1].map (fun e => (2 * c + e, tabGet [] (getEngine s (coreOfCtx c) e).queues c))))
    runs := tabOf' (cores.flatMap (fun k => [0, 1].map (fun e =>
      (2 * k + e, ((getEngine s k e).active.filter (fun sr => ms.contains sr.2.cmd.ctx)).map (·.2)))))
    places := (getDie s (lrHome x.lrec)).placeq.filter (fun c => c.holder.1 == h)
      ++ ([0, 1, 2, 3].filter (fun d => d != lrHome x.lrec)).flatMap (fun d =>
          (getDie s d).placeq.filter (fun c => c.holder.1 == h))
    owed := [] }
where
  tabOf' {α : Type} (l : List (Nat × α)) : Tab α := l.foldl (fun t kv => tabPut t kv.1 kv.2) []

def sdfRec (c : Nat) (pc addr : Word) (info : Nat) : FaultRec :=
  { recBase cSaveDouble 0 c pc with addr := addr, info0 := w64 info }

/-- Members whose state the save cannot read are terminated, and the save of the others goes on (R493). -/
def dropStruck (s : State) (x : Cohort) : State :=
  ((members x).filter (fun c => (getCtx s c).bad && (getCtx s c).phase != .exited)).foldl (fun t c =>
    terminateCtx t c (sdfRec c (getCtx t c).pc 0 0)) s

/-- The save of a quiet cohort. It stands in its level's queue again, whatever the number there (DESIGN CHOICE,
log 73). -/
def saveQuiet (s : State) (h : Nat) (x : Cohort) : State :=
  let first := (x.seats.map (fun t => t.core)).headD 0
  let a := x.seats.foldl (fun u t => saveCore h x first t u) (s, ⟨[], [], [], []⟩)
  let v := savedOf a.1 h x a.2
  let s1 := x.seats.foldl (leaveCore h x) a.1
  let s2 := (members x).foldl (fun t c => modCtx t c (fun y =>
    { ctxReset with phase := if y.phase == .exited then .exited else .stopped, coh := some h })) s1
  let s3 := [0, 1, 2, 3].foldl (fun t d => modDie t d (fun q => { q with
    placeq := q.placeq.filter (fun c => c.holder.1 != h) })) s2
  let n := if x.rotated then nextAcc s3 (lrHome x.lrec) else (x.qnum, s3)
  passAll (putCohort n.2 h { x with
    st := .preempted, qnum := n.1, hold := x.hold || x.stopReq, stopReq := false, rotated := false, saved := some v,
    headSince := none, headExpired := false, frames := a.2.used })

/-- The save, after the members struck by an error in their own state are gone; with none left there is nothing to
save. -/
def saveCohort (s : State) (h : Nat) (x : Cohort) : State :=
  let t := dropStruck s x
  match getCohort t h with
  | some y => if y.st == .stopping then saveQuiet t h y else t
  | none => t

/-- COHORT_SAVE_COMPLETE. -/
def execCohortSaveComplete (coh : Nat) (s : State) : Out :=
  match getCohort s coh with
  | none => ev s
  | some x =>
    if x.st = .stopping ∧ ¬ allExited s x ∧ cohortQuiet s coh x then .next (saveCohort s coh x) else ev s

/-! ## The resumption (R491, R493) -/

/-- A member from its image. A WAKE that was kept for it, or came while its cohort was restoring, stays pending, and one
that is on its way to it still comes (R181). -/
def restoreCtx (s : State) (x : Cohort) (old slot : Ctx) (pas : List Nat) : Ctx :=
  let rd := frameWord s pas
  let y := loadImage rd old
  let halted := (rd 0).getLsbD 9 || x.haltOnResume
  let z : Ctx := { y with
    replies := loadReplies rd old.replies
    wakePend := y.wakePend || old.wakePend || slot.wakePend
    wakesIn := slot.wakesIn
    phase := if old.phase == .exited then .exited else if halted then .halted else .running
    loading := []
    out := [] }
  ctxSetCr z crPrecnt (BitVec.setWidth 64 (BitVec.setWidth 32 (ctxCr z crPrecnt) + 1))

/-- An address-tagged active set passes through the configuration cache (R491). The set itself is what it was (R492). -/
def reloadActive (s : State) (core p : Nat) (x : Part) : State :=
  match x.active with
  | some a =>
    if a.composed then putPart s core p x
    else
      let y := getCtx s x.ctx
      match loadSet s (dieOfCore core) ⟨x.ctx, y.sv, ctxCr y crXspace⟩ (w64 a.addr) with
      | .ok (_, miss, t) => putPart t core p (if miss then { x with misses := (x.misses + 1) % 2 ^ 64 } else x)
      | .error _ => putPart s core p x
  | none => putPart s core p x

/-- The engines of core k take back a cohort's commands. An interrupted one goes on in a free active slot; where other
cohorts' commands hold all four, it waits behind them (R387, R491; DESIGN CHOICE, log 102). -/
def restoreEngine (v : Saved) (ms : List Nat) (k e : Nat) (s : State) : State :=
  let g := getEngine s k e
  let qs := (ms.filter (fun c => coreOfCtx c == k)).foldl (fun t c => tabSet [] t c (tabGet [] v.queues (2 * c + e))) g.queues
  let act := (tabGet [] v.runs (2 * k + e)).foldl (fun t r =>
    match (List.range (t.length + 5)).find? (fun i => (tabFind t i).isNone) with
    | some i => tabPut t i r
    | none => t) g.active
  putEngine s k e { g with queues := qs, active := act }

/-- Everything of one core comes back: windows, counters and records first, then members and partitions. -/
def restoreCore (h : Nat) (x : Cohort) (v : Saved) (first : Nat) (s : State) (t : Seat) : State :=
  let k := t.core
  let cpa := ((v.cframes.filter (fun kp => kp.1 == k)).map (·.2)).headD 0
  let wins := v.windows.filter (fun w => w.core == k)
  let s1 := wins.foldl restoreWindow s
  let s2 := modCore s1 k (fun q => { q with kept := q.kept.filter (fun w => w.coh != h) })
  let s4 := t.ctxs.foldl (fun u c =>
    match tabFind v.ctxs c with
    | some old => putCtx u c (restoreCtx u x old (getCtx u c) (((v.images.filter (fun im => im.1 == c)).map (·.2)).headD []))
    | none => u) s2
  let s5 := loadCohortFrame s4 h x k cpa
  let s6 := if k = first then loadBarriers s5 x cpa else s5
  let ps := v.parts.filter (fun kp => kp.1 / 4 == k)
  let s7 := ps.foldl (fun u kp =>
    let pas := ((v.images.filter (fun im => im.1 == kp.2.ctx)).map (·.2)).headD []
    reloadActive u k (kp.1 % 4) (loadPartBlock (frameWord u pas) kp.2)) s6
  [0, 1].foldl (fun u e => restoreEngine v t.ctxs k e u) s7

/-- The frames that a member is read from: its image's, the cohort frame of its core, and those of its window. -/
def framesOf (v : Saved) (t : Seat) (c : Nat) : List Nat :=
  ((v.images.filter (fun im => im.1 == c)).map (·.2)).headD []
  ++ (v.cframes.filter (fun kp => kp.1 == t.core)).map (·.2)
  ++ (v.windows.filter (fun w => w.core == t.core
      && v.parts.any (fun kp => kp.1 == 4 * w.core + w.part && kp.2.ctx == c))).flatMap (fun w => w.pas)

/-- The members that an uncorrectable error in a frame of theirs strikes (R493), each with the physical address of the first
such frame, which its record has in ADDR (R468; DESIGN CHOICE, log 111). -/
def struck (s : State) (v : Saved) (t : Seat) : List (Nat × Nat) :=
  t.ctxs.filterMap (fun c => ((framesOf v t c).find? (fun pa => frameBad s [pa])).map (fun pa => (c, pa)))

/-- What conversions abandoned while the cohort was pre-empted take from its counters (R432). -/
def settleOwed (s : State) : List (Nat × Nat × Nat × Nat × Word) → State
  | [] => s
  | (k, i, n, c, pc) :: l => settleOwed (markFaulted (counterSub s k i n c pc) k i) l

/-- The cohort runs again from its frames (R491). Its unstarted PLACEs enter the composer's queue at its tail (R461), also
when that then holds more than 64 (DESIGN CHOICE, log 124). -/
def restoreCohort (s : State) (h : Nat) (x : Cohort) (v : Saved) : State :=
  let first := (x.seats.map (fun t => t.core)).headD 0
  let bad := x.seats.flatMap (struck s v)
  let s1 := putCohort s h { x with st := .placed, saved := none, frames := [], haltOnResume := false }
  let s2 := settleOwed (x.seats.foldl (restoreCore h x v first) s1) v.owed
  let s3 := [0, 1, 2, 3].foldl (fun t d => modDie t d (fun q => { q with
    placeq := q.placeq ++ v.places.filter (fun c => dieOfCtx c.ctx == d) })) (pauseConvs s2 h false)
  passAll ((bad.filter (fun cp => (getCtx s3 cp.1).phase != .exited)).foldl (fun t cp =>
    terminateCtx t cp.1 (sdfRec cp.1 (getCtx t cp.1).pc (w64 cp.2) 1)) s3)

/-- COHORT_RESTORE_COMPLETE. -/
def execCohortRestoreComplete (coh : Nat) (s : State) : Out :=
  match getCohort s coh with
  | none => ev s
  | some x =>
    match x.st, x.saved with
    | .restoring, some v => .next (restoreCohort s coh x v)
    | _, _ => ev s

/-! ## Completion (R167) -/

/-- Nothing of a context is left to settle. -/
def ctxSettled (s : State) (c : Nat) : Bool :=
  let x := getCtx s c
  let k := coreOfCtx c
  x.phase == .exited && !x.ending && x.vq.isEmpty && x.vrun.isEmpty && x.out.isEmpty && x.loading.isEmpty
  && !(s.peers.any (fun kr => kr.2.ctx == c))
  && [0, 1].all (fun e => (tabGet [] (getEngine s k e).queues c).isEmpty
      && (getEngine s k e).active.all (fun sr => sr.2.cmd.ctx != c))

def cohortSettled (s : State) (h : Nat) (x : Cohort) : Bool :=
  (members x).all (ctxSettled s)
  && x.seats.all (fun t => (partsOf s h t.core).all (fun kp => partIdle s t.core kp.1 kp.2))
  && [0, 1, 2, 3].all (fun d => (getDie s d).convs.all (fun c => c.coh != h) && placeQuiet s h d
      && !(getDie s d).placeq.any (fun c => c.holder.1 == h))

/-- The gangs of a cohort dissolve (R521). -/
def dissolveGangs (s : State) (h : Nat) : State := { s with gangs := s.gangs.filter (fun kg => kg.2.coh != h) }

/-- A placed cohort's core is given up: partitions, counters, records, kept windows. -/
def freeCore (h : Nat) (x : Cohort) (s : State) (t : Seat) : State :=
  let s1 := (partsOf s h t.core).foldl (fun u kp => freePartition u t.core kp.1) s
  modCore s1 t.core (fun q => { q with
    counters := q.counters.filter (fun kc => !(lrCmask x.lrec).testBit kc.1)
    faultq := q.faultq.filter (fun r => !t.ctxs.contains r.ctx)
    lost := q.lost.filter (fun j => j != h) })

/-- A cohort is gone: its gate is decremented, its reservations end, the dies make a pass. What it held for another
cohort stays reserved for that one (R173). -/
def finishCohort (s : State) (h : Nat) (x : Cohort) : State :=
  let s0 := endReservation (dropCohort (dissolveGangs s h) h) h
  let s1 := match x.reservedFor with
    | some j => { s0 with reserves := s0.reserves ++ [(j, x)] }
    | none => s0
  passAll (if lrDoneEn x.lrec then doneGate s1 (lrDoneGate x.lrec) else s1)

/-- A context that is FREE again: its registers are as they were (R40 acts when it is placed). -/
def freedCtx (x : Ctx) : Ctx :=
  { ctxReset with pc := x.pc, sv := x.sv, g := x.g, p := x.p, v := x.v, m := x.m, cr := x.cr }

/-- The resources of a cohort that holds contexts are freed. -/
def freeCohort (s : State) (h : Nat) (x : Cohort) : State :=
  let s1 := x.seats.foldl (freeCore h x) s
  let s2 := (members x).foldl (fun t c => modCtx t c freedCtx) s1
  finishCohort { s2 with peers := s2.peers.filter (fun kr => !(members x).contains kr.2.ctx) } h x

/-- COHORT_COMPLETION. -/
def execCohortCompletion (coh : Nat) (s : State) : Out :=
  match getCohort s coh with
  | none => ev s
  | some x =>
    if (x.st = .placed ∨ x.st = .stopping) ∧ cohortSettled s coh x then .next (freeCohort s coh x) else ev s

/-! ## Termination (R482) -/

def termRec (c : Nat) (pc : Word) : FaultRec := recBase cTerminated 0 c pc

/-- A member of a placed cohort; one that a fault terminated has its log entry already. -/
def terminateMember (s : State) (x : Cohort) (c : Nat) : State :=
  let y := getCtx s c
  if y.phase = .exited then
    (if x.termed.contains c then s
     else logTermination (endStopped (modCtx (stopAgents s c) c stoppedCtx) c) (termRec c y.pc))
  else terminateCtx s c (termRec c y.pc)

/-- A conversion of a cohort that holds no counters now is abandoned (R432). -/
def dropConv (s : State) (d : Nat) (c : Conv) : State :=
  let s1 := setRecWord s c.rec_ 0 (setBit (setBit (recWord s c.rec_ 0) recBitPoisoned true) recBitConv false)
  modDie s1 d (fun x => { x with
    convs := x.convs.filter (fun e => e.rec_ != c.rec_), plist := x.plist.filter (fun e => e.1 != c.rec_) })

/-- A cohort that holds contexts on core k owns counter i there. -/
def counterHeld (s : State) (k i : Nat) : Bool :=
  s.cohorts.any (fun z => !cohPending z.2 && (seatOn z.2 k).isSome && (lrCmask z.2.lrec).testBit i)

/-- A pre-empted cohort: its composed sets, conversions, counters and kept windows go. -/
def dropSaved (s : State) (h : Nat) (x : Cohort) (v : Saved) : State :=
  let s1 := (members x).foldl (fun t c => match tabFind v.ctxs c with
    | some y => if x.termed.contains c then t else logTermination t (termRec c y.pc)
    | none => t) s
  let s2 := v.parts.foldl (fun t kp => releaseSlotsOf t (dieOfCore (kp.1 / 4)) (h, kp.1 / 4, kp.1 % 4)) s1
  let s3 := [0, 1, 2, 3].foldl (fun t d =>
    ((getDie t d).convs.filter (fun c => c.coh == h)).foldl (fun u c => dropConv u d c) t) s2
  let s4 := x.seats.foldl (fun t u => modCore t u.core (fun q => { q with
    counters := q.counters.filter (fun kc => !(lrCmask x.lrec).testBit kc.1
      || (x.st == .preempted && counterHeld t u.core kc.1))
    clearing := q.clearing ++ (q.kept.filter (fun w => w.coh == h)).map (fun w => (w.abase, w.asize))
    kept := q.kept.filter (fun w => w.coh != h) })) s3
  (members x).foldl (fun t c =>
    if (getCtx t c).coh = some h then putCtx t c ctxReset else t) s4

/-- A terminated cohort's contexts and resources are freed once the commands of its members have stopped and their
accesses are performed, which the decrement of DONEGATE releases (R167, R482). -/
def settleTerminated (s : State) (h : Nat) : State :=
  match getCohort s h with
  | none => s
  | some x =>
    if (members x).any (fun c => (getCtx s c).ending) then
      putCohort s h { x with st := .terminated, takeCores := [], rotated := false, stopReq := false, frames := [] }
    else freeCohort s h x

/-- Every member of a cohort is terminated, and the cohort with it. -/
def terminateCohort (s : State) (h : Nat) (x : Cohort) : State :=
  match x.st, x.saved with
  | .queued, _ =>
    finishCohort ((List.range (lrSize x.lrec)).foldl (fun t _ => logTermination t (termRec 0 x.lrec.entry)) s) h x
  | .preempted, some v => finishCohort (dropSaved s h x v) h x
  | .restoring, some v => finishCohort (dropSaved s h x v) h x
  | .terminated, _ => s
  | _, _ => settleTerminated ((members x).foldl (fun t c => terminateMember t x c) s) h

/-- A terminated context's started commands have reached stop points, and its accesses are performed: they end, and the
last of a terminated cohort frees it. This step is the model's own (log 22). -/
def execAgentsStopped (c : Nat) (s : State) : Out :=
  if 512 ≤ c then noAgent
  else if !(getCtx s c).ending then ev s
  else
    let t := endStopped s c
    match cohortOf t c, (getCtx t c).coh with
    | some x, some h => .next (if x.st == .terminated then settleTerminated t h else t)
    | _, _ => .next t

/-- FIRMWARE_TERMINATE. -/
def execFirmwareTerminate (coh : Nat) (s : State) : Out :=
  match getCohort s coh with
  | none => ev s
  | some x => .next (terminateCohort s coh x)

end Sys2Proof.Machine
end

