-- ==== Sys2Proof/Machine/Preempt.lean ====
section
/-!
DEFINITION. The supervisor instructions PREEMPT, CTXSAVE, CTXLOAD and TLBINV (R496-R499).
-/
namespace Sys2Proof.Machine

/-! ## PREEMPT (R499) -/

def haltedMembers (s : State) (x : Cohort) : Nat :=
  let of (c : Nat) : Ctx := match x.saved with
    | some v => (tabFind v.ctxs c).getD ctxReset
    | none => getCtx s c
  ((members x).filter (fun c => (of c).phase == .halted)).length

def stateCode (st : CohState) : Nat :=
  match st with
  | .queued => 0
  | .preempted => 2
  | _ => 1

/-- The cohort that a handle names: none once it is TERMINATED (R169). -/
def namedCohort (s : State) (h : Nat) : Option Cohort :=
  (getCohort s h).filter (fun x => x.st != .terminated)

/-- What PREEMPT returns: the state before the operation. -/
def preemptWord (s : State) (h : Nat) : Word :=
  match namedCohort s h with
  | none => 3
  | some x => w64 (stateCode x.st + (if x.hold then 8 else 0) + haltedMembers s x * 2 ^ 8)

def setHold (s : State) (h : Nat) (x : Cohort) (v : Bool) : State := duePass (putCohort s h { x with hold := v }) (handleDie h)

def preemptStopOp (s : State) (h : Nat) (x : Cohort) : State :=
  if cohPending x then setHold s h x true
  else duePass (putCohort s h { x with stopReq := true }) (handleDie h)

/-- Members halt at their next instruction boundary (R483). -/
def preemptHaltOp (s : State) (h : Nat) (x : Cohort) : State :=
  match x.st with
  | .queued => s
  | .preempted => putCohort s h { x with haltOnResume := true }
  | _ => (members x).foldl (fun t c => modCtx t c (fun y =>
      if y.phase == .running || y.phase == .parked then { y with haltReq := true } else y)) s

def preemptResumeOp (s : State) (h : Nat) (x : Cohort) : State :=
  if cohPending x then setHold s h x false
  else (members x).foldl (fun t c => modCtx t c (fun y =>
    { y with haltReq := false, phase := if y.phase == .halted then .running else y.phase })) s

/-- The operation on a cohort. Terminating its own, the context has retired first. -/
def preemptOp (s : State) (op h : Nat) : State :=
  match namedCohort s h with
  | none => s
  | some x =>
    match op with
    | 0 => s
    | 1 => preemptStopOp s h x
    | 2 => preemptHaltOp s h x
    | 3 => preemptResumeOp s h x
    | _ => terminateCohort (if (me s).coh = some h then setMe s { me s with pc := (me s).pc + 8 } else s) h x

/-- A cohort whose frames are being read takes the request when they have been. -/
def isRestoring (s : State) (h : Nat) : Bool :=
  match getCohort s h with
  | some x => x.st == .restoring
  | none => false

def preemptBody (d a b : BitVec 6) (s : State) : Exe :=
  let h := (rg s a).toNat
  let op := (rg s b).toNat
  if 2 ^ 32 ≤ h ∨ 5 ≤ op then .fault (recPc s cAccess) s
  else if isRestoring s h then .stall s
  else .retire (preemptOp (wg s d (preemptWord s h)) op h)
def execPreemptStatus (h : Hdr) (d a b : BitVec 6) (s : State) : Out := issue h 8 true [a, b] [d] (preemptBody d a b) s
def execPreemptStop (h : Hdr) (d a b : BitVec 6) (s : State) : Out := issue h 8 true [a, b] [d] (preemptBody d a b) s
def execPreemptHalt (h : Hdr) (d a b : BitVec 6) (s : State) : Out := issue h 8 true [a, b] [d] (preemptBody d a b) s
def execPreemptResume (h : Hdr) (d a b : BitVec 6) (s : State) : Out := issue h 8 true [a, b] [d] (preemptBody d a b) s
def execPreemptTerminate (h : Hdr) (d a b : BitVec 6) (s : State) : Out := issue h 8 true [a, b] [d] (preemptBody d a b) s

/-! ## TLBINV (R498) -/

/-- The entries that an operation drops. -/
def tlbDrops (op asid va : Nat) (e : TlbEntry) : Bool :=
  match op with
  | 0 => e.asid == asid && decide (e.va ≤ va) && decide (va < e.va + e.size)
  | 1 => e.asid == asid
  | _ => true

def tlbInvalidate (op asid va : Nat) (s : State) : State :=
  let keep (l : List TlbEntry) : List TlbEntry := l.filter (fun e => !tlbDrops op asid va e)
  { s with
    cores := s.cores.map (fun kv => (kv.1, { kv.2 with tlb := keep kv.2.tlb }))
    dies := s.dies.map (fun kv => (kv.1, { kv.2 with tlb := keep kv.2.tlb })) }

/-- An access of any context that a translation cache of this package has translated and that is not performed yet: the
copies and the engines translate each piece in the step that performs it. Which entry an access used is not kept, so
TLBINV waits for them all (log 113). -/
def translatedLeft (s : State) : Bool := s.ctxs.any (fun kc => kc.2.out.any (fun o => o.peer.isNone))

def tlbinvBody (a b : BitVec 6) (s : State) : Exe :=
  let ga := (rg s a).toNat
  let gb := (rg s b).toNat
  let op := gb % 4
  if releaseHeld s then .stall s
  else if op = 3 ∨ bitsOf gb 47 2 ≠ 0 ∨ (op ≠ 0 ∧ ga ≠ 0) then .fault (recPc s cAccess) s
  else if op = 0 ∧ ga / 2 ^ 60 ≠ 0 then faultAt s cAddrSpace (rg s a)
  else if translatedLeft s then .stall s
  else .retire (tlbInvalidate op (bitsOf gb 63 48) (ga % 2 ^ 56) s)
def execTlbinvAddress (h : Hdr) (a b : BitVec 6) (s : State) : Out := issue h 8 true [a, b] [] (tlbinvBody a b) s
def execTlbinvAsid (h : Hdr) (a b : BitVec 6) (s : State) : Out := issue h 8 true [a, b] [] (tlbinvBody a b) s
def execTlbinvAll (h : Hdr) (a b : BitVec 6) (s : State) : Out := issue h 8 true [a, b] [] (tlbinvBody a b) s

/-! ## CTXSAVE and CTXLOAD (R497) -/

/-- The physical pages of a range of n pages at a pointer, or the record of the first that fails. -/
def imagePages (s : State) (p : Word) (kind : AccKind) (n : Nat) : Except FaultRec (List Nat × State) :=
  (List.range n).foldl (fun (r : Except FaultRec (List Nat × State)) i =>
    match r with
    | .error e => .error e
    | .ok (pas, t) =>
      let q := p + w64 (4096 * i)
      match decodePtr q with
      | some (.dev va) =>
        (match translate t (whoMe t) va kind with
         | .error c => .error (recOf s c q)
         | .ok (pa, t1) =>
           if kind = .load ∧ locBad t1 (.mem pa) 4096 then .error (recOf s cEcc q) else .ok (pas ++ [pa], t1))
      | _ => .error (recOf s cAddrSpace q)) (.ok ([], s))

/-- The checks shared by both: the target, the pointer, the pages. -/
def imageOpen (a b : BitVec 6) (kind : AccKind) (pages : Nat → Nat) (s : State) : Except FaultRec (Nat × List Nat × State) :=
  let c := (rg s a).toNat
  let p := rg s b
  if 512 ≤ c ∨ c = s.cur ∨ (getCtx s c).phase ≠ .halted then .error (recPc s cAccess)
  else if ptrSpace p ≠ 0 ∨ (decodePtr p).isNone then .error (recOf s cAddrSpace p)
  else if p.toNat % 16384 ≠ 0 then .error (recOf s cAlign p)
  else match imagePages s p kind (pages c) with
    | .error e => .error e
    | .ok (pas, t) =>
      match dataBreak (me s) p (4096 * pages c) (kind == .load) (kind == .store) with
      | some reg => .error (breakRec s p reg)
      | none => .ok (c, pas, t)

/-- Offset o of a range of pages. -/
def pageAddr (pas : List Nat) (o : Nat) : Nat := pas.getD (o / 4096) 0 + o % 4096

/-- CTXSAVE reads the target's state before it writes: an error there leaves every byte as it was (log 74). -/
def ctxsaveBody (a b : BitVec 6) (s : State) : Exe :=
  if writeHeld s ⟨0, 0, 0⟩ then .stall s
  else match imageOpen a b .store (fun c => 4 * imageFrames s c) s with
    | .error e => .fault e s
    | .ok (c, pas, t) =>
      if (getCtx t c).bad then .fault (recOf s cEcc (rg s b)) t else
      let im := contextImage t c
      let t1 := putWords (pageAddr pas) im.1 (pas.foldl (clearBytes 4096) im.2)
      .retire (noteWrite t1 (.mem (pas.headD 0)) 0)
def execCtxsave (h : Hdr) (a b : BitVec 6) (s : State) : Out := issue h 8 true [a, b] [] (ctxsaveBody a b) s

/-- Offsets of an image that R487 lists, the control section apart. -/
def imageListed (o : Nat) : Bool :=
  o == 0 || o == 8 || (decide (0x0040 ≤ o) && decide (o < 0x0288)) || (decide (0x1400 ≤ o) && decide (o < 0x1900))
  || decide (0x2000 ≤ o)

def imageControl (o : Nat) : Bool := decide (0x0400 ≤ o) && decide (o < 0x1400)
def imageHasCr (n : Nat) : Bool := n == 0x001 || imageCrs.contains n

/-- The checks of CTXLOAD on the double-words 0x0000-0x3FFF. -/
def imageValid (rd : Nat → Word) (c : Nat) : Bool :=
  let h := (rd 0).toNat
  bitsOf h 7 0 == 1 && bitsOf h 15 12 == 0 && bitsOf h 63 16 == c && bitsOf (rd 0x0240).toNat 63 8 == 0
  && (List.range 2048).all (fun i =>
      let o := 8 * i
      let n := (o - 0x0400) / 8
      if imageControl o then (if imageHasCr n then crPermits n (rd o) else rd o == 0)
      else imageListed o || rd o == 0)

def ctxloadBody (a b : BitVec 6) (s : State) : Exe :=
  if orderHeld s ⟨0, 0, 0⟩ then .stall s
  else match imageOpen a b .load (fun _ => 4) s with
    | .error e => .fault e s
    | .ok (c, pas, t) =>
      let rd (o : Nat) : Word := w64 (memReadLe t.hbm (pageAddr pas o) 8)
      if !imageValid rd c then .fault (recPc s cAccess) s
      else .retire (modCtx t c (loadImage rd))
def execCtxload (h : Hdr) (a b : BitVec 6) (s : State) : Out := issue h 8 true [a, b] [] (ctxloadBody a b) s

end Sys2Proof.Machine
end

