-- ==== Sys2Proof/Machine/Links.lean ====
section
/-!
DEFINITION. Gangs, receive windows, LSTAT, and the steps of the link ports (R516-R533).
-/
namespace Sys2Proof.Machine

/-! ## Gangs (R516-R521) -/

/-- Member k of a gang: its core and whether it lies across an edge; none outside the mesh. -/
def gangMember (first : Nat) (col : Bool) (k : Nat) : Option (Nat × Bool) :=
  let d := first / 32
  let r := first / 8 % 4
  let c := first % 8
  if col then
    if r + k ≤ 3 then some (32 * d + 8 * (r + k) + c, false)
    else if d ≤ 1 ∧ r + k - 4 ≤ 3 then some (32 * (d + 2) + 8 * (r + k - 4) + c, true)
    else none
  else
    if c + k ≤ 7 then some (32 * d + 8 * r + c + k, false)
    else if (d = 0 ∨ d = 2) ∧ c + k - 8 ≤ 7 then some (32 * (d + 1) + 8 * r + (c + k - 8), true)
    else none

/-- The members of a gang of n, or none where one falls outside the mesh. -/
def gangCores (first n : Nat) (col : Bool) : Option (List (Nat × Bool)) :=
  let l := (List.range n).filterMap (gangMember first col)
  if l.length = n then some l else none

/-- A named partition can join (R517): it belongs to the cohort, is in no gang and has no command. -/
def canJoin (s : State) (h : Nat) (x : Cohort) (km : Nat × Nat) : Bool :=
  (seatOn x km.1).isSome &&
  match getPart s km.1 km.2 with
  | some p => p.coh == h && p.gang.isNone && partIdle s km.1 km.2 p
  | none => false

def partSize (s : State) (km : Nat × Nat) : Nat := match getPart s km.1 km.2 with | some p => p.qsize | none => 0

def gangFieldsOk (ga gb : Nat) : Bool :=
  !ga.testBit 7 && ga / 2 ^ 11 == 0 && bitsOf ga 9 8 != 0 && gb / 2 ^ (2 * 2 ^ bitsOf ga 9 8) == 0

def newGangKey (s : State) : Nat := (tabKeys s.gangs).foldl (fun a k => if a ≤ k then k + 1 else a) 0

/-- The gang that LCFG.GANG asks for, with the members' names; or ACCESS. -/
def gangPlan (s : State) (ga gb : Nat) : Option Gang :=
  match (me s).coh, cohortOf s s.cur with
  | some h, some x =>
    let n := 2 ^ bitsOf ga 9 8
    if !gangFieldsOk ga gb then none
    else match gangCores (ga % 128) n (ga.testBit 10) with
      | none => none
      | some cs =>
        let ms := ((List.range n).zip cs).map (fun kc => (kc.2.1, bitsOf gb (2 * kc.1 + 1) (2 * kc.1)))
        let hedge := if cs.any (·.2) then 1 else 0
        if ms.all (canJoin s h x) && ms.all (fun km => partSize s km == partSize s (ms.headD (0, 0))) then
          some ⟨ga % 128, bitsOf ga 9 8, ga.testBit 10, ms, n - 1 - hedge, hedge, h⟩
        else none
  | _, _ => none

def lcfgGangBody (d a b : BitVec 6) (s : State) : Exe :=
  match gangPlan s (rg s a).toNat (rg s b).toNat with
  | none => .fault (recPc s cAccess) s
  | some g =>
    let key := newGangKey s
    let s1 := g.members.foldl (fun t km => modPart t km.1 km.2 (fun p => { p with gang := some key, gangSeq := 0 }))
      { s with gangs := tabPut s.gangs key g }
    .retire (wg s1 d (w64 (g.hdie + 16 * g.hedge)))
def execLcfgGang (h : Hdr) (d a b : BitVec 6) (s : State) : Out := issue1 h [a, b] [d] (lcfgGangBody d a b) s

/-- A member partition has no command queued or started. -/
def memberIdle (s : State) (km : Nat × Nat) : Bool :=
  match getPart s km.1 km.2 with | some p => partIdle s km.1 km.2 p | none => true

def lcfgUngangBody (s : State) : Exe :=
  match boundPart s with
  | none => .fault (recPc s cAccess) s
  | some (_, x) =>
    match x.gang with
    | none => .fault (recPc s cAccess) s
    | some key =>
      match tabFind s.gangs key with
      | none => .fault (recPc s cAccess) s
      | some g =>
        if !g.members.all (memberIdle s) then .stall s
        else .retire (g.members.foldl (fun t km => modPart t km.1 km.2 (fun p => { p with gang := none }))
          { s with gangs := tabErase s.gangs key })
def execLcfgUngang (h : Hdr) (s : State) : Out := issue1 h [] [] lcfgUngangBody s

/-! ## Receive windows (R529, R532) -/

def windowReset : Window := ⟨0, 0, 0, 0, ⟨0, 0, 0⟩, []⟩
def getWindow (s : State) (i : Nat) : Window := tabGet windowReset s.windows i

def devPointer (w : Word) : Bool := match decodePtr w with | some (.dev _) => true | _ => false

/-- The values R529 permits. -/
def windowOk (w : Window) : Bool :=
  bitsOf w.d0.toNat 63 48 == 0 && bitsOf w.d0.toNat 11 0 == 0 && bitsOf w.d1.toNat 63 53 == 0
  && decide (winRm w ≤ 4) && [0x11, 0x12, 0x14, 0x15, 0x20, 0x21].contains (winDfmt w)
  && (winSfmt w == 0x11 || winSfmt w == 0x12) && w.d1.toNat % 2 ^ 32 != 0
  && devPointer w.d2 && w.d2.toNat % 64 == 0
  && (if fmtIsMx (winDfmt w) then devPointer w.d3 else w.d3 == 0)
  && (!winCmp w || winDfmt w == 0x12 || winDfmt w == 0x14 || winDfmt w == 0x15)

/-- The range of a window meets that of another one that is enabled. -/
def windowClash (s : State) (i : Nat) (w : Window) : Bool :=
  s.windows.any (fun jv => jv.1 != i && winEn jv.2 && rangesMeet (winBase w) (winBytes w) (winBase jv.2) (winBytes jv.2))

def wsetRec (i : Nat) (s : State) (bs : List Byte) : Exe :=
  let d (k : Nat) : Word := w64 (leNat ((bs.drop (8 * k)).take 8))
  let w : Window := ⟨d 0, d 1, d 2, d 3, (getWindow s i).counts, []⟩
  if !windowOk w || windowClash s i w then .fault (recPc s cAccess) s
  else .retire { s with windows := tabPut s.windows i w }

def lcfgWsetBody (a b : BitVec 6) (s : State) : Exe :=
  if orderHeld s ⟨0, 0, 0⟩ then .stall s
  else if 16 ≤ (rg s b).toNat then .fault (recPc s cAccess) s
  else withBytes s (rg s a) 32 (wsetRec (rg s b).toNat)
def execLcfgWset (h : Hdr) (a b : BitVec 6) (s : State) : Out := issue h 8 true [a, b] [] (lcfgWsetBody a b) s

def lcfgWclrBody (b : BitVec 6) (s : State) : Exe :=
  let i := (rg s b).toNat
  if 16 ≤ i then .fault (recPc s cAccess) s
  else .retire { s with windows := tabPut s.windows i { windowReset with counts := (getWindow s i).counts } }
def execLcfgWclr (h : Hdr) (b : BitVec 6) (s : State) : Out := issue h 8 true [b] [] (lcfgWclrBody b) s

/-! ## LSTAT (R533) -/

def getPort (s : State) (p : Nat) : Port := tabGet portReset s.ports p
def windowWord (w : Window) (k : Nat) : Word :=
  match k with
  | 0 => w.d0
  | 1 => w.d1
  | 2 => w.d2
  | _ => w.d3

/-- An item of LSTAT at an index; none is ACCESS. -/
def lstatItem (s : State) (item i : Nat) : Option Word :=
  match item with
  | 0 => if i = 0 then some (w64 s.devnum) else none
  | 1 => if i < 24 then
      some (w64 ((if portUp s i then 1 else 0) + (getPort s i).far % 1024 * 2 ^ 16 + (getPort s i).retries.toNat * 2 ^ 32))
    else none
  | 2 => if i < 1024 then
      some (match tabFind s.routes i with | some p => w64 (32 + p) | none => 0)
    else none
  | 3 => if i < 64 then some (windowWord (getWindow s (i / 4)) (i % 4)) else none
  | 4 => if i = 0 then some (gangstMine s) else none
  | 5 => if i < 16 then some (countsWord (getWindow s i).counts) else none
  | 6 => if i < 24 then some (getPort s i).beats else none
  | _ => none

def lstatBody (d a : BitVec 6) (s : State) : Exe :=
  let v := (rg s a).toNat
  if v / 2 ^ 26 ≠ 0 ∨ bitsOf v 15 4 ≠ 0 then .fault (recPc s cAccess) s
  else match lstatItem s (v % 16) (bitsOf v 25 16) with
    | none => .fault (recPc s cAccess) s
    | some w => .retire (wg s d w)
def execLstat (h : Hdr) (d a : BitVec 6) (s : State) : Out := issue1 h [a] [d] (lstatBody d a) s

/-! ## The ports (R523-R531, R537) -/

/-- The clocks run but for those of PCIe, the status block and the mailbox (R539, R547). -/
def clocked (s : State) : Bool := s.modState != .tripped && s.modState != .off

/-- The compute dies are clocked: not in RESET or HELD either (R539). -/
def computeClocked (s : State) : Bool := clocked s && s.modState != .reset && s.modState != .held

/-- A link sends a beat again (R526): it changes only the count and the time. -/
def execLinkRetry (port : Nat) (s : State) : Out :=
  if 24 ≤ port then noAgent
  else if !portUp s port || !computeClocked s then ev s
  else .next { s with ports := tabPut s.ports port { getPort s port with retries := (getPort s port).retries + 1 } }

/-- PEER_REQUEST_RECEIVE: the port performs the request and answers it. -/
def execPeerRequestReceive (port : Nat) (req : PeerRequest) (s : State) : Out :=
  if 24 ≤ port then noAgent
  else if !portUp s port || s.modState != .ready then ev s
  else match performPeer s port req with
    | .ok (d, t) => .next { t with answers := t.answers ++ [(port, .ok d)] }
    | .error c => .next { s with answers := s.answers ++ [(port, .failed (BitVec.ofNat 8 c))] }

/-- A store to a peer has been answered. -/
def storeAnswered (s : State) (c id : Nat) : State :=
  modCtx s c (fun x => { x with out := x.out.filter (fun a => a.peer != some id) })

/-- A request of this module ends with an answer, for whom waits for it (R524, R526). -/
def peerEnd (s : State) (id : Nat) (r : PeerReq) (a : PeerResponse) : State :=
  let s1 := { s with peers := tabErase s.peers id }
  match r.user with
  | .scalar =>
    if (getCtx s1 r.ctx).peerWait = some id then
      modCtx s1 r.ctx (fun x => { x with peerWait := none, peerData := some a })
    else s1
  | .store => (match a with
    | .ok _ => storeAnswered s1 r.ctx id
    | .failed c => peerStoreFailed (storeAnswered s1 r.ctx id) r c.toNat)
  | .beat core eng slot => peerBeatAnswer s1 core eng slot r a

/-- PEER_RESPONSE_RECEIVE. -/
def execPeerResponseReceive (id : Nat) (resp : PeerResponse) (s : State) : Out :=
  match tabFind s.peers id with
  | none => ev s
  | some r => .next (peerEnd s id r resp)

/-- PEER_TIMEOUT: no answer within LTMO. -/
def execPeerTimeout (id : Nat) (s : State) : Out :=
  match tabFind s.peers id with
  | none => ev s
  | some r => if r.sent + s.ltmo.toNat ≤ s.clk then .next (peerEnd s id r (.failed 0)) else ev s

/-- LINK_UP. -/
def execLinkUp (port device : Nat) (s : State) : Out :=
  if 24 ≤ port then noAgent
  else if !computeClocked s then ev s
  else .next { s with
    linkUp := s.linkUp ||| BitVec.ofNat 24 (2 ^ port)
    ports := tabPut s.ports port { getPort s port with far := device % 1024 } }

/-- LINK_DOWN: the requests over the port fail. -/
def execLinkDown (port : Nat) (s : State) : Out :=
  if 24 ≤ port then noAgent
  else if !computeClocked s then ev s
  else
    let s1 := { s with linkUp := s.linkUp &&& ~~~ (BitVec.ofNat 24 (2 ^ port)) }
    .next ((s.peers.filter (fun kr => kr.2.port == port)).foldl (fun t kr => peerEnd t kr.1 kr.2 (.failed 0)) s1)

end Sys2Proof.Machine
end

