-- ==== Sys2Proof/Machine/Host.lean ====
section
/-!
DEFINITION. BAR0 and BAR2, the status block and the mailbox, as the host reaches them (R534-R536, R541-R544).
-/
namespace Sys2Proof.Machine

/-! ## The status block (R541) -/

/-- Some field of the status block changes. -/
def bumpSeq (s : State) : State := { s with seq := s.seq + 1 }

def modCode (m : ModState) : Nat :=
  match m with
  | .reset => 0
  | .selftest => 1
  | .loading => 2
  | .config => 3
  | .ready => 4
  | .held => 5
  | .tripped => 6
  | .off => 0

/-- Cores first .. first+63 in service. -/
def coresWord (s : State) (first : Nat) : Word :=
  w64 ((List.range 64).foldl (fun a i => if (getCore s (first + i)).out then a else a + 2 ^ i) 0)

/-- The hottest island's temperature. -/
def hottest (s : State) : BitVec 16 :=
  (List.range 32).foldl (fun m i => if m.toInt < (getIsland s i).temp.toInt then (getIsland s i).temp else m)
    (getIsland s 0).temp

/-- Granules of the ranges that lie in no stack of `out`. -/
def granulesIn (out : BitVec 8) (rs : List (Nat × Nat)) : Nat :=
  let inStack (g : Nat) : Bool := !out.getLsbD (stackOfPa (4096 * g))
  (rs.map (fun r => if out = 0 then r.2 else ((List.range r.2).filter (fun i => inStack (r.1 + i))).length)).sum

/-- Bytes of device memory that are not withheld. -/
def memBytes (s : State) : Nat :=
  hbmBytes - 96 * 2 ^ 30 * ((List.range 8).filter (fun i => s.stacksOut.getLsbD i)).length
    - 4096 * granulesIn s.stacksOut s.withheld

/-- Double-word n of the status block. An island reads 0 until its monitors have been refreshed. -/
def statusWord (s : State) (n : Nat) : Word :=
  if n = 0 then w64 (s.seq.toNat * 2 ^ 32 + s.failUnit.toNat * 2 ^ 16 + (if s.termLog.isEmpty then 0 else 256) + modCode s.modState)
  else if s.selftest.isNone ∧ n ≤ 3 then 0
  else if n = 1 then coresWord s 0
  else if n = 2 then coresWord s 64
  else if n = 3 then w64 (memBytes s)
  else if n = 4 then s.fwver
  else if 5 ≤ n ∧ n ≤ 8 then s.meas.extractLsb' (64 * (n - 5)) 64
  else if n = 9 then w64 ((hottest s).toNat * 2 ^ 32 + s.modpwr.toNat)
  else if n = 10 then w64 s.pcap
  else if 16 ≤ n ∧ n ≤ 47 then (if (getIsland s (n - 16)).fresh then islst s (n - 16) else 0)
  else 0

/-- The status block but for SEQ. -/
def statusBlock (s : State) : List Word := (List.range 48).map (statusWord { s with seq := 0 })

/-- SEQ counts a step that changes the status block. -/
def noteChange (s t : State) : State := if statusBlock t = statusBlock s then t else bumpSeq t

/-! ## BAR0 (R535) -/

/-- Gates, launch windows and BAR2 answer only in READY (R539). -/
def hostOpen (s : State) : Bool := s.modState == .ready

def addRead (s : State) (bs : List Byte) : State := { s with hostReads := s.hostReads ++ [bs] }

/-- HOST_GATE_READ. -/
def execHostGateRead (gate : Nat) (s : State) : Out :=
  if 1024 ≤ gate then noAgent
  else .next (addRead s (leBytes 4 (if hostOpen s then (getGate s gate).toNat else 2 ^ 32 - 1)))

/-- HOST_GATE_WRITE. -/
def execHostGateWrite (gate : Nat) (value : BitVec 32) (s : State) : Out :=
  if 1024 ≤ gate then noAgent
  else if hostOpen s then .next (setGate s gate value) else ev s

/-- A double-word with `size` bytes at byte `o` replaced. -/
def mergeBytes (old : Word) (o size : Nat) (v : Word) : Word :=
  w64 (insertField v.toNat old.toNat (8 * o) (8 * size))

def xspaceFields (w : Word) : Word := w &&& ~~~ (crReservedBits 0x0A3)

/-- A default as a write of some of its bytes leaves it: a write that would set a reserved bit is dropped (R5, DESIGN
CHOICE, log 69). -/
def defaultWrite (fields : Word → Word) (old : Word) (o size : Nat) (v : Word) : Word :=
  let w := mergeBytes old o size v
  if fields w = w then w else old

/-- A register of a die's page of BAR0: its launch window and defaults. -/
def dieRegWrite (s : State) (d o size : Nat) (v : Word) : State :=
  if o < 0x400 then dropWindowWrite s d
  else if o / 8 = 0x418 / 8 then modDie s d (fun x => { x with defXspace := defaultWrite xspaceFields x.defXspace (o % 8) size v })
  else if o / 8 = 0x420 / 8 then modDie s d (fun x => { x with defTvec := defaultWrite addrField x.defTvec (o % 8) size v })
  else s

/-! ## The mailbox (R543) -/

/-- A byte of the request that the doorbell posted. -/
def mbByte (s : State) (o : Nat) : Byte := tabGet 0 s.mbPost o
def mbBytes (s : State) (o n : Nat) : List Byte := (List.range n).map (fun i => mbByte s (o + i))
def mbOp (s : State) : Nat := leNat (mbBytes s 0 2)
def mbLen (s : State) : Nat := leNat (mbBytes s 2 2)
def mbWord (s : State) (i : Nat) : Nat := leNat (mbBytes s (8 + 8 * i) 8)

def putBytes (t : Tab Byte) (o : Nat) (bs : List Byte) : Tab Byte :=
  ((List.range bs.length).zip bs).foldl (fun u ib => tabSet 0 u (o + ib.1) ib.2) t

/-- The response is written whole, BUSY clears, MSI-X vector 0 is raised. -/
def respond (s : State) (status : Nat) (payload : List Byte) : State :=
  { s with
    mbResp := putBytes [] 0 (leBytes 2 status ++ leBytes 2 payload.length ++ mbBytes s 4 4 ++ payload)
    mbBusy := false
    msix := s.msix ++ [0] }

/-- A write of the doorbell posts the request: bytes written while BUSY is set are read old (R543, log 33). An OP that
no request has is answered at once. -/
def doorbell (s : State) : State :=
  if s.mbBusy then s
  else
    let s1 := { s with mbBusy := true, mbPost := s.mbReq }
    if mbOp s1 = 0 ∨ 6 < mbOp s1 then respond s1 2 [] else s1

/-- A write of the mailbox region, at an offset in it. -/
def mailboxWrite (s : State) (o size : Nat) (v : Word) : State :=
  if o < 0x4000 then { s with mbReq := putBytes s.mbReq o (leBytes size v.toNat) }
  else if o / 8 = 0x7FF0 / 8 then doorbell s
  else s

def hnotifyWrite (s : State) (o size : Nat) (v : Word) : State :=
  let lo := 8 * o
  let bits := (List.range (8 * size)).filter (fun i => v.getLsbD i)
  { s with hnotify := s.hnotify.filter (fun n => decide (n < lo) || decide (lo + 8 * size ≤ n)) ++ bits.map (fun i => lo + i) }

def bar0Write (s : State) (o size : Nat) (v : Word) : State :=
  if o < 0x4000 then dieRegWrite s (o / 0x1000) (o % 0x1000) size v
  else if 0x20000 ≤ o ∧ o < 0x28000 then mailboxWrite s (o - 0x20000) size v
  else if 0x30000 ≤ o ∧ o < 0x31000 ∧ size = 4 then
    (if hostOpen s then setGate s ((o - 0x30000) / 4) (v.setWidth 32) else s)
  else if 0x31000 ≤ o ∧ o < 0x31080 then hnotifyWrite s (o - 0x31000) size v
  else s

/-- BAR0_REGISTER_WRITE. A write that is not 4 or 8 bytes, naturally aligned, is dropped; one to a launch window counts
(R166). -/
def execBar0RegisterWrite (offset size : Nat) (value : BitVec 64) (s : State) : Out :=
  if offset < 0x4000 ∧ offset % 0x1000 < 0x400 then .next (dropWindowWrite s (offset / 0x1000))
  else if (size = 4 ∨ size = 8) ∧ offset % size = 0 then .next (bar0Write s offset size value)
  else ev s

/-- What a host read of an aligned double-word of BAR0 returns. -/
def bar0Word (s : State) (o : Nat) : Word :=
  let d := o / 0x1000
  if o < 0x4000 then
    (match o % 0x1000 with
     | 0x400 => w64 (lwFree s d)
     | 0x408 => (getDie s d).lwdrop
     | 0x410 => (getDie s d).lwbad
     | 0x418 => (getDie s d).defXspace
     | 0x420 => (getDie s d).defTvec
     | _ => 0)
  else if 0x10000 ≤ o ∧ o < 0x11000 then statusWord s ((o - 0x10000) / 8)
  else if 0x20000 ≤ o ∧ o < 0x24000 then w64 (leNat ((List.range 8).map (fun i => tabGet 0 s.mbReq (o - 0x20000 + i))))
  else if o = 0x27FF0 then wBool s.mbBusy
  else if 0x24000 ≤ o ∧ o < 0x28000 then
    w64 (leNat ((List.range 8).map (fun i => tabGet 0 s.mbResp (o - 0x24000 + i))))
  else if 0x30000 ≤ o ∧ o < 0x31000 then
    (if hostOpen s then
      w64 ((getGate s ((o - 0x30000) / 4)).toNat + (getGate s ((o - 0x30000) / 4 + 1)).toNat * 2 ^ 32)
    else BitVec.allOnes 64)
  else if 0x31000 ≤ o ∧ o < 0x31080 then
    w64 ((List.range 64).foldl (fun a i => if s.hnotify.contains (8 * (o - 0x31000) + i) then a + 2 ^ i else a) 0)
  else 0

/-- A host read of BAR0: 4 or 8 bytes, naturally aligned, and all ones for any other. -/
def execBar0Read (offset len : Nat) (s : State) : Out :=
  if s.modState = .off then ev s
  else if (len = 4 ∨ len = 8) ∧ offset % len = 0 then
    .next (addRead s (((leBytes 8 (bar0Word s (offset / 8 * 8)).toNat).drop (offset % 8)).take len))
  else .next (addRead s (List.replicate len 0xFF))

/-! ## BAR2 (R536) -/

/-- Offset o of BAR2 reaches physical address o, but for withheld granules. -/
def bar2Reaches (s : State) (o : Nat) : Bool := hostOpen s && decide (o < hbmBytes) && !withheldPa s o

/-- HOST_BAR2_READ. -/
def execHostBar2Read (offset len : Nat) (s : State) : Out :=
  .next (addRead s ((List.range len).map (fun i =>
    if bar2Reaches s (offset + i) then memRead s.hbm (offset + i) else 0xFF)))

/-- HOST_BAR2_WRITE. -/
def execHostBar2Write (offset : Nat) (data : List Byte) (s : State) : Out :=
  .next (((List.range data.length).zip data).foldl (fun t ib =>
    if bar2Reaches s (offset + ib.1) then writeHbm t (offset + ib.1) [ib.2] else t) s)

/-! ## Firmware images (R542) -/

/-- A firmware image by its parts (log 33). -/
structure Image where
  ver  : Nat
  fwver : Word
  svn  : Nat
  len  : Nat
  key  : List Byte
  sig  : List Byte
  body : List Byte
  signed : List Byte
  deriving DecidableEq, Repr

def imageOf (bs : List Byte) : Image :=
  let d (i : Nat) : Nat := leNat ((bs.drop (8 * i)).take 8)
  { ver := d 0, fwver := w64 (d 1), svn := d 2, len := d 3, key := (bs.drop 32).take 1312,
    sig := (bs.drop 1344).take 2420, body := bs.drop 3764, signed := bs.take 1344 ++ bs.drop 3764 }

/-- The image is accepted (R542). -/
def imageGood (s : State) (bs : List Byte) : Bool :=
  let m := imageOf bs
  m.sig.length == 2420 && m.body.length == m.len && decide (m.svn ≤ 63)
  && Config.sha3 m.key == Config.keyHashFuse && Config.mldsaVerify m.key m.signed m.sig && decide (s.svnFuse ≤ m.svn)

def acceptImage (s : State) (bs : List Byte) : State :=
  noteChange s { s with modState := .config, meas := Config.sha3 bs, fwver := (imageOf bs).fwver, svn := (imageOf bs).svn }

/-- FIRMWARE_VERIFY: the flash image; a rejected one leaves the module waiting for LOAD. -/
def execFirmwareVerify (image : List Byte) (s : State) : Out :=
  if s.modState ≠ .loading ∨ s.flashBad then ev s
  else .next (if imageGood s image then acceptImage s image else { s with flashBad := true })

/-! ## Mailbox requests (R543, R544) -/

/-- The request that the mailbox holds. -/
def onRequest (op : Nat) (f : State → State) (s : State) : Out :=
  if s.mbBusy ∧ mbOp s = op ∧ s.modState ≠ .off then .next (f s) else ev s

/-- LOAD: an image from host memory; a rejected one moves the module to HELD. -/
def mailboxLoadOp (s : State) : State :=
  if mbLen s ≠ 16 then respond s 2 []
  else if s.modState ≠ .loading then respond s 1 []
  else
    let img := memReadBytes s.hostMem (mbWord s 0) (mbWord s 1)
    if imageGood s img then respond (acceptImage s img) 0 [] else respond (noteChange s { s with modState := .held }) 1 []

/-- MAILBOX_LOAD: while the flash image is still to be tried, the request waits (R542). -/
def execMailboxLoad (s : State) : Out :=
  if s.modState = .loading ∧ ¬ s.flashBad then ev s else onRequest 1 mailboxLoadOp s

def identityBytes : List Byte := leBytes 1312 Config.identityKey.toNat

/-- The report but for its signature. -/
def attestReport (s : State) (nonce : List Byte) : List Byte :=
  nonce ++ leBytes 32 s.meas.toNat ++ leBytes 8 s.fwver.toNat ++ leBytes 8 s.svn ++ leBytes 8 s.svnFuse
  ++ leBytes 8 s.devnum ++ leBytes 8 s.pcap ++ leBytes 32 (Config.sha3 identityBytes).toNat ++ identityBytes

def mailboxAttestOp (s : State) : State :=
  if mbLen s ≠ 32 then respond s 2 []
  else
    let r := attestReport s (mbBytes s 8 32)
    respond s 0 (r ++ leBytes 2420 (Config.mldsaSign r).toNat)
def execMailboxAttest (s : State) : Out := onRequest 2 mailboxAttestOp s

def mailboxSetcapOp (s : State) : State :=
  let cap := mbWord s 0
  if mbLen s ≠ 8 then respond s 2 []
  else if cap < 300 ∨ 2800 < cap then respond s 1 []
  else respond (noteChange s { s with pcap := cap }) 0 (leBytes 8 s.pcap)
def execMailboxSetcap (s : State) : Out := onRequest 3 mailboxSetcapOp s

def mailboxTermlogOp (s : State) : State :=
  let bs := s.termLog.flatMap (fun r => (recWords r).flatMap (fun w => leBytes 8 w.toNat))
  respond (noteChange s { s with termLog := [] }) 0 bs
def execMailboxTermlog (s : State) : Out := onRequest 4 mailboxTermlogOp s

def mailboxSvnsetOp (s : State) : State :=
  let n := if s.svnFuse < s.svn then s.svn else s.svnFuse
  respond { s with svnFuse := n } 0 (leBytes 8 n)
def execMailboxSvnset (s : State) : Out := onRequest 5 mailboxSvnsetOp s

/-- The core that a failed unit takes out of service (R540). -/
def coreLost (u : TestedUnit) : Option Nat :=
  match u with
  | .poolLane k => some k
  | .scratchpadBank k => some k
  | .accumulatorBank k => some k
  | .cacheBank k => some k
  | _ => none

/-- The units without which the module is HELD (R540). -/
def holdsModule (u : TestedUnit) : Bool :=
  match u with
  | .dieCache _ => true
  | .configCache _ => true
  | .scheduler _ => true
  | .layoutEngine _ => true
  | .translationUnit _ => true
  | .ucieEdge _ => true
  | _ => false

def testPassed (r : SelftestResult) : Bool := !r.failed.any holdsModule
def coresLost (r : SelftestResult) : List Nat := (r.failed.filterMap coreLost).filter (fun k => decide (k < 128))

/-- A unit of the self-test by kind and index among that kind, for the free values that know it so (logs 9, 93). -/
def unitKind (u : TestedUnit) : Nat × Nat :=
  match u with
  | .poolLane k => (0, k)
  | .scratchpadBank k => (1, k)
  | .accumulatorBank k => (2, k)
  | .cacheBank k => (3, k)
  | .dieCache d => (4, d)
  | .configCache d => (5, d)
  | .scheduler d => (6, d)
  | .layoutEngine d => (7, d)
  | .translationUnit d => (8, d)
  | .ucieEdge d => (9, d)
  | .pseudoChannel i c => (10, 256 * i + c)
  | .linkPort p => (11, p)

/-- SELFTEST answers the results of the last reset, whatever has been written since. -/
def mailboxSelftestOp (s : State) : State :=
  respond s 0 (match s.selftest with
    | some r => Config.selftestReport (r.failed.map unitKind) r.far
    | none => [])
def execMailboxSelftest (s : State) : Out := onRequest 6 mailboxSelftestOp s

end Sys2Proof.Machine
end

