-- ==== Sys2Proof/Machine/Bringup.lean ====
section
/-!
DEFINITION. Power, self-test, configuration, trips, islands and the patrol scrubber (R539, R540, R545-R549, R302).
-/
namespace Sys2Proof.Machine

/-- The module after power-on or a fundamental reset: host memory and fuses are outside what is reset. What a trip has
left in the memories stays in them (R547, log 68). -/
def afterReset (s : State) : State :=
  let t := { State.reset with hostMem := s.hostMem, svnFuse := s.svnFuse, inputs := s.inputs, freeCount := s.freeCount }
  if s.modState = .tripped then
    { t with
      hbm := s.hbm
      cores := s.cores.map (fun kq => (kq.1, { coreReset with spad := kq.2.spad, acc := kq.2.acc, poison := kq.2.poison, badAcc := kq.2.badAcc })) }
  else t

/-- POWER_ON_RESET. -/
def execPowerOnReset (s : State) : Out := .next (afterReset s)

/-- Pseudo-channels of a stack that failed training, of its 192 (R305). -/
def channelsLost (r : SelftestResult) (stack : Nat) : Nat :=
  ((r.failed.filter (fun u => match u with | .pseudoChannel i c => i == stack && decide (c < 192) | _ => false)).eraseDups).length

/-- The stacks with more than 16 pseudo-channels withdrawn: all their granules are withheld. -/
def stacksLost (r : SelftestResult) : BitVec 8 :=
  BitVec.ofNat 8 ((List.range 8).foldl (fun a i => if 16 < channelsLost r i then a + 2 ^ i else a) 0)

/-- The Belvedere's number of a unit, which is not 0 (log 93). -/
def unitNo (u : TestedUnit) : Nat :=
  1 + Config.unitNumber (unitKind u).1 (unitKind u).2 % 65535

/-- FAIL: the first failing unit in that numbering, 0 where none failed (R541). -/
def failNo (r : SelftestResult) : BitVec 16 :=
  match r.failed.map unitNo with
  | [] => 0
  | n :: ns => BitVec.ofNat 16 (ns.foldl Nat.min n)

/-- A port comes up that has trained with a far end and has not failed. -/
def portsTrained (r : SelftestResult) : List (Nat × Nat) :=
  r.far.filter (fun pd => decide (pd.1 < 24) && !r.failed.contains (.linkPort pd.1))

def bringPortUp (s : State) (pd : Nat × Nat) : State :=
  { s with
    linkUp := s.linkUp ||| BitVec.ofNat 24 (2 ^ pd.1)
    ports := tabPut s.ports pd.1 { getPort s pd.1 with far := pd.2 % 1024 } }

/-- SELFTEST_DONE: cores with a failed unit leave service, stacks are withheld, trained ports come up, and the module goes on to LOADING unless a unit has failed that all of it needs (R540). -/
def execSelftestDone (result : SelftestResult) (s : State) : Out :=
  if s.modState ≠ .selftest then ev s
  else
    let s1 := (coresLost result).foldl (fun t k => modCore t k (fun q => { q with out := true })) s
    let s2 := (portsTrained result).foldl bringPortUp { s1 with linkUp := 0 }
    .next (noteChange s { s2 with
      modState := if testPassed result then .loading else .held
      stacksOut := stacksLost result
      failUnit := failNo result
      selftest := some result })

/-- The fields of a register that is not reserved. -/
def saveBaseFields (w : Word) : Word := w &&& 0x000000FFFFFFC000#64
def ttbaseFields (w : Word) : Word := w &&& 0x000000FFFFE00000#64
def devnumFields (w : Word) : Nat := (w &&& 0x83FF#64).toNat

def configDie (cfg : FirmwareConfig) (s : State) (d : Nat) : State :=
  modDie s d (fun x => { x with
    saveBase := saveBaseFields (cfg.savebase.getD d 0)
    saveTotal := cfg.savetotal.getD d 0 % 2 ^ 32
    quantum := cfg.quantum })

def mhzOk (mhz : Nat) : Bool := decide (800 ≤ mhz) && decide (mhz ≤ 3300) && mhz % 100 == 0

def modIsland (s : State) (n : Nat) (f : Island → Island) : State :=
  { s with islands := tabPut s.islands n (f (getIsland s n)) }

/-- Junction temperature of a trip, in 1/8 °C (R547). -/
def tripTemp : Int := 920

/-- A clock of an island: a core island's is 800-3300 MHz in steps of 100 (R545, R546), another's any that FREQ holds. -/
def islandClockOk (n mhz : Nat) : Bool := if n % 8 < 4 then mhzOk mhz else decide (mhz < 4096)

/-- Policy within the limits of R546: every core island's clock, other islands' where they are set, throttle points below
the trip. -/
def policyOk (cfg : FirmwareConfig) : Bool :=
  (List.range 32).all (fun n => match cfg.mhz[n]? with
    | some f => islandClockOk n f
    | none => decide (4 ≤ n % 8))
  && cfg.throttle.all (fun t => decide (t.toInt < tripTemp))

/-- Reserved fields of the registers that firmware writes are zero (R5, R335, R501, R537, log 69). -/
def registersOk (cfg : FirmwareConfig) : Bool :=
  ttbaseFields cfg.ttbase == cfg.ttbase && cfg.savebase.all (fun w => saveBaseFields w == w)
  && cfg.savetotal.all (fun n => decide (n < 2 ^ 32)) && w64 (devnumFields cfg.devnum) == cfg.devnum
  && xspaceFields cfg.xpeer == cfg.xpeer

def rangesApart : List (Nat × Nat) → Bool
  | [] => true
  | r :: rs => rs.all (fun q => decide (r.1 + r.2 ≤ q.1) || decide (q.1 + q.2 ≤ r.1)) && rangesApart rs

/-- Granules of a pseudo-channel (R305). -/
def channelGranules : Nat := 131072

/-- Withdrawn pseudo-channels of the stacks that are not withheld whole. -/
def channelsRemapped (s : State) : Nat :=
  match s.selftest with
  | some r => (((List.range 8).filter (fun i => !s.stacksOut.getLsbD i)).map (channelsLost r)).sum
  | none => 0

/-- The memory map (R306): ranges of the device memory, apart from each other, with a granule for every one of a
withdrawn pseudo-channel. -/
def mapOk (s : State) (cfg : FirmwareConfig) : Bool :=
  cfg.withheld.all (fun r => decide (r.2 ≠ 0) && decide (4096 * (r.1 + r.2) ≤ hbmBytes)) && rangesApart cfg.withheld
  && (channelsRemapped s == 0 || decide (channelGranules * channelsRemapped s ≤ granulesIn s.stacksOut cfg.withheld))

def configIsland (cfg : FirmwareConfig) (s : State) (n : Nat) : State :=
  modIsland s n (fun x => { x with
    mhz := (cfg.mhz[n]?).elim x.mhz (BitVec.ofNat 12)
    throttle := cfg.throttle.getD n x.throttle
    point := cfg.mv.getD n x.point })

/-- CONFIG_DONE: firmware's tables and policy are written, and the module is READY. A policy outside the limits, a
register with a reserved bit set and a map that leaves too few granules withheld are none that it can write (logs 14,
69). -/
def execConfigDone (cfg : FirmwareConfig) (s : State) : Out :=
  if s.modState ≠ .config ∨ ¬ (policyOk cfg && registersOk cfg && mapOk s cfg) then ev s
  else
    let s1 := [0, 1, 2, 3].foldl (configDie cfg) s
    let s2 := (List.range 32).foldl (configIsland cfg) s1
    .next (noteChange s { s2 with
      modState := .ready
      ttbase := ttbaseFields cfg.ttbase
      devnum := devnumFields cfg.devnum
      routes := (cfg.routes.filter (fun r => decide (r.1 < 1024) && decide (r.2 < 24))).foldl (fun t r => tabPut t r.1 r.2) []
      xpeer := xspaceFields cfg.xpeer
      ltmo := cfg.ltmo
      withheld := cfg.withheld })

/-- A byte memory of n addresses, and an accumulator memory, as a trip leaves them (R547): free values, log 68. -/
def trippedMem (n i : Nat) : Mem := (Config.trippedBytes i).foldl (fun m c => memWrite m (c.1 % n) c.2) []
def trippedAcc (i : Nat) : Tab (BitVec 32) :=
  (Config.trippedEntries i).foldl (fun t c => tabSet 0 t (c.1 % accEntries) c.2) []

/-- What every SRAM, accumulator and device-memory byte holds is not defined. -/
def memoryLost (s : State) : State :=
  { s with
    hbm := trippedMem hbmBytes s.freeCount
    cores := (List.range 128).map (fun k => (k, { getCore s k with
      spad := trippedMem 4194304 (s.freeCount + 1 + k)
      acc := trippedAcc (s.freeCount + 1 + k)
      poison := ((Config.trippedPoison (s.freeCount + 1 + k)).map (fun e => e % accEntries)).eraseDups
      badAcc := [] }))
    freeCount := s.freeCount + 129 }

/-- A trip (R547): only reset leaves TRIPPED. HELD is left by reset only (R539, log 68). -/
def tripped (s : State) : State :=
  if s.modState = .off ∨ s.modState = .held ∨ s.modState = .tripped then s
  else { memoryLost s with modState := .tripped }

/-- TRIP. -/
def execTrip (island : Nat) (s : State) : Out :=
  if 32 ≤ island then noAgent else .next (noteChange s (tripped s))

/-- CURRENT_LIMIT_STRETCH: a period of the island is stretched while the other islands' clocks go on (R29, R546). -/
def execCurrentLimitStretch (island : Nat) (s : State) : Out :=
  if 32 ≤ island then noAgent
  else if !computeClocked s then ev s
  else
    let s1 := modIsland s island (fun x => { x with stretch := x.stretch + 1 })
    .next { s1 with clk := s1.clk + 1, lost := tabPut s1.lost island (tabGet 0 s1.lost island + 1) }

/-- A sample outside the limits of an island: 115 °C or more, or a supply outside its window (R547). -/
def sampleTrips (s : State) (island : Nat) (m : MonitorSample) : Bool :=
  decide (tripTemp ≤ m.temp.toInt) || !Config.voltageInWindow island (getIsland s island).point m.vmv

/-- MONITOR_REFRESH: an island's monitors and the module's power at once (R549). -/
def execMonitorRefresh (island : Nat) (sample : MonitorSample) (s : State) : Out :=
  if 32 ≤ island then noAgent
  else if s.modState = .off then ev s
  else
    let t := { modIsland s island (fun x => { x with
      rosc := sample.rosc, vmv := sample.vmv, temp := sample.temp, fresh := true }) with modpwr := sample.modpwr }
    .next (noteChange s (if sampleTrips s island sample then tripped t else t))

/-- ISLAND_CLOCK_CHANGE: within the limits of R546. -/
def execIslandClockChange (island mhz : Nat) (s : State) : Out :=
  if 32 ≤ island then noAgent
  else if islandClockOk island mhz ∧ computeClocked s then .next (modIsland s island (fun x => { x with mhz := BitVec.ofNat 12 mhz })) else ev s

/-- PATROL_SCRUB: an uncorrectable error of an accumulator entry poisons it (R302) and stands until the entry is
written again (R478, R480); others are met by the next read
(R298, R309, R493, R497). -/
def execPatrolScrub (target : ScrubTarget) (s : State) : Out :=
  if !computeClocked s then ev s
  else match target with
  | .clean => .next s
  | .acc k e =>
    if 128 ≤ k ∨ accEntries ≤ e then noAgent
    else .next (modCore s k (fun q => { q with
      poison := e :: q.poison.filter (fun x => x != e), badAcc := e :: q.badAcc.filter (fun x => x != e) }))
  | .spad k o =>
    if 128 ≤ k ∨ 4194304 ≤ o then noAgent
    else .next (modCore s k (fun q => { q with badSpad := spadUnit q.spmapG o :: q.badSpad.filter (fun x => x != spadUnit q.spmapG o) }))
  | .hbm pa =>
    if hbmBytes ≤ pa then noAgent
    else .next { s with badHbm := pa / 64 :: s.badHbm.filter (fun x => x != pa / 64) }
  | .ctx c =>
    if 512 ≤ c then noAgent else .next (modCtx s c (fun x => { x with bad := true }))

/-- POWER_OFF: every clock and all state stop. -/
def execPowerOff (s : State) : Out := .next { s with modState := .off }

end Sys2Proof.Machine
end

