-- ==== Sys2Proof/Machine/ScalarFloat.lean ====
section
/-!
DEFINITION. Scalar floating point and conversions (R135-R144).
-/
namespace Sys2Proof.Machine

/-- The value of register i read in IEEE format f (R11). -/
def fval (s : State) (f : Nat) (i : BitVec 6) : FVal := widen f (lowBits (rg s i) (fmtWidth f))

/-- The mode of a scalar instruction; DITH never reaches it (R92). -/
def fmode (s : State) (rm : BitVec 4) : Rnd := rndOf (rmCode (me s) rm) 0

def execFadd (h : Hdr) (d a b : BitVec 6) (f : BitVec 2) (rm : BitVec 4) (s : State) : Out :=
  issue1 h [a, b] [d] (fpWrites d (fun t =>
    fpAdd (ieeeCode f) (fval t (ieeeCode f) a) (fval t (ieeeCode f) b) (fmode t rm))) s
def execFsub (h : Hdr) (d a b : BitVec 6) (f : BitVec 2) (rm : BitVec 4) (s : State) : Out :=
  issue1 h [a, b] [d] (fpWrites d (fun t =>
    fpSub (ieeeCode f) (fval t (ieeeCode f) a) (fval t (ieeeCode f) b) (fmode t rm))) s
def execFmul (h : Hdr) (d a b : BitVec 6) (f : BitVec 2) (rm : BitVec 4) (s : State) : Out :=
  issue1 h [a, b] [d] (fpWrites d (fun t =>
    fpMul (ieeeCode f) (fval t (ieeeCode f) a) (fval t (ieeeCode f) b) (fmode t rm))) s
def execFfma (h : Hdr) (d a b c : BitVec 6) (f : BitVec 2) (rm : BitVec 4) (s : State) : Out :=
  issue1 h [a, b, c] [d] (fpWrites d (fun t =>
    fpFma (ieeeCode f) (fval t (ieeeCode f) a) (fval t (ieeeCode f) b) (fval t (ieeeCode f) c) (fmode t rm))) s
def execFdiv (h : Hdr) (d a b : BitVec 6) (f : BitVec 2) (rm : BitVec 4) (s : State) : Out :=
  issue1 h [a, b] [d] (fpWrites d (fun t =>
    fpDiv (ieeeCode f) (fval t (ieeeCode f) a) (fval t (ieeeCode f) b) (fmode t rm))) s
def execFsqrt (h : Hdr) (d a : BitVec 6) (f : BitVec 2) (rm : BitVec 4) (s : State) : Out :=
  issue1 h [a] [d] (fpWrites d (fun t => fpSqrt (ieeeCode f) (fval t (ieeeCode f) a) (fmode t rm))) s

/-- The code of register i in format f. -/
def fcode (s : State) (f : Nat) (i : BitVec 6) : Nat := lowBits (rg s i) (fmtWidth f)

def execFmin (h : Hdr) (d a b : BitVec 6) (f : BitVec 2) (s : State) : Out :=
  issue1 h [a, b] [d] (fpWrites d (fun t =>
    fpMinMax (ieeeCode f) false (fcode t (ieeeCode f) a) (fcode t (ieeeCode f) b))) s
def execFmax (h : Hdr) (d a b : BitVec 6) (f : BitVec 2) (s : State) : Out :=
  issue1 h [a, b] [d] (fpWrites d (fun t =>
    fpMinMax (ieeeCode f) true (fcode t (ieeeCode f) a) (fcode t (ieeeCode f) b))) s
def execFcmp (h : Hdr) (d : BitVec 3) (a b : BitVec 6) (f : BitVec 2) (cc : BitVec 3) (s : State) : Out :=
  issue1 h [a, b] [] (fpWritesP d (fun t =>
    fpCompare cc.toNat (fval t (ieeeCode f) a) (fval t (ieeeCode f) b))) s
def execFclass (h : Hdr) (d a : BitVec 6) (f : BitVec 2) (s : State) : Out :=
  issue1 h [a] [d] (writes d (fun t => w64 (2 ^ fpClass (ieeeCode f) (fval t (ieeeCode f) a)))) s
def execFsgn (h : Hdr) (d a b : BitVec 6) (f : BitVec 2) (op : BitVec 2) (s : State) : Out :=
  issue1 h [a, b] [d] (writes d (fun t =>
    w64 (fpSign (ieeeCode f) op.toNat (fcode t (ieeeCode f) a) (fcode t (ieeeCode f) b)))) s

/-- FCVT, FCVTI and ICVTF deliver the exact value of the source (R144, R93). -/
def convertScalar (dfmt sfmt : Nat) (w : Word) (m : Rnd) : Nat × Exc :=
  deliver dfmt (widen sfmt (lowBits w (fmtWidth sfmt))) m (fmtIsInt sfmt)

def execFcvt (h : Hdr) (d a : BitVec 6) (dfmt sfmt : BitVec 8) (rm : BitVec 4) (s : State) : Out :=
  issue1 h [a] [d] (fpWrites d (fun t => convertScalar dfmt.toNat sfmt.toNat (rg t a) (fmode t rm))) s
def execFcvti (h : Hdr) (d a : BitVec 6) (dfmt sfmt : BitVec 8) (rm : BitVec 4) (s : State) : Out :=
  issue1 h [a] [d] (fpWrites d (fun t => convertScalar dfmt.toNat sfmt.toNat (rg t a) (fmode t rm))) s
def execIcvtf (h : Hdr) (d a : BitVec 6) (dfmt sfmt : BitVec 8) (rm : BitVec 4) (s : State) : Out :=
  issue1 h [a] [d] (fpWrites d (fun t => convertScalar dfmt.toNat sfmt.toNat (rg t a) (fmode t rm))) s

end Sys2Proof.Machine
end

