-- ==== Sys2Proof/Machine/Dispatch.lean ====
section
/-!
DEFINITION. One arm for each constructor of `Instr`: the meaning it calls.
-/
namespace Sys2Proof.Machine

def exec (i : Instr) (s : State) : Host.Outcome State Fault Refusal :=
  match i with
  | .add h d a b => Sys2Proof.Machine.execAdd h d a b s
  | .sub h d a b => Sys2Proof.Machine.execSub h d a b s
  | .mul h d a b => Sys2Proof.Machine.execMul h d a b s
  | .mulh h d a b => Sys2Proof.Machine.execMulh h d a b s
  | .mulhu h d a b => Sys2Proof.Machine.execMulhu h d a b s
  | .mulhsu h d a b => Sys2Proof.Machine.execMulhsu h d a b s
  | .div h d a b => Sys2Proof.Machine.execDiv h d a b s
  | .divu h d a b => Sys2Proof.Machine.execDivu h d a b s
  | .rem h d a b => Sys2Proof.Machine.execRem h d a b s
  | .remu h d a b => Sys2Proof.Machine.execRemu h d a b s
  | .and h d a b => Sys2Proof.Machine.execAnd h d a b s
  | .or h d a b => Sys2Proof.Machine.execOr h d a b s
  | .xor h d a b => Sys2Proof.Machine.execXor h d a b s
  | .andn h d a b => Sys2Proof.Machine.execAndn h d a b s
  | .orn h d a b => Sys2Proof.Machine.execOrn h d a b s
  | .xnor h d a b => Sys2Proof.Machine.execXnor h d a b s
  | .shl h d a b => Sys2Proof.Machine.execShl h d a b s
  | .shr h d a b => Sys2Proof.Machine.execShr h d a b s
  | .sar h d a b => Sys2Proof.Machine.execSar h d a b s
  | .rol h d a b => Sys2Proof.Machine.execRol h d a b s
  | .ror h d a b => Sys2Proof.Machine.execRor h d a b s
  | .min h d a b => Sys2Proof.Machine.execMin h d a b s
  | .max h d a b => Sys2Proof.Machine.execMax h d a b s
  | .minu h d a b => Sys2Proof.Machine.execMinu h d a b s
  | .maxu h d a b => Sys2Proof.Machine.execMaxu h d a b s
  | .clz h d a sz => Sys2Proof.Machine.execClz h d a sz s
  | .ctz h d a sz => Sys2Proof.Machine.execCtz h d a sz s
  | .popc h d a sz => Sys2Proof.Machine.execPopc h d a sz s
  | .brev h d a sz => Sys2Proof.Machine.execBrev h d a sz s
  | .bswap h d a sz => Sys2Proof.Machine.execBswap h d a sz s
  | .exts h d a lenm1 => Sys2Proof.Machine.execExts h d a lenm1 s
  | .extz h d a lenm1 => Sys2Proof.Machine.execExtz h d a lenm1 s
  | .bfx h d a pos lenm1 => Sys2Proof.Machine.execBfx h d a pos lenm1 s
  | .bfi h d a b pos lenm1 => Sys2Proof.Machine.execBfi h d a b pos lenm1 s
  | .sel h d a b c => Sys2Proof.Machine.execSel h d a b c s
  | .lea h d a b sh off => Sys2Proof.Machine.execLea h d a b sh off s
  | .addi h d a imm => Sys2Proof.Machine.execAddi h d a imm s
  | .muli h d a imm => Sys2Proof.Machine.execMuli h d a imm s
  | .andi h d a imm => Sys2Proof.Machine.execAndi h d a imm s
  | .ori h d a imm => Sys2Proof.Machine.execOri h d a imm s
  | .xori h d a imm => Sys2Proof.Machine.execXori h d a imm s
  | .shli h d a n => Sys2Proof.Machine.execShli h d a n s
  | .shri h d a n => Sys2Proof.Machine.execShri h d a n s
  | .sari h d a n => Sys2Proof.Machine.execSari h d a n s
  | .movi h d imm => Sys2Proof.Machine.execMovi h d imm s
  | .movhi h d a imm => Sys2Proof.Machine.execMovhi h d a imm s
  | .cmp h d a b cc => Sys2Proof.Machine.execCmp h d a b cc s
  | .test h d a b z => Sys2Proof.Machine.execTest h d a b z s
  | .pand h d a b na nb => Sys2Proof.Machine.execPand h d a b na nb s
  | .por h d a b na nb => Sys2Proof.Machine.execPor h d a b na nb s
  | .pxor h d a b na nb => Sys2Proof.Machine.execPxor h d a b na nb s
  | .pnot h d a => Sys2Proof.Machine.execPnot h d a s
  | .pmov h d a => Sys2Proof.Machine.execPmov h d a s
  | .cmpi h d a cc imm => Sys2Proof.Machine.execCmpi h d a cc imm s
  | .br h off => Sys2Proof.Machine.execBr h off s
  | .call h d off => Sys2Proof.Machine.execCall h d off s
  | .jmpr h a => Sys2Proof.Machine.execJmpr h a s
  | .callr h d a => Sys2Proof.Machine.execCallr h d a s
  | .ret h a => Sys2Proof.Machine.execRet h a s
  | .loop h n b len => Sys2Proof.Machine.execLoop h n b len s
  | .ld h d a b o size sgn off => Sys2Proof.Machine.execLd h d a b o size sgn off s
  | .pref h a b off => Sys2Proof.Machine.execPref h a b off s
  | .st h r a b o size off => Sys2Proof.Machine.execSt h r a b o size off s
  | .amoSwap h d a b o dbl => Sys2Proof.Machine.execAmoSwap h d a b o dbl s
  | .amoAdd h d a b o dbl => Sys2Proof.Machine.execAmoAdd h d a b o dbl s
  | .amoAnd h d a b o dbl => Sys2Proof.Machine.execAmoAnd h d a b o dbl s
  | .amoOr h d a b o dbl => Sys2Proof.Machine.execAmoOr h d a b o dbl s
  | .amoXor h d a b o dbl => Sys2Proof.Machine.execAmoXor h d a b o dbl s
  | .amoMin h d a b o dbl => Sys2Proof.Machine.execAmoMin h d a b o dbl s
  | .amoMax h d a b o dbl => Sys2Proof.Machine.execAmoMax h d a b o dbl s
  | .amoMinu h d a b o dbl => Sys2Proof.Machine.execAmoMinu h d a b o dbl s
  | .amoMaxu h d a b o dbl => Sys2Proof.Machine.execAmoMaxu h d a b o dbl s
  | .amocas h d a b c o dbl => Sys2Proof.Machine.execAmocas h d a b c o dbl s
  | .amofadd h d a b o dbl => Sys2Proof.Machine.execAmofadd h d a b o dbl s
  | .fadd h d a b f rm => Sys2Proof.Machine.execFadd h d a b f rm s
  | .fsub h d a b f rm => Sys2Proof.Machine.execFsub h d a b f rm s
  | .fmul h d a b f rm => Sys2Proof.Machine.execFmul h d a b f rm s
  | .ffma h d a b c f rm => Sys2Proof.Machine.execFfma h d a b c f rm s
  | .fdiv h d a b f rm => Sys2Proof.Machine.execFdiv h d a b f rm s
  | .fsqrt h d a f rm => Sys2Proof.Machine.execFsqrt h d a f rm s
  | .fmin h d a b f => Sys2Proof.Machine.execFmin h d a b f s
  | .fmax h d a b f => Sys2Proof.Machine.execFmax h d a b f s
  | .fcmp h d a b f cc => Sys2Proof.Machine.execFcmp h d a b f cc s
  | .fclass h d a f => Sys2Proof.Machine.execFclass h d a f s
  | .fsgn h d a b f op => Sys2Proof.Machine.execFsgn h d a b f op s
  | .fcvt h d a dfmt sfmt rm => Sys2Proof.Machine.execFcvt h d a dfmt sfmt rm s
  | .fcvti h d a dfmt sfmt rm => Sys2Proof.Machine.execFcvti h d a dfmt sfmt rm s
  | .icvtf h d a dfmt sfmt rm => Sys2Proof.Machine.execIcvtf h d a dfmt sfmt rm s
  | .nop h => Sys2Proof.Machine.execNop h s
  | .crd h d num => Sys2Proof.Machine.execCrd h d num s
  | .cwr h a num => Sys2Proof.Machine.execCwr h a num s
  | .halt h => Sys2Proof.Machine.execHalt h s
  | .trap h code => Sys2Proof.Machine.execTrap h code s
  | .eret h => Sys2Proof.Machine.execEret h s
  | .brk h code => Sys2Proof.Machine.execBrk h code s
  | .movx h d imm => Sys2Proof.Machine.execMovx h d imm s
  | .brx h d imm => Sys2Proof.Machine.execBrx h d imm s
  | .brxRel h d imm => Sys2Proof.Machine.execBrxRel h d imm s
  | .launch h d a => Sys2Proof.Machine.execLaunch h d a s
  | .exit h => Sys2Proof.Machine.execExit h s
  | .yieldI h q => Sys2Proof.Machine.execYieldI h q s
  | .park h d a => Sys2Proof.Machine.execPark h d a s
  | .wake h a => Sys2Proof.Machine.execWake h a s
  | .cset h c a => Sys2Proof.Machine.execCset h c a s
  | .cadd h c a => Sys2Proof.Machine.execCadd h c a s
  | .cwait h c a => Sys2Proof.Machine.execCwait h c a s
  | .crdc h d c => Sys2Proof.Machine.execCrdc h d c s
  | .barinit h a b => Sys2Proof.Machine.execBarinit h a b s
  | .bara h d a => Sys2Proof.Machine.execBara h d a s
  | .barw h a b => Sys2Proof.Machine.execBarw h a b s
  | .gset h a b => Sys2Proof.Machine.execGset h a b s
  | .gadd h d a b => Sys2Proof.Machine.execGadd h d a b s
  | .grd h d a => Sys2Proof.Machine.execGrd h d a s
  | .fence h scope cset => Sys2Proof.Machine.execFence h scope cset s
  | .vadd h d a b bs msk zi rm => Sys2Proof.Machine.execVadd h d a b bs msk zi rm s
  | .vsub h d a b bs msk zi rm => Sys2Proof.Machine.execVsub h d a b bs msk zi rm s
  | .vmul h d a b bs msk zi rm => Sys2Proof.Machine.execVmul h d a b bs msk zi rm s
  | .vfma h d a b bs c msk zi rm => Sys2Proof.Machine.execVfma h d a b bs c msk zi rm s
  | .vdiv h d a b bs msk zi rm => Sys2Proof.Machine.execVdiv h d a b bs msk zi rm s
  | .vsqrt h d a msk zi rm => Sys2Proof.Machine.execVsqrt h d a msk zi rm s
  | .vrcp h d a msk zi => Sys2Proof.Machine.execVrcp h d a msk zi s
  | .vrsq h d a msk zi => Sys2Proof.Machine.execVrsq h d a msk zi s
  | .vmin h d a b bs msk zi => Sys2Proof.Machine.execVmin h d a b bs msk zi s
  | .vmax h d a b bs msk zi => Sys2Proof.Machine.execVmax h d a b bs msk zi s
  | .vsgn h d a b bs op msk zi => Sys2Proof.Machine.execVsgn h d a b bs op msk zi s
  | .vexp2 h d a msk zi => Sys2Proof.Machine.execVexp2 h d a msk zi s
  | .vlog2 h d a msk zi => Sys2Proof.Machine.execVlog2 h d a msk zi s
  | .vsin h d a msk zi => Sys2Proof.Machine.execVsin h d a msk zi s
  | .vcos h d a msk zi => Sys2Proof.Machine.execVcos h d a msk zi s
  | .vsinpi h d a msk zi => Sys2Proof.Machine.execVsinpi h d a msk zi s
  | .vcospi h d a msk zi => Sys2Proof.Machine.execVcospi h d a msk zi s
  | .viadd h d a b bs sat u msk zi => Sys2Proof.Machine.execViadd h d a b bs sat u msk zi s
  | .visub h d a b bs sat u msk zi => Sys2Proof.Machine.execVisub h d a b bs sat u msk zi s
  | .vimul h d a b bs hi u msk zi => Sys2Proof.Machine.execVimul h d a b bs hi u msk zi s
  | .vand h d a b bs msk zi => Sys2Proof.Machine.execVand h d a b bs msk zi s
  | .vor h d a b bs msk zi => Sys2Proof.Machine.execVor h d a b bs msk zi s
  | .vxor h d a b bs msk zi => Sys2Proof.Machine.execVxor h d a b bs msk zi s
  | .vshl h d a b bs msk zi => Sys2Proof.Machine.execVshl h d a b bs msk zi s
  | .vshr h d a b bs msk zi => Sys2Proof.Machine.execVshr h d a b bs msk zi s
  | .vsar h d a b bs msk zi => Sys2Proof.Machine.execVsar h d a b bs msk zi s
  | .vimin h d a b bs u msk zi => Sys2Proof.Machine.execVimin h d a b bs u msk zi s
  | .vimax h d a b bs u msk zi => Sys2Proof.Machine.execVimax h d a b bs u msk zi s
  | .vpopc h d a msk zi => Sys2Proof.Machine.execVpopc h d a msk zi s
  | .vclmul h d a b bs hi msk zi => Sys2Proof.Machine.execVclmul h d a b bs hi msk zi s
  | .vcvt h d a c adv part dfmt sfmt rm => Sys2Proof.Machine.execVcvt h d a c adv part dfmt sfmt rm s
  | .vcmp h d a b bs cc msk zi => Sys2Proof.Machine.execVcmp h d a b bs cc msk zi s
  | .vicmp h d a b bs cc msk zi => Sys2Proof.Machine.execVicmp h d a b bs cc msk zi s
  | .mand h d a b na nb => Sys2Proof.Machine.execMand h d a b na nb s
  | .mor h d a b na nb => Sys2Proof.Machine.execMor h d a b na nb s
  | .mxor h d a b na nb => Sys2Proof.Machine.execMxor h d a b na nb s
  | .mnot h d a => Sys2Proof.Machine.execMnot h d a s
  | .mpopc h d a => Sys2Proof.Machine.execMpopc h d a s
  | .vmovVector h d a msk zi => Sys2Proof.Machine.execVmovVector h d a msk zi s
  | .vmovLaneToGeneral h d a b => Sys2Proof.Machine.execVmovLaneToGeneral h d a b s
  | .vmovGeneralToLane h d a b => Sys2Proof.Machine.execVmovGeneralToLane h d a b s
  | .vmovGeneralToMask h d a => Sys2Proof.Machine.execVmovGeneralToMask h d a s
  | .vmovMaskToGeneral h d a => Sys2Proof.Machine.execVmovMaskToGeneral h d a s
  | .vbcast h d a b src msk zi => Sys2Proof.Machine.execVbcast h d a b src msk zi s
  | .vext h d a b k msk zi => Sys2Proof.Machine.execVext h d a b k msk zi s
  | .vperm h d a b c t2 msk zi => Sys2Proof.Machine.execVperm h d a b c t2 msk zi s
  | .vpswap h d a n neg msk zi => Sys2Proof.Machine.execVpswap h d a n neg msk zi s
  | .vslide h d a b c dn msk zi => Sys2Proof.Machine.execVslide h d a b c dn msk zi s
  | .vcompress h d a msk zi => Sys2Proof.Machine.execVcompress h d a msk zi s
  | .vexpand h d a msk zi => Sys2Proof.Machine.execVexpand h d a msk zi s
  | .vsel h d a b c => Sys2Proof.Machine.execVsel h d a b c s
  | .viota h d a msk zi => Sys2Proof.Machine.execViota h d a msk zi s
  | .vred h d a op rm msk => Sys2Proof.Machine.execVred h d a op rm msk s
  | .vscan h d a op rm msk zi => Sys2Proof.Machine.execVscan h d a op rm msk zi s
  | .vscanExcl h d a op rm msk zi => Sys2Proof.Machine.execVscanExcl h d a op rm msk zi s
  | .vld h d a b c str o msk skip => Sys2Proof.Machine.execVld h d a b c str o msk skip s
  | .vst h r a b c str o msk skip => Sys2Proof.Machine.execVst h r a b c str o msk skip s
  | .vgath h d a b scale sx o msk skip => Sys2Proof.Machine.execVgath h d a b scale sx o msk skip s
  | .vscat h r a b scale sx o msk skip => Sys2Proof.Machine.execVscat h r a b scale sx o msk skip s
  | .vscatAdd h r a b scale sx o msk skip => Sys2Proof.Machine.execVscatAdd h r a b scale sx o msk skip s
  | .vscatIadd h r a b scale sx o msk skip => Sys2Proof.Machine.execVscatIadd h r a b scale sx o msk skip s
  | .vscatImin h r a b scale sx o msk skip => Sys2Proof.Machine.execVscatImin h r a b scale sx o msk skip s
  | .vscatImax h r a b scale sx o msk skip => Sys2Proof.Machine.execVscatImax h r a b scale sx o msk skip s
  | .vconfl h d a c msk zi => Sys2Proof.Machine.execVconfl h d a c msk zi s
  | .vcomb h d a b op rm msk zi => Sys2Proof.Machine.execVcomb h d a b op rm msk zi s
  | .rpop h d c nb => Sys2Proof.Machine.execRpop h d c nb s
  | .qflush h d a => Sys2Proof.Machine.execQflush h d a s
  | .qstat h d a => Sys2Proof.Machine.execQstat h d a s
  | .frpop h d a => Sys2Proof.Machine.execFrpop h d a s
  | .ppart h d a b => Sys2Proof.Machine.execPpart h d a b s
  | .ppartRel h => Sys2Proof.Machine.execPpartRel h s
  | .pcfg h e a => Sys2Proof.Machine.execPcfg h e a s
  | .pcfgPlc h e a => Sys2Proof.Machine.execPcfgPlc h e a s
  | .pclr h e a b => Sys2Proof.Machine.execPclr h e a b s
  | .pexcReadCounters h d a b => Sys2Proof.Machine.execPexcReadCounters h d a b s
  | .psweep h e a b c d => Sys2Proof.Machine.execPsweep h e a b c d s
  | .psweeps h e a b c d => Sys2Proof.Machine.execPsweeps h e a b c d s
  | .pscan h e a b => Sys2Proof.Machine.execPscan h e a b s
  | .ptopk h e a b c rb => Sys2Proof.Machine.execPtopk h e a b c rb s
  | .pdrain h e a b c d rm clr int bs => Sys2Proof.Machine.execPdrain h e a b c d rm clr int bs s
  | .pprog h d => Sys2Proof.Machine.execPprog h d s
  | .pstat h d a => Sys2Proof.Machine.execPstat h d a s
  | .spcfg h a => Sys2Proof.Machine.execSpcfg h a s
  | .treg h d a b => Sys2Proof.Machine.execTreg h d a b s
  | .trel h a => Sys2Proof.Machine.execTrel h a s
  | .tinfo h d a k => Sys2Proof.Machine.execTinfo h d a k s
  | .taddr h d a b prom => Sys2Proof.Machine.execTaddr h d a b prom s
  | .tld h d a b raw prom o => Sys2Proof.Machine.execTld h d a b raw prom o s
  | .tst h v a b raw prom rmen rm o => Sys2Proof.Machine.execTst h v a b raw prom rmen rm o s
  | .vldt h d a b raw prom o msk skip => Sys2Proof.Machine.execVldt h d a b raw prom o msk skip s
  | .vstt h v a b raw prom rmen rm o msk skip => Sys2Proof.Machine.execVstt h v a b raw prom rmen rm o msk skip s
  | .cpy h cnt oc a b c eng mc red rop rfmt => Sys2Proof.Machine.execCpy h cnt oc a b c eng mc red rop rfmt s
  | .cpy2 h cnt oc a b c d eng mc red rop rfmt => Sys2Proof.Machine.execCpy2 h cnt oc a b c d eng mc red rop rfmt s
  | .cfill h cnt oc a b c eng mc p => Sys2Proof.Machine.execCfill h cnt oc a b c eng mc p s
  | .echk h d a => Sys2Proof.Machine.execEchk h d a s
  | .cpyt h cnt oc a b c d eng mc zfill xc prom => Sys2Proof.Machine.execCpyt h cnt oc a b c d eng mc zfill xc prom s
  | .cpyts h cnt oc a b c d eng xc prom p => Sys2Proof.Machine.execCpyts h cnt oc a b c d eng xc prom p s
  | .cpyg h cnt oc a b c d eng mc => Sys2Proof.Machine.execCpyg h cnt oc a b c d eng mc s
  | .cpyr h cnt oc a b c d eng mc sum rfmt => Sys2Proof.Machine.execCpyr h cnt oc a b c d eng mc sum rfmt s
  | .cpys h cnt oc a b c d eng red rop rfmt => Sys2Proof.Machine.execCpys h cnt oc a b c d eng red rop rfmt s
  | .relayout h cnt oc d a b c => Sys2Proof.Machine.execRelayout h cnt oc d a b c s
  | .relayoutResRetry h a b => Sys2Proof.Machine.execRelayoutResRetry h a b s
  | .tstat h d a sel => Sys2Proof.Machine.execTstat h d a sel s
  | .tsync h a => Sys2Proof.Machine.execTsync h a s
  | .rbsetClr h oc a => Sys2Proof.Machine.execRbsetClr h oc a s
  | .rbsetSet h oc a c => Sys2Proof.Machine.execRbsetSet h oc a c s
  | .rbsetUnset h oc a c => Sys2Proof.Machine.execRbsetUnset h oc a c s
  | .rbsetSetV h oc a c msk skip => Sys2Proof.Machine.execRbsetSetV h oc a c msk skip s
  | .rbsetUnsetV h oc a c msk skip => Sys2Proof.Machine.execRbsetUnsetV h oc a c msk skip s
  | .ridx h oc a b => Sys2Proof.Machine.execRidx h oc a b s
  | .rrank h oc d a b c => Sys2Proof.Machine.execRrank h oc d a b c s
  | .rrankV h oc d a b c msk skip => Sys2Proof.Machine.execRrankV h oc d a b c msk skip s
  | .rsel h oc d a b c => Sys2Proof.Machine.execRsel h oc d a b c s
  | .rselV h oc d a b c msk skip => Sys2Proof.Machine.execRselV h oc d a b c msk skip s
  | .rhist h oc d a c => Sys2Proof.Machine.execRhist h oc d a c s
  | .place h cnt oc a b c d => Sys2Proof.Machine.execPlace h cnt oc a b c d s
  | .ctxsave h a b => Sys2Proof.Machine.execCtxsave h a b s
  | .ctxload h a b => Sys2Proof.Machine.execCtxload h a b s
  | .tlbinvAddress h a b => Sys2Proof.Machine.execTlbinvAddress h a b s
  | .preemptStatus h d a b => Sys2Proof.Machine.execPreemptStatus h d a b s
  | .lcfgGang h d a b => Sys2Proof.Machine.execLcfgGang h d a b s
  | .lcfgUngang h => Sys2Proof.Machine.execLcfgUngang h s
  | .lcfgWset h a b => Sys2Proof.Machine.execLcfgWset h a b s
  | .lcfgWclr h b => Sys2Proof.Machine.execLcfgWclr h b s
  | .lstat h d a => Sys2Proof.Machine.execLstat h d a s
  | .pexcReadThresholds h d a b => Sys2Proof.Machine.execPexcReadThresholds h d a b s
  | .pexcSetThresholds h d a b => Sys2Proof.Machine.execPexcSetThresholds h d a b s
  | .pexcReadClearCounters h d a b => Sys2Proof.Machine.execPexcReadClearCounters h d a b s
  | .pexcSetDitherPhase h d a b => Sys2Proof.Machine.execPexcSetDitherPhase h d a b s
  | .pexcResume h d a b => Sys2Proof.Machine.execPexcResume h d a b s
  | .relayoutResAbandon h a b => Sys2Proof.Machine.execRelayoutResAbandon h a b s
  | .tlbinvAsid h a b => Sys2Proof.Machine.execTlbinvAsid h a b s
  | .tlbinvAll h a b => Sys2Proof.Machine.execTlbinvAll h a b s
  | .preemptStop h d a b => Sys2Proof.Machine.execPreemptStop h d a b s
  | .preemptHalt h d a b => Sys2Proof.Machine.execPreemptHalt h d a b s
  | .preemptResume h d a b => Sys2Proof.Machine.execPreemptResume h d a b s
  | .preemptTerminate h d a b => Sys2Proof.Machine.execPreemptTerminate h d a b s
  | .loadReturn ctx reg => Sys2Proof.Machine.execLoadReturn ctx reg s
  | .icacheFill core line => Sys2Proof.Machine.execIcacheFill core line s
  | .cohortCompletion coh => Sys2Proof.Machine.execCohortCompletion coh s
  | .schedulerPass die => Sys2Proof.Machine.execSchedulerPass die s
  | .quantumExpiry coh => Sys2Proof.Machine.execQuantumExpiry coh s
  | .headWaitExpiry die level => Sys2Proof.Machine.execHeadWaitExpiry die level s
  | .cohortSaveComplete coh => Sys2Proof.Machine.execCohortSaveComplete coh s
  | .cohortRestoreComplete coh => Sys2Proof.Machine.execCohortRestoreComplete coh s
  | .parkTimeout ctx => Sys2Proof.Machine.execParkTimeout ctx s
  | .wakeArrival ctx => Sys2Proof.Machine.execWakeArrival ctx s
  | .vectorStart core => Sys2Proof.Machine.execVectorStart core s
  | .vectorComplete ctx => Sys2Proof.Machine.execVectorComplete ctx s
  | .partitionWindowCleared core base => Sys2Proof.Machine.execPartitionWindowCleared core base s
  | .configLoadStart core part => Sys2Proof.Machine.execConfigLoadStart core part s
  | .configReady core part => Sys2Proof.Machine.execConfigReady core part s
  | .configActivate core part => Sys2Proof.Machine.execConfigActivate core part s
  | .clearStart core part => Sys2Proof.Machine.execClearStart core part s
  | .clearComplete core part => Sys2Proof.Machine.execClearComplete core part s
  | .operandCommandStart core part => Sys2Proof.Machine.execOperandCommandStart core part s
  | .gangSetStart gang => Sys2Proof.Machine.execGangSetStart gang s
  | .foldBegin core part => Sys2Proof.Machine.execFoldBegin core part s
  | .foldLand core part => Sys2Proof.Machine.execFoldLand core part s
  | .pscanComplete core part => Sys2Proof.Machine.execPscanComplete core part s
  | .ptopkComplete core part => Sys2Proof.Machine.execPtopkComplete core part s
  | .drainStart core part => Sys2Proof.Machine.execDrainStart core part s
  | .drainComplete core part => Sys2Proof.Machine.execDrainComplete core part s
  | .configCacheFill die addr => Sys2Proof.Machine.execConfigCacheFill die addr s
  | .spcfgApply core => Sys2Proof.Machine.execSpcfgApply core s
  | .copyCommandStart core eng => Sys2Proof.Machine.execCopyCommandStart core eng s
  | .copyBeatLand core eng slot => Sys2Proof.Machine.execCopyBeatLand core eng slot s
  | .layoutUnitTake die => Sys2Proof.Machine.execLayoutUnitTake die s
  | .layoutUnitComplete die => Sys2Proof.Machine.execLayoutUnitComplete die s
  | .layoutUnitFault die => Sys2Proof.Machine.execLayoutUnitFault die s
  | .placeStart die => Sys2Proof.Machine.execPlaceStart die s
  | .placeComplete die => Sys2Proof.Machine.execPlaceComplete die s
  | .asyncTrapDeliver ctx => Sys2Proof.Machine.execAsyncTrapDeliver ctx s
  | .peerRequestReceive port req => Sys2Proof.Machine.execPeerRequestReceive port req s
  | .peerResponseReceive id resp => Sys2Proof.Machine.execPeerResponseReceive id resp s
  | .peerTimeout id => Sys2Proof.Machine.execPeerTimeout id s
  | .hostLaunchWindowWrite die offset data => Sys2Proof.Machine.execHostLaunchWindowWrite die offset data s
  | .launchWindowAccept die level => Sys2Proof.Machine.execLaunchWindowAccept die level s
  | .hostGateRead gate => Sys2Proof.Machine.execHostGateRead gate s
  | .hostGateWrite gate value => Sys2Proof.Machine.execHostGateWrite gate value s
  | .bar0RegisterWrite offset size value => Sys2Proof.Machine.execBar0RegisterWrite offset size value s
  | .hostBar2Read offset len => Sys2Proof.Machine.execHostBar2Read offset len s
  | .hostBar2Write offset data => Sys2Proof.Machine.execHostBar2Write offset data s
  | .mailboxLoad => Sys2Proof.Machine.execMailboxLoad s
  | .mailboxAttest => Sys2Proof.Machine.execMailboxAttest s
  | .mailboxSetcap => Sys2Proof.Machine.execMailboxSetcap s
  | .mailboxTermlog => Sys2Proof.Machine.execMailboxTermlog s
  | .mailboxSvnset => Sys2Proof.Machine.execMailboxSvnset s
  | .mailboxSelftest => Sys2Proof.Machine.execMailboxSelftest s
  | .powerOnReset => Sys2Proof.Machine.execPowerOnReset s
  | .selftestDone result => Sys2Proof.Machine.execSelftestDone result s
  | .firmwareVerify image => Sys2Proof.Machine.execFirmwareVerify image s
  | .configDone cfg => Sys2Proof.Machine.execConfigDone cfg s
  | .trip island => Sys2Proof.Machine.execTrip island s
  | .currentLimitStretch island => Sys2Proof.Machine.execCurrentLimitStretch island s
  | .monitorRefresh island sample => Sys2Proof.Machine.execMonitorRefresh island sample s
  | .barrierArrival ctx => Sys2Proof.Machine.execBarrierArrival ctx s
  | .storePerformed ctx index => Sys2Proof.Machine.execStorePerformed ctx index s
  | .linkDown port => Sys2Proof.Machine.execLinkDown port s
  | .linkUp port device => Sys2Proof.Machine.execLinkUp port device s
  | .patrolScrub target => Sys2Proof.Machine.execPatrolScrub target s
  | .islandClockChange island mhz => Sys2Proof.Machine.execIslandClockChange island mhz s
  | .firmwareTerminate coh => Sys2Proof.Machine.execFirmwareTerminate coh s
  | .powerOff => Sys2Proof.Machine.execPowerOff s

end Sys2Proof.Machine
end

