-- ==== Sys2Proof/Machine/Run.lean ====
section
/-!
DEFINITION. What a step does around an instruction: the fetch of its words (R33, R41, R494), the choice of the context
that issues (R154, R155), the steps of the package's agents, and how a program is placed (logs 4, 5, 16).
-/
namespace Sys2Proof.Machine

/-! ## Fetching an instruction (R33, R34) -/

/-- Both words of the instruction at a context's PC, or what the fetch answers instead: a line to fill, or a fault with
its address. -/
inductive Words where
  | words (w0 w1 : Word) (s : State)
  | miss (line : Nat)
  | fault (cause : Nat) (addr : Word)
  deriving Repr

/-- R33's two fetches. The second word of a double-word instruction at PC 2^56 − 8 would lie at 2^56, outside DEV: it
raises ADDR_SPACE there (DESIGN CHOICE, log 71: the loop tests only the PC). -/
def fetchWords (s : State) (c : Nat) : Words :=
  let pc := (getCtx s c).pc
  match fetch s c pc with
  | .miss line => .miss line
  | .fault e => .fault e pc
  | .word w0 s1 =>
    if isDouble w0 then
      match fetch s1 c (pc + 8) with
      | .miss line => .miss line
      | .fault e => .fault e (pc + 8)
      | .word w1 s2 => .words w0 w1 s2
    else .words w0 0 s1

/-- The words at the PC of the executing context run: a fetch match (R494), ILLEGAL_INSTR, or the instruction. -/
def runWords (w0 w1 : Word) (s : State) : Out :=
  let pc := pcOf s
  match fetchBreak (me s) with
  | some n => .next (raiseFault s s.cur { recOf s cBreak pc with info0 := w64 (1 + 16 * n) } pc)
  | none =>
    match decode w0 w1 with
    | .ok i => exec i s
    | .error _ => .next (raiseFault s s.cur (recOf s cIllegal pc) pc)

/-- Context c has the slot of its core. -/
def takeSlot (s : State) (c : Nat) : State := { s with cur := c }

/-- An instruction of context c issued between two states: it retired, faulted, or left for a unit. A context that only
waits is as it was. -/
def hasIssued (s t : State) (c : Nat) : Bool :=
  getCtx t c != { getCtx s c with handleStall := (getCtx t c).handleStall }

/-- The core's pointer moves to a context that issues (R155). -/
def movePointer (s : State) (c : Nat) (o : Out) : Out :=
  match o with
  | .next t => .next (if hasIssued s t c then modCore t (coreOfCtx c) (fun q => { q with last := c % 4 }) else t)
  | .fault f => .fault f
  | .refused r => .refused r

/-- One pass of the loop of R33 for context c, or the fill of the line it waits for. -/
def runCtx (s : State) (c : Nat) : Out :=
  let s1 := takeSlot s c
  movePointer s c (match fetchWords s1 c with
    | .words w0 w1 t => runWords w0 w1 t
    | .miss line => execIcacheFill (coreOfCtx c) line s1
    | .fault e a => .next (raiseFault s1 c (recOf s1 e a) (pcOf s1)))

/-! ## Which context issues (R153-R155, R180, R484) -/

/-- The context's cohort lets it issue: it is placed, or it is stopping and the context completes an access that a
peer has answered (R484, R523). -/
def mayIssue (s : State) (c : Nat) : Bool :=
  match cohortOf s c with
  | some h => h.st == .placed || (h.st == .stopping && (getCtx s c).peerData.isSome)
  | none => false

/-- Ready to issue or to find that it must wait: not with 16 entries in its vector queue (R154, R190). -/
def ctxReady (s : State) (c : Nat) : Bool :=
  let x := getCtx s c
  x.phase == .running && decide (x.yieldEnd ≤ s.clk) && decide (x.vq.length < 16) && !ctxBlocked x && x.peerWait.isNone && mayIssue s c

/-- A halt request takes effect: the context is at an instruction boundary with no trap to take first (R473, R483,
R499). -/
def haltDue (s : State) (c : Nat) : Bool :=
  let x := getCtx s c
  x.haltReq && !asyncDue s c && (x.phase == .parked || (x.phase == .running && (!ctxBlocked x || x.handleStall)))
  && x.peerWait.isNone && x.peerData.isNone
  && unsaved s c

def haltCtx (s : State) (c : Nat) : State :=
  modCtx (dropStalled s c) c (fun x => { x with phase := .halted, haltReq := false, parkEnd := none })

/-- The contexts of core k in the order of its pointer (R155). -/
def slotOrder (s : State) (k : Nat) : List Nat :=
  [1, 2, 3, 4].map (fun i => 4 * k + ((getCore s k).last + i) % 4)

/-- Context c's instruction would issue now. -/
def wouldIssue (s : State) (c : Nat) : Bool :=
  ctxReady s c && (match runCtx s c with | .next t => hasIssued s t c | _ => false)

/-- No context that the pointer reaches before c has an instruction to issue (R155). -/
def ownsSlot (s : State) (c : Nat) : Bool :=
  ((slotOrder s (coreOfCtx c)).takeWhile (fun d => d != c)).all (fun d => !wouldIssue s d)

/-- Context c is chosen: it takes a trap that is due, halts, issues when the slot is its own, or waits (R473). -/
def issueCtx (s : State) (c : Nat) : Out :=
  if 512 ≤ c then noAgent
  else if asyncDue s c then execAsyncTrapDeliver c s
  else if haltDue s c then .next (haltCtx s c)
  else if ctxReady s c && ownsSlot s c then runCtx s c
  else ev s

/-- Cores with contexts in use, from the one after the executing context's, in a ring: the model lets one core issue in
a step (log 5). -/
def coreRing (s : State) : List Nat :=
  let ks := ((tabKeys s.ctxs).map coreOfCtx).eraseDups
  ks.filter (fun k => decide (myCore s < k)) ++ ks.filter (fun k => decide (k ≤ myCore s))

/-- What context c's turn gives; nothing where it only waits. -/
def ctxTry (s : State) (c : Nat) : Option Out :=
  match runCtx s c with
  | .next t => if { t with cur := s.cur } = s then none else some (.next t)
  | o => some o

/-- The first context in the order of the cores' pointers that does something (R155). -/
def nextTurn (s : State) : Option Out :=
  (((coreRing s).flatMap (slotOrder s)).filter (ctxReady s)).findSome? (ctxTry s)

/-! ## The agents -/

/-- Steps of agents that act only in READY (R539). -/
def onlyReady (m : Move) : Bool :=
  match m with
  | .issue _ => true
  | .agentsStopped _ => true
  | .linkRetry _ => false
  | .bar0Read _ _ => false
  | .loadReturn _ _ => true
  | .icacheFill _ _ => true
  | .cohortCompletion _ => true
  | .schedulerPass _ => true
  | .quantumExpiry _ => true
  | .headWaitExpiry _ _ => true
  | .cohortSaveComplete _ => true
  | .cohortRestoreComplete _ => true
  | .parkTimeout _ => true
  | .wakeArrival _ => true
  | .vectorStart _ => true
  | .vectorComplete _ => true
  | .partitionWindowCleared _ _ => true
  | .configLoadStart _ _ => true
  | .configReady _ _ => true
  | .configActivate _ _ => true
  | .clearStart _ _ => true
  | .clearComplete _ _ => true
  | .operandCommandStart _ _ => true
  | .gangSetStart _ => true
  | .foldBegin _ _ => true
  | .foldLand _ _ => true
  | .pscanComplete _ _ => true
  | .ptopkComplete _ _ => true
  | .drainStart _ _ => true
  | .drainComplete _ _ => true
  | .configCacheFill _ _ => true
  | .spcfgApply _ => true
  | .copyCommandStart _ _ => true
  | .copyBeatLand _ _ _ => true
  | .layoutUnitTake _ => true
  | .layoutUnitComplete _ => true
  | .layoutUnitFault _ => true
  | .placeStart _ => true
  | .placeComplete _ => true
  | .asyncTrapDeliver _ => true
  | .peerRequestReceive _ _ => false
  | .peerResponseReceive _ _ => true
  | .peerTimeout _ => true
  | .hostLaunchWindowWrite _ _ _ => false
  | .launchWindowAccept _ _ => true
  | .hostGateRead _ => false
  | .hostGateWrite _ _ => false
  | .bar0RegisterWrite _ _ _ => false
  | .hostBar2Read _ _ => false
  | .hostBar2Write _ _ => false
  | .mailboxLoad => false
  | .mailboxAttest => false
  | .mailboxSetcap => false
  | .mailboxTermlog => false
  | .mailboxSvnset => false
  | .mailboxSelftest => false
  | .powerOnReset => false
  | .selftestDone _ => false
  | .firmwareVerify _ => false
  | .configDone _ => false
  | .trip _ => false
  | .currentLimitStretch _ => false
  | .monitorRefresh _ _ => false
  | .barrierArrival _ => true
  | .storePerformed _ _ => true
  | .linkDown _ => false
  | .linkUp _ _ => false
  | .patrolScrub _ => false
  | .islandClockChange _ _ => false
  | .firmwareTerminate _ => true
  | .powerOff => false

def runMoveAny (m : Move) (s : State) : Out :=
  match m with
  | .issue ctx => issueCtx s ctx
  | .agentsStopped ctx => execAgentsStopped ctx s
  | .linkRetry port => execLinkRetry port s
  | .bar0Read offset len => execBar0Read offset len s
  | .loadReturn ctx reg => execLoadReturn ctx reg s
  | .icacheFill core line => execIcacheFill core line s
  | .cohortCompletion coh => execCohortCompletion coh s
  | .schedulerPass die => execSchedulerPass die s
  | .quantumExpiry coh => execQuantumExpiry coh s
  | .headWaitExpiry die level => execHeadWaitExpiry die level s
  | .cohortSaveComplete coh => execCohortSaveComplete coh s
  | .cohortRestoreComplete coh => execCohortRestoreComplete coh s
  | .parkTimeout ctx => execParkTimeout ctx s
  | .wakeArrival ctx => execWakeArrival ctx s
  | .vectorStart core => execVectorStart core s
  | .vectorComplete ctx => execVectorComplete ctx s
  | .partitionWindowCleared core base => execPartitionWindowCleared core base s
  | .configLoadStart core part => execConfigLoadStart core part s
  | .configReady core part => execConfigReady core part s
  | .configActivate core part => execConfigActivate core part s
  | .clearStart core part => execClearStart core part s
  | .clearComplete core part => execClearComplete core part s
  | .operandCommandStart core part => execOperandCommandStart core part s
  | .gangSetStart gang => execGangSetStart gang s
  | .foldBegin core part => execFoldBegin core part s
  | .foldLand core part => execFoldLand core part s
  | .pscanComplete core part => execPscanComplete core part s
  | .ptopkComplete core part => execPtopkComplete core part s
  | .drainStart core part => execDrainStart core part s
  | .drainComplete core part => execDrainComplete core part s
  | .configCacheFill die addr => execConfigCacheFill die addr s
  | .spcfgApply core => execSpcfgApply core s
  | .copyCommandStart core eng => execCopyCommandStart core eng s
  | .copyBeatLand core eng slot => execCopyBeatLand core eng slot s
  | .layoutUnitTake die => execLayoutUnitTake die s
  | .layoutUnitComplete die => execLayoutUnitComplete die s
  | .layoutUnitFault die => execLayoutUnitFault die s
  | .placeStart die => execPlaceStart die s
  | .placeComplete die => execPlaceComplete die s
  | .asyncTrapDeliver ctx => execAsyncTrapDeliver ctx s
  | .peerRequestReceive port req => execPeerRequestReceive port req s
  | .peerResponseReceive id resp => execPeerResponseReceive id resp s
  | .peerTimeout id => execPeerTimeout id s
  | .hostLaunchWindowWrite die offset data => execHostLaunchWindowWrite die offset data s
  | .launchWindowAccept die level => execLaunchWindowAccept die level s
  | .hostGateRead gate => execHostGateRead gate s
  | .hostGateWrite gate value => execHostGateWrite gate value s
  | .bar0RegisterWrite offset size value => execBar0RegisterWrite offset size value s
  | .hostBar2Read offset len => execHostBar2Read offset len s
  | .hostBar2Write offset data => execHostBar2Write offset data s
  | .mailboxLoad => execMailboxLoad s
  | .mailboxAttest => execMailboxAttest s
  | .mailboxSetcap => execMailboxSetcap s
  | .mailboxTermlog => execMailboxTermlog s
  | .mailboxSvnset => execMailboxSvnset s
  | .mailboxSelftest => execMailboxSelftest s
  | .powerOnReset => execPowerOnReset s
  | .selftestDone result => execSelftestDone result s
  | .firmwareVerify image => execFirmwareVerify image s
  | .configDone cfg => execConfigDone cfg s
  | .trip island => execTrip island s
  | .currentLimitStretch island => execCurrentLimitStretch island s
  | .monitorRefresh island sample => execMonitorRefresh island sample s
  | .barrierArrival ctx => execBarrierArrival ctx s
  | .storePerformed ctx index => execStorePerformed ctx index s
  | .linkDown port => execLinkDown port s
  | .linkUp port device => execLinkUp port device s
  | .patrolScrub target => execPatrolScrub target s
  | .islandClockChange island mhz => execIslandClockChange island mhz s
  | .firmwareTerminate coh => execFirmwareTerminate coh s
  | .powerOff => execPowerOff s

/-- The step that a move names; nothing where the module's state does not allow it. Without power only its return acts
(R539). -/
def runMove (m : Move) (s : State) : Out :=
  if (onlyReady m && s.modState != .ready) || (s.modState == .off && m != .powerOnReset) then ev s else runMoveAny m s

/-! ### The steps that may be enabled, each under a test that is cheap and that its own step repeats in full -/

def ctxMoves (s : State) (c : Nat) (x : Ctx) : List Move :=
  (match x.loading with | r :: _ => [.loadReturn c r] | [] => [])
  ++ (match nextReady x with | some e => if lateResult s e then [] else [.vectorComplete c] | none => [])
  ++ (if x.vq.isEmpty then [] else [.vectorStart (coreOfCtx c)])
  ++ (match x.out.findIdx? (fun a => a.peer.isNone) with | some i => [.storePerformed c i] | none => [])
  ++ (if x.wakesIn = 0 then [] else [.wakeArrival c])
  ++ (if x.baraIn.isSome then [.barrierArrival c] else [])
  ++ (if x.ending then [.agentsStopped c] else [])
  ++ (match x.parkEnd with | some t => if t ≤ s.clk then [.parkTimeout c] else [] | none => [])
  ++ (if (getCore s (coreOfCtx c)).faultq.any isAsync then [.asyncTrapDeliver c] else [])

/-- Folds that begin before the first of them lands, in a dense sweep that no bank stalls: the compute time T of R250
against the latency of R252. -/
def foldDepth (x : Part) : Nat :=
  match x.active with
  | none => 1
  | some y =>
    let v := setView y.bytes
    let gs := (enabled v).filter (fun g => !isCompare g)
    let t := gs.foldl (fun m g => Nat.max m ((depthOf v + lanesOf g - 1) / lanesOf g)) 1
    let cross (g : Group) : Nat := (x.qbase + g.firstq + g.nquad - 1) / 64 - (x.qbase + g.firstq) / 64
    let late := gs.foldl (fun m g => Nat.max m (cross g)) 0
    (t + 20 + late + t - 1) / t

/-- The steps of started operand commands: a fold begins before the oldest lands while fewer are in flight than the
latency covers. -/
def runMoves (k p : Nat) (x : Part) : List Move :=
  if x.runs.isEmpty then []
  else if (x.runs.flatMap (fun r => r.flight)).length < foldDepth x then
    [.foldBegin k p, .foldLand k p, .pscanComplete k p, .ptopkComplete k p]
  else [.foldLand k p, .pscanComplete k p, .ptopkComplete k p, .foldBegin k p]

/-- Commands of a partition that can start, and the steps of a shadow that holds its set. -/
def partStarts (k p : Nat) (x : Part) : List Move :=
  (match x.shadow with
   | .empty => if x.cfgq.isEmpty then [] else [.configLoadStart k p]
   | .loading _ none none => []
   | .loading _ _ _ => [.configReady k p]
   | .ready _ _ => [.configActivate k p])
  ++ (if x.drq.isEmpty then [] else [.clearStart k p, .drainStart k p])
  ++ (if x.opq.isEmpty then [] else [.operandCommandStart k p])

/-- The work of a partition's started commands. -/
def partMoves (k p : Nat) (x : Part) : List Move :=
  (match x.shadow with
   | .loading c none none =>
     (match c.op with | .load arg false => [.configCacheFill (dieOfCore k) (arg.toNat % 2 ^ 56)] | _ => [])
   | _ => [])
  ++ (if x.drRun.isSome then [.clearComplete k p, .drainComplete k p] else [])
  ++ runMoves k p x

/-- The active commands in rotation, from the one after the last served (R387). -/
def engineMoves (k e : Nat) (g : CopyEngine) : List Move :=
  (([1, 2, 3, 4].map (fun n => (g.beat + n) % 4)).filter (fun i => (tabFind g.active i).isSome)).map (.copyBeatLand k e)

/-- Commands of a core that can start. -/
def coreStarts (k : Nat) (q : Core) : List Move :=
  q.parts.flatMap (fun px => partStarts k px.1 px.2)
  ++ q.engines.flatMap (fun eg =>
    if eg.2.queues.isEmpty && (waitingRun eg.2).isNone then [] else [.copyCommandStart k eg.1])

def coreMoves (k : Nat) (q : Core) : List Move :=
  q.clearing.map (fun w => .partitionWindowCleared k w.1)
  ++ q.parts.flatMap (fun px => partMoves k px.1 px.2)
  ++ q.engines.flatMap (fun eg => engineMoves k eg.1 eg.2)
  ++ (if q.spcfgs.isEmpty then [] else [.spcfgApply k])

def schedMoves (d : Nat) (x : Die) : List Move :=
  (if x.passDue then [.schedulerPass d] else [])
  ++ (if x.placeq.isEmpty then [] else [.placeStart d])
  ++ x.window.map (fun r => .launchWindowAccept d (lrPrio r))

def dieMoves (d : Nat) (x : Die) : List Move :=
  (if x.unit.isSome then [.layoutUnitComplete d, .layoutUnitFault d]
      else if x.convs.isEmpty then [] else [.layoutUnitTake d])
  ++ (if x.placing.isSome then [.placeComplete d] else [])

def cohortMoves (s : State) (h : Nat) (x : Cohort) : List Move :=
  [.cohortCompletion h, .cohortSaveComplete h, .cohortRestoreComplete h, .quantumExpiry h]
  ++ (if !x.headExpired && headWaited s h then [.headWaitExpiry (handleDie h) (lrPrio x.lrec)] else [])

/-- Steps that follow an instruction at once: a context's own accesses and vector queue, the start of a command, the
schedulers. -/
def quickMoves (s : State) : List Move :=
  s.ctxs.flatMap (fun cx => ctxMoves s cx.1 cx.2)
  ++ s.cores.flatMap (fun kq => coreStarts kq.1 kq.2)
  ++ s.gangs.map (fun g => .gangSetStart g.1)
  ++ s.peers.map (fun p => .peerTimeout p.1)
  ++ s.dies.flatMap (fun dx => schedMoves dx.1 dx.2)
  ++ s.cohorts.flatMap (fun hx => cohortMoves s hx.1 hx.2)

/-- Units of work of the engines: pool, copy engines, layout engine, composer. -/
def engineWork (s : State) : List Move :=
  s.ctxs.flatMap (fun cx => match nextReady cx.2 with | some e => if lateResult s e then [.vectorComplete cx.1] else [] | none => [])
  ++ s.cores.flatMap (fun kq => coreMoves kq.1 kq.2)
  ++ s.dies.flatMap (fun dx => dieMoves dx.1 dx.2)

/-- Requests in the mailbox, in any state of the module (R543). -/
def mailMoves (s : State) : List Move :=
  if s.mbBusy && s.modState != .off then [.mailboxLoad, .mailboxAttest, .mailboxSetcap, .mailboxTermlog, .mailboxSvnset, .mailboxSelftest]
  else []

/-- The state after a move, if the move does something. -/
def progress (s : State) (m : Move) : Option State :=
  match runMove m s with
  | .next t => if t = s then none else some t
  | _ => none

def firstStep (s : State) (ms : List Move) : Option State := ms.findSome? (progress s)

/-- The engines notice their work 64 clk after it appears, and do a unit of it every 2 clk while contexts issue. -/
def engineStart : Nat := 64
def engineGap : Nat := 2

/-- A context's turn: a halt, an issue, or nothing. -/
def ctxTurn (s : State) : Option Out :=
  match (tabKeys s.ctxs).find? (haltDue s) with
  | some c => some (.next (haltCtx s c))
  | none => nextTurn s

/-- A unit of the engines' work. -/
def engineStep (s : State) : Option State :=
  (firstStep s (engineWork s)).map (fun t => { t with pace := some (t.clk + engineGap) })

/-- In READY with no quick step: the engines when their time has come, else a context, else the engines (logs 4, 5). -/
def readyStep (s : State) : Out :=
  let due := match s.pace with | some t => decide (t ≤ s.clk) | none => false
  match if due then engineStep s else none with
  | some t => .next t
  | none =>
    let s1 := { s with pace := if (engineWork s).isEmpty then none
                               else match s.pace with | none => some (s.clk + engineStart) | some t => some t }
    match ctxTurn s1 with
    | some o => o
    | none => match engineStep s1 with | some t => .next t | none => .next s1

/-- A step with no input: an agent, a halt, a context, or time alone. -/
def autoStep (s : State) : Out :=
  match firstStep s (mailMoves s ++ (if s.modState = .ready then quickMoves s else [])) with
  | some t => .next t
  | none =>
    if s.modState = .reset then .next (bumpSeq { s with modState := .selftest })
    else if s.modState ≠ .ready then ev s
    else readyStep s

/-- Each step takes one period of the clock (log 5). -/
def tick (o : Out) : Out :=
  match o with
  | .next t => .next { t with clk := t.clk + 1 }
  | .fault f => .fault f
  | .refused r => .refused r

/-! ## Placing a program (log 16) -/

/-- A page table of three levels for addresses below 2^34, mapped to themselves with every right (R310, R311): the
entries at physical 0x1000, 0x2000 and 0x3000. -/
def bootTables : List (Nat × Nat) := [(0x1000, 0x2001), (0x2000, 0x3001), (0x3000, 0x43F)]

/-- Where the program lies. -/
def bootPc : Nat := 0x10000

/-- The launch record of the program's cohort: supervisor, one context, every counter, the whole scratchpad. -/
def bootRec : LaunchRec where
  entry := w64 bootPc
  stack := 0
  argp := 0
  lctl := 1
  lres := w64 (1 + 1 * 2 ^ 24 + 1024 * 2 ^ 41)
  cmask := 0xFFFFFFFF
  sel0 := 0
  sel1 := 0

def bootCohort (n now : Nat) : Cohort :=
  { cohortNew bootRec n 0x1000 0 with st := .placed, placedAt := now, seats := [⟨0, [0], 0, 0⟩] }

def bootCtx (h : Nat) : Ctx :=
  { ctxReset with
    phase := .running, coh := some h, sv := true, pc := w64 bootPc, g := [(5, 1)]
    cr := [(crEntrypc, w64 bootPc), (crSpLimit, 4194304), (crXspace, 0x1000), (crExctl, 1)] }

/-- The words `v` at the program's address, the tables, and the line of the program in the cache of core 0. -/
def bootMemory (s : State) (v : Nat) : State :=
  let m0 := bootTables.foldl (fun m e => memWriteLe m e.1 8 e.2) s.hbm
  fillLine { s with hbm := memWriteLe m0 bootPc 16 v } 0 (bootPc / 64)

/-- The program's cohort, with the next acceptance number of die 0 as its handle (R164), placed on context 0 of core 0,
which issues next. -/
def bootProgram (s : State) (v : Nat) : State :=
  let s1 := bootMemory s v
  let s2 := modCore s1 0 (fun q => { q with out := false, tlb := [], last := 3 })
  let s3 := modDie s2 0 (fun x => { x with tlb := [] })
  let n := nextAcc s3 0
  let s4 := putCohort (putCtx n.2 0 (bootCtx n.1)) n.1 (bootCohort n.1 s.clk)
  { s4 with
    modState := .ready
    inputs := [.issue 0]
    badHbm := s.badHbm.filter (fun u => decide (0x400 < u))
    withheld := (s.withheld.map (fun r => (Nat.max r.1 0x11, r.1 + r.2 - Nat.max r.1 0x11))).filter (fun r => r.2 != 0)
    stacksOut := s.stacksOut &&& 0xFE }

end Sys2Proof.Machine
end

