-- ==== Sys2Proof/Machine/Step.lean ====
section
/-!
DEFINITION. One step of the package, and the state in which a given word is the next instruction.
-/
namespace Sys2Proof.Machine

/-- The next input if there is one, else what the package does by itself; a period of the clock passes (logs 4, 5). -/
def step (s : State) : Host.Outcome State Fault Refusal :=
  match s.inputs with
  | m :: rest => tick (runMove m { s with inputs := rest })
  | [] => tick (autoStep s)

/-- The program is the one instruction of `w` (log 16). -/
def State.withFetchWord (s : State) (nbits w : Nat) : State := bootProgram s (w % 2 ^ nbits)

end Sys2Proof.Machine
end

