-- ==== Sys2Proof/Safety.lean ====
section
/-!
DEFINITION. What claims say of runs: the states that are in canonical form, when the body of an instruction runs, what
a step may leave unchanged, and the sets of instructions that a claim names together.
-/
namespace Sys2Proof.Machine

/-! ## Invariants -/

/-- Every byte memory is in its canonical form: device memory, host memory, each core's scratchpad. -/
def memOk (s : State) : Bool :=
  memWf s.hbm && memWf s.hostMem && s.cores.all (fun kq => memWf kq.2.spad)

/-- Every core's bank grouping, and one that waits, is one of R301. -/
def groupsOk (s : State) : Bool :=
  s.cores.all (fun kq => decide (kq.2.spmapG ≤ 5) && kq.2.spcfgs.all (fun e => decide (e.2 ≤ 5)))

/-! ## When the body of an instruction runs (R33-R35, R44) -/

/-- The counter that the wait field names is the cohort's own, is not faulted and reads zero. -/
def waitDone (s : State) (h : Hdr) : Bool :=
  !h.wten || (ownsCounter s s.cur h.wtcnt.toNat && !(getCounter s (myCore s) h.wtcnt.toNat).faulted
    && (getCounter s (myCore s) h.wtcnt.toNat).value == 0)

/-- The executing context is not inside an instruction of its own, has the privilege, its wait field is satisfied, its
operands are ready and its guard is true. `sup`: the instruction is privileged. -/
def bodyRuns (s : State) (h : Hdr) (sup : Bool) (reads writes : List (BitVec 6)) : Bool :=
  !ctxBlocked (me s) && (!sup || (me s).sv) && waitDone s h && operandsReady (me s) reads writes && guardRuns s h

/-- No register of the executing context awaits a result. -/
def nothingPending (s : State) : Bool := (me s).loading.isEmpty && (me s).vq.isEmpty && (me s).vrun.isEmpty

/-- The state after the executing context's instruction of `len` bytes, whose body left the state t, has retired (R33). -/
def retired (s : State) (len : Nat) (t : State) : State := retireNext (me s) s.cur len t

/-- The same for a taken transfer to `target`, which changes CDEPTH by `depth` (R37, R121, R495). -/
def redirected (s t : State) (target : Word) (depth : BitVec 32) : State := retireJump (me s) s.cur target depth t

/-- The state after a precise fault of the executing context's instruction (R469). -/
def faulted (s t : State) (r : FaultRec) : State := raiseFault t s.cur r (me s).pc

/-- A PDRAIN whose RM is 6 or 7: an illegal encoding (R56, R87, R287). -/
def rmReserved (i : Instr) : Bool :=
  match i with
  | .pdrain _ _ _ _ _ _ rm _ _ _ => decide (6 ≤ rm.toNat)
  | _ => false

/-- A trap of context c enters its handler: traps are not inhibited and a handler is set (R470). -/
def handlerReady (s : State) (c : Nat) : Bool := !estatInh (getCtx s c) && addrField (ctxCr (getCtx s c) crTvec) != 0

/-- No step trap follows the next instruction of the executing context (R495). -/
def noStep (s : State) : Bool := !dbgSs (me s)

/-- Neither hardware loop is active (R36). -/
def noLoop (x : Ctx) : Bool := !loopAct x 0 && !loopAct x 1

/-- The first context in the order of the cores' pointers that does something in its turn (R155, log 5). -/
def firstToAct (s : State) : Option Nat :=
  (((coreRing s).flatMap (slotOrder s)).filter (ctxReady s)).find? (fun c => (ctxTry s c).isSome)

/-! ## Rounding (R77, R79, R88) -/

/-- A floating format's code, its precision and least exponent, and its largest finite value topN * 2^topExp. -/
structure RoundingRow where
  code   : Nat
  p      : Nat
  emin   : Int
  topN   : Nat
  topExp : Int
  deriving DecidableEq, Repr

/-- FP64, FP32, BF16, FP16, E4M3, E5M2, E2M3, E3M2 and E2M1, from the tables of R74, R77, R79 and R88. -/
def roundingTable : List RoundingRow := [
  ⟨0x10, 53, -1022, 2 ^ 53 - 1, 971⟩, ⟨0x11, 24, -126, 2 ^ 24 - 1, 104⟩, ⟨0x12, 8, -126, 255, 120⟩,
  ⟨0x13, 11, -14, 2047, 5⟩, ⟨0x14, 4, -6, 7, 6⟩, ⟨0x15, 3, -14, 7, 13⟩, ⟨0x16, 4, 0, 15, -1⟩,
  ⟨0x17, 3, -2, 7, 2⟩, ⟨0x18, 2, 0, 3, 1⟩]

/-! ## Combining lanes (R210, R211) -/

/-- One combination of R210, x the first operand. -/
def combine (op : Nat) (m : Rnd) (x y : Nat) : Nat × Exc :=
  let less : Bool := (BitVec.ofNat 32 y).slt (BitVec.ofNat 32 x)
  match op with
  | 0 => ((x + y) % 2 ^ 32, excNone)
  | 1 => (x &&& y, excNone)
  | 2 => (x ||| y, excNone)
  | 3 => (x ^^^ y, excNone)
  | 4 => (if less then y else x, excNone)
  | 5 => (if less then x else y, excNone)
  | 6 => (min x y, excNone)
  | 7 => (max x y, excNone)
  | 8 => fpAdd 0x11 (widen 0x11 x) (widen 0x11 y) m
  | 9 => fpMinMax 0x11 false x y
  | _ => fpMinMax 0x11 true x y

/-- The identities of R210. -/
def combineIdentity (op : Nat) : Nat :=
  [0, 0xFFFFFFFF, 0, 0, 0x7FFFFFFF, 0x80000000, 0xFFFFFFFF, 0, 0, 0x7F800000, 0xFF800000].getD op 0

/-- Node i of a level of the tree of R211, with the exceptions raised beneath it; none where no leaf is present. -/
def treeNode (f : Nat → Nat → Nat × Exc) (leaf : Nat → Option (Nat × Exc)) : (level i : Nat) → Option (Nat × Exc)
  | 0, i => leaf i
  | n + 1, i =>
    match treeNode f leaf n (2 * i), treeNode f leaf n (2 * i + 1) with
    | some l, some r => some ((f l.1 r.1).1, excJoin (excJoin l.2 r.2) (f l.1 r.1).2)
    | some l, none => some l
    | none, r => r

/-! ## What may stay unchanged -/

/-- The bytes of every memory, and the accumulator entries, read as before. -/
def SameMemory (s t : State) : Prop := ∀ (l : Loc) (i : Nat), locByte t l i = locByte s l i

/-- Place m's byte i is one of the n bytes of place l. -/
def locCovers (l : Loc) (n : Nat) (m : Loc) (i : Nat) : Bool :=
  match l, m with
  | .mem a, .mem b => decide (a ≤ b + i) && decide (b + i < a + n)
  | .spad k a, .spad j b => k == j && decide (a ≤ b + i) && decide (b + i < a + n)
  | .acc k a, .acc j b => k == j && decide (a ≤ b + i) && decide (b + i < a + n)
  | .host a, .host b => decide (a ≤ b + i) && decide (b + i < a + n)
  | _, _ => false

/-- Every context but the executing one is as before. -/
def OthersSame (s t : State) : Prop := ∀ c, c ≠ s.cur → getCtx t c = getCtx s c

/-- General registers as before, but for those of a list. -/
def GeneralSame (x y : Ctx) (ds : List (BitVec 6)) : Prop :=
  ∀ r : BitVec 6, r ∉ ds → ctxG y r.toNat = ctxG x r.toNat

/-- Predicates as before, but for those of a list. -/
def PredsSame (x y : Ctx) (ps : List (BitVec 3)) : Prop := ∀ r : BitVec 3, r ∉ ps → ctxP y r.toNat = ctxP x r.toNat

/-- Vector registers and lane masks as before. -/
def VectorsSame (x y : Ctx) : Prop := (∀ r, ctxV y r = ctxV x r) ∧ ∀ r, ctxM y r = ctxM x r

/-- The control registers that taking a trap writes: EPC, ESTAT, DBGCTL, FREC0-FREC7 (R470). -/
def trapCrs : List Nat := [crEpc, crEstat, crDbgctl] ++ (List.range 8).map crFrec

/-- The control registers that retirement writes: RETIRED, the loops' counts and LPCTL, DBGCTL (R33, R36, R494). -/
def retireCrs : List Nat := [crRetired, crLpcount 0, crLpcount 1, crLpctl, crDbgctl]

/-- Control registers held by the context as before, but for those of a list. -/
def CrsSame (x y : Ctx) (ns : List Nat) : Prop := ∀ n, n ∉ ns → ctxCr y n = ctxCr x n

/-! ## Shapes that several claims share -/

/-- An instruction's read of n bytes at p meets no fault and goes to no other module: the state with translations
entered, and the bytes (R125). -/
def recordRead (s : State) (p : Word) (n : Nat) : Option (State × List Byte) :=
  match checkAccess s (whoMe s) p n .load false with
  | .ok (.peer _ _, _) => none
  | .ok (l, u) => if locBad u l n || (breakBytes u (ptrList p n) false).isSome then none else some (u, locBytes u l n)
  | .error _ => none

/-- Entry e is the head of context c's queue, c is the next of its core in the vector unit's rotation, and no
instruction of it is in flight. -/
def vecTurn (s : State) (c : Nat) (e : VEntry) (rest : List VEntry) : Prop :=
  c < 512 ∧ 4 * (c / 4) + ((getCore s (c / 4)).vlast + 1) % 4 = c ∧ (getCtx s c).vq = e :: rest ∧
  (getCtx s c).vrun = [] ∧ e.blocks = false

/-- Vector register d has the low 32 bits of f j in every active lane j, and what ZI says in the others; the other
vector registers are as before (R194). -/
def lanesBecome (x y : Ctx) (d : BitVec 5) (msk : BitVec 3) (zi : Bool) (f : Nat → Int) : Prop :=
  (∀ j, j < 64 → (lane (ctxV y d.toNat) j : Int) =
    (if (ctxM x msk.toNat).getLsbD j then f j % (2 : Int) ^ 32 else if zi then 0 else lane (ctxV x d.toNat) j)) ∧
  ∀ r, r ≠ d.toNat → ctxV y r = ctxV x r

/-- A queue of a partition, as R225 numbers them. -/
def queueNo (q : PoolQueue) : Nat := match q with | .config => 4 | .operand => 5 | .drain => 6

/-- An instruction that plans a pool command: with room on its queue and a counter that takes the contribution, it
retires with the command at the tail of that queue and its counter 1 higher; the other queues of the partition, and
every memory, are as before. -/
def commandQueues (s : State) (i : Instr) (e : CmdCtl) (q : PoolQueue) (plan : State → Part → Except Bad PoolOp) : Prop :=
  ∀ (p : Nat) (x : Part) (op : PoolOp), boundPart s = some (p, x) → queueFull x q = false → (poolReaches op = true → coreHeld s s.cur = false) →
    plan s x = .ok op → (e.cnten = true → ownsCounter s s.cur e.cnt.toNat = true) →
    (e.cnten = true → (getCounter s (myCore s) e.cnt.toNat).value + 1 < 2 ^ 40) →
    ∃ (u : State) (y : Part) (c : PoolCmd), exec i s = .next (retired s 8 u) ∧ getPart u (myCore s) p = some y ∧
      poolQueue y (queueNo q) = poolQueue x (queueNo q) ++ [c] ∧
      (∀ r, r ≠ q → poolQueue y (queueNo r) = poolQueue x (queueNo r)) ∧
      c.op = op ∧ c.ctx = s.cur ∧ c.cnt = (if e.cnten then some e.cnt.toNat else none) ∧
      (e.cnten = true →
        (getCounter u (myCore s) e.cnt.toNat).value = (getCounter s (myCore s) e.cnt.toNat).value + 1) ∧
      SameMemory s u ∧ GeneralSame (me s) (me u) []

/-- Pieces of a destination of bytes, one after another from its n-th byte to its end, with the bytes that belong there. -/
def piecesStand (dst len : Nat) (byte : Nat → Byte) : (n : Nat) → List Work → Prop
  | n, [] => n = len
  | n, u :: us => u.n = 0 ∧ u.part = 0 ∧ u.bytes ≠ [] ∧ u.dst = spadPtr (dst + n) ∧
      (∀ i, i < u.bytes.length → u.bytes.getD i 0 = byte (n + i)) ∧ piecesStand dst len byte (n + u.bytes.length) us

/-- A run has landed n bytes of its destination: it is at a boundary of its units and has read nothing ahead, or it has
read its whole source and holds the rest, at the end of a chunk, with less than a word kept back (R387, log 88). -/
def copyStands (r : CopyRun) (dst len : Nat) (byte : Nat → Byte) (n : Nat) : Prop :=
  if r.loaded then wordWise r.cmd = false ∧ r.bad = none ∧ r.bits % 32768 = 0 ∧
    ((r.kept.map (fun u => u.bytes.length)).foldl (· + ·) 0) ≤ 3 ∧ piecesStand dst len byte n (r.kept ++ r.works)
  else r.unit = 0 ∧ r.pos = n ∧ r.works = [] ∧ r.kept = [] ∧ (wordWise r.cmd = false → n = 0 ∧ r.bits % 32768 = 0)

/-- An instruction that plans a copy command: with room on its queue it retires with the command at the tail, and the
counter risen by its contribution; every memory is as before. -/
def copyQueues (s : State) (i : Instr) (cnt : BitVec 5) (eng : Bool) (m : CopyMods) (reply : Bool)
    (plan : State → Except Bad Planned) : Prop :=
  let e := if eng then 1 else 0
  let k := myCore s
  let ts := mcTargets s m.mc
  ∀ (p : Planned), (tabGet [] (getEngine s k e).queues s.cur).length < 8 →
    (∀ c : CopyCmd, c.op = p.op → c.targets = ts → heldElsewhere s k c = false) → (reply = true → (me s).replies.length < 16) →
    ownsCounter s s.cur cnt.toNat = true → plan s = .ok p →
    (if m.mc then mcRangeFail s ts p.dsts else rangesFail s (whoMe s) p.dsts) = none → rangesFail s (whoMe s) p.srcs = none →
    let size := if m.mc then p.size * ts.length else p.size
    (getCounter s k cnt.toNat).value + size < 2 ^ 40 →
    ∃ (u : State) (c : CopyCmd), exec i s = .next (retired s 8 u) ∧
      tabGet [] (getEngine u k e).queues s.cur = tabGet [] (getEngine s k e).queues s.cur ++ [c] ∧
      c.op = p.op ∧ c.size = size ∧ c.ctx = s.cur ∧ c.cnt = cnt.toNat ∧ c.targets = ts ∧ c.record = p.record ∧
      (getCounter u k cnt.toNat).value = (getCounter s k cnt.toNat).value + size ∧
      (∀ d, d ≠ e → getEngine u k d = getEngine s k d) ∧ SameMemory s u ∧ GeneralSame (me s) (me u) []

/-! ## Sets of instructions -/

/-- The guard and wait fields of an instruction; the agents' steps have none. -/
def hdrOf (i : Instr) : Option Hdr :=
  match i with
  | .add h _ _ _ => some h
  | .sub h _ _ _ => some h
  | .mul h _ _ _ => some h
  | .mulh h _ _ _ => some h
  | .mulhu h _ _ _ => some h
  | .mulhsu h _ _ _ => some h
  | .div h _ _ _ => some h
  | .divu h _ _ _ => some h
  | .rem h _ _ _ => some h
  | .remu h _ _ _ => some h
  | .and h _ _ _ => some h
  | .or h _ _ _ => some h
  | .xor h _ _ _ => some h
  | .andn h _ _ _ => some h
  | .orn h _ _ _ => some h
  | .xnor h _ _ _ => some h
  | .shl h _ _ _ => some h
  | .shr h _ _ _ => some h
  | .sar h _ _ _ => some h
  | .rol h _ _ _ => some h
  | .ror h _ _ _ => some h
  | .min h _ _ _ => some h
  | .max h _ _ _ => some h
  | .minu h _ _ _ => some h
  | .maxu h _ _ _ => some h
  | .clz h _ _ _ => some h
  | .ctz h _ _ _ => some h
  | .popc h _ _ _ => some h
  | .brev h _ _ _ => some h
  | .bswap h _ _ _ => some h
  | .exts h _ _ _ => some h
  | .extz h _ _ _ => some h
  | .bfx h _ _ _ _ => some h
  | .bfi h _ _ _ _ _ => some h
  | .sel h _ _ _ _ => some h
  | .lea h _ _ _ _ _ => some h
  | .addi h _ _ _ => some h
  | .muli h _ _ _ => some h
  | .andi h _ _ _ => some h
  | .ori h _ _ _ => some h
  | .xori h _ _ _ => some h
  | .shli h _ _ _ => some h
  | .shri h _ _ _ => some h
  | .sari h _ _ _ => some h
  | .movi h _ _ => some h
  | .movhi h _ _ _ => some h
  | .cmp h _ _ _ _ => some h
  | .test h _ _ _ _ => some h
  | .pand h _ _ _ _ _ => some h
  | .por h _ _ _ _ _ => some h
  | .pxor h _ _ _ _ _ => some h
  | .pnot h _ _ => some h
  | .pmov h _ _ => some h
  | .cmpi h _ _ _ _ => some h
  | .br h _ => some h
  | .call h _ _ => some h
  | .jmpr h _ => some h
  | .callr h _ _ => some h
  | .ret h _ => some h
  | .loop h _ _ _ => some h
  | .ld h _ _ _ _ _ _ _ => some h
  | .pref h _ _ _ => some h
  | .st h _ _ _ _ _ _ => some h
  | .amoSwap h _ _ _ _ _ => some h
  | .amoAdd h _ _ _ _ _ => some h
  | .amoAnd h _ _ _ _ _ => some h
  | .amoOr h _ _ _ _ _ => some h
  | .amoXor h _ _ _ _ _ => some h
  | .amoMin h _ _ _ _ _ => some h
  | .amoMax h _ _ _ _ _ => some h
  | .amoMinu h _ _ _ _ _ => some h
  | .amoMaxu h _ _ _ _ _ => some h
  | .amocas h _ _ _ _ _ _ => some h
  | .amofadd h _ _ _ _ _ => some h
  | .fadd h _ _ _ _ _ => some h
  | .fsub h _ _ _ _ _ => some h
  | .fmul h _ _ _ _ _ => some h
  | .ffma h _ _ _ _ _ _ => some h
  | .fdiv h _ _ _ _ _ => some h
  | .fsqrt h _ _ _ _ => some h
  | .fmin h _ _ _ _ => some h
  | .fmax h _ _ _ _ => some h
  | .fcmp h _ _ _ _ _ => some h
  | .fclass h _ _ _ => some h
  | .fsgn h _ _ _ _ _ => some h
  | .fcvt h _ _ _ _ _ => some h
  | .fcvti h _ _ _ _ _ => some h
  | .icvtf h _ _ _ _ _ => some h
  | .nop h => some h
  | .crd h _ _ => some h
  | .cwr h _ _ => some h
  | .halt h => some h
  | .trap h _ => some h
  | .eret h => some h
  | .brk h _ => some h
  | .movx h _ _ => some h
  | .brx h _ _ => some h
  | .brxRel h _ _ => some h
  | .launch h _ _ => some h
  | .exit h => some h
  | .yieldI h _ => some h
  | .park h _ _ => some h
  | .wake h _ => some h
  | .cset h _ _ => some h
  | .cadd h _ _ => some h
  | .cwait h _ _ => some h
  | .crdc h _ _ => some h
  | .barinit h _ _ => some h
  | .bara h _ _ => some h
  | .barw h _ _ => some h
  | .gset h _ _ => some h
  | .gadd h _ _ _ => some h
  | .grd h _ _ => some h
  | .fence h _ _ => some h
  | .vadd h _ _ _ _ _ _ _ => some h
  | .vsub h _ _ _ _ _ _ _ => some h
  | .vmul h _ _ _ _ _ _ _ => some h
  | .vfma h _ _ _ _ _ _ _ _ => some h
  | .vdiv h _ _ _ _ _ _ _ => some h
  | .vsqrt h _ _ _ _ _ => some h
  | .vrcp h _ _ _ _ => some h
  | .vrsq h _ _ _ _ => some h
  | .vmin h _ _ _ _ _ _ => some h
  | .vmax h _ _ _ _ _ _ => some h
  | .vsgn h _ _ _ _ _ _ _ => some h
  | .vexp2 h _ _ _ _ => some h
  | .vlog2 h _ _ _ _ => some h
  | .vsin h _ _ _ _ => some h
  | .vcos h _ _ _ _ => some h
  | .vsinpi h _ _ _ _ => some h
  | .vcospi h _ _ _ _ => some h
  | .viadd h _ _ _ _ _ _ _ _ => some h
  | .visub h _ _ _ _ _ _ _ _ => some h
  | .vimul h _ _ _ _ _ _ _ _ => some h
  | .vand h _ _ _ _ _ _ => some h
  | .vor h _ _ _ _ _ _ => some h
  | .vxor h _ _ _ _ _ _ => some h
  | .vshl h _ _ _ _ _ _ => some h
  | .vshr h _ _ _ _ _ _ => some h
  | .vsar h _ _ _ _ _ _ => some h
  | .vimin h _ _ _ _ _ _ _ => some h
  | .vimax h _ _ _ _ _ _ _ => some h
  | .vpopc h _ _ _ _ => some h
  | .vclmul h _ _ _ _ _ _ _ => some h
  | .vcvt h _ _ _ _ _ _ _ _ => some h
  | .vcmp h _ _ _ _ _ _ _ => some h
  | .vicmp h _ _ _ _ _ _ _ => some h
  | .mand h _ _ _ _ _ => some h
  | .mor h _ _ _ _ _ => some h
  | .mxor h _ _ _ _ _ => some h
  | .mnot h _ _ => some h
  | .mpopc h _ _ => some h
  | .vmovVector h _ _ _ _ => some h
  | .vmovLaneToGeneral h _ _ _ => some h
  | .vmovGeneralToLane h _ _ _ => some h
  | .vmovGeneralToMask h _ _ => some h
  | .vmovMaskToGeneral h _ _ => some h
  | .vbcast h _ _ _ _ _ _ => some h
  | .vext h _ _ _ _ _ _ => some h
  | .vperm h _ _ _ _ _ _ _ => some h
  | .vpswap h _ _ _ _ _ _ => some h
  | .vslide h _ _ _ _ _ _ _ => some h
  | .vcompress h _ _ _ _ => some h
  | .vexpand h _ _ _ _ => some h
  | .vsel h _ _ _ _ => some h
  | .viota h _ _ _ _ => some h
  | .vred h _ _ _ _ _ => some h
  | .vscan h _ _ _ _ _ _ => some h
  | .vscanExcl h _ _ _ _ _ _ => some h
  | .vld h _ _ _ _ _ _ _ _ => some h
  | .vst h _ _ _ _ _ _ _ _ => some h
  | .vgath h _ _ _ _ _ _ _ _ => some h
  | .vscat h _ _ _ _ _ _ _ _ => some h
  | .vscatAdd h _ _ _ _ _ _ _ _ => some h
  | .vscatIadd h _ _ _ _ _ _ _ _ => some h
  | .vscatImin h _ _ _ _ _ _ _ _ => some h
  | .vscatImax h _ _ _ _ _ _ _ _ => some h
  | .vconfl h _ _ _ _ _ => some h
  | .vcomb h _ _ _ _ _ _ _ => some h
  | .rpop h _ _ _ => some h
  | .qflush h _ _ => some h
  | .qstat h _ _ => some h
  | .frpop h _ _ => some h
  | .ppart h _ _ _ => some h
  | .ppartRel h => some h
  | .pcfg h _ _ => some h
  | .pcfgPlc h _ _ => some h
  | .pclr h _ _ _ => some h
  | .pexcReadCounters h _ _ _ => some h
  | .psweep h _ _ _ _ _ => some h
  | .psweeps h _ _ _ _ _ => some h
  | .pscan h _ _ _ => some h
  | .ptopk h _ _ _ _ _ => some h
  | .pdrain h _ _ _ _ _ _ _ _ _ => some h
  | .pprog h _ => some h
  | .pstat h _ _ => some h
  | .spcfg h _ => some h
  | .treg h _ _ _ => some h
  | .trel h _ => some h
  | .tinfo h _ _ _ => some h
  | .taddr h _ _ _ _ => some h
  | .tld h _ _ _ _ _ _ => some h
  | .tst h _ _ _ _ _ _ _ _ => some h
  | .vldt h _ _ _ _ _ _ _ _ => some h
  | .vstt h _ _ _ _ _ _ _ _ _ _ => some h
  | .cpy h _ _ _ _ _ _ _ _ _ _ => some h
  | .cpy2 h _ _ _ _ _ _ _ _ _ _ _ => some h
  | .cfill h _ _ _ _ _ _ _ _ => some h
  | .echk h _ _ => some h
  | .cpyt h _ _ _ _ _ _ _ _ _ _ _ => some h
  | .cpyts h _ _ _ _ _ _ _ _ _ _ => some h
  | .cpyg h _ _ _ _ _ _ _ _ => some h
  | .cpyr h _ _ _ _ _ _ _ _ _ _ => some h
  | .cpys h _ _ _ _ _ _ _ _ _ _ => some h
  | .relayout h _ _ _ _ _ _ => some h
  | .relayoutResRetry h _ _ => some h
  | .tstat h _ _ _ => some h
  | .tsync h _ => some h
  | .rbsetClr h _ _ => some h
  | .rbsetSet h _ _ _ => some h
  | .rbsetUnset h _ _ _ => some h
  | .rbsetSetV h _ _ _ _ _ => some h
  | .rbsetUnsetV h _ _ _ _ _ => some h
  | .ridx h _ _ _ => some h
  | .rrank h _ _ _ _ _ => some h
  | .rrankV h _ _ _ _ _ _ _ => some h
  | .rsel h _ _ _ _ _ => some h
  | .rselV h _ _ _ _ _ _ _ => some h
  | .rhist h _ _ _ _ => some h
  | .place h _ _ _ _ _ _ => some h
  | .ctxsave h _ _ => some h
  | .ctxload h _ _ => some h
  | .tlbinvAddress h _ _ => some h
  | .preemptStatus h _ _ _ => some h
  | .lcfgGang h _ _ _ => some h
  | .lcfgUngang h => some h
  | .lcfgWset h _ _ => some h
  | .lcfgWclr h _ => some h
  | .lstat h _ _ => some h
  | .pexcReadThresholds h _ _ _ => some h
  | .pexcSetThresholds h _ _ _ => some h
  | .pexcReadClearCounters h _ _ _ => some h
  | .pexcSetDitherPhase h _ _ _ => some h
  | .pexcResume h _ _ _ => some h
  | .relayoutResAbandon h _ _ => some h
  | .tlbinvAsid h _ _ => some h
  | .tlbinvAll h _ _ => some h
  | .preemptStop h _ _ _ => some h
  | .preemptHalt h _ _ _ => some h
  | .preemptResume h _ _ _ => some h
  | .preemptTerminate h _ _ _ => some h
  | .loadReturn _ _ => none
  | .icacheFill _ _ => none
  | .cohortCompletion _ => none
  | .schedulerPass _ => none
  | .quantumExpiry _ => none
  | .headWaitExpiry _ _ => none
  | .cohortSaveComplete _ => none
  | .cohortRestoreComplete _ => none
  | .parkTimeout _ => none
  | .wakeArrival _ => none
  | .vectorStart _ => none
  | .vectorComplete _ => none
  | .partitionWindowCleared _ _ => none
  | .configLoadStart _ _ => none
  | .configReady _ _ => none
  | .configActivate _ _ => none
  | .clearStart _ _ => none
  | .clearComplete _ _ => none
  | .operandCommandStart _ _ => none
  | .gangSetStart _ => none
  | .foldBegin _ _ => none
  | .foldLand _ _ => none
  | .pscanComplete _ _ => none
  | .ptopkComplete _ _ => none
  | .drainStart _ _ => none
  | .drainComplete _ _ => none
  | .configCacheFill _ _ => none
  | .spcfgApply _ => none
  | .copyCommandStart _ _ => none
  | .copyBeatLand _ _ _ => none
  | .layoutUnitTake _ => none
  | .layoutUnitComplete _ => none
  | .layoutUnitFault _ => none
  | .placeStart _ => none
  | .placeComplete _ => none
  | .asyncTrapDeliver _ => none
  | .peerRequestReceive _ _ => none
  | .peerResponseReceive _ _ => none
  | .peerTimeout _ => none
  | .hostLaunchWindowWrite _ _ _ => none
  | .launchWindowAccept _ _ => none
  | .hostGateRead _ => none
  | .hostGateWrite _ _ => none
  | .bar0RegisterWrite _ _ _ => none
  | .hostBar2Read _ _ => none
  | .hostBar2Write _ _ => none
  | .mailboxLoad => none
  | .mailboxAttest => none
  | .mailboxSetcap => none
  | .mailboxTermlog => none
  | .mailboxSvnset => none
  | .mailboxSelftest => none
  | .powerOnReset => none
  | .selftestDone _ => none
  | .firmwareVerify _ => none
  | .configDone _ => none
  | .trip _ => none
  | .currentLimitStretch _ => none
  | .monitorRefresh _ _ => none
  | .barrierArrival _ => none
  | .storePerformed _ _ => none
  | .linkDown _ => none
  | .linkUp _ _ => none
  | .patrolScrub _ => none
  | .islandClockChange _ _ => none
  | .firmwareTerminate _ => none
  | .powerOff => none

/-- Instructions that user mode may not execute (R24): the privileged ones, and CRD and CWR of 0x100-0x1FF. -/
def supOnly (i : Instr) : Bool :=
  match i with
  | .halt _ => true
  | .eret _ => true
  | .spcfg _ _ => true
  | .treg _ _ _ _ => true
  | .trel _ _ => true
  | .relayoutResRetry _ _ _ => true
  | .ctxsave _ _ _ => true
  | .ctxload _ _ _ => true
  | .tlbinvAddress _ _ _ => true
  | .preemptStatus _ _ _ _ => true
  | .lcfgWset _ _ _ => true
  | .lcfgWclr _ _ => true
  | .relayoutResAbandon _ _ _ => true
  | .tlbinvAsid _ _ _ => true
  | .tlbinvAll _ _ _ => true
  | .preemptStop _ _ _ _ => true
  | .preemptHalt _ _ _ _ => true
  | .preemptResume _ _ _ _ => true
  | .preemptTerminate _ _ _ _ => true
  | .crd _ _ num => crPriv num
  | .cwr _ _ num => crPriv num
  | _ => false

/-- The instruction whose words these are: forms that only an operand tells apart share the words of one. -/
def wordForm (i : Instr) : Instr :=
  match i with
  | .pexcReadThresholds h d a b => .pexcReadCounters h d a b
  | .pexcSetThresholds h d a b => .pexcReadCounters h d a b
  | .pexcReadClearCounters h d a b => .pexcReadCounters h d a b
  | .pexcSetDitherPhase h d a b => .pexcReadCounters h d a b
  | .pexcResume h d a b => .pexcReadCounters h d a b
  | .relayoutResAbandon h a b => .relayoutResRetry h a b
  | .tlbinvAsid h a b => .tlbinvAddress h a b
  | .tlbinvAll h a b => .tlbinvAddress h a b
  | .preemptStop h d a b => .preemptStatus h d a b
  | .preemptHalt h d a b => .preemptStatus h d a b
  | .preemptResume h d a b => .preemptStatus h d a b
  | .preemptTerminate h d a b => .preemptStatus h d a b
  | i => i

/-- The general registers a vector instruction without memory access reads at issue, as its entry holds them (R190). -/
def capturedBy (i : Instr) (s : State) : Captured :=
  match i with
  | .vadd _ _ _ b bs _ _ _ => ⟨0, if bs then rg s b else 0, 0, 0⟩
  | .vsub _ _ _ b bs _ _ _ => ⟨0, if bs then rg s b else 0, 0, 0⟩
  | .vmul _ _ _ b bs _ _ _ => ⟨0, if bs then rg s b else 0, 0, 0⟩
  | .vfma _ _ _ b bs _ _ _ _ => ⟨0, if bs then rg s b else 0, 0, 0⟩
  | .vdiv _ _ _ b bs _ _ _ => ⟨0, if bs then rg s b else 0, 0, 0⟩
  | .vmin _ _ _ b bs _ _ => ⟨0, if bs then rg s b else 0, 0, 0⟩
  | .vmax _ _ _ b bs _ _ => ⟨0, if bs then rg s b else 0, 0, 0⟩
  | .vsgn _ _ _ b bs _ _ _ => ⟨0, if bs then rg s b else 0, 0, 0⟩
  | .viadd _ _ _ b bs _ _ _ _ => ⟨0, if bs then rg s b else 0, 0, 0⟩
  | .visub _ _ _ b bs _ _ _ _ => ⟨0, if bs then rg s b else 0, 0, 0⟩
  | .vimul _ _ _ b bs _ _ _ _ => ⟨0, if bs then rg s b else 0, 0, 0⟩
  | .vand _ _ _ b bs _ _ => ⟨0, if bs then rg s b else 0, 0, 0⟩
  | .vor _ _ _ b bs _ _ => ⟨0, if bs then rg s b else 0, 0, 0⟩
  | .vxor _ _ _ b bs _ _ => ⟨0, if bs then rg s b else 0, 0, 0⟩
  | .vshl _ _ _ b bs _ _ => ⟨0, if bs then rg s b else 0, 0, 0⟩
  | .vshr _ _ _ b bs _ _ => ⟨0, if bs then rg s b else 0, 0, 0⟩
  | .vsar _ _ _ b bs _ _ => ⟨0, if bs then rg s b else 0, 0, 0⟩
  | .vimin _ _ _ b bs _ _ _ => ⟨0, if bs then rg s b else 0, 0, 0⟩
  | .vimax _ _ _ b bs _ _ _ => ⟨0, if bs then rg s b else 0, 0, 0⟩
  | .vclmul _ _ _ b bs _ _ _ => ⟨0, if bs then rg s b else 0, 0, 0⟩
  | .vcmp _ _ _ b bs _ _ _ => ⟨0, if bs then rg s b else 0, 0, 0⟩
  | .vicmp _ _ _ b bs _ _ _ => ⟨0, if bs then rg s b else 0, 0, 0⟩
  | .vmovLaneToGeneral _ _ _ b => ⟨0, rg s b, 0, 0⟩
  | .vmovGeneralToLane _ _ a b => ⟨rg s a, rg s b, 0, 0⟩
  | .vmovGeneralToMask _ _ a => ⟨rg s a, 0, 0, 0⟩
  | .vbcast _ _ a b src _ _ => if src then ⟨0, rg s b, 0, 0⟩ else ⟨rg s a, 0, 0, 0⟩
  | .vslide _ _ _ b c _ _ _ => ⟨0, rg s b, rg s c, 0⟩
  | _ => ⟨0, 0, 0, 0⟩

/-- Vector instructions that access no memory (majors 0x10-0x15, VCONFL and VCOMB). -/
def vecRegister (i : Instr) : Bool :=
  match i with
  | .vadd _ _ _ _ _ _ _ _ => true
  | .vsub _ _ _ _ _ _ _ _ => true
  | .vmul _ _ _ _ _ _ _ _ => true
  | .vfma _ _ _ _ _ _ _ _ _ => true
  | .vdiv _ _ _ _ _ _ _ _ => true
  | .vsqrt _ _ _ _ _ _ => true
  | .vrcp _ _ _ _ _ => true
  | .vrsq _ _ _ _ _ => true
  | .vmin _ _ _ _ _ _ _ => true
  | .vmax _ _ _ _ _ _ _ => true
  | .vsgn _ _ _ _ _ _ _ _ => true
  | .vexp2 _ _ _ _ _ => true
  | .vlog2 _ _ _ _ _ => true
  | .vsin _ _ _ _ _ => true
  | .vcos _ _ _ _ _ => true
  | .vsinpi _ _ _ _ _ => true
  | .vcospi _ _ _ _ _ => true
  | .viadd _ _ _ _ _ _ _ _ _ => true
  | .visub _ _ _ _ _ _ _ _ _ => true
  | .vimul _ _ _ _ _ _ _ _ _ => true
  | .vand _ _ _ _ _ _ _ => true
  | .vor _ _ _ _ _ _ _ => true
  | .vxor _ _ _ _ _ _ _ => true
  | .vshl _ _ _ _ _ _ _ => true
  | .vshr _ _ _ _ _ _ _ => true
  | .vsar _ _ _ _ _ _ _ => true
  | .vimin _ _ _ _ _ _ _ _ => true
  | .vimax _ _ _ _ _ _ _ _ => true
  | .vpopc _ _ _ _ _ => true
  | .vclmul _ _ _ _ _ _ _ _ => true
  | .vcvt _ _ _ _ _ _ _ _ _ => true
  | .vcmp _ _ _ _ _ _ _ _ => true
  | .vicmp _ _ _ _ _ _ _ _ => true
  | .mand _ _ _ _ _ _ => true
  | .mor _ _ _ _ _ _ => true
  | .mxor _ _ _ _ _ _ => true
  | .mnot _ _ _ => true
  | .mpopc _ _ _ => true
  | .vmovVector _ _ _ _ _ => true
  | .vmovLaneToGeneral _ _ _ _ => true
  | .vmovGeneralToLane _ _ _ _ => true
  | .vmovGeneralToMask _ _ _ => true
  | .vmovMaskToGeneral _ _ _ => true
  | .vbcast _ _ _ _ _ _ _ => true
  | .vext _ _ _ _ _ _ _ => true
  | .vperm _ _ _ _ _ _ _ _ => true
  | .vpswap _ _ _ _ _ _ _ => true
  | .vslide _ _ _ _ _ _ _ _ => true
  | .vcompress _ _ _ _ _ => true
  | .vexpand _ _ _ _ _ => true
  | .vsel _ _ _ _ _ => true
  | .viota _ _ _ _ _ => true
  | .vred _ _ _ _ _ _ => true
  | .vscan _ _ _ _ _ _ _ => true
  | .vscanExcl _ _ _ _ _ _ _ => true
  | .vconfl _ _ _ _ _ _ => true
  | .vcomb _ _ _ _ _ _ _ _ => true
  | _ => false

/-- Integer, predicate and floating-point instructions: the general registers and the predicates each writes. -/
def scalarDest (i : Instr) : Option (List (BitVec 6) × List (BitVec 3)) :=
  match i with
  | .add _ d _ _ => some ([d], [])
  | .sub _ d _ _ => some ([d], [])
  | .mul _ d _ _ => some ([d], [])
  | .mulh _ d _ _ => some ([d], [])
  | .mulhu _ d _ _ => some ([d], [])
  | .mulhsu _ d _ _ => some ([d], [])
  | .div _ d _ _ => some ([d], [])
  | .divu _ d _ _ => some ([d], [])
  | .rem _ d _ _ => some ([d], [])
  | .remu _ d _ _ => some ([d], [])
  | .and _ d _ _ => some ([d], [])
  | .or _ d _ _ => some ([d], [])
  | .xor _ d _ _ => some ([d], [])
  | .andn _ d _ _ => some ([d], [])
  | .orn _ d _ _ => some ([d], [])
  | .xnor _ d _ _ => some ([d], [])
  | .shl _ d _ _ => some ([d], [])
  | .shr _ d _ _ => some ([d], [])
  | .sar _ d _ _ => some ([d], [])
  | .rol _ d _ _ => some ([d], [])
  | .ror _ d _ _ => some ([d], [])
  | .min _ d _ _ => some ([d], [])
  | .max _ d _ _ => some ([d], [])
  | .minu _ d _ _ => some ([d], [])
  | .maxu _ d _ _ => some ([d], [])
  | .clz _ d _ _ => some ([d], [])
  | .ctz _ d _ _ => some ([d], [])
  | .popc _ d _ _ => some ([d], [])
  | .brev _ d _ _ => some ([d], [])
  | .bswap _ d _ _ => some ([d], [])
  | .exts _ d _ _ => some ([d], [])
  | .extz _ d _ _ => some ([d], [])
  | .bfx _ d _ _ _ => some ([d], [])
  | .bfi _ d _ _ _ _ => some ([d], [])
  | .sel _ d _ _ _ => some ([d], [])
  | .lea _ d _ _ _ _ => some ([d], [])
  | .addi _ d _ _ => some ([d], [])
  | .muli _ d _ _ => some ([d], [])
  | .andi _ d _ _ => some ([d], [])
  | .ori _ d _ _ => some ([d], [])
  | .xori _ d _ _ => some ([d], [])
  | .shli _ d _ _ => some ([d], [])
  | .shri _ d _ _ => some ([d], [])
  | .sari _ d _ _ => some ([d], [])
  | .movi _ d _ => some ([d], [])
  | .movhi _ d _ _ => some ([d], [])
  | .movx _ d _ => some ([d], [])
  | .fadd _ d _ _ _ _ => some ([d], [])
  | .fsub _ d _ _ _ _ => some ([d], [])
  | .fmul _ d _ _ _ _ => some ([d], [])
  | .ffma _ d _ _ _ _ _ => some ([d], [])
  | .fdiv _ d _ _ _ _ => some ([d], [])
  | .fsqrt _ d _ _ _ => some ([d], [])
  | .fmin _ d _ _ _ => some ([d], [])
  | .fmax _ d _ _ _ => some ([d], [])
  | .fclass _ d _ _ => some ([d], [])
  | .fsgn _ d _ _ _ _ => some ([d], [])
  | .fcvt _ d _ _ _ _ => some ([d], [])
  | .fcvti _ d _ _ _ _ => some ([d], [])
  | .icvtf _ d _ _ _ _ => some ([d], [])
  | .cmp _ d _ _ _ => some ([], [d])
  | .test _ d _ _ _ => some ([], [d])
  | .pand _ d _ _ _ _ => some ([], [d])
  | .por _ d _ _ _ _ => some ([], [d])
  | .pxor _ d _ _ _ _ => some ([], [d])
  | .pnot _ d _ => some ([], [d])
  | .pmov _ d _ => some ([], [d])
  | .cmpi _ d _ _ _ => some ([], [d])
  | .fcmp _ d _ _ _ _ => some ([], [d])
  | .nop _ => some ([], [])
  | _ => none

/-- Pool, copy and composer commands, which their issue only queues. -/
def queuedCommand (i : Instr) : Bool :=
  match i with
  | .pcfg _ _ _ => true
  | .pcfgPlc _ _ _ => true
  | .pclr _ _ _ _ => true
  | .psweep _ _ _ _ _ _ => true
  | .psweeps _ _ _ _ _ _ => true
  | .pscan _ _ _ _ => true
  | .ptopk _ _ _ _ _ _ => true
  | .pdrain _ _ _ _ _ _ _ _ _ _ => true
  | .cpy _ _ _ _ _ _ _ _ _ _ _ => true
  | .cpy2 _ _ _ _ _ _ _ _ _ _ _ _ => true
  | .cfill _ _ _ _ _ _ _ _ _ => true
  | .cpyt _ _ _ _ _ _ _ _ _ _ _ _ => true
  | .cpyts _ _ _ _ _ _ _ _ _ _ _ => true
  | .cpyg _ _ _ _ _ _ _ _ _ => true
  | .cpyr _ _ _ _ _ _ _ _ _ _ _ => true
  | .cpys _ _ _ _ _ _ _ _ _ _ _ => true
  | .place _ _ _ _ _ _ _ => true
  | _ => false

/-- Counters, barriers, gates, queues and status: the general registers and the predicates each writes. -/
def syncDest (i : Instr) : Option (List (BitVec 6) × List (BitVec 3)) :=
  match i with
  | .cset _ _ _ => some ([], [])
  | .cadd _ _ _ => some ([], [])
  | .cwait _ _ _ => some ([], [])
  | .barinit _ _ _ => some ([], [])
  | .barw _ _ _ => some ([], [])
  | .gset _ _ _ => some ([], [])
  | .wake _ _ => some ([], [])
  | .fence _ _ _ => some ([], [])
  | .yieldI _ _ => some ([], [])
  | .crdc _ d _ => some ([d], [])
  | .gadd _ d _ _ => some ([d], [])
  | .grd _ d _ => some ([d], [])
  | .qflush _ d _ => some ([d], [])
  | .qstat _ d _ => some ([d], [])
  | .pprog _ d => some ([d], [])
  | .pstat _ d _ => some ([d], [])
  | .lstat _ d _ => some ([d], [])
  | .tinfo _ d _ _ => some ([d], [])
  | .crd _ d _ => some ([d], [])
  | .park _ d _ => some ([d], [])
  | .bara _ d _ => some ([d], [])
  | .pexcReadCounters _ d _ _ => some ([d], [])
  | .pexcReadThresholds _ d _ _ => some ([d], [])
  | .pexcSetThresholds _ d _ _ => some ([d], [])
  | .pexcReadClearCounters _ d _ _ => some ([d], [])
  | .pexcSetDitherPhase _ d _ _ => some ([d], [])
  | .pexcResume _ d _ _ => some ([d], [])
  | .rpop _ d c nb => some ([d], if nb then [c] else [])
  | _ => none

end Sys2Proof.Machine
end

