-- ==== Sys2Proof/Certificates/Slice0/Obligations.lean ====
section
/-!
DEFINITION. The statements of this model for the provers, one definition each, in the order of OBLIGATIONS.json.
-/
open Sys2Proof Sys2Proof.Machine

/-- When the words at the program counter of a context decode to an instruction, the step in which it issues is exec of
that instruction at the state after the fetch, and one period of the clock; the core's pointer may move to the context
and nothing else is added. This is so for an issue that the next input names, of a context that is ready, with no trap
to take first, and that no context before it in the order of the pointer keeps from the slot, and for a step with no
input in which no agent acts and the context is the first in the order of the cores' pointers that does something.
(That inputs name steps, that agents act first and that one context of the package issues in a step are the model's
choice, log 4; one period of the clock a step and the ring of cores are its choice, log 5.) (R33, R34, R154, R155.) -/
def Obligations.StepRunsDecodedInstruction : Prop :=
  (∀ (s t : State) (c : Nat) (rest : List Move) (w0 w1 : Word) (i : Instr),
      let r : State := { s with inputs := rest }
      s.inputs = .issue c :: rest → s.modState = .ready → c < 512 → asyncDue r c = false → haltDue r c = false → ctxReady r c = true →
      ownsSlot r c = true → fetchWords (takeSlot r c) c = .words w0 w1 t →
      fetchBreak (me t) = none → decode w0 w1 = .ok i → step s = tick (movePointer r c (exec i t))) ∧
    (∀ (s t : State) (c : Nat) (w0 w1 : Word) (i : Instr),
      s.inputs = [] → s.modState = .ready → firstStep s (mailMoves s ++ quickMoves s) = none →
      s.pace = none → engineWork s = [] → (tabKeys s.ctxs).find? (haltDue s) = none → firstToAct s = some c →
      fetchWords (takeSlot s c) c = .words w0 w1 t →
      fetchBreak (me t) = none → decode w0 w1 = .ok i → step s = tick (movePointer s c (exec i t))) ∧
    (∀ (s t : State) (c : Nat), movePointer s c (.next t) =
      .next (if hasIssued s t c then modCore t (coreOfCtx c) (fun q => { q with last := c % 4 }) else t))

/-- A PC with bits 2:0 non-zero fetches ALIGN, one with bits 63:56 non-zero ADDR_SPACE; else the word of the line that
the instruction cache holds at the translated address is the first word, and with a major below 0x38 the whole
instruction. (R13, R33.) -/
def Obligations.FetchReadsProgramBytes : Prop :=
  ∀ (s : State) (c : Nat),
      let x := getCtx s c
      (x.pc.toNat % 8 ≠ 0 → fetchWords s c = .fault cAlign x.pc) ∧
      (x.pc.toNat % 8 = 0 → 2 ^ 56 ≤ x.pc.toNat → fetchWords s c = .fault cAddrSpace x.pc) ∧
      (∀ (pa : Nat) (t : State) (bs : List Byte), x.pc.toNat % 8 = 0 → x.pc.toNat < 2 ^ 56 →
        translate s ⟨c, x.sv, ctxCr x crXspace⟩ x.pc.toNat .fetch = .ok (pa, t) →
        tabFind (getCore t (coreOfCtx c)).icache (pa / 64) = some bs →
        isDouble (w64 (leNat ((bs.drop (pa % 64)).take 8))) = false →
        fetchWords s c = .words (w64 (leNat ((bs.drop (pa % 64)).take 8))) 0 t)

/-- ICACHE_FILL of a line of a core answers a next state in which that core's instruction cache holds the 64 bytes that
device memory holds there, where they read without an uncorrectable error, every memory reads as before and every
context is as before. For every context: LOAD_RETURN answers the state in which its register no longer awaits a load;
STORE_PERFORMED of a write that is not a store to a peer the one in which the write of that position is no longer
outstanding; in both every general register is as before, and every memory, but that the bytes which a read-modify-write
at scope CTX has still to write are written in order. (That a load writes its register at its own step, so that
LOAD_RETURN changes none, is the model's choice, log 17; that any other write stands in memory at its own step, so that
STORE_PERFORMED changes no memory for it, is its choice, log 3.) (R13, R127, R131, R309, R350.) -/
def Obligations.FillsAndReturnsComplete : Prop :=
  (∀ (s : State) (k line : Nat), k < 128 → line ∉ s.badHbm → ∃ t, exec (.icacheFill k line) s = .next t ∧
       tabFind (getCore t k).icache line = some (memReadBytes s.hbm (64 * line) 64) ∧
       SameMemory s t ∧ ∀ c, getCtx t c = getCtx s c) ∧
  (∀ (s : State) (c r i : Nat), c < 512 →
       (∃ t, exec (.loadReturn c r) s = .next t ∧ r ∉ (getCtx t c).loading ∧ SameMemory s t ∧
         GeneralSame (getCtx s c) (getCtx t c) []) ∧
       (∀ w, (getCtx s c).out[i]? = some w → w.peer = none → ∃ t, exec (.storePerformed c i) s = .next t ∧
         (getCtx t c).out = (getCtx s c).out.eraseIdx i ∧ GeneralSame (getCtx s c) (getCtx t c) [] ∧
         (w.late = [] → SameMemory s t) ∧
         ∀ (l : Loc) (j : Nat), locByte t l j = locByte (w.late.foldl (fun v b => locWrite v b.1 b.2) s) l j))

/-- When an instruction of the executing context retires with no loop active and no single step, its PC is the next
address, RETIRED has risen by 1 modulo 2^64, every general register, predicate, vector register and mask holds what
the body left, as do all other control registers but DBGCTL, every other context and every memory. A taken transfer
that retires with no single step puts the PC at its target, raises RETIRED by 1, leaves the loop registers and LPCTL
as the body left them, and changes CDEPTH by its depth, modulo 2^32. With DBGCTL.SS set and traps not inhibited, a
retirement with SO clear, or at a call depth at or below STEPDEP, takes a trap with BREAKPOINT whose return address is
the next instruction; with SO set, a deeper one takes none. An instruction whose address the lowest enabled fetch
breakpoint matches raises BREAKPOINT with no effect, unless SKIP1 is set, when it runs. (R33, R37, R121, R470, R494,
R495.) -/
def Obligations.RetirementAdvancesThePc : Prop :=
  (∀ (s u : State) (len : Nat), (getCtx u s.cur).phase ≠ .free → noStep s = true → noLoop (getCtx u s.cur) = true →
       let x := getCtx u s.cur
       let t := retired s len u
       let y := getCtx t s.cur
       y.pc = x.pc + BitVec.ofNat 64 len ∧ ctxCr y crRetired = ctxCr x crRetired + 1 ∧
       GeneralSame x y [] ∧ PredsSame x y [] ∧ VectorsSame x y ∧ CrsSame x y [crRetired, crDbgctl] ∧
       y.phase = x.phase ∧ y.sv = x.sv ∧ (∀ c, c ≠ s.cur → getCtx t c = getCtx u c) ∧ SameMemory u t) ∧
  (∀ (s u : State) (target : Word) (depth : BitVec 32), noStep s = true →
       let x := getCtx u s.cur
       let y := getCtx (redirected s u target depth) s.cur
       y.pc = target ∧ ctxCr y crRetired = ctxCr x crRetired + 1 ∧
       (∀ n, n < 2 → ctxCr y (crLpstart n) = ctxCr x (crLpstart n) ∧ ctxCr y (crLpend n) = ctxCr x (crLpend n) ∧
         ctxCr y (crLpcount n) = ctxCr x (crLpcount n)) ∧
       ctxCr y crLpctl = ctxCr x crLpctl ∧
       (depth ≠ 0 → ctxCr y crCdepth = ((ctxCr x crCdepth).setWidth 32 + depth).setWidth 64) ∧
       (depth = 0 → ctxCr y crCdepth = ctxCr x crCdepth) ∧ GeneralSame x y []) ∧
  (∀ (s u : State) (len : Nat), dbgSs (me s) = true → estatInh (me s) = false →
       let x := getCtx u s.cur
       let y := getCtx (retired s len u) s.cur
       let next := x.pc + BitVec.ofNat 64 len
       let deep := dbgSo (me s) = true ∧ ((getCr s crStepdep).setWidth 32).toInt < ((ctxCr x crCdepth).setWidth 32).toInt
       x.phase = .running → noLoop x = true → dbgBph x = false → handlerReady u s.cur = true →
       ctxCr y crRetired = ctxCr x crRetired + 1 ∧ GeneralSame x y [] ∧
       (¬ deep → y.pc = addrField (ctxCr x crTvec) ∧ ctxCr y crEpc = addrField next ∧ y.sv = true ∧
         (ctxCr y (crFrec 0)).toNat % 256 = cBreak) ∧
       (deep → y.pc = next ∧ ctxCr y crEpc = ctxCr x crEpc ∧ y.sv = x.sv)) ∧
  (∀ (s : State) (w0 w1 : Word),
       let x := me s
       let hits (n : Nat) : Prop := n < 4 ∧ (ctxCr x (crBpc n)).getLsbD 0 = true ∧ (ctxCr x (crBpc n)).extractLsb' 1 2 = 0 ∧
         ∀ j, ((ctxCr x (crBpc n)).extractLsb' 3 6).toNat ≤ j → x.pc.getLsbD j = (ctxCr x (crBpa n)).getLsbD j
       (∀ n, dbgSkip1 x = false → dbgBph x = false → hits n → (∀ m, m < n → ¬ hits m) → runWords w0 w1 s =
         .next (faulted s s { recOf s cBreak x.pc with info0 := BitVec.ofNat 64 (1 + 16 * n) })) ∧
       (∀ i, dbgSkip1 x = true ∨ (∀ n, ¬ hits n) → decode w0 w1 = .ok i → runWords w0 w1 s = exec i s))

/-- The loop test at a retiring address, for every context: loop 0 active and ending there with a count above 1 returns
to LPSTART0 with the count one less; with a count of 0 or 1 it takes count 0 and becomes inactive and loop 1 is tested;
a loop that is inactive or ends elsewhere is not touched: its count and its ACT bit keep their values, as do LPSTART
and LPEND of both loops and every other bit and register in every case; with neither, execution goes on. (R36.) -/
def Obligations.LoopTestFollowsTheCounts : Prop :=
  ∀ (x : Ctx) (a next : Word),
      let act (n : Nat) : Prop := (ctxCr x crLpctl).getLsbD n = true ∧ a = ctxCr x (crLpend n)
      let more (n : Nat) : Prop := 1 < (ctxCr x (crLpcount n)).toNat
      let r := loopTest x a next
      let keeps (n : Nat) : Prop := ctxCr r.2 (crLpcount n) = ctxCr x (crLpcount n) ∧
        (ctxCr r.2 crLpctl).getLsbD n = (ctxCr x crLpctl).getLsbD n
      let ends (n : Nat) : Prop := ctxCr r.2 (crLpcount n) = 0 ∧ (ctxCr r.2 crLpctl).getLsbD n = false
      let counts (n : Nat) : Prop := r.1 = ctxCr x (crLpstart n) ∧
        ctxCr r.2 (crLpcount n) = ctxCr x (crLpcount n) - 1 ∧ (ctxCr r.2 crLpctl).getLsbD n = true
      (act 0 → more 0 → counts 0 ∧ keeps 1) ∧
      (act 0 → ¬ more 0 → ends 0) ∧
      (act 0 → ¬ more 0 → act 1 → more 1 → counts 1) ∧
      (act 0 → ¬ more 0 → act 1 → ¬ more 1 → r.1 = next ∧ ends 1) ∧
      (act 0 → ¬ more 0 → ¬ act 1 → r.1 = next ∧ keeps 1) ∧
      (¬ act 0 → act 1 → more 1 → counts 1 ∧ keeps 0) ∧
      (¬ act 0 → act 1 → ¬ more 1 → r.1 = next ∧ ends 1 ∧ keeps 0) ∧
      (¬ act 0 → ¬ act 1 → r = (next, x)) ∧
      (∀ n, n < 2 → ctxCr r.2 (crLpstart n) = ctxCr x (crLpstart n) ∧ ctxCr r.2 (crLpend n) = ctxCr x (crLpend n)) ∧
      (∀ j, 2 ≤ j → (ctxCr r.2 crLpctl).getLsbD j = (ctxCr x crLpctl).getLsbD j) ∧
      CrsSame x r.2 [crLpcount 0, crLpcount 1, crLpctl] ∧ GeneralSame x r.2 []

/-- For every instruction of the opcode table with an encoding: with the privilege it needs, its wait field satisfied,
no result awaited and its guard false, it answers the state in which nothing but the retirement has happened; a PDRAIN
whose RM is reserved is an illegal encoding, and raises ILLEGAL_INSTR. (R33, R34, R56, R287.) -/
def Obligations.FalseGuardRetiresWithoutEffect : Prop :=
  ∀ (i : Instr) (h : Hdr) (s : State), hdrOf i = some h → ctxBlocked (me s) = false →
      (supOnly i = true → (me s).sv = true) → waitDone s h = true → nothingPending s = true → guardRuns s h = false →
      exec i s = .next (if rmReserved i then faulted s s (recOf s cIllegal (me s).pc) else retired s (instrLen i) s)

/-- For every instruction of the opcode table with an encoding, in a context that has the privilege for it: a wait
field that names a counter of the cohort that is not faulted and does not read zero leaves the machine as it is; one
that names a faulted counter raises ENGINE_FAULT, and one that names a counter of another cohort raises ACCESS,
whatever the guard holds; a PDRAIN whose RM is reserved faults before its wait field is looked at, with ILLEGAL_INSTR
under a false guard. (Which fault it raises under a true one is the model's reading, log 81.) (R34, R44, R56, R177,
R287.) -/
def Obligations.WaitFieldHoldsIssueBack : Prop :=
  ∀ (i : Instr) (h : Hdr) (s : State), hdrOf i = some h → h.wten = true → ctxBlocked (me s) = false →
      (supOnly i = true → (me s).sv = true) →
      let owned := ownsCounter s s.cur h.wtcnt.toNat
      let c := getCounter s (myCore s) h.wtcnt.toNat
      (rmReserved i = false →
        (owned = true → c.faulted = false → c.value ≠ 0 → exec i s = .next s) ∧
        (owned = true → c.faulted = true → exec i s = .next (faulted s s (recOf s cEngine (me s).pc))) ∧
        (owned = false → exec i s = .next (faulted s s (recOf s cAccess (me s).pc)))) ∧
      (rmReserved i = true → ∃ cause, cause ≠ 0 ∧ (guardRuns s h = false → cause = cIllegal) ∧
        exec i s = .next (faulted s s (recOf s cause (me s).pc)))

/-- Rounding a finite value of magnitude mag times 2^exp, with precision p and least exponent emin: with e the larger
of floor(log2) and emin, the result is n times ulp = 2^(e-p+1). A value that is a multiple of ulp is itself, and exact.
Else n is the multiple that the mode names: RTZ the integer part, RUP and RDN the ceiling or the floor of the signed
value, RNE and RNA the nearest with ties to even and away from zero, DITH the floor after the dither offset, whose
matrix entry is 0 to 255; under RNE and RNA no value of p significand bits with no exponent below emin lies nearer.
Delivered to an IEEE or a narrow format with the table's p and emin, a result within the format's largest finite value
becomes a code of that value, with NX exactly where the rounding is inexact (IEEE) or no flag (narrow); one beyond it
gives the infinity or the largest value of its mode with OF and NX (IEEE), or the largest value and a SAT count
(narrow). (R88, R89, R90, R91, R94, R95.) -/
def Obligations.RoundingIsNearest : Prop :=
  (∀ (p : Nat) (emin : Int) (neg : Bool) (mag : Nat) (exp : Int) (m : Rnd), 0 < p → 0 < mag → (∀ d, m = .dith d → d < 256) →
      let e := max ((Nat.log2 mag : Int) + exp) emin
      let r := roundMag p emin neg mag exp m
      let ulp := e - p + 1
      let k := (ulp - exp).toNat
      let one : Nat := 2 ^ k
      let down := r.n * one ≤ mag ∧ mag < (r.n + 1) * one
      let up := mag ≤ r.n * one ∧ r.n * one < mag + one
      let near := 2 * mag ≤ (2 * r.n + 1) * one ∧ 2 * r.n * one ≤ 2 * mag + one
      r.ulp = ulp ∧ r.n ≤ 2 ^ p ∧
      (ulp ≤ exp → r.n = mag * 2 ^ (exp - ulp).toNat ∧ r.inexact = false) ∧
      (exp < ulp → (r.inexact = true ↔ r.n * one ≠ mag) ∧
        (m = .rtz → down) ∧ (m = .rdn → if neg then up else down) ∧ (m = .rup → if neg then down else up) ∧
        (m = .rne → near ∧ (2 * mag = (2 * (mag / one) + 1) * one → r.n % 2 = 0)) ∧
        (m = .rna → near ∧ (2 * mag = (2 * (mag / one) + 1) * one → r.n = mag / one + 1)) ∧
        (∀ d, d < 256 → m = .dith d →
          let t : Int := (if neg then -(512 * mag : Int) else 512 * mag) + (2 * d + 1) * one
          (if neg then -(r.n : Int) else r.n) = t / (512 * one : Nat))) ∧
      (m = .rne ∨ m = .rna → ∀ (j : Nat) (f : Int), j < 2 ^ p → emin - p + 1 ≤ f →
        let b := min (min exp f) ulp
        let at_ (n : Nat) (g : Int) : Int := (n * 2 ^ (g - b).toNat : Nat)
        (at_ r.n ulp - at_ mag exp).natAbs ≤ (at_ j f - at_ mag exp).natAbs)) ∧
  (∀ row ∈ roundingTable, ∀ (neg : Bool) (mag : Nat) (exp : Int) (m : Rnd), 0 < mag → (∀ d, m = .dith d → d < 256) →
      let ieee := row.code < 0x14
      let r := roundMag row.p row.emin neg mag exp m
      let c := deliver row.code (.fin neg mag exp) m
      let top := withSignBit row.code neg (fmtMaxCode row.code)
      let beyond := ltMag row.topN row.topExp r.n r.ulp
      (beyond = false → (∃ n g, widen row.code c.1 = .fin (neg && (decide (row.code ≤ 0x15) || decide (r.n ≠ 0))) n g ∧
          ltMag n g r.n r.ulp = false ∧ ltMag r.n r.ulp n g = false) ∧
        (ieee → c.2.flags.getLsbD 0 = r.inexact ∧ c.2.flags.getLsbD 2 = false) ∧ (¬ ieee → c.2 = excNone)) ∧
      (beyond = true →
        (ieee → c.2 = excFlags (flagOF ||| flagNX) ∧ c.1 =
          if m = .rtz ∨ m = .rdn ∧ neg = false ∨ m = .rup ∧ neg = true then top
          else withSignBit row.code neg (fmtMaxCode row.code + 1)) ∧
        (¬ ieee → c = (top, excSat))))

/-- Words that the decoder refuses, met by no fetch breakpoint, raise ILLEGAL_INSTR precisely at their own address; the
all-zero word, a reserved major and a set reserved bit are such words. BSWAP of bytes, bit fields that end above bit
63, LOOP with LEN 0, CMP with a reserved code, GRD 0b1000, a WT.CNT without WT.EN, an LD that releases and an ST that
acquires are not well formed. (R33, R56, R43, R44, R50, R110, R111, R116, R122.) -/
def Obligations.UndefinedWordsAndFieldsAreRefused : Prop :=
  ((∀ (s : State) (w0 w1 : Word) (e : DecodeError), fetchBreak (me s) = none → decode w0 w1 = .error e →
       runWords w0 w1 s = .next (raiseFault s s.cur (recOf s cIllegal (pcOf s)) (pcOf s))) ∧
     decode 0 0 = .error .reservedMajor ∧ decode 0xFC00000000000000 0 = .error .reservedMajor ∧
     decode 0x0400145180000001 0 = .error .reservedBit) ∧
  (∀ (h : Hdr) (d a b : BitVec 6) (p : BitVec 3) (o : MemOrd) (z : BitVec 2) (off : BitVec 19),
       WellFormed (.bswap h d a 0) = false ∧
       (∀ pos lenm1 : BitVec 6, 64 < pos.toNat + lenm1.toNat + 1 →
         WellFormed (.bfx h d a pos lenm1) = false ∧ WellFormed (.bfi h d a b pos lenm1) = false) ∧
       (∀ n : Bool, WellFormed (.loop h n b 0) = false) ∧
       (∀ cc : BitVec 4, 9 < cc.toNat → WellFormed (.cmp h p a b cc) = false) ∧
       (h.sense = true → h.pred = 0 → WellFormed (.nop h) = false) ∧
       (h.wten = false → h.wtcnt ≠ 0 → WellFormed (.nop h) = false) ∧
       (o.ord = 2 → WellFormed (.ld h d a b o z false off) = false) ∧
       (o.ord = 1 → WellFormed (.st h d a b o z off) = false))

/-- The words that the manual works out, ADDI g7, g7, -1, CMPI.NE p1, g7, 0, DIV g9, g5, g6 and LOOP.0 g13 with LEN 3,
decode to those instructions, and the instructions encode to those words. (R42, R46, R54.) -/
def Obligations.DecodesTheWordsOfTheManual : Prop :=
  let h : Hdr := ⟨false, 0, false, 0⟩
    let is : List (Word × Instr) := [
      (0x08001C70FFFFFFFF, .addi h 7 7 0xFFFFFFFF), (0x0C00847100000000, .cmpi h 1 7 1 0),
      (0x0400245180006000, .div h 9 5 6), (0x1400000340010003, .loop h false 13 3)]
    ∀ wi ∈ is, decode wi.1 0 = .ok wi.2 ∧ encode wi.2 = some [wi.1]

/-- For every well-formed instruction of majors below 0x10 and the double-word majors: integer, memory, floating point,
control, system, contexts, queues, with every field at every value the encoding admits, decoding the words the encoder
writes gives that instruction back, or the one instruction whose words it shares where only an operand tells two
apart. (R42, R46, R54, R56.) -/
def Obligations.ScalarFormsDecodeFromTheirWords : Prop :=
  ∀ (i : Instr) (w : Word) (ws : List Word), WellFormed i = true → encode i = some (w :: ws) →
      (let m := (w.extractLsb' 58 6).toNat; (m < 0x10 ∨ 0x38 ≤ m)) → decode w (ws.headD 0) = .ok (wordForm i)

/-- For every well-formed instruction of majors 0x10 to 0x17: the vector unit, with every field at every value the
encoding admits, decoding the words the encoder writes gives that instruction back, or the one instruction whose words
it shares where only an operand tells two apart. (R42, R46, R54, R56.) -/
def Obligations.VectorFormsDecodeFromTheirWords : Prop :=
  ∀ (i : Instr) (w : Word) (ws : List Word), WellFormed i = true → encode i = some (w :: ws) →
      (let m := (w.extractLsb' 58 6).toNat; (0x10 ≤ m ∧ m < 0x18)) → decode w (ws.headD 0) = .ok (wordForm i)

/-- For every well-formed instruction of majors 0x18 to 0x37: tensors, pool, copy, layout, routing, composer, links,
barriers, with every field at every value the encoding admits, decoding the words the encoder writes gives that
instruction back, or the one instruction whose words it shares where only an operand tells two apart. (R42, R46, R54,
R56.) -/
def Obligations.EngineFormsDecodeFromTheirWords : Prop :=
  ∀ (i : Instr) (w : Word) (ws : List Word), WellFormed i = true → encode i = some (w :: ws) →
      (let m := (w.extractLsb' 58 6).toNat; (0x18 ≤ m ∧ m < 0x38)) → decode w (ws.headD 0) = .ok (wordForm i)

/-- For every state and registers for which the body runs, each of the 25 register forms answers the state in which gD
holds bits 63:0 of the result R108 gives (nothing is written for g0) and the instruction has retired. (R108.) -/
def Obligations.IntegerArithmeticResults : Prop :=
  ∀ (h : Hdr) (d a b : BitVec 6) (s : State), bodyRuns s h false [a, b] [d] = true →
      let x : Int := (rg s a).toNat
      let y : Int := (rg s b).toNat
      let sx : Int := (rg s a).toInt
      let sy : Int := (rg s b).toInt
      let n : Nat := (rg s b).toNat % 64
      let gives (i : Instr) (r : Int) : Prop := exec i s = .next (retired s 8 (wg s d (BitVec.ofInt 64 r)))
      let bits (i : Instr) (r : Word) : Prop := exec i s = .next (retired s 8 (wg s d r))
      gives (.add h d a b) (x + y) ∧ gives (.sub h d a b) (x - y) ∧ gives (.mul h d a b) (x * y) ∧
      gives (.mulh h d a b) (sx * sy / 2 ^ 64) ∧ gives (.mulhu h d a b) (x * y / 2 ^ 64) ∧
      gives (.mulhsu h d a b) (sx * y / 2 ^ 64) ∧
      bits (.and h d a b) (rg s a &&& rg s b) ∧ bits (.or h d a b) (rg s a ||| rg s b) ∧
      bits (.xor h d a b) (rg s a ^^^ rg s b) ∧ bits (.andn h d a b) (rg s a &&& ~~~ rg s b) ∧
      bits (.orn h d a b) (rg s a ||| ~~~ rg s b) ∧ bits (.xnor h d a b) (~~~ (rg s a ^^^ rg s b)) ∧
      gives (.shl h d a b) (x * 2 ^ n) ∧ gives (.shr h d a b) (x / 2 ^ n) ∧ gives (.sar h d a b) (sx / 2 ^ n) ∧
      gives (.rol h d a b) (x * 2 ^ n + x / 2 ^ (64 - n)) ∧ gives (.ror h d a b) (x / 2 ^ n + x * 2 ^ (64 - n)) ∧
      gives (.min h d a b) (if sx ≤ sy then sx else sy) ∧ gives (.max h d a b) (if sy ≤ sx then sx else sy) ∧
      gives (.minu h d a b) (if x ≤ y then x else y) ∧ gives (.maxu h d a b) (if y ≤ x then x else y) ∧
      gives (.div h d a b) (if y = 0 then -1 else if sx = -2 ^ 63 ∧ sy = -1 then -2 ^ 63 else Int.tdiv sx sy) ∧
      gives (.rem h d a b) (if y = 0 then sx else if sx = -2 ^ 63 ∧ sy = -1 then 0 else sx - sy * Int.tdiv sx sy) ∧
      gives (.divu h d a b) (if y = 0 then 2 ^ 64 - 1 else x / y) ∧
      gives (.remu h d a b) (if y = 0 then x else x % y)

/-- For every state and registers for which the body runs: CLZ, CTZ, POPC, BREV and BSWAP on the low w bits of gA, EXTS
and EXTZ from the low n bits, BFX and BFI of a field within 64 bits, SEL by its predicate and LEA write the bits of
R110 to R112. (R110, R111, R112.) -/
def Obligations.BitFieldResults : Prop :=
  ∀ (h : Hdr) (d a b : BitVec 6) (s : State) (z : BitVec 2) (pos lenm1 : BitVec 6) (c : BitVec 3) (sh : BitVec 2)
      (off : BitVec 10),
      let x := rg s a
      let y := rg s b
      let w := 8 * 2 ^ z.toNat
      let n := lenm1.toNat + 1
      let low := x.toNat % 2 ^ w
      (bodyRuns s h false [a] [d] = true →
        exec (.clz h d a z) s = .next (retired s 8 (wg s d (BitVec.ofNat 64 (if low = 0 then w else w - 1 - Nat.log2 low)))) ∧
        (∃ k : Nat, exec (.ctz h d a z) s = .next (retired s 8 (wg s d (BitVec.ofNat 64 k))) ∧
          (∀ j, j < k → x.getLsbD j = false) ∧ (k = w ∨ k < w ∧ x.getLsbD k = true)) ∧
        exec (.popc h d a z) s =
          .next (retired s 8 (wg s d (BitVec.ofNat 64 ((List.range w).filter (fun j => x.getLsbD j)).length))) ∧
        (∃ r : Word, exec (.brev h d a z) s = .next (retired s 8 (wg s d r)) ∧
          ∀ j, r.getLsbD j = (decide (j < w) && x.getLsbD (w - 1 - j))) ∧
        (z ≠ 0 → ∃ r : Word, exec (.bswap h d a z) s = .next (retired s 8 (wg s d r)) ∧
          ∀ j, r.getLsbD j = (decide (j < w) && x.getLsbD (8 * (w / 8 - 1 - j / 8) + j % 8))) ∧
        (∃ r : Word, exec (.exts h d a lenm1) s = .next (retired s 8 (wg s d r)) ∧
          ∀ j, j < 64 → r.getLsbD j = x.getLsbD (if j < n then j else n - 1)) ∧
        (∃ r : Word, exec (.extz h d a lenm1) s = .next (retired s 8 (wg s d r)) ∧
          ∀ j, r.getLsbD j = (decide (j < n) && x.getLsbD j)) ∧
        (pos.toNat + n ≤ 64 → ∃ r : Word, exec (.bfx h d a pos lenm1) s = .next (retired s 8 (wg s d r)) ∧
          ∀ j, r.getLsbD j = (decide (j < n) && x.getLsbD (pos.toNat + j)))) ∧
      (bodyRuns s h false [a, b] [d] = true →
        (pos.toNat + n ≤ 64 → ∃ r : Word, exec (.bfi h d a b pos lenm1) s = .next (retired s 8 (wg s d r)) ∧
          ∀ j, j < 64 → r.getLsbD j =
            if pos.toNat ≤ j ∧ j < pos.toNat + n then x.getLsbD (j - pos.toNat) else y.getLsbD j) ∧
        exec (.sel h d a b c) s = .next (retired s 8 (wg s d (if rp s c then x else y))) ∧
        exec (.lea h d a b sh off) s = .next (retired s 8 (wg s d
          (BitVec.ofInt 64 ((x.toNat : Int) + y.toNat * 2 ^ sh.toNat + off.toInt)))))

/-- For every state and register for which the body runs, the ten immediate forms and MOVX write bits 63:0 of the result
of R115 and R151, with IMM sign-extended but for ORI and MOVHI. (R115, R151.) -/
def Obligations.ImmediateFormResults : Prop :=
  ∀ (h : Hdr) (d a : BitVec 6) (imm : BitVec 32) (n : BitVec 6) (k : BitVec 64) (s : State),
      let x : Int := (rg s a).toNat
      let i : Int := imm.toInt
      let gives (j : Instr) (r : Int) : Prop := exec j s = .next (retired s 8 (wg s d (BitVec.ofInt 64 r)))
      (bodyRuns s h false [a] [d] = true →
        gives (.addi h d a imm) (x + i) ∧ gives (.muli h d a imm) (x * i) ∧
        exec (.andi h d a imm) s = .next (retired s 8 (wg s d (rg s a &&& BitVec.ofInt 64 i))) ∧
        exec (.ori h d a imm) s = .next (retired s 8 (wg s d (rg s a ||| BitVec.ofNat 64 imm.toNat))) ∧
        exec (.xori h d a imm) s = .next (retired s 8 (wg s d (rg s a ^^^ BitVec.ofInt 64 i))) ∧
        gives (.shli h d a n) (x * 2 ^ n.toNat) ∧ gives (.shri h d a n) (x / 2 ^ n.toNat) ∧
        gives (.sari h d a n) ((rg s a).toInt / 2 ^ n.toNat) ∧
        gives (.movhi h d a imm) (imm.toNat * 2 ^ 32 + x % 2 ^ 32)) ∧
      (bodyRuns s h false [] [d] = true →
        gives (.movi h d imm) i ∧ exec (.movx h d k) s = .next (retired s 16 (wg s d k)))

/-- For every state and registers for which the body runs, CMP and CMPI write the condition of R116 on gA and gB or on
gA and the sign-extended immediate, TEST whether gA and gB share a bit, and the predicate instructions the logic of
R117 on predicates read with p0 true. (R116, R117, R118.) -/
def Obligations.ComparisonAndPredicateResults : Prop :=
  ∀ (h : Hdr) (d p q : BitVec 3) (a b : BitVec 6) (cc : BitVec 4) (imm : BitVec 32) (z na nb : Bool) (s : State),
      cc.toNat ≤ 9 →
      let cond (x y : Word) : Bool :=
        match cc.toNat with
        | 0 => decide (x = y)
        | 1 => decide (x ≠ y)
        | 2 => x.slt y
        | 3 => !x.slt y
        | 4 => x.ult y
        | 5 => !x.ult y
        | 6 => y.slt x
        | 7 => !y.slt x
        | 8 => y.ult x
        | _ => !y.ult x
      let gives (i : Instr) (v : Bool) : Prop := exec i s = .next (retired s 8 (wp s d v))
      let x : Bool := rp s p ^^ na
      let y : Bool := rp s q ^^ nb
      (bodyRuns s h false [a, b] [] = true → gives (.cmp h d a b cc) (cond (rg s a) (rg s b)) ∧
        gives (.test h d a b z) (if z then decide (rg s a &&& rg s b = 0) else decide (rg s a &&& rg s b ≠ 0))) ∧
      (bodyRuns s h false [a] [] = true → gives (.cmpi h d a cc imm) (cond (rg s a) (BitVec.ofInt 64 imm.toInt))) ∧
      (bodyRuns s h false [] [] = true →
        gives (.pand h d p q na nb) (x && y) ∧ gives (.por h d p q na nb) (x || y) ∧ gives (.pxor h d p q na nb) (x ^^ y) ∧
        gives (.pnot h d p) (!rp s p) ∧ gives (.pmov h d p) (rp s p))

/-- In every context g0 reads zero, p0 true and m0 all ones; a write of g0, p0 or m0 leaves the context as it is; a
write of another one is read back. (R9, R10.) -/
def Obligations.HardwiredRegistersReadAsR9Says : Prop :=
  ∀ (x : Ctx) (w : Word) (b : Bool),
      ctxG x 0 = 0 ∧ ctxP x 0 = true ∧ ctxM x 0 = BitVec.allOnes 64 ∧
      ctxSetG x 0 w = x ∧ ctxSetP x 0 b = x ∧ ctxSetM x 0 w = x ∧
      (∀ i, i ≠ 0 → ctxG (ctxSetG x i w) i = w ∧ ctxM (ctxSetM x i w) i = w) ∧
      (∀ i, i ≠ 0 → i < 8 → ctxP (ctxSetP x i b) i = b)

/-- When an integer, predicate or floating-point instruction or NOP answers a next state, on any path on which a trap
would enter a handler: every memory and accumulator entry reads as before, every other context, core, die, cohort and
gate is as before, general registers but its destination, predicates but its destination, vector registers and masks
are as before, and so is every control register of the context but FPSTAT and those that retirement and trap entry
write. (R9, R10, R107.) -/
def Obligations.ScalarInstructionFrame : Prop :=
  ∀ (i : Instr) (ds : List (BitVec 6)) (ps : List (BitVec 3)) (s t : State), scalarDest i = some (ds, ps) →
      handlerReady s s.cur = true → exec i s = .next t →
      let x := me s
      let y := getCtx t s.cur
      SameMemory s t ∧ OthersSame s t ∧ t.cores = s.cores ∧ t.dies = s.dies ∧ t.cohorts = s.cohorts ∧ t.gates = s.gates ∧
      GeneralSame x y ds ∧ PredsSame x y ps ∧ VectorsSame x y ∧ CrsSame x y (crFpstat :: trapCrs ++ retireCrs)

/-- For every state and registers for which the body runs, when no flag that the operation raises is enabled in FPCTL,
each scalar floating-point form answers the state in which FPSTAT has taken the flags and counts, the destination
holds the result code with zeros above its width, and the instruction has retired; FCLASS and FSGN raise nothing.
(R103, R135, R137, R138, R139, R140, R141, R144.) -/
def Obligations.FloatingPointResults : Prop :=
  ∀ (h : Hdr) (d a b c : BitVec 6) (p : BitVec 3) (f op : BitVec 2) (cc : BitVec 3) (rm : BitVec 4) (df sf : BitVec 8) (s : State),
      let F := ieeeCode f
      let x := fval s F a
      let y := fval s F b
      let m := fmode s rm
      let gives (i : Instr) (r : Nat × Exc) : Prop := flagTraps (me s) r.2 = false →
        exec i s = .next (retired s 8 (wg (setMe s (applyExc (me s) r.2)) d (BitVec.ofNat 64 r.1)))
      (bodyRuns s h false [a, b] [d] = true →
        gives (.fadd h d a b f rm) (fpAdd F x y m) ∧ gives (.fsub h d a b f rm) (fpSub F x y m) ∧
        gives (.fmul h d a b f rm) (fpMul F x y m) ∧ gives (.fdiv h d a b f rm) (fpDiv F x y m) ∧
        gives (.fmin h d a b f) (fpMinMax F false (fcode s F a) (fcode s F b)) ∧
        gives (.fmax h d a b f) (fpMinMax F true (fcode s F a) (fcode s F b)) ∧
        exec (.fsgn h d a b f op) s =
          .next (retired s 8 (wg s d (BitVec.ofNat 64 (fpSign F op.toNat (fcode s F a) (fcode s F b)))))) ∧
      (bodyRuns s h false [a, b, c] [d] = true → gives (.ffma h d a b c f rm) (fpFma F x y (fval s F c) m)) ∧
      (bodyRuns s h false [a] [d] = true →
        gives (.fsqrt h d a f rm) (fpSqrt F x m) ∧
        exec (.fclass h d a f) s = .next (retired s 8 (wg s d (BitVec.ofNat 64 (2 ^ fpClass F x)))) ∧
        (let v := convertScalar df.toNat sf.toNat (rg s a) m
         gives (.fcvt h d a df sf rm) v ∧ gives (.fcvti h d a df sf rm) v ∧ gives (.icvtf h d a df sf rm) v)) ∧
      (bodyRuns s h false [a, b] [] = true →
        (let r := fpCompare cc.toNat x y
         flagTraps (me s) r.2 = false →
           exec (.fcmp h p a b f cc) s = .next (retired s 8 (wp (setMe s (applyExc (me s) r.2)) p r.1))))

/-- When the exceptions of FADD, FSUB, FMUL, FDIV, FFMA or FSQRT contain a flag that FPCTL enables, the instruction
raises ARITH_THRESHOLD at its own address, with the flags in bits 4:0 of the address field, from the state before it;
where a trap enters a handler, FPSTAT, FPCTL and the destination are as before. (R106.) -/
def Obligations.EnabledFlagTrapsBeforeAnyWrite : Prop :=
  ∀ (h : Hdr) (d a b c : BitVec 6) (f : BitVec 2) (rm : BitVec 4) (s : State),
      let F := ieeeCode f
      let x := fval s F a
      let y := fval s F b
      let m := fmode s rm
      let traps (i : Instr) (e : Exc) : Prop := flagTraps (me s) e = true →
        exec i s = .next (faulted s s (recOf s cArith (e.flags.setWidth 64))) ∧
        (handlerReady s s.cur = true → ∀ t, exec i s = .next t →
          ctxCr (getCtx t s.cur) crFpstat = getCr s crFpstat ∧ ctxCr (getCtx t s.cur) crFpctl = getCr s crFpctl ∧
          ctxG (getCtx t s.cur) d.toNat = rg s d)
      (bodyRuns s h false [a, b] [d] = true →
        traps (.fadd h d a b f rm) (fpAdd F x y m).2 ∧ traps (.fsub h d a b f rm) (fpSub F x y m).2 ∧
        traps (.fmul h d a b f rm) (fpMul F x y m).2 ∧ traps (.fdiv h d a b f rm) (fpDiv F x y m).2) ∧
      (bodyRuns s h false [a, b, c] [d] = true → traps (.ffma h d a b c f rm) (fpFma F x y (fval s F c) m).2) ∧
      (bodyRuns s h false [a] [d] = true → traps (.fsqrt h d a f rm) (fpSqrt F x m).2)

/-- For every FPSTAT value and exceptions: the new value keeps every flag that was set and has every flag raised, and
each of BSOVC, SATC and NANC is the sum of the old count and the new events, or all ones where the sum would pass it.
(R103.) -/
def Obligations.FlagsAndCountsAreSticky : Prop :=
  ∀ (w : Word) (e : Exc),
      let v := fpstatAfter w e
      (∀ i, i < 5 → v.getLsbD i = (w.getLsbD i || e.flags.getLsbD i)) ∧
      (v.extractLsb' 24 8).toNat = min ((w.extractLsb' 24 8).toNat + e.bsov) 255 ∧
      (v.extractLsb' 32 16).toNat = min ((w.extractLsb' 32 16).toNat + e.sat) 65535 ∧
      (v.extractLsb' 48 16).toNat = min ((w.extractLsb' 48 16).toNat + e.nanr) 65535

/-- For every state and operands for which the body runs: BR and CALL go to the PC plus 8 times the signed offset, JMPR,
CALLR and RET to gA as it was before the link is written, BRX to IMM64 and BRX.REL to the PC plus IMM64; CALL and
CALLR link PC + 8 and BRX with D other than 0 links PC + 16; a call raises CDEPTH by 1 and a return lowers it by 1.
(R119, R120, R121, R152, R495.) -/
def Obligations.TransferResults : Prop :=
  ∀ (h : Hdr) (d a : BitVec 6) (off : BitVec 42) (imm : BitVec 64) (s : State),
      let pc := (me s).pc
      let near := pc + BitVec.ofInt 64 (8 * off.toInt)
      (bodyRuns s h false [] [] = true → exec (.br h off) s = .next (redirected s s near 0)) ∧
      (bodyRuns s h false [] [d] = true →
        exec (.call h d off) s = .next (redirected s (wg s d (pc + 8)) near 1) ∧
        exec (.brx h d imm) s = .next (redirected s (wg s d (pc + 16)) imm (if d = 0 then 0 else 1)) ∧
        exec (.brxRel h d imm) s = .next (redirected s (wg s d (pc + 16)) (pc + imm) (if d = 0 then 0 else 1))) ∧
      (bodyRuns s h false [a] [] = true →
        exec (.jmpr h a) s = .next (redirected s s (rg s a) 0) ∧
        exec (.ret h a) s = .next (redirected s s (rg s a) (-1))) ∧
      (bodyRuns s h false [a] [d] = true →
        exec (.callr h d a) s = .next (redirected s (wg s d (pc + 8)) (rg s a) 1))

/-- For every state and operands for which the body runs: LOOP with a count above 0 in bits 31:0 of gB retires with
LPSTART at PC + 8, LPEND at PC + 8 LEN, LPCOUNT the count and ACT set; with a count of 0 it writes LPSTART and LPEND
the same, clears ACT and LPCOUNT and transfers past the instruction at the end, of 8 or 16 bytes by its major, or
raises the fault of fetching the word there with no effect. The other loop's registers and ACT bit and the general
registers are as before in both cases. (That a sum of 2^56 or more is stored as it is is the model's choice, log 114.)
(R122, R123.) -/
def Obligations.LoopSetsUpItsRegisters : Prop :=
  ∀ (h : Hdr) (n : Bool) (b : BitVec 6) (len : BitVec 11) (s : State), bodyRuns s h false [b] [] = true →
      let k := if n then 1 else 0
      let stop := (me s).pc + BitVec.ofNat 64 (8 * len.toNat)
      let count := (rg s b).toNat % 2 ^ 32
      (0 < count → ∃ u, exec (.loop h n b len) s = .next (retired s 8 u) ∧
        getCr u (crLpstart k) = (me s).pc + 8 ∧ getCr u (crLpend k) = stop ∧
        getCr u (crLpcount k) = BitVec.ofNat 64 count ∧ (getCr u crLpctl).getLsbD k = true ∧
        (getCr u crLpctl).getLsbD (1 - k) = (getCr s crLpctl).getLsbD (1 - k) ∧
        getCr u (crLpstart (1 - k)) = getCr s (crLpstart (1 - k)) ∧ getCr u (crLpend (1 - k)) = getCr s (crLpend (1 - k)) ∧
        getCr u (crLpcount (1 - k)) = getCr s (crLpcount (1 - k)) ∧ (me u).pc = (me s).pc ∧ GeneralSame (me s) (me u) []) ∧
      (count = 0 → ∀ (w : Word) (v : State), fetchNow s s.cur stop = .word w v → v.cur = s.cur →
        ∃ u, exec (.loop h n b len) s = .next (redirected s u (stop + (if 0x38 ≤ w.toNat / 2 ^ 58 then 16 else 8)) 0) ∧
          getCr u (crLpstart k) = (me s).pc + 8 ∧ getCr u (crLpend k) = stop ∧
          getCr u (crLpcount k) = 0 ∧ (getCr u crLpctl).getLsbD k = false ∧
          (getCr u crLpctl).getLsbD (1 - k) = (getCr s crLpctl).getLsbD (1 - k) ∧
          getCr u (crLpstart (1 - k)) = getCr s (crLpstart (1 - k)) ∧ getCr u (crLpend (1 - k)) = getCr s (crLpend (1 - k)) ∧
          getCr u (crLpcount (1 - k)) = getCr s (crLpcount (1 - k)) ∧ GeneralSame (me s) (me u) []) ∧
      (count = 0 → ∀ cause, cause ≠ 0 → fetchNow s s.cur stop = .fault cause →
        exec (.loop h n b len) s = .next (faulted s s (recOf s cause stop)))

/-- For every state and operands for which the body runs and no fence or release holds the access back: when the checks
of R125 pass at the effective address gA + gB + OFF in a space of this module, LD retires with gD the little-endian
value of the 2^SIZE bytes there, sign-extended with SGN, and gD awaiting LOAD_RETURN; when a check fails, LD raises its
fault at that address. PREF retires. (That the bytes are those of memory at the step of the instruction is the model's
choice among the orders allowed, log 3; so is what waits for the returning load, log 17.) (R17, R124, R125, R126.) -/
def Obligations.LoadResults : Prop :=
  ∀ (h : Hdr) (d a b : BitVec 6) (o : MemOrd) (size : BitVec 2) (sgn : Bool) (off : BitVec 19) (s : State),
      let ea := BitVec.ofInt 64 ((rg s a).toNat + (rg s b).toNat + off.toInt)
      let n := 2 ^ size.toNat
      (bodyRuns s h false [a, b] [d] = true → orderHeld s o = false →
        (∀ (l : Loc) (u : State), (∀ dev va, l ≠ .peer dev va) → openAccess s ea n .load true = .ok (l, u) →
          exec (.ld h d a b o size sgn off) s = .next (retired s 8 (noteLoad (wg u d
            (if sgn then BitVec.ofInt 64 ((BitVec.ofNat (8 * n) (locRead u l n)).toInt) else BitVec.ofNat 64 (locRead u l n))) d))) ∧
        (∀ r : FaultRec, r.cause ≠ 0 → openAccess s ea n .load true = .error r →
          exec (.ld h d a b o size sgn off) s = .next (faulted s s r))) ∧
      (bodyRuns s h false [a, b] [] = true → ∃ u, exec (.pref h a b off) s = .next (retired s 8 u) ∧ me u = me s ∧ SameMemory s u)

/-- For every state and operands for which the body runs and no fence or release holds the access back, nor a
read-modify-write that has still to write: when the checks
of R125 pass at gA + gB + OFF in a space of this module, ST retires with the low 2^SIZE bytes of gS written there,
least significant first, and no register written; when a check fails, ST raises its fault at that address. (That the
bytes stand in memory right after the step is the model's choice among the orders allowed, log 3.) (R17, R124, R125.)
-/
def Obligations.StoreResults : Prop :=
  ∀ (h : Hdr) (r a b : BitVec 6) (o : MemOrd) (size : BitVec 2) (off : BitVec 19) (s : State),
      let ea := BitVec.ofInt 64 ((rg s a).toNat + (rg s b).toNat + off.toInt)
      let n := 2 ^ size.toNat
      bodyRuns s h false [r, a, b] [] = true → writeHeld s o = false →
      (∀ (l : Loc) (u : State), (∀ dev va, l ≠ .peer dev va) → openAccess s ea n .store false = .ok (l, u) →
        exec (.st h r a b o size off) s = .next (retired s 8 (noteWrite (locWrite u l (leBytes n (rg s r).toNat)) l o.oc))) ∧
      (∀ x : FaultRec, x.cause ≠ 0 → openAccess s ea n .store false = .error x →
        exec (.st h r a b o size off) s = .next (faulted s s x))

/-- For every state and operands for which the body runs and nothing holds the access back, at an address gA that the
checks of R125 allow in a space of this module, each atomic of 4 or 8 bytes retires with gD the old value
zero-extended, awaiting LOAD_RETURN, and the new value of R129 written there; an AMOCAS whose comparison fails writes
nothing. At scope CTX, with no command of the context under way, an atomic of device memory, a scratchpad or the
accumulator memory leaves its write to a later step, until which every access of the context waits. (In which step an
atomic writes is the model's choice among the orders allowed, log 3; so is what waits for its result, log 17.) (R129,
R130, R131, R132.) -/
def Obligations.AtomicResults : Prop :=
  ∀ (h : Hdr) (d a b c : BitVec 6) (o : MemOrd) (dbl : Bool) (s u : State) (l : Loc), writeHeld s o = false →
      let n := if dbl then 8 else 4
      let w := 8 * n
      (∀ dev va, l ≠ .peer dev va) → openAccess s (rg s a) n .atomic false = .ok (l, u) →
      let old := BitVec.ofNat w (locRead u l n)
      let x := BitVec.ofNat w (rg s b).toNat
      let z := BitVec.ofNat w (rg s c).toNat
      let late : Bool := decide (o.scope = 0) && !hasCommands u u.cur && (match l with
        | .mem _ => true
        | .spad _ _ => true
        | .acc _ _ => true
        | _ => false)
      let written (bs : List Byte) : State :=
        if late then setMe u { me u with out := (me u).out ++ [⟨o.oc, 15, none, [(l, bs)]⟩] }
        else noteWrite (locWrite u l bs) l o.oc
      let gives (i : Instr) (new : BitVec w) : Prop := exec i s = .next (retired s 8 (noteLoad
        (wg (written (leBytes n new.toNat)) d (old.setWidth 64)) d))
      (bodyRuns s h false [a, b] [d] = true →
        gives (.amoSwap h d a b o dbl) x ∧ gives (.amoAdd h d a b o dbl) (old + x) ∧
        gives (.amoAnd h d a b o dbl) (old &&& x) ∧ gives (.amoOr h d a b o dbl) (old ||| x) ∧
        gives (.amoXor h d a b o dbl) (old ^^^ x) ∧
        gives (.amoMin h d a b o dbl) (if x.slt old then x else old) ∧
        gives (.amoMax h d a b o dbl) (if old.slt x then x else old) ∧
        gives (.amoMinu h d a b o dbl) (if x.ult old then x else old) ∧
        gives (.amoMaxu h d a b o dbl) (if old.ult x then x else old) ∧
        gives (.amofadd h d a b o dbl) (BitVec.ofNat w
          (fpAdd (if dbl then 0x10 else 0x11) (widen (if dbl then 0x10 else 0x11) old.toNat)
            (widen (if dbl then 0x10 else 0x11) x.toNat) .rne).1)) ∧
      (bodyRuns s h false [a, b, c] [d] = true →
        (old = x → gives (.amocas h d a b c o dbl) z) ∧
        (old ≠ x → exec (.amocas h d a b c o dbl) s = .next (retired s 8 (noteLoad (wg u d (old.setWidth 64)) d))))

/-- For every pointer and access of n bytes by a context: a pointer of no space raises ADDR_SPACE; else one that is not
a multiple of n raises ALIGN; else a scratchpad access outside the context's window raises ACCESS, also through RSPAD
of its own core; one through RSPAD to another core outside its cohort's window there, in user mode, or to a core out of
service; an accumulator access of less than 4 bytes, an atomic of 8, or one outside the windows it may reach; an atomic
of host memory; and a peer without a route. A device address whose walk fails raises the walk's cause, one whose
mapping refuses the access ACCESS, and one in a withheld granule PAGE_FAULT; a load or atomic of a poisoned accumulator
entry raises POISON_CONSUMED but for the supervisor's exemption. Where all checks pass, the access goes to the physical
address that the leaf gives, with registers and memories as before; to that offset of the context's core, for SPAD and
ACC; to that offset of the core named, for RSPAD; to that address of host memory; to that address of the peer. (That a
supervisor reaches a window kept in place for another cohort, as R303 says, is the model's reading of R490, log 84.)
(R16, R19, R20, R125, R130, R299, R303, R304, R312, R314, R490, R522.) -/
def Obligations.AddressChecksInOrder : Prop :=
  ∀ (s : State) (w : Who) (p : Word) (n : Nat) (kind : AccKind) (plain : Bool),
      let access : Prop := checkAccess s w p n kind plain = .error cAccess
      (decodePtr p = none → checkAccess s w p n kind plain = .error cAddrSpace) ∧
      (∀ sp, decodePtr p = some sp → p.toNat % n ≠ 0 → checkAccess s w p n kind plain = .error cAlign) ∧
      (p.toNat % n = 0 →
        (∀ off, decodePtr p = some (.spad off) → inSpadWindow s w.ctx off n = false → access) ∧
        (∀ k off, decodePtr p = some (.rspad k off) → (getCore s k).out = true ∨
          (k = coreOfCtx w.ctx ∧ inSpadWindow s w.ctx off n = false) ∨
          (k ≠ coreOfCtx w.ctx ∧ w.sv = false ∧ inCohortWindow s w.ctx k off n = false) → access) ∧
        (∀ off, decodePtr p = some (.acc off) → n < 4 ∨ (n = 8 ∧ kind = .atomic) ∨
          accAllowed s w (off / 4) ((n + 3) / 4) = false → access) ∧
        (∀ dev va, decodePtr p = some (.peer dev va) → tabFind s.routes dev = none → access) ∧
        (∀ va e, decodePtr p = some (.dev va) →
          lookupLeaf s (coreOfCtx w.ctx) (dieOfCtx w.ctx) (xspaceAsid w.xspace) (xspaceRoot w.xspace) va = .error e →
          checkAccess s w p n kind plain = .error e) ∧
        (∀ va e, decodePtr p = some (.dev va) →
          lookupLeaf s (coreOfCtx w.ctx) (dieOfCtx w.ctx) (xspaceAsid w.xspace) (xspaceRoot w.xspace) va = .ok e →
          if leafAllows e w.sv kind = false then access
          else if withheldPa s (e.pa + (va - e.va)) = true then checkAccess s w p n kind plain = .error cPage
          else ∃ u, checkAccess s w p n kind plain = .ok (.mem (e.pa + (va - e.va)), u) ∧ SameMemory s u ∧
            (∀ c, getCtx u c = getCtx s c)) ∧
        (∀ off, decodePtr p = some (.spad off) → inSpadWindow s w.ctx off n = true →
          checkAccess s w p n kind plain = .ok (.spad (coreOfCtx w.ctx) off, s)) ∧
        (∀ k off, decodePtr p = some (.rspad k off) → (getCore s k).out = false →
          (k = coreOfCtx w.ctx ∧ inSpadWindow s w.ctx off n = true) ∨
          (k ≠ coreOfCtx w.ctx ∧ (w.sv = true ∨ inCohortWindow s w.ctx k off n = true)) →
          checkAccess s w p n kind plain = .ok (.spad k off, s)) ∧
        (∀ off, decodePtr p = some (.acc off) → 4 ≤ n → ¬ (n = 8 ∧ kind = .atomic) →
          accAllowed s w (off / 4) ((n + 3) / 4) = true →
          let l : Loc := .acc (coreOfCtx w.ctx) off
          let refused : Prop := kind ≠ .store ∧ locPoisoned s l n = true ∧ ¬ (plain = true ∧ poisonExempt s w = true)
          (refused → checkAccess s w p n kind plain = .error cPoison) ∧
          (¬ refused → checkAccess s w p n kind plain = .ok (l, s))) ∧
        (∀ dev va, decodePtr p = some (.peer dev va) → (tabFind s.routes dev).isSome = true →
          checkAccess s w p n kind plain = .ok (.peer dev va, s)) ∧
        (∀ a, decodePtr p = some (.host a) → kind ≠ .atomic → checkAccess s w p n kind plain = .ok (.host a, s)) ∧
        (∀ a, decodePtr p = some (.host a) → kind = .atomic → access))

/-- For every 64-bit pointer: DEV holds a 56-bit address with a policy in bits 59:56 below 4, SPAD a 22-bit and ACC a
19-bit offset with zeros above, RSPAD a core in bits 58:52 and a 22-bit offset with zeros in bits 59 and 51:22, PEER a
device in bits 59:50 and a 48-bit address with zeros in bits 49:48, HOST a 56-bit address with zeros in bits 59:56; a
pointer with any other bit set is of no space, and spaces 6 to 15 do not exist. (R15, R16.) -/
def Obligations.PointerSpaces : Prop :=
  ∀ p : Word,
      let n := p.toNat
      (n < 2 ^ 58 → decodePtr p = some (.dev (n % 2 ^ 56))) ∧
      (2 ^ 58 ≤ n → n < 2 ^ 60 → decodePtr p = none) ∧
      (∀ a, a < 2 ^ 22 → n = 2 ^ 60 + a → decodePtr p = some (.spad a)) ∧
      (2 ^ 60 + 2 ^ 22 ≤ n → n < 2 ^ 61 → decodePtr p = none) ∧
      (∀ a, a < 2 ^ 19 → n = 2 ^ 61 + a → decodePtr p = some (.acc a)) ∧
      (2 ^ 61 + 2 ^ 19 ≤ n → n < 3 * 2 ^ 60 → decodePtr p = none) ∧
      (∀ k a, k < 128 → a < 2 ^ 22 → n = 3 * 2 ^ 60 + k * 2 ^ 52 + a → decodePtr p = some (.rspad k a)) ∧
      (n / 2 ^ 60 = 3 → p.getLsbD 59 = true ∨ p.extractLsb' 22 30 ≠ 0 → decodePtr p = none) ∧
      (∀ d a, d < 1024 → a < 2 ^ 48 → n = 4 * 2 ^ 60 + d * 2 ^ 50 + a → decodePtr p = some (.peer d a)) ∧
      (n / 2 ^ 60 = 4 → p.extractLsb' 48 2 ≠ 0 → decodePtr p = none) ∧
      (∀ a, a < 2 ^ 56 → n = 5 * 2 ^ 60 + a → decodePtr p = some (.host a)) ∧
      (n / 2 ^ 60 = 5 → p.extractLsb' 56 4 ≠ 0 → decodePtr p = none) ∧
      (6 * 2 ^ 60 ≤ n → decodePtr p = none)

/-- For every memory, address, size and value: reading the n bytes just written gives the value modulo 2^(8n), every
byte outside them reads as before, and a memory in canonical form stays in it. For every grouping G of 0 to 5 and
offsets below 4 MiB: the place that R297 gives an offset lies below 4 MiB, and two offsets with the same place are the
same. (R3, R297.) -/
def Obligations.MemoryReadsBackWhatIsWritten : Prop :=
  (∀ (m : Mem) (a n v : Nat),
       memReadLe (memWriteLe m a n v) a n = v % 2 ^ (8 * n) ∧
       (∀ b, b < a ∨ a + n ≤ b → memRead (memWriteLe m a n v) b = memRead m b) ∧
       (memWf m = true → memWf (memWriteLe m a n v) = true)) ∧
  (∀ g a b : Nat, g ≤ 5 → a < 4194304 → b < 4194304 →
       spadLoc g a < 4194304 ∧ (spadLoc g a = spadLoc g b → a = b))

/-- When LD or PREF answers a next state on a path on which a trap would enter a handler, every memory reads as before
unless the access goes to another module, and general registers but gD, predicates, vector registers, masks and other
contexts are as before. When ST does, at the place that the checks of R125 give its effective address in a space of
this module, every byte of every memory outside its 2^SIZE bytes reads as before, and no general register, predicate,
vector register or mask changes. The bank groupings are those of R301. (R9, R124, R125.) -/
def Obligations.LoadAndStoreFrame : Prop :=
  ∀ (h : Hdr) (d r a b : BitVec 6) (o : MemOrd) (size : BitVec 2) (sgn : Bool) (off : BitVec 19) (s t : State),
      handlerReady s s.cur = true →
      let ea := effAddr (rg s a) (rg s b) off
      let y := getCtx t s.cur
      ((exec (.ld h d a b o size sgn off) s = .next t ∧ (∀ dev va, decodePtr ea ≠ some (.peer dev va)) ∨
          exec (.pref h a b off) s = .next t ∧ d = 0) →
        SameMemory s t ∧ OthersSame s t ∧ GeneralSame (me s) y [d] ∧ PredsSame (me s) y [] ∧ VectorsSame (me s) y ∧
        CrsSame (me s) y (trapCrs ++ retireCrs)) ∧
      (exec (.st h r a b o size off) s = .next t → groupsOk s = true → (∀ dev va, decodePtr ea ≠ some (.peer dev va)) →
        OthersSame s t ∧ GeneralSame (me s) y [] ∧ PredsSame (me s) y [] ∧ VectorsSame (me s) y ∧
        CrsSame (me s) y (trapCrs ++ retireCrs) ∧
        ∀ (l : Loc) (u : State), openAccess s ea (2 ^ size.toNat) .store false = .ok (l, u) →
          ∀ (m : Loc) (i : Nat), locCovers l (2 ^ size.toNat) m i = false → locByte t m i = locByte s m i)

/-- Every well-formed privileged instruction, and CRD and CWR of registers 0x100 to 0x1FF, in a context in user mode
that is not inside another instruction, raises PRIV at its own address, whatever its wait field, operands and guard.
For every state and operands for which the body runs and no vector instruction holds the register, a well-formed CRD
retires with gD the register; a well-formed CWR retires with the register holding gA when the privilege allows the
write and every field permits the value; a user write that R25 refuses raises PRIV whatever the value; a value that a
field does not permit raises ILLEGAL_INSTR and leaves the register unchanged. A CRD or CWR of a number that the
register tables reserve, and a CWR of a register whose fields are all read-only, are not well formed. (R24, R25, R34,
R146.) -/
def Obligations.ControlRegisterAccess : Prop :=
  (∀ (i : Instr) (s : State), WellFormed i = true → supOnly i = true → (me s).sv = false → ctxBlocked (me s) = false →
      exec i s = .next (faulted s s (recOf s cPriv (me s).pc))) ∧
  (∀ (h : Hdr) (d a : BitVec 6) (num : BitVec 12) (s : State), crWaits s num.toNat = false →
      let v := rg s a
      let refused := (me s).sv = false ∧ crUserRefused s num.toNat v = true
      (WellFormed (.crd h d num) = true → bodyRuns s h (crPriv num) [] [d] = true →
        exec (.crd h d num) s = .next (retired s 8 (wg s d (readCr s num.toNat)))) ∧
      (WellFormed (.cwr h a num) = true → bodyRuns s h (crPriv num) [a] [] = true →
        (refused → exec (.cwr h a num) s = .next (faulted s s (recOf s cPriv (me s).pc))) ∧
        (¬ refused → crPermits num.toNat v = true → exec (.cwr h a num) s = .next (retired s 8 (setCr s num.toNat v))) ∧
        (¬ refused → crPermits num.toNat v = false →
          exec (.cwr h a num) s = .next (faulted s s (recOf s cIllegal (me s).pc))))) ∧
  (∀ (h : Hdr) (d a : BitVec 6),
      let registers : List (Nat × Nat) := [(0x000, 0x004), (0x008, 0x00A), (0x00C, 0x00E), (0x010, 0x010), (0x018, 0x019),
        (0x020, 0x020), (0x040, 0x043), (0x048, 0x04B), (0x060, 0x061), (0x080, 0x080), (0x0A0, 0x0A4), (0x0B0, 0x0B0),
        (0x0C0, 0x0C2), (0x0D0, 0x0D1), (0x0E0, 0x0E1), (0x100, 0x10F), (0x118, 0x122), (0x130, 0x132), (0x180, 0x184),
        (0x1C0, 0x1C4)]
      let readOnly : List (Nat × Nat) := [(0x000, 0x004), (0x040, 0x043), (0x048, 0x04B), (0x061, 0x061), (0x080, 0x080),
        (0x0A2, 0x0A2), (0x0A4, 0x0A4), (0x0C1, 0x0C1), (0x0D0, 0x0D1), (0x0E0, 0x0E1), (0x108, 0x10F), (0x130, 0x132),
        (0x180, 0x184), (0x1C0, 0x1C4)]
      let among (n : BitVec 12) (l : List (Nat × Nat)) : Prop := ∃ r ∈ l, r.1 ≤ n.toNat ∧ n.toNat ≤ r.2
      ∀ n : BitVec 12,
        (¬ among n registers → WellFormed (.crd h d n) = false ∧ WellFormed (.cwr h a n) = false) ∧
        (among n readOnly → WellFormed (.cwr h a n) = false))

/-- For every state for which the body runs: NOP only retires; HALT retires into HALTED; FENCE of each scope, SYS among
them, retires, and from then on each earlier write of its classes that is not performed at its scope holds back later
accesses of its classes; a plain read is held back exactly while some write holds its class, and a write also while a
read-modify-write has still to write; ERET transfers to EPC with MODE.SV from ESTAT.PSV and INH cleared, as a FENCE of
all classes at scope CTX; TRAP retires and takes a trap with TRAP_INSTR, its code in the address field and the return
address after it; BRK raises BREAKPOINT at its own address with its code. (At scope CTX a write of this module counts
as performed at its step, but for one that a read-modify-write leaves to a later step, the model's choice of order, log
3; a store to a peer does when it is answered.) (R131, R145, R147, R148, R149, R150, R349, R350, R351, R353, R472.) -/
def Obligations.SystemInstructionResults : Prop :=
  ∀ (h : Hdr) (code : BitVec 12) (scope : BitVec 3) (cls : BitVec 4) (d a b : BitVec 6) (o : MemOrd) (size : BitVec 2)
      (sgn : Bool) (off : BitVec 19) (s : State),
      let fenced (ctxOnly : Bool) (k : BitVec 4) (w : OutAccess) : OutAccess :=
        if k.getLsbD w.cls.toNat = true ∧ (ctxOnly = false ∨ w.peer.isSome = true ∨ w.late ≠ []) then { w with holds := w.holds ||| k } else w
      (bodyRuns s h false [] [] = true →
        exec (.nop h) s = .next (retired s 8 s) ∧
        exec (.brk h code) s = .next (faulted s s (recOf s cBreak (code.setWidth 64))) ∧
        ((me s).phase = .running → noLoop (me s) = true → ∀ t, exec (.trap h code) s = .next t → handlerReady s s.cur = true →
          let y := getCtx t s.cur
          ctxCr y crEpc = addrField ((me s).pc + 8) ∧ ctxCr y crRetired = getCr s crRetired + 1 ∧
          y.pc = addrField (getCr s crTvec) ∧ ctxCr y (crFrec 2) = code.setWidth 64 ∧
          (ctxCr y (crFrec 0)).toNat % 256 = cTrap) ∧
        (∃ t, exec (.trap h code) s = .next t) ∧
        (scope ≤ 4 → exec (.fence h scope cls) s = .next (retired s 8
          (setMe s { me s with out := (me s).out.map (fenced (decide (scope = 0)) cls) })))) ∧
      (o.ord.toNat < 2 → (orderHeld s o = true ↔ ∃ w ∈ (me s).out, w.holds.getLsbD o.oc.toNat = true) ∧
        (orderHeld s o = true →
          (bodyRuns s h false [a, b] [d] = true → exec (.ld h d a b o size sgn off) s = .next s) ∧
          (bodyRuns s h false [d, a, b] [] = true → exec (.st h d a b o size off) s = .next s)) ∧
        ((∃ w ∈ (me s).out, w.late ≠ []) → bodyRuns s h false [d, a, b] [] = true →
          exec (.st h d a b o size off) s = .next s)) ∧
      (bodyRuns s h true [] [] = true →
        (∃ u, exec (.halt h) s = .next (retired s 8 u) ∧ (me u).phase = .halted ∧ (me u).pc = (me s).pc ∧
          GeneralSame (me s) (me u) []) ∧
        (∃ u, exec (.eret h) s = .next (redirected s u (addrField (getCr s crEpc)) 0) ∧ (me u).sv = estatPsv (me s) ∧
          estatInh (me u) = false ∧ GeneralSame (me s) (me u) [] ∧ (me u).out = (me s).out.map (fenced true 15)))

/-- For every context, record and return address, with traps not inhibited and a handler set: EPC holds the return
address, ESTAT.PSV the old MODE.SV, ESTAT.INH and MODE.SV are 1, FREC0 to FREC7 are the record, SKIP1 is 0, the PC is
the handler's address; every general register, predicate, vector register, mask and other control register of the
context, every other context and every memory is as before. With traps inhibited or no handler the context is
terminated. (R470.) -/
def Obligations.TrapEntrySavesAndEnters : Prop :=
  ∀ (s : State) (c : Nat) (r : FaultRec) (ret : Word),
      (handlerReady s c = true →
        let x := getCtx s c
        let t := takeTrap s c r ret
        let y := getCtx t c
        ctxCr y crEpc = addrField ret ∧ estatPsv y = x.sv ∧ estatInh y = true ∧ y.sv = true ∧ dbgSkip1 y = false ∧
        y.pc = addrField (ctxCr x crTvec) ∧ (∀ i, i < 8 → ctxCr y (crFrec i) = (recWords r).getD i 0) ∧
        GeneralSame x y [] ∧ PredsSame x y [] ∧ VectorsSame x y ∧ CrsSame x y trapCrs ∧
        (∀ e, e ≠ c → getCtx t e = getCtx s e) ∧ SameMemory s t) ∧
      (handlerReady s c = false → takeTrap s c r ret = terminateCtx s c r ∧
        (getCtx (takeTrap s c r ret) c).phase = .exited)

/-- For every state and operands for which the body runs: LAUNCH of a record that is read without a fault retires with
2^63 plus the refusal code, or with the handle of a cohort QUEUED on its home die with the record and the launcher's
XSPACE and TVEC; EXIT leaves the context EXITED; YIELD makes it not ready for 4 periods when another context of the
core runs; PARK consumes a pending wake and writes 0, or parks; WAKE sends a wake, or raises ACCESS on a number that is
no context's or, in user mode, another cohort's. PARK_TIMEOUT at its time and WAKE_ARRIVAL at a parked context retire
the PARK with 1 and 0 where no stop has reached its cohort; WAKE_ARRIVAL at another context that has not exited, at a
parked one that a stop has reached, or at one that no placed cohort holds, leaves a pending wake. (The 4 periods of
YIELD rest on the model's period per step, log 5; that YIELD.Q yields as YIELD does, on log 29; the handle after 2^30
acceptances, on log 70.) (R164, R165, R167, R180, R181, R335, R485, R500.) -/
def Obligations.ContextInstructionResults : Prop :=
  ∀ (h : Hdr) (d a : BitVec 6) (q : Bool) (s : State),
    let x := me s
    (bodyRuns s h false [a] [d] = true → releaseHeld s = false → ∀ (u : State) (bs : List Byte),
      recordRead s (rg s a) 64 = some (u, bs) →
      let r := lrecOf bs
      let n := (getDie u (lrHome r)).accNo
      let k := lrHome r * 2 ^ 30 + n % 2 ^ 30
      (∀ code, launchRefusal u r = some code →
        exec (.launch h d a) s = .next (retired s 8 (wg u d (BitVec.ofNat 64 (2 ^ 63 + code))))) ∧
      (launchRefusal u r = none → ∃ t, exec (.launch h d a) s = .next (retired s 8 (wg t d (BitVec.ofNat 64 k))) ∧
        getCohort t k = some (cohortNew r n (getCr s crXspace) (getCr s crTvec)) ∧ (getDie t (lrHome r)).accNo = n + 1 ∧
        (∀ j, j ≠ k → getCohort t j = getCohort s j) ∧ SameMemory s t ∧ ∀ c, getCtx t c = getCtx s c)) ∧
    (bodyRuns s h false [] [] = true →
      (∃ u, exec (.exit h) s = .next (retired s 8 u) ∧ (me u).phase = .exited ∧ (me u).pc = x.pc ∧
        GeneralSame x (me u) [] ∧ OthersSame s u) ∧
      (∃ u, exec (.yieldI h q) s = .next (retired s 8 u) ∧ SameMemory s u ∧
        me u = (if otherRunning s then { x with yieldEnd := s.clk + 4 } else x))) ∧
    (bodyRuns s h false [a] [d] = true →
      (x.wakePend = true → exec (.park h d a) s = .next (retired s 8 (wg (setMe s { x with wakePend := false }) d 0))) ∧
      (x.wakePend = false → exec (.park h d a) s = .next (setMe s { x with
        phase := .parked, parkD := d.toNat, parkEnd := if rg s a = 0 then none else some (s.clk + (rg s a).toNat) }))) ∧
    (bodyRuns s h false [a] [] = true → releaseHeld s = false →
      let v := (rg s a).toNat
      let allowed := v < 512 ∧ (x.sv = true ∨ (getCtx s v).coh = x.coh)
      (allowed → exec (.wake h a) s = .next (retired s 8 (modCtx s v (fun y => { y with wakesIn := y.wakesIn + 1 })))) ∧
      (¬ allowed → exec (.wake h a) s = .next (faulted s s (recOf s cAccess x.pc)))) ∧
    (∀ c, c < 512 →
      let y := getCtx s c
      let ends (i : Instr) (v : Word) : Prop := ∃ t, exec i s = .next t ∧ (getCtx t c).phase = .running ∧
        (getCtx t c).parkEnd = none ∧ (getCtx t c).pc = y.pc + 8 ∧ ctxCr (getCtx t c) crRetired = ctxCr y crRetired + 1 ∧
        (y.parkD ≠ 0 → ctxG (getCtx t c) y.parkD = v) ∧ (∀ r, r ≠ y.parkD → ctxG (getCtx t c) r = ctxG y r) ∧ SameMemory s t
      (∀ e, y.phase = .parked → y.parkEnd = some e → e ≤ s.clk → ctxStopping s c = false → noLoop y = true → dbgSs y = false →
        ends (.parkTimeout c) 1) ∧
      (y.wakesIn ≠ 0 → y.phase = .parked → ctxStopping s c = false → noLoop y = true → dbgSs y = false →
        ends (.wakeArrival c) 0) ∧
      (y.wakesIn ≠ 0 → y.phase ≠ .parked ∨ ctxStopping s c = true → ∃ t, exec (.wakeArrival c) s = .next t ∧
        getCtx t c = { y with wakesIn := y.wakesIn - 1, wakePend := y.wakePend || y.phase != .exited || !ctxHeld s c }))

/-- For every state and operands for which the body runs, on a counter of the cohort: CSET writes bits 39:0 of gA and
clears FAULTED; CADD adds the signed gA, raising COUNTER_UNDERFLOW below 0 and ACCESS at 2^40; CWAIT retires once the
counter is at most gA, waits while it is above, and raises ENGINE_FAULT when it is FAULTED; CRDC reads the value with
FAULTED in bit 63. On a counter the cohort does not own each raises ACCESS. (R177, R178, R182.) -/
def Obligations.CounterInstructionResults : Prop :=
  ∀ (h : Hdr) (c : BitVec 5) (d a : BitVec 6) (s : State),
    let k := myCore s
    let x := getCounter s k c.toNat
    let owned := ownsCounter s s.cur c.toNat
    let sum : Int := x.value + (rg s a).toInt
    let access (i : Instr) : Prop := exec i s = .next (faulted s s (recOf s cAccess (me s).pc))
    (bodyRuns s h false [a] [] = true → owned = true →
      exec (.cset h c a) s = .next (retired s 8 (putCounter s k c.toNat ⟨(rg s a).toNat % 2 ^ 40, false⟩)) ∧
      (0 ≤ sum → sum < 2 ^ 40 →
        exec (.cadd h c a) s = .next (retired s 8 (putCounter s k c.toNat ⟨sum.toNat, x.faulted⟩))) ∧
      (sum < 0 → exec (.cadd h c a) s =
        .next (faulted s s { recOf s cUnderflow (me s).pc with cnt := some c.toNat })) ∧
      (2 ^ 40 ≤ sum → access (.cadd h c a)) ∧
      (x.faulted = true → exec (.cwait h c a) s = .next (faulted s s (recOf s cEngine (me s).pc))) ∧
      (x.faulted = false → x.value ≤ (rg s a).toNat → exec (.cwait h c a) s = .next (retired s 8 s)) ∧
      (x.faulted = false → (rg s a).toNat < x.value → exec (.cwait h c a) s = .next s)) ∧
    (bodyRuns s h false [a] [] = true → owned = false →
      access (.cset h c a) ∧ access (.cadd h c a) ∧ access (.cwait h c a)) ∧
    (bodyRuns s h false [] [d] = true →
      (owned = true → exec (.crdc h d c) s =
        .next (retired s 8 (wg s d (BitVec.ofNat 64 ((if x.faulted then 2 ^ 63 else 0) + x.value))))) ∧
      (owned = false → access (.crdc h d c)))

/-- For every state and operands for which the body runs, on barrier gA of the cohort: BARINIT with a count of 1 to 512
sets EXP, clears ARR and BROKEN and keeps GEN, and with another count raises ACCESS; BARA sends its arrival and waits
for it; BARW retires once GEN differs from the low 32 bits of gB, waits while it is the same, and raises
BARRIER_BROKEN on a broken barrier. A number that is no barrier of the cohort raises ACCESS. An arrival at an unbroken
barrier counts, or as the last one expected clears ARR and advances GEN, and BARA retires with the generation it
arrived in; at a broken one it raises BARRIER_BROKEN. (R183, R184.) -/
def Obligations.BarrierInstructionResults : Prop :=
  ∀ (h : Hdr) (d a b : BitVec 6) (s : State),
    let access (i : Instr) : Prop := exec i s = .next (faulted s s (recOf s cAccess (me s).pc))
    (∀ m n, barrierAt s (rg s a) = some (m, n) →
      let x := getBarrier s m n
      let v := (rg s b).toNat
      (bodyRuns s h false [a, b] [] = true →
        (1 ≤ v → v ≤ 512 → exec (.barinit h a b) s =
          .next (retired s 8 (putBarrier s m n ⟨v, 0, x.gen, false⟩))) ∧
        (v = 0 ∨ 512 < v → access (.barinit h a b)) ∧
        (x.broken = true → exec (.barw h a b) s = .next (faulted s s (recOf s cBarrier (me s).pc))) ∧
        (x.broken = false → x.gen ≠ (rg s b).setWidth 32 → exec (.barw h a b) s = .next (retired s 8 s)) ∧
        (x.broken = false → x.gen = (rg s b).setWidth 32 → exec (.barw h a b) s = .next s)) ∧
      (bodyRuns s h false [a] [d] = true → releaseHeld s = false →
        exec (.bara h d a) s = .next (setMe s { me s with baraIn := some (n, d.toNat) }))) ∧
    (barrierAt s (rg s a) = none →
      (bodyRuns s h false [a, b] [] = true → access (.barinit h a b) ∧ access (.barw h a b)) ∧
      (bodyRuns s h false [a] [d] = true → access (.bara h d a))) ∧
    (∀ (c n e : Nat) (x : Cohort), c < 512 → (getCtx s c).baraIn = some (n, e) → cohortOf s c = some x →
      (getCtx s c).phase = .running → noLoop (getCtx s c) = true → dbgSs (getCtx s c) = false →
      let m := getBarrier s (lrHome x.lrec) n
      (m.broken = false → ∃ t, exec (.barrierArrival c) s = .next t ∧
        (let y := getBarrier t (lrHome x.lrec) n
         if m.arr + 1 = m.exp then y = { m with arr := 0, gen := m.gen + 1 } else y = { m with arr := m.arr + 1 }) ∧
        (getCtx t c).baraIn = none ∧ (getCtx t c).pc = (getCtx s c).pc + 8 ∧
        (e ≠ 0 → ctxG (getCtx t c) e = m.gen.setWidth 64) ∧ (∀ r, r ≠ e → ctxG (getCtx t c) r = ctxG (getCtx s c) r)) ∧
      (m.broken = true → handlerReady s c = true → ∃ t, exec (.barrierArrival c) s = .next t ∧
        (getCtx t c).baraIn = none ∧ (ctxCr (getCtx t c) (crFrec 0)).toNat % 256 = cBarrier ∧
        ctxCr (getCtx t c) crEpc = addrField (getCtx s c).pc))

/-- For every state and operands for which the body runs, with gA below 1024: GSET writes the low 32 bits of gB to the
gate, GADD adds the signed gB within 0 to 2^32 - 1 and returns the old value, both once the context's writes are
performed, and GRD reads; another gA raises ACCESS. A host read of any gate of a READY module returns its value, and a
host write gives it the value. A gate written reads as written, and the others are as before. (R175, R176, R185,
R535.) -/
def Obligations.GateResults : Prop :=
  (∀ (h : Hdr) (d a b : BitVec 6) (s : State),
    let n := (rg s a).toNat
    let access (i : Instr) : Prop := exec i s = .next (faulted s s (recOf s cAccess (me s).pc))
    let sum : Int := (getGate s n).toNat + (rg s b).toInt
    let clamped : Int := if sum < 0 then 0 else if 2 ^ 32 - 1 < sum then 2 ^ 32 - 1 else sum
    (n < 1024 →
      (bodyRuns s h false [a, b] [] = true → releaseHeld s = false →
        exec (.gset h a b) s = .next (retired s 8 (setGate s n ((rg s b).setWidth 32)))) ∧
      (bodyRuns s h false [a, b] [d] = true → releaseHeld s = false → exec (.gadd h d a b) s =
        .next (retired s 8 (wg (setGate s n (BitVec.ofInt 32 clamped)) d ((getGate s n).setWidth 64)))) ∧
      (bodyRuns s h false [a] [d] = true → exec (.grd h d a) s = .next (retired s 8 (wg s d ((getGate s n).setWidth 64))))) ∧
    (1024 ≤ n →
      (bodyRuns s h false [a, b] [] = true → releaseHeld s = false → access (.gset h a b)) ∧
      (bodyRuns s h false [a, b] [d] = true → releaseHeld s = false → access (.gadd h d a b)) ∧
      (bodyRuns s h false [a] [d] = true → access (.grd h d a)))) ∧
  (∀ (s : State) (m : Nat) (v : BitVec 32),
    (m < 1024 → s.modState = .ready →
      exec (.hostGateRead m) s = .next { s with hostReads := s.hostReads ++ [leBytes 4 (getGate s m).toNat] } ∧
      exec (.hostGateWrite m v) s = .next (setGate s m v)) ∧
    getGate (setGate s m v) m = v ∧ (∀ j, j ≠ m → getGate (setGate s m v) j = getGate s j) ∧
    SameMemory s (setGate s m v) ∧ ∀ c, getCtx (setGate s m v) c = getCtx s c)

/-- For every state and operands for which the body runs. RPOP: a filled oldest reply is taken into gD, and RPOP.NB
sets pC; a faulted one is taken and raises ENGINE_FAULT; with the oldest not filled RPOP waits and RPOP.NB retires with
pC clear; with no reply RPOP raises ACCESS and RPOP.NB retires with pC clear. QFLUSH of the vector queue, or of the
reply queue, empties it but for reserved slots and returns how many left; of a copy queue it returns how many commands
left. QFLUSH and QSTAT of the bound partition's queues do the same for its commands. QSTAT returns the depth, the
started and the waiting entries. Another selector, or one of a partition without one, raises ACCESS. (R224, R225.) -/
def Obligations.ReplyQueueResults : Prop :=
  ∀ (h : Hdr) (d a : BitVec 6) (c : BitVec 3) (s : State),
    let x := me s
    let rest := setMe s { x with replies := x.replies.drop 1 }
    let sel := (rg s a).toNat
    let isRes (r : Reply) : Bool := match r with | .reserved _ => true | _ => false
    let status (depth started waiting : Nat) : Prop :=
      exec (.qstat h d a) s = .next (retired s 8 (wg s d (BitVec.ofNat 64 (depth * 2 ^ 32 + started * 2 ^ 16 + waiting))))
    (bodyRuns s h false [] [d] = true →
      (∀ v, x.replies.head? = some (.filled v) →
        exec (.rpop h d c false) s = .next (retired s 8 (wg rest d v)) ∧
        exec (.rpop h d c true) s = .next (retired s 8 (wp (wg rest d v) c true))) ∧
      (x.replies.head? = some .faulted → ∀ nb,
        exec (.rpop h d c nb) s = .next (faulted s rest (recOf s cEngine x.pc))) ∧
      (∀ k, x.replies.head? = some (.reserved k) →
        exec (.rpop h d c false) s = .next s ∧ exec (.rpop h d c true) s = .next (retired s 8 (wp s c false))) ∧
      (x.replies = [] →
        exec (.rpop h d c false) s = .next (faulted s s (recOf s cAccess x.pc)) ∧
        exec (.rpop h d c true) s = .next (retired s 8 (wp s c false)))) ∧
    (bodyRuns s h false [a] [d] = true →
      (sel = 0 → status 16 x.vrun.length x.vq.length ∧ ∃ u, (me u).vq = [] ∧ (me u).vrun = x.vrun ∧
        exec (.qflush h d a) s = .next (retired s 8 (wg u d (BitVec.ofNat 64 x.vq.length)))) ∧
      (sel = 1 → status 16 (x.replies.filter isRes).length (x.replies.filter (fun r => !isRes r)).length ∧
        exec (.qflush h d a) s = .next (retired s 8 (wg (setMe s { x with replies := x.replies.filter isRes }) d
          (BitVec.ofNat 64 (x.replies.filter (fun r => !isRes r)).length)))) ∧
      (∀ e, e < 2 → sel = 2 + e →
        let q := tabGet [] (getEngine s (myCore s) e).queues s.cur
        status 8 ((getEngine s (myCore s) e).active.filter (fun kv => kv.2.cmd.ctx == s.cur)).length q.length ∧
        ∃ u, tabGet [] (getEngine u (myCore s) e).queues s.cur = [] ∧
          exec (.qflush h d a) s = .next (retired s 8 (wg u d (BitVec.ofNat 64 q.length)))) ∧
      (∀ p y n, boundPart s = some (p, y) → 4 ≤ n → n < 7 → sel = n →
        ∃ u z, getPart u (myCore s) p = some z ∧ poolQueue z n = [] ∧
          exec (.qflush h d a) s = .next (retired s 8 (wg u d (BitVec.ofNat 64 (poolQueue y n).length)))) ∧
      (∀ p y, boundPart s = some (p, y) →
        (sel = 4 → status 4 (if y.shadow = .empty then 0 else 1) y.cfgq.length) ∧
        (sel = 5 → status 16 y.runs.length y.opq.length) ∧
        (sel = 6 → status 8 (if y.drRun.isSome then 1 else 0) y.drq.length)) ∧
      (7 ≤ sel ∨ 4 ≤ sel ∧ boundPart s = none →
        exec (.qflush h d a) s = .next (faulted s s (recOf s cAccess x.pc)) ∧
        exec (.qstat h d a) s = .next (faulted s s (recOf s cAccess x.pc))))

/-- For every state and operands for which the body runs: FRPOP with no record of the cohort in its core's queue retires
with LOST in bit 62 alone and clears LOST; with one, when its eight double-words may be stored at gA in a space of
this module, it retires with bit 63, LOST and the number of records left, and the record has left the queue.
ASYNC_TRAP_DELIVER to a context that is ready for it takes a trap with ASYNC set, and the record leaves the queue.
(R475, R476.) -/
def Obligations.FaultQueueResults : Prop :=
  ∀ (h : Hdr) (d a : BitVec 6) (s : State),
    let k := myCore s
    let mine (r : FaultRec) : Bool := recCohort s r == (me s).coh
    let lost := match (me s).coh with
      | some c => (getCore s k).lost.contains c
      | none => false
    (bodyRuns s h false [a] [d] = true →
      ((getCore s k).faultq.filter mine = [] → ∃ u, lostFlag u = 0 ∧ SameMemory s u ∧ me u = me s ∧
        exec (.frpop h d a) s = .next (retired s 8 (wg u d (if lost then 2 ^ 62 else 0)))) ∧
      (∀ r rest, (getCore s k).faultq.filter mine = r :: rest → writeHeld s ⟨0, 0, 0⟩ = false → ptrSpace (rg s a) ≠ 4 →
        storesOk s (rg s a) 8 = .ok () → ∃ u,
        exec (.frpop h d a) s = .next (retired s 8
          (wg u d (BitVec.ofNat 64 (2 ^ 63 + (if lost then 2 ^ 62 else 0) + rest.length)))) ∧
        (getCore u k).faultq = (getCore s k).faultq.erase r ∧ lostFlag u = 0 ∧ GeneralSame (me s) (me u) [])) ∧
    (∀ (c : Nat) (r : FaultRec), c < 512 →
      let due (e : FaultRec) : Bool := isAsync e && asyncTarget s e == some c
      (getCore s (coreOfCtx c)).faultq.find? due = some r → asyncReady s c = true → handlerReady s c = true →
      ∃ t, exec (.asyncTrapDeliver c) s = .next t ∧ (getCore t (coreOfCtx c)).faultq = removeFirst due (getCore s (coreOfCtx c)).faultq ∧
        (getCtx t c).pc = addrField (ctxCr (getCtx s c) crTvec) ∧ (getCtx t c).phase = .running ∧ (getCtx t c).sv = true ∧
        ctxCr (getCtx t c) crEpc = addrField (getCtx s c).pc ∧
        ∀ i, i < 8 → ctxCr (getCtx t c) (crFrec i) = (recWords { r with async := true }).getD i 0)

/-- For every state in which no result is awaited, no flag is enabled and the guard is true: a vector instruction
without memory access retires with its entry alone in the vector queue, holding the general registers it read. For
every state and operands for which the body runs, with room in the vector and reply queues and no waiting SPCFG that
holds the access: a vector memory, tensor or routing form whose operands are sound adds an entry that the context waits
for, with a reply slot under SKIP, and changes no general register, memory or PC. (R189, R190, R193, R222, R332, R452.)
-/
def Obligations.VectorInstructionsQueue : Prop :=
  ∀ (s : State) (h : Hdr) (d v e : BitVec 5) (a b c : BitVec 6) (str sx skip raw prom rmen : Bool) (rm : BitVec 3) (o : MemOrd)
      (z oc : BitVec 2) (k : BitVec 3),
    let x := me s
    (∀ i, vecRegister i = true → hdrOf i = some h → nothingPending s = true → x.baraIn = none → waitDone s h = true →
      guardRuns s h = true → fpctlEnables x = 0 →
      let r := capturedBy i s
      exec i s = .next (retired s 8 (setMe s { x with vq := [⟨i, x.pc, r.x, r.y, r.z, r.w, none, false, 0⟩] }))) ∧
    (x.vq.length < 16 → x.replies.length < 16 →
      let queues (i : Instr) (rs : List (BitVec 6)) (r : Captured) : Prop := bodyRuns s h false rs [] = true →
        (coreHeld s s.cur = true → vectorReaches s (myCore s) i r.x r.y r.z = false) →
        ∃ t, exec i s = .next t ∧
          (me t).vq = x.vq ++ [⟨i, x.pc, r.x, r.y, r.z, r.w, if skip then some s.replyKey else none, true, 0⟩] ∧
          (me t).replies = x.replies ++ (if skip then [.reserved s.replyKey] else []) ∧
          (me t).pc = x.pc ∧ GeneralSame x (me t) [] ∧ SameMemory s t ∧ OthersSame s t
      queues (.vld h d a b c str o k skip) [a, b, c] ⟨rg s a, rg s b, rg s c, 0⟩ ∧
      queues (.vst h v a b c str o k skip) [a, b, c] ⟨rg s a, rg s b, rg s c, 0⟩ ∧
      queues (.vgath h d a e z sx o k skip) [a] ⟨rg s a, 0, 0, 0⟩ ∧
      queues (.vscat h v a e z sx o k skip) [a] ⟨rg s a, 0, 0, 0⟩ ∧
      queues (.vscatAdd h v a e z sx o k skip) [a] ⟨rg s a, 0, 0, 0⟩ ∧
      queues (.vscatIadd h v a e z sx o k skip) [a] ⟨rg s a, 0, 0, 0⟩ ∧
      queues (.vscatImin h v a e z sx o k skip) [a] ⟨rg s a, 0, 0, 0⟩ ∧
      queues (.vscatImax h v a e z sx o k skip) [a] ⟨rg s a, 0, 0, 0⟩ ∧
      (∀ n, checkHandle s (getCr s crXspace) (rg s a) = .ok n →
        let r := recAll s n
        let p := pairVal s b
        tPoisoned r = false → p.2.getLsbD 63 = false → tFmt r ≠ 6 → tFmt r ≠ 7 → tFmt r ≠ 0x10 → isSparse r = false →
        queues (.vldt h d a b raw prom o k skip) (a :: pairRegs b) ⟨rg s a, p.1, p.2, 0⟩ ∧
        (tRo r = false → queues (.vstt h v a b raw prom rmen rm o k skip) (a :: pairRegs b) ⟨rg s a, p.1, p.2, 0⟩)) ∧
      ((rdescOf (rg s a)).isSome = true →
        queues (.rbsetSetV h oc a e k skip) [a] ⟨rg s a, 0, 0, 0⟩ ∧
        queues (.rbsetUnsetV h oc a e k skip) [a] ⟨rg s a, 0, 0, 0⟩ ∧
        ((dirOff (rg s b)).isSome = true →
          queues (.rrankV h oc d a b e k skip) [a, b] ⟨rg s a, rg s b, 0, 0⟩ ∧
          queues (.rselV h oc d a b e k skip) [a, b] ⟨rg s a, rg s b, 0, 0⟩)))

/-- When a vector integer instruction is the head that VECTOR_START takes, with a and b the unsigned 32-bit operands of
a lane and sa and sb their signed readings: each active lane of vD holds bits 31:0 of the result of R202, with SAT the
exact sum or difference clamped and SATC risen by 1 for each clamped lane; inactive lanes follow ZI, other vector
registers and control registers are as before. (R202.) -/
def Obligations.VectorIntegerLanes : Prop :=
  ∀ (s : State) (c : Nat) (i : Instr) (pc gx gy gz gw : Word) (due : Nat) (rest : List VEntry) (h : Hdr)
      (d a : BitVec 5) (b : BitVec 6) (bs sat u hi : Bool) (m : BitVec 3) (zi : Bool),
    vecTurn s c ⟨i, pc, gx, gy, gz, gw, none, false, due⟩ rest →
    let x := getCtx s c
    let la (j : Nat) : Nat := lane (ctxV x a.toNat) j
    let lb (j : Nat) : Nat := if bs then gy.toNat % 2 ^ 32 else lane (ctxV x b.toNat) j
    let sa (j : Nat) : Int := (BitVec.ofNat 32 (la j)).toInt
    let sb (j : Nat) : Int := (BitVec.ofNat 32 (lb j)).toInt
    let n (j : Nat) : Nat := lb j % 32
    let lo : Int := if u then 0 else -2 ^ 31
    let top : Int := if u then 2 ^ 32 - 1 else 2 ^ 31 - 1
    let clamp (v : Int) : Int := if sat = false then v else if v < lo then lo else if top < v then top else v
    let counted (v : Nat → Int) : Word := fpstatAfter (ctxCr x crFpstat)
      ⟨0, ((List.range 64).filter (fun j => (ctxM x m.toNat).getLsbD j && sat && (decide (v j < lo) || decide (top < v j)))).length, 0, 0⟩
    let gives (f : Nat → Int) : Prop := ∃ t, exec (.vectorStart (c / 4)) s = .next t ∧
      lanesBecome x (getCtx t c) d m zi f ∧ CrsSame x (getCtx t c) []
    let givesSat (f : Nat → Int) : Prop := ∃ t, exec (.vectorStart (c / 4)) s = .next t ∧
      lanesBecome x (getCtx t c) d m zi (fun j => clamp (f j)) ∧ CrsSame x (getCtx t c) [crFpstat] ∧
      ctxCr (getCtx t c) crFpstat = counted f
    let pick (l : Bool) (p q : Int) : Int := if l then p else q
    (i = .viadd h d a b bs sat u m zi → givesSat (fun j => if u then la j + lb j else sa j + sb j)) ∧
    (i = .visub h d a b bs sat u m zi → givesSat (fun j => if u then (la j : Int) - lb j else sa j - sb j)) ∧
    (i = .vimul h d a b bs hi u m zi → gives (fun j => if hi = false then la j * lb j
      else if u then la j * lb j / 2 ^ 32 else sa j * sb j / 2 ^ 32)) ∧
    (i = .vand h d a b bs m zi → gives (fun j => (la j &&& lb j : Nat))) ∧
    (i = .vor h d a b bs m zi → gives (fun j => (la j ||| lb j : Nat))) ∧
    (i = .vxor h d a b bs m zi → gives (fun j => (la j ^^^ lb j : Nat))) ∧
    (i = .vshl h d a b bs m zi → gives (fun j => la j * 2 ^ n j)) ∧
    (i = .vshr h d a b bs m zi → gives (fun j => la j / 2 ^ n j)) ∧
    (i = .vsar h d a b bs m zi → gives (fun j => sa j / 2 ^ n j)) ∧
    (i = .vimin h d a b bs u m zi → gives (fun j =>
      if u then pick (decide (la j ≤ lb j)) (la j) (lb j) else pick (decide (sa j ≤ sb j)) (sa j) (sb j))) ∧
    (i = .vimax h d a b bs u m zi → gives (fun j =>
      if u then pick (decide (lb j ≤ la j)) (la j) (lb j) else pick (decide (sb j ≤ sa j)) (sa j) (sb j))) ∧
    (i = .vpopc h d a m zi → gives (fun j => ((List.range 32).filter (fun p => (la j).testBit p)).length)) ∧
    (i = .vclmul h d a b bs hi m zi →
      let prod (j : Nat) : Nat := (List.range 32).foldl (fun t p => if (lb j).testBit p then t ^^^ (la j * 2 ^ p) else t) 0
      gives (fun j => if hi then prod j / 2 ^ 32 % 2 ^ 31 else prod j))

/-- When a moving instruction is the head that VECTOR_START takes: each active lane of vD holds the value of R209,
computed from the registers as they were before any write; VSEL writes every lane, and VCOMPRESS moves the active
lanes of vA to lanes 0 to n - 1; inactive lanes, and lanes n to 63 of VCOMPRESS, follow ZI; no flag or count changes.
(R209.) -/
def Obligations.VectorMoveLanes : Prop :=
  ∀ (s : State) (c : Nat) (i : Instr) (pc gx gy gz gw : Word) (due : Nat) (rest : List VEntry) (h : Hdr)
      (d a b e : BitVec 5) (r q : BitVec 6) (src t2 neg dn : Bool) (n m k : BitVec 3) (zi : Bool),
    vecTurn s c ⟨i, pc, gx, gy, gz, gw, none, false, due⟩ rest →
    let x := getCtx s c
    let la (j : Nat) : Nat := lane (ctxV x a.toNat) j
    let lb (j : Nat) : Nat := lane (ctxV x b.toNat) j
    let below (w : Word) (j : Nat) : Nat := ((List.range j).filter (fun p => w.getLsbD p)).length
    let ids := (List.range 64).filter (fun j => (ctxM x m.toNat).getLsbD j)
    let gives (f : Nat → Nat) : Prop := ∃ t, exec (.vectorStart (c / 4)) s = .next t ∧
      lanesBecome x (getCtx t c) d m zi (fun j => f j) ∧ CrsSame x (getCtx t c) []
    let lanes (f : Nat → Nat) : Prop := ∃ t, exec (.vectorStart (c / 4)) s = .next t ∧ CrsSame x (getCtx t c) [] ∧
      (∀ j, j < 64 → lane (ctxV (getCtx t c) d.toNat) j = f j) ∧ ∀ p, p ≠ d.toNat → ctxV (getCtx t c) p = ctxV x p
    (i = .vbcast h d r q src m zi → gives (fun _ =>
      if src then lane (ctxV x r.toNat) (gy.toNat % 64) else gx.toNat % 2 ^ 32)) ∧
    (i = .vext h d a b q m zi → gives (fun j => if j + q.toNat < 64 then la (j + q.toNat) else lb (j + q.toNat - 64))) ∧
    (i = .vperm h d a b e t2 m zi → gives (fun j =>
      if t2 = false then la (lb j % 64)
      else if lb j % 128 < 64 then la (lb j % 128) else lane (ctxV x e.toNat) (lb j % 128 - 64))) ∧
    (i = .vpswap h d a n neg m zi → n.toNat < 6 → gives (fun j =>
      if neg = true ∧ j.testBit n.toNat = false then la (j ^^^ 2 ^ n.toNat) ^^^ 2 ^ 31 else la (j ^^^ 2 ^ n.toNat))) ∧
    (i = .vslide h d a r q dn m zi → gives (fun j =>
      if dn = false then (if gy.toNat ≤ j then la (j - gy.toNat) else gz.toNat % 2 ^ 32)
      else if j + gy.toNat < 64 then la (j + gy.toNat) else gz.toNat % 2 ^ 32)) ∧
    (i = .vexpand h d a m zi → gives (fun j => la (below (ctxM x m.toNat) j))) ∧
    (i = .viota h d n m zi → gives (fun j => below (ctxM x n.toNat) j)) ∧
    (i = .vsel h d a b k → lanes (fun j => if (ctxM x k.toNat).getLsbD j then la j else lb j)) ∧
    (i = .vcompress h d a m zi → lanes (fun j =>
      if j < ids.length then la (ids.getD j 0) else if zi then 0 else lane (ctxV x d.toNat) j))

/-- When the instruction is the head that VECTOR_START takes and no flag is enabled: VADD, VSUB, VMUL, VFMA, VDIV,
VSQRT, VMIN, VMAX, VRCP, VRSQ and the transcendental functions give each active lane the FP32 result on its operands,
and FPSTAT takes the exceptions of the active lanes; VSGN gives the lane with its new sign; VCVT converts the elements
of its part, and changes no other bit of vD; VCMP and VICMP give mD the comparison of each active lane; the mask
instructions their logic, and MPOPC the number of set bits; VMOV moves one register, lane or mask; VRED combines the
active lanes along the tree of R211, VSCAN in ascending order; VCONFL gives each active lane the leader, rank, count
and last lane of its value, and VCOMB each leader the combination of its lanes. VRCP, VRSQ and the transcendental
functions give the special results of R199 and R200. Registers that R9 makes constant discard the write. (Which of the
two adjacent numbers an approximation returns is a free value, logs 9 and 10; that VCVT raises NV for a signalling NaN
that it delivers to a narrow or scale format is the model's choice, log 76; so is, by log 104, that an element of a
part that lies past bit 2047 reads as 0 and is not written.) (R9, R91, R103, R194, R197, R199, R200, R205, R206, R208,
R211, R212.) -/
def Obligations.VectorFloatAndMaskResults : Prop :=
  (∀ (s : State) (c : Nat) (i : Instr) (pc gx gy gz gw : Word) (due : Nat) (rest : List VEntry) (h : Hdr)
      (d a e : BitVec 5) (r q : BitVec 6) (bs na nb zi adv : Bool) (rm cc : BitVec 4) (m p n o : BitVec 3) (dfmt sfmt : BitVec 8)
      (sop : BitVec 2),
    vecTurn s c ⟨i, pc, gx, gy, gz, gw, none, false, due⟩ rest →
    let x := getCtx s c
    let la (j : Nat) : Nat := lane (ctxV x a.toNat) j
    let lb (j : Nat) : Nat := if bs then gy.toNat % 2 ^ 32 else lane (ctxV x q.toNat) j
    let f (k : Nat) : FVal := widen 0x11 k
    let md := rndOf (rmCode x rm) 0
    let on (j : Nat) : Bool := (ctxM x m.toNat).getLsbD j
    let active := (List.range 64).filter on
    let flagged (t : State) (ex : Exc) : Prop := CrsSame x (getCtx t c) [crFpstat] ∧
      ctxCr (getCtx t c) crFpstat = fpstatAfter (ctxCr x crFpstat) ex
    let fp (g : Nat → Nat × Exc) : Prop := fpctlEnables x = 0 → ∃ t, exec (.vectorStart (c / 4)) s = .next t ∧
      lanesBecome x (getCtx t c) d m zi (fun j => (g j).1) ∧
      flagged t (excJoinList ((List.range 64).map (fun j => if on j then (g j).2 else excNone)))
    let mask (w : Word) (t : State) : Prop := ctxM (getCtx t c) p.toNat =
      (if p = 0 then BitVec.allOnes 64 else w) ∧ ∀ k, k ≠ p.toNat → ctxM (getCtx t c) k = ctxM x k
    let masks (w : Word) : Prop := ∃ t, exec (.vectorStart (c / 4)) s = .next t ∧ mask w t
    let general (w : Word) (t : State) : Prop :=
      ctxG (getCtx t c) r.toNat = (if r = 0 then 0 else w) ∧ ∀ k, k ≠ r.toNat → ctxG (getCtx t c) k = ctxG x k
    let generals (w : Word) : Prop := ∃ t, exec (.vectorStart (c / 4)) s = .next t ∧ general w t
    let inv (b : Bool) (w : Word) : Word := if b then ~~~ w else w
    let fold (op : Nat) (js : List Nat) : Option (Nat × Exc) := js.foldl (fun acc j => match acc with
      | none => some (la j, excNone)
      | some v => some ((combine op md v.1 (la j)).1, excJoin v.2 (combine op md v.1 (la j)).2)) none
    let value (op : Nat) (v : Option (Nat × Exc)) : Nat := (v.map (·.1)).getD (combineIdentity op)
    let excs (v : Option (Nat × Exc)) : Exc := (v.map (·.2)).getD excNone
    (i = .vadd h d a q bs m zi rm → fp (fun j => fpAdd 0x11 (f (la j)) (f (lb j)) md)) ∧
    (i = .vsub h d a q bs m zi rm → fp (fun j => fpSub 0x11 (f (la j)) (f (lb j)) md)) ∧
    (i = .vmul h d a q bs m zi rm → fp (fun j => fpMul 0x11 (f (la j)) (f (lb j)) md)) ∧
    (i = .vfma h d a q bs e m zi rm → fp (fun j => fpFma 0x11 (f (la j)) (f (lb j)) (f (lane (ctxV x e.toNat) j)) md)) ∧
    (i = .vdiv h d a q bs m zi rm → fp (fun j => fpDiv 0x11 (f (la j)) (f (lb j)) md)) ∧
    (i = .vsqrt h d a m zi rm → fp (fun j => fpSqrt 0x11 (f (la j)) md)) ∧
    (i = .vmin h d a q bs m zi → fp (fun j => fpMinMax 0x11 false (la j) (lb j))) ∧
    (i = .vmax h d a q bs m zi → fp (fun j => fpMinMax 0x11 true (la j) (lb j))) ∧
    (i = .vrcp h d a m zi → fp (fun j => rcp (la j))) ∧ (i = .vrsq h d a m zi → fp (fun j => rsq (la j))) ∧
    (i = .vexp2 h d a m zi → fp (fun j => exp2 (la j))) ∧ (i = .vlog2 h d a m zi → fp (fun j => log2f (la j))) ∧
    (i = .vsin h d a m zi → fp (fun j => sinf (la j))) ∧ (i = .vcos h d a m zi → fp (fun j => cosf (la j))) ∧
    (i = .vsinpi h d a m zi → fp (fun j => sinpi (la j))) ∧ (i = .vcospi h d a m zi → fp (fun j => cospi (la j))) ∧
    (i = .vsgn h d a q bs sop m zi → sop ≠ 3 → ∃ t, exec (.vectorStart (c / 4)) s = .next t ∧ CrsSame x (getCtx t c) [] ∧
      lanesBecome x (getCtx t c) d m zi (fun j =>
        let neg := if sop = 0 then (lb j).testBit 31 else if sop = 1 then !(lb j).testBit 31
          else (la j).testBit 31 ^^ (lb j).testBit 31
        (la j % 2 ^ 31 + (if neg then 2 ^ 31 else 0) : Nat))) ∧
    (i = .vcvt h d a m adv n dfmt sfmt rm → WellFormed i = true → fpctlEnables x = 0 →
      let ws := fmtWidth sfmt.toNat
      let wd := fmtWidth dfmt.toNat
      let at_ (w j : Nat) : Nat := w * (if w = 32 then j else 64 * n.toNat + j)
      let dph := fpctlDph x
      let res (j : Nat) : Nat × Exc := deliver dfmt.toNat
        (widen sfmt.toNat ((ctxV x a.toNat).extractLsb' (at_ ws j) ws).toNat)
        (rndOf (rmCode x rm) (ditherMatrix ((j / 16 + dph) % 16) ((j % 16 + 3 * dph) % 16))) (fmtIsInt sfmt.toNat)
      ∃ t, exec (.vectorStart (c / 4)) s = .next t ∧
        (∀ j, j < 64 → on j = true → at_ wd j + wd ≤ 2048 →
          ((ctxV (getCtx t c) d.toNat).extractLsb' (at_ wd j) wd).toNat = (res j).1 % 2 ^ wd) ∧
        (∀ k, k < 2048 → (∀ j, j < 64 → on j = true → k < at_ wd j ∨ at_ wd j + wd ≤ k) →
          (ctxV (getCtx t c) d.toNat).getLsbD k = (ctxV x d.toNat).getLsbD k) ∧
        (∀ k, k ≠ d.toNat → ctxV (getCtx t c) k = ctxV x k) ∧ CrsSame x (getCtx t c) [crFpstat, crFpctl] ∧
        ctxCr (getCtx t c) crFpstat = fpstatAfter (ctxCr x crFpstat)
          (excJoinList ((List.range 64).map (fun j => if on j then (res j).2 else excNone))) ∧
        ctxCr (getCtx t c) crFpctl = (if adv then (ctxCr x crFpctl &&& ~~~ 0xF0#64) |||
          BitVec.ofNat 64 ((dph + 1) % 16 * 16) else ctxCr x crFpctl)) ∧
    (i = .vcmp h p a q bs n m zi → fpctlEnables x = 0 → ∃ (w : Word) (t : State),
      exec (.vectorStart (c / 4)) s = .next t ∧ mask w t ∧
      (∀ j, j < 64 → w.getLsbD j = if on j then (fpCompare n.toNat (f (la j)) (f (lb j))).1
        else !zi && (ctxM x p.toNat).getLsbD j) ∧
      flagged t (excJoinList ((List.range 64).map (fun j =>
        if on j then (fpCompare n.toNat (f (la j)) (f (lb j))).2 else excNone)))) ∧
    (i = .vicmp h p a q bs cc m zi → ∃ w : Word, masks w ∧ ∀ j, j < 64 → w.getLsbD j =
      if on j then condInt cc.toNat 32 (BitVec.ofNat 32 (la j)) (BitVec.ofNat 32 (lb j))
      else !zi && (ctxM x p.toNat).getLsbD j) ∧
    (i = .mand h p n o na nb → masks (inv na (ctxM x n.toNat) &&& inv nb (ctxM x o.toNat))) ∧
    (i = .mor h p n o na nb → masks (inv na (ctxM x n.toNat) ||| inv nb (ctxM x o.toNat))) ∧
    (i = .mxor h p n o na nb → masks (inv na (ctxM x n.toNat) ^^^ inv nb (ctxM x o.toNat))) ∧
    (i = .mnot h p n → masks (~~~ (ctxM x n.toNat))) ∧
    (i = .mpopc h r n → generals (BitVec.ofNat 64 ((List.range 64).filter (fun k => (ctxM x n.toNat).getLsbD k)).length)) ∧
    (i = .vmovLaneToGeneral h r a q → generals (BitVec.ofNat 64 (la (gy.toNat % 64)))) ∧
    (i = .vmovMaskToGeneral h r n → generals (ctxM x n.toNat)) ∧
    (i = .vmovGeneralToMask h p q → masks gx) ∧
    (i = .vmovVector h d a m zi → ∃ t, exec (.vectorStart (c / 4)) s = .next t ∧
      lanesBecome x (getCtx t c) d m zi (fun j => la j)) ∧
    (i = .vmovGeneralToLane h d r q → ∃ t, exec (.vectorStart (c / 4)) s = .next t ∧ ∀ j, j < 64 →
      lane (ctxV (getCtx t c) d.toNat) j = if j = gy.toNat % 64 then gx.toNat % 2 ^ 32 else lane (ctxV x d.toNat) j) ∧
    (i = .vred h r a cc rm m → cc.toNat ≤ 10 → fpctlEnables x = 0 →
      let root := treeNode (combine cc.toNat md) (fun j => if on j then some (la j, excNone) else none) 6 0
      ∃ t, exec (.vectorStart (c / 4)) s = .next t ∧ general (BitVec.ofNat 64 (value cc.toNat root)) t ∧ flagged t (excs root)) ∧
    (i = .vscan h d a cc rm m zi → cc.toNat ≤ 10 → fpctlEnables x = 0 → ∃ t, exec (.vectorStart (c / 4)) s = .next t ∧
      lanesBecome x (getCtx t c) d m zi (fun j => value cc.toNat (fold cc.toNat (active.filter (fun k => decide (k ≤ j))))) ∧
      flagged t (excs (fold cc.toNat active))) ∧
    (i = .vscanExcl h d a cc rm m zi → cc.toNat ≤ 10 → fpctlEnables x = 0 → ∃ t, exec (.vectorStart (c / 4)) s = .next t ∧
      lanesBecome x (getCtx t c) d m zi (fun j => value cc.toNat (fold cc.toNat (active.filter (fun k => decide (k < j))))) ∧
      flagged t (excs (fold cc.toNat active))) ∧
    (i = .vconfl h d a p m zi → ∃ (w : Word) (t : State), exec (.vectorStart (c / 4)) s = .next t ∧
      (let same (j : Nat) : List Nat := active.filter (fun k => la k == la j)
       lanesBecome x (getCtx t c) d m zi (fun j => ((same j).headD 0
         + 2 ^ 8 * ((same j).filter (fun k => decide (k < j))).length + 2 ^ 16 * (same j).length
         + 2 ^ 24 * (same j).getLastD 0 : Nat)) ∧
       mask w t ∧ ∀ j, j < 64 → w.getLsbD j = (on j && decide ((same j).headD 0 = j)))) ∧
    (i = .vcomb h d a e n rm m zi → n.toNat ≤ 5 →
      let op := [8, 0, 9, 10, 4, 5].getD n.toNat 0
      let lead (j : Nat) : Nat := lane (ctxV x e.toNat) j % 64
      fp (fun j => if lead j = j then ((fold op (j :: active.filter (fun k => decide (j < k) && lead k == j))).getD (0, excNone))
        else (la j, excNone)))) ∧
  (let inf : Nat := 0x7F800000
   let minus (x : Nat) : Nat := x + 2 ^ 31
   let invalid : Nat × Exc := (0x7FC00000, excFlags flagNV)
   let code (neg : Bool) (mag : Nat) (exp : Int) : Nat × Exc := ((deliver 0x11 (.fin neg mag exp) .rne).1, excNone)
   let isInt (k mag : Nat) (exp : Int) : Prop := mag * 2 ^ (exp + 200).toNat = k * 2 ^ 200
   (∀ g ∈ [rcp, rsq, exp2, log2f, sinf, cosf, sinpi, cospi], ∀ (x : Nat) (neg : Bool) (pay : Nat), x < 2 ^ 32 →
     widen 0x11 x = .nan neg pay →
     g x = (x ||| 2 ^ 22, if x.testBit 22 then excNone else excFlags flagNV)) ∧
   rcp 0 = (inf, excFlags flagDZ) ∧ rcp (minus 0) = (minus inf, excFlags flagDZ) ∧
   rcp inf = (0, excNone) ∧ rcp (minus inf) = (minus 0, excNone) ∧
   (∀ x, 0 < x → x ≤ 0x200000 → rcp x = (inf, excFlags (flagOF ||| flagNX)) ∧
     rcp (minus x) = (minus inf, excFlags (flagOF ||| flagNX))) ∧
   (∀ x, 0x200000 < x → x < inf → ∀ neg m e, widen 0x11 x = .fin neg m e →
     ∃ md : Rnd, (md = .rup ∨ md = .rdn) ∧ rcp x = deliver 0x11 (divFin false 1 0 m e) md) ∧
   rsq 0 = (inf, excFlags flagDZ) ∧ rsq (minus 0) = (minus inf, excFlags flagDZ) ∧ rsq inf = (0, excNone) ∧
   (∀ x, 0 < x → x ≤ inf → rsq (minus x) = invalid ∧ log2f (minus x) = invalid) ∧
   exp2 (minus inf) = (0, excNone) ∧ exp2 inf = (inf, excNone) ∧
   (∀ x, 0x43000000 ≤ x → x < inf → exp2 x = (inf, excFlags (flagOF ||| flagNX))) ∧
   (∀ x neg mag exp k, widen 0x11 x = .fin neg mag exp → isInt k mag exp → k ≤ (if neg then 149 else 127) →
     exp2 x = code false 1 (if neg then -(k : Int) else k)) ∧
   log2f 0 = (minus inf, excFlags flagDZ) ∧ log2f (minus 0) = (minus inf, excFlags flagDZ) ∧ log2f inf = (inf, excNone) ∧
   (∀ x mag exp (k : Nat), widen 0x11 x = .fin false mag exp → mag = 2 ^ k →
     log2f x = code (decide (exp + k < 0)) (exp + k).natAbs 0) ∧
   (∀ g ∈ [sinf, cosf, sinpi, cospi], g inf = invalid ∧ g (minus inf) = invalid) ∧
   sinf 0 = (0, excNone) ∧ sinf (minus 0) = (minus 0, excNone) ∧
   (∀ x neg mag exp k, widen 0x11 x = .fin neg mag exp → isInt k mag exp → sinpi x = (if neg then minus 0 else 0, excNone) ∧
     cospi x = (if k % 2 = 0 then 0x3F800000 else 0xBF800000, excNone)) ∧
   (∀ x neg mag exp k, widen 0x11 x = .fin neg mag exp → isInt (2 * k + 1) mag (exp + 1) → cospi x = (0, excNone)))

/-- VECTOR_COMPLETE takes the started instruction of a context whose results are ready first out of the started ones and
fills its reply slot. VECTOR_START, on a core each of whose heads is an instruction without memory access and each of
whose contexts enters a handler on a trap, changes at most one context: in that one it changes no vector register,
lane mask or general register but those its head names as written, no predicate, and no control register but FPSTAT,
FPCTL, and those of a trap or a retirement; every memory and every other context is as before. (R189, R191, R192,
R222, R550.) -/
def Obligations.VectorStepsAndFrame : Prop :=
  ∀ (s : State),
    (∀ (c : Nat), c < 512 → (getCtx s c).vrun ≠ [] → ∃ e t, e ∈ (getCtx s c).vrun ∧ (∀ f ∈ (getCtx s c).vrun, e.due ≤ f.due) ∧
      exec (.vectorComplete c) s = .next t ∧ (getCtx t c).vrun = (getCtx s c).vrun.erase e ∧
        (getCtx t c).vq = (getCtx s c).vq ∧
        (∀ k, e.key = some k → (getCtx t c).replies = fillSlot k (.filled e.w) (getCtx s c).replies) ∧
        (e.key = none → (getCtx t c).replies = (getCtx s c).replies) ∧ SameMemory s t ∧
        GeneralSame (getCtx s c) (getCtx t c) [] ∧ VectorsSame (getCtx s c) (getCtx t c)) ∧
    (∀ (k : Nat) (t : State), k < 128 →
      (∀ c ∈ ctxsOfCore k, handlerReady s c = true ∧ ∀ e, (getCtx s c).vq.head? = some e → vecRegister e.instr = true) →
      exec (.vectorStart k) s = .next t →
      SameMemory s t ∧ t.dies = s.dies ∧ t.cohorts = s.cohorts ∧ (getCore t k).counters = (getCore s k).counters ∧
      ∃ c ∈ ctxsOfCore k, (∀ d, d ≠ c → getCtx t d = getCtx s d) ∧
        PredsSame (getCtx s c) (getCtx t c) [] ∧
        CrsSame (getCtx s c) (getCtx t c) (crFpstat :: crFpctl :: trapCrs ++ retireCrs) ∧
        (∀ e o, (getCtx s c).vq.head? = some e → vecOp e.instr = some o →
          (∀ r, r ∉ o.writes.vs → ctxV (getCtx t c) r = ctxV (getCtx s c) r) ∧
          (∀ r, r ∉ o.writes.ms → ctxM (getCtx t c) r = ctxM (getCtx s c) r) ∧
          (∀ r, vecDest e.instr ≠ some r → ctxG (getCtx t c) r = ctxG (getCtx s c) r)))

/-- When a vector memory instruction is the head that VECTOR_START takes, each of whose active lanes addresses four
aligned bytes of the context's own scratchpad window, with VSTART 0, no write outstanding, no breakpoint, no early-read
check and no error in that scratchpad: VLD and VGATH give each active lane its four bytes and keep the others, and
change no memory; VST and VSCAT leave at each active lane's bytes the combination of the old word with the active lanes
of that address in ascending order (the last lane for a store, AMOFADD's sum for ADD, the wrapping sum for IADD, the
signed minimum and maximum for IMIN and IMAX), and every byte of that scratchpad outside the active lanes' bytes, and
every other memory, as before. VLDT of a row-major record of 32-bit elements, read as integers or raw, gives each
active lane in bounds its element, and VSTT leaves each there. Each leaves VSTART 0, and none as its reply where it has
a key. At scope CTX, with no command of the context under way, ADD, IADD, IMIN and IMAX leave every memory as before,
and the next STORE_PERFORMED writes what they write. The bank groupings are those of R301. (That the lanes are
performed at the start, but for those writes, is the model's choice, logs 3 and 5.) (R131, R213, R214, R215, R216,
R217, R297, R330, R332.) -/
def Obligations.VectorLoadsReadTheScratchpad : Prop :=
  ∀ (s : State) (c : Nat) (i : Instr) (pc gx gy gz gw : Word) (key : Option Nat) (due : Nat) (rest : List VEntry) (h : Hdr)
      (d g : BitVec 5) (a b e : BitVec 6) (o : MemOrd) (m : BitVec 3) (str sx skip raw prom rmen : Bool) (z : BitVec 2)
      (rm : BitVec 3),
    let k := c / 4
    let x := getCtx s c
    c < 512 → 4 * k + ((getCore s k).vlast + 1) % 4 = c →
    x.vq = ⟨i, pc, gx, gy, gz, gw, key, true, due⟩ :: rest → x.vrun = [] →
    ctxCr x crVstart = 0 → x.out = [] → (getCore s k).badSpad = [] → (ctxCr x crEchkst).getLsbD 0 = false →
    (∀ n, n < 4 → (ctxCr x (crBpc n)).getLsbD 0 = false) → groupsOk s = true → x.phase = .running → dbgSs x = false →
    let on (j : Nat) : Bool := (ctxM x m.toNat).getLsbD j
    let linear (j : Nat) : Word := gx + gy + (if str then BitVec.ofNat 64 j * gz else BitVec.ofNat 64 (4 * j))
    let index (j : Nat) : Word := gx + (if sx then BitVec.ofInt 64 (BitVec.ofNat 32 (lane (ctxV x g.toNat) j)).toInt
      else BitVec.ofNat 64 (lane (ctxV x g.toNat) j)) * BitVec.ofNat 64 (2 ^ z.toNat)
    let off (p : Nat → Word) (j : Nat) : Nat := (p j).toNat - 2 ^ 60
    let inside (on : Nat → Bool) (p : Nat → Word) : Prop := ∀ j, j < 64 → on j = true → 2 ^ 60 ≤ (p j).toNat ∧
      off p j % 4 = 0 ∧ off p j + 4 ≤ 2 ^ 22 ∧ inSpadWindow s c (off p j) 4 = true
    let word (u : State) (p : Nat → Word) (j : Nat) : Nat := locRead u (.spad k (off p j)) 4
    let ended (t : State) : Prop := ctxCr (getCtx t c) crVstart = 0 ∧ (getCtx t c).vq = rest ∧
      ∃ f, (getCtx t c).vrun = [f] ∧ f.key = key ∧ f.w = 0
    let loads (on : Nat → Bool) (p : Nat → Word) : Prop := inside on p → ∃ t, exec (.vectorStart k) s = .next t ∧ SameMemory s t ∧
      ended t ∧ (∀ j, j < 64 → lane (ctxV (getCtx t c) d.toNat) j = if on j then word s p j else lane (ctxV x d.toNat) j) ∧
      ∀ r, r ≠ d.toNat → ctxV (getCtx t c) r = ctxV x r
    let performs (late : Bool) (on : Nat → Bool) (p : Nat → Word) (f : Nat → Nat → Nat) : Prop := inside on p →
      ∃ v t, exec (.vectorStart k) s = .next v ∧ ended v ∧ VectorsSame x (getCtx v c) ∧
      (if late then SameMemory s v ∧ exec (.storePerformed c 0) v = .next t else t = v) ∧
      (∀ j, j < 64 → on j = true → word t p j =
        ((List.range 64).filter (fun q => on q && off p q == off p j)).foldl (fun w q => f w (lane (ctxV x d.toNat) q)) (word s p j)) ∧
      (∀ q, q < 2 ^ 22 → (∀ j, j < 64 → on j = true → q < off p j ∨ off p j + 4 ≤ q) →
        locByte t (.spad k q) 0 = locByte s (.spad k q) 0) ∧
      (∀ (l : Loc) (n : Nat), (∀ q, l ≠ .spad k q) → locByte t l n = locByte s l n)
    let stores := performs false
    let combines := performs (decide (o.scope = 0) && !hasCommands s c)
    let signed (v : Nat) : Int := (BitVec.ofNat 32 v).toInt
    (i = .vld h d a b e str o m skip → loads on linear) ∧
    (i = .vst h d a b e str o m skip → stores on linear (fun _ v => v)) ∧
    (i = .vgath h d a g z sx o m skip → loads on index) ∧
    (i = .vscat h d a g z sx o m skip → stores on index (fun _ v => v)) ∧
    (i = .vscatAdd h d a g z sx o m skip → combines on index (fun w v => (fpAdd 0x11 (widen 0x11 w) (widen 0x11 v) .rne).1)) ∧
    (i = .vscatIadd h d a g z sx o m skip → combines on index (fun w v => (w + v) % 2 ^ 32)) ∧
    (i = .vscatImin h d a g z sx o m skip → combines on index (fun w v => if signed v < signed w then v else w)) ∧
    (i = .vscatImax h d a g z sx o m skip → combines on index (fun w v => if signed w < signed v then v else w)) ∧
    (∀ n, checkHandle s (ctxCr x crXspace) gx = .ok n →
      let r := recAll s n
      let w := coordOf gy gz
      let lanesOn (j : Nat) : Bool := on j && decide (w.x + j < 2 ^ 32) && inBounds r { w with x := w.x + j }
      let elem (j : Nat) : Word := tBase r + BitVec.ofNat 64 (4 * (w.x + j) + w.y * tPitch r 1 + w.z2 * tPitch r 2
        + w.z3 * tPitch r 3 + w.z4 * tPitch r 4)
      tLayout r = layRow → tFmt r = 4 ∨ tFmt r = 5 ∨ (tFmt r = 0x11 ∧ raw = true) → tPoisoned r = false → tConv r = false →
      (i = .vldt h d a b raw prom o m skip → loads lanesOn elem) ∧
      (i = .vstt h d a b raw prom rmen rm o m skip → stores lanesOn elem (fun _ v => v)))

/-- For every state and operands for which the body runs: TREG of a record image that is read without a fault and is
well formed puts it in the free index gB with the index's generation and VALID, and retires with the handle; TREL
clears VALID and advances the generation; TINFO reads a double-word of the record; TADDR retires with the address of
the element's byte in the mapping in force; TLD retires with the element's value, and TST with the element written,
once their checks pass, no enabled flag is raised and no band scale lies in another module or the host; an
uncorrectable error in what decides the mapping raises its cause. TLD.RAW of an element of a row-major mapping with
whole bytes, in the context's own scratchpad, gives the bytes at x * n + y * PITCH1 + the outer offset from BASE, and
TST.RAW of one leaves the register's low bytes there and no other byte of the scratchpad changed. ECHK exchanges its
bit; SPCFG to the grouping in force retires, to another of R301 joins those that wait, and waits; SPCFG_APPLY sets the
grouping of the first of them, which retires. A handle that names no valid record raises the cause of its check, and
SPCFG and ECHK raise ACCESS on other values. (That TLD and TST access memory at their own step is the model's choice of
order, logs 3 and 17; when SPCFG takes effect is its reading, log 45; the flags that TST and TLD raise for a NaN or a
narrow format, log 76, and the format in which TST reads its source while a conversion changes it, log 85, are its
choices.) (R301, R322, R324, R326, R327, R328, R329, R330, R412.) -/
def Obligations.TensorInstructionResults : Prop :=
  ∀ (h : Hdr) (d v a b : BitVec 6) (k : BitVec 4) (raw prom rmen : Bool) (rm : BitVec 3) (o : MemOrd) (s : State),
    let x := me s
    let hnd := checkHandle s (getCr s crXspace) (rg s a)
    let pair := pairVal s b
    let inRow (m : List Word) (n base : Nat) : Prop :=
      tLayout m = 0x01 ∧ tBits m = 8 * n ∧ n ≤ 8 ∧ (tBase m).toNat = 2 ^ 60 + base ∧ base < 2 ^ 22
    let place (m : List Word) (c : Coord) (n : Nat) : Nat :=
      c.x * n + c.y * tPitch m 1 + c.z2 * tPitch m 2 + c.z3 * tPitch m 3 + c.z4 * tPitch m 4
    (bodyRuns s h true [a, b] [d] = true → releaseHeld s = false → ∀ (u : State) (bs : List Byte),
      recordRead s (rg s a) 128 = some (u, bs) → (rg s b).toNat < 16384 →
      let i := (rg s b).toNat
      let img := wordsOf 16 bs
      recBad u i = false →
      (tValid (recAll s i) = true → exec (.treg h d a b) s = .next (faulted s s (recOf s cTensorBusy x.pc))) ∧
      (tValid (recAll s i) = false → recWellFormed img = true → tConv img = false → tPoisoned img = false → tConvPtr img = 0 →
        ∃ t, exec (.treg h d a b) s = .next (retired s 8 (wg t d (BitVec.ofNat 64 (tGen (recAll s i) * 2 ^ 14 + i)))) ∧
          recAll t i = withGenValid img (tGen (recAll s i)) true ∧
          ∀ j, j < 16384 → j ≠ i → recAll t j = recAll s j)) ∧
    (bodyRuns s h true [a] [] = true → releaseHeld s = false → ∀ i, hnd = .ok i → tConv (recAll s i) = false →
      ∃ t, exec (.trel h a) s = .next (retired s 8 t) ∧ tValid (recAll t i) = false ∧
        tGen (recAll t i) = (tGen (recAll s i) + 1) % 2 ^ 18 ∧ ∀ j, j < 16384 → j ≠ i → recAll t j = recAll s j) ∧
    (bodyRuns s h false [a] [d] = true →
      (∀ i, hnd = .ok i → exec (.tinfo h d a k) s = .next (retired s 8 (wg s d (recWord s i k.toNat)))) ∧
      (∀ e, hnd = .error e → exec (.tinfo h d a k) s = .next (faulted s s (recOf s e x.pc))) ∧
      ((getCr s crXspace).toNat / 2 ^ 48 ≠ tAsid (recAll s ((rg s a).toNat % 16384)) →
        recBad s ((rg s a).toNat % 16384) = false → hnd = .error cTensorHandle) ∧
      ((rg s a).toNat < 2 → exec (.echk h d a) s =
        .next (retired s 8 (wg (setCr s crEchkst (rg s a &&& 1)) d (getCr s crEchkst &&& 1)))) ∧
      (2 ≤ (rg s a).toNat → exec (.echk h d a) s = .next (faulted s s (recOf s cAccess (rg s a))))) ∧
    (bodyRuns s h false (a :: pairRegs b) [d] = true → ∀ i r c, openHandle s (rg s a) pair.1 pair.2 = .ok (i, r, c) →
      (∀ n, mapFault s i r c false = some n → exec (.taddr h d a b prom) s =
        .next (faulted s s (recOf s (if isSparse r then cAccess else n) x.pc)) ∧
        (orderHeld s o = false → exec (.tld h d a b raw prom o) s = .next (faulted s s (recOf s n x.pc)))) ∧
      (mapFault s i r c false = none →
      let m := mapFor s i r c
      (isSparse r = false → ∃ u, exec (.taddr h d a b prom) s =
          .next (retired s 8 (wg u d ((elemPtrs m c).headD 0))) ∧ SameMemory s u ∧ (prom = false → u = s)) ∧
      (orderHeld s o = false → farBand m c raw = none →
        (∀ n ex u, loadedElem s m c raw 64 = .ok (n, ex, u) → flagTraps x ex = false → ∃ w,
          exec (.tld h d a b raw prom o) s = .next (retired s 8 (noteLoad (wg w d (BitVec.ofNat 64 n)) d)) ∧
          ctxCr (me w) crFpstat = fpstatAfter (ctxCr (me u) crFpstat) ex ∧ (prom = false → w = setMe u (applyExc (me u) ex))) ∧
        (∀ e : FaultRec, e.cause ≠ 0 → loadedElem s m c raw 64 = .error e →
          exec (.tld h d a b raw prom o) s = .next (faulted s s e))) ∧
      (orderHeld s o = false → ∀ n base, inRow m n base → inSpadWindow s s.cur (base + place m c n) n = true →
        watchBytes s (elemPtrs m c) false = none → base + place m c n + n ≤ 2 ^ 22 →
        firstBad s (myCore s) (base + place m c n) n = none →
        ∃ t, exec (.tld h d a b true prom o) s = .next (retired s 8 t) ∧ SameMemory s t ∧ GeneralSame x (me t) [d] ∧
          (d ≠ 0 → rg t d = BitVec.ofNat 64 (locRead s (.spad (myCore s) (base + place m c n)) n))))) ∧
    (bodyRuns s h false (v :: a :: pairRegs b) [] = true → writeHeld s o = false →
      ∀ i r c m, openHandle s (rg s a) pair.1 pair.2 = .ok (i, r, c) → tRo r = false → isSparse r = false →
      mapElem s i r c true = .use m →
      (∀ n base, inRow m n base → inSpadWindow s s.cur (base + place m c n) n = true → groupsOk s = true →
        watchBytes s (elemPtrs m c) true = none → base + place m c n + n ≤ 2 ^ 22 →
        ∃ t, exec (.tst h v a b true prom rmen rm o) s = .next (retired s 8 t) ∧ GeneralSame x (me t) [] ∧
          locRead t (.spad (myCore s) (base + place m c n)) n = (rg s v).toNat % 2 ^ (8 * n) ∧
          ∀ q, q < 2 ^ 22 → q < base + place m c n ∨ base + place m c n + n ≤ q →
            locByte t (.spad (myCore s) q) 0 = locByte s (.spad (myCore s) q) 0) ∧
      farBand m c raw = none → ∀ n ex u, storedCode s m c raw (tmode s rmen rm) (rg s v).toNat 64 = .ok (n, ex, u) →
      flagTraps x ex = false →
      ∀ w, storeElem (promoteIf prom (setMe u (applyExc (me u) ex)) i c) m c n o.oc = .ok w →
      exec (.tst h v a b raw prom rmen rm o) s = .next (retired s 8 w)) ∧
    (bodyRuns s h true [a] [] = true →
      let g := (rg s a).toNat
      let waits : Prop := ∃ e ∈ (getCore s (myCore s)).spcfgs, e.1 = s.cur
      (g ≤ 5 → ¬ waits → (getCore s (myCore s)).spmapG = g → exec (.spcfg h a) s = .next (retired s 8 s)) ∧
      (g ≤ 5 → ¬ waits → (getCore s (myCore s)).spmapG ≠ g → exec (.spcfg h a) s =
        .next (modCore s (myCore s) (fun q => { q with spcfgs := q.spcfgs ++ [(s.cur, g)] }))) ∧
      (g ≤ 5 → waits → exec (.spcfg h a) s = .next s) ∧
      (5 < g → exec (.spcfg h a) s = .next (faulted s s (recOf s cAccess (rg s a))))) ∧
    (∀ j c g rest, j < 128 → (getCore s j).spcfgs = (c, g) :: rest → spadBusy s j = false →
      let y := getCtx s c
      y.phase = .running → noLoop y = true → dbgSs y = false → ∃ t, exec (.spcfgApply j) s = .next t ∧
        (getCore t j).spmapG = g ∧ (getCore t j).spcfgs = rest ∧ (getCtx t c).pc = y.pc + 8 ∧
        ctxCr (getCtx t c) crRetired = ctxCr y crRetired + 1 ∧ GeneralSame y (getCtx t c) [] ∧
        ∀ k off, locByte t (.spad k off) 0 = locByte (modCore s j (fun q => { q with spmapG := g })) (.spad k off) 0)

/-- For every state and operands for which the body runs: RELAYOUT whose image and area pass the checks of R420, with
no earlier FENCE holding its class back, retires with the number of units, sets CONV and the area in the record, adds
the units to its counter and enters its conversion in the die's rotation; RELAYOUT.RES of a conversion makes its HELD
units BUSY again, or abandons it, which leaves the record POISONED with CONV clear; TSTAT retires with the status word
asked for, or raises ECC_UNCORRECTABLE where the bytes it reads of the area have an error; TSYNC retires when CONV is
clear, waits while it is set, and raises POISON_CONSUMED on a POISONED record. A unit taken is in hand; a unit
completed leaves the hand and lowers the counter by 1; a unit that meets a fault leaves the hand with a record in the
issuing core's fault queue. (That the ADDR of TSTAT's ECC_UNCORRECTABLE record is the area's base is the model's
choice, log 109; a byte of the area that cannot be read is a free value, log 95.) (R420, R421, R423, R426, R428, R429,
R430, R431.) -/
def Obligations.LayoutEngineResults : Prop :=
  ∀ (h : Hdr) (cnt : BitVec 5) (oc : BitVec 2) (d a b c : BitVec 6) (sel : BitVec 2) (s : State),
    let x := me s
    let hnd := checkHandle s (getCr s crXspace) (rg s a)
    let die := dieOfCtx s.cur
    (bodyRuns s h false [a, b, c] [d] = true → ∀ (i : Nat) (u : State) (bs : List Byte), hnd = .ok i →
      (getDie s die).convs.length < 16 → classOpen s s.cur oc = true → ownsCounter s s.cur cnt.toNat = true →
      tPoisoned (recAll s i) = false → tConv (recAll s i) = false → recordRead s (rg s b) 128 = some (u, bs) →
      let img := wordsOf 16 bs
      let nu := unitCount (recAll s i) img
      areaCause u (rg s c) (areaSize nu) = none → imageOk (recAll s i) img = true → convHeld s (recAll s i) img (rg s c) = false →
      (getCounter s (myCore s) cnt.toNat).value + nu < 2 ^ 40 →
      ∃ (t : State) (e : Conv), exec (.relayout h cnt oc d a b c) s = .next (retired s 8 (wg t d (BitVec.ofNat 64 nu))) ∧
        (getDie t die).convs = (getDie s die).convs ++ [e] ∧ e.rec_ = i ∧ e.nu = nu ∧ e.done = 0 ∧ e.ctx = s.cur ∧
        e.area = rg s c ∧ tConv (recAll t i) = true ∧ tConvPtr (recAll t i) = rg s c ∧
        (getCounter t (myCore s) cnt.toNat).value = (getCounter s (myCore s) cnt.toNat).value + nu) ∧
    (bodyRuns s h true [a, b] [] = true → ∀ (i k : Nat) (e : Conv), hnd = .ok i → findConv s i = some (k, e) →
      tConv (recAll s i) = true →
      (rg s b = 0 → exec (.relayoutResRetry h a b) s = .next (retired s 8 (retryHeld s k e))) ∧
      (rg s b = 1 → exec (.relayoutResAbandon h a b) s = .next (retired s 8 (passAll (abandonConv s k e))) ∧
        tPoisoned (recAll (abandonConv s k e) e.rec_) = true ∧ tConv (recAll (abandonConv s k e) e.rec_) = false)) ∧
    (bodyRuns s h false [a] [d] = true → ∀ i, hnd = .ok i →
      let ps := tstatPtrs s i sel.toNat
      let w := areaWho s i
      ((∀ p ∈ ps, ∀ l, rawLoc s w p = some l → spadHeld s l = false) →
        (ptrsBad s w ps = false →
          exec (.tstat h d a sel) s = .next (retired s 8 (wg s d (BitVec.ofNat 64 (tstatVal s i sel.toNat))))) ∧
        (ptrsBad s w ps = true →
          exec (.tstat h d a sel) s = .next (faulted s s (recOf s cEcc (tConvPtr (recAll s i)))))) ∧
      (tConvPtr (recAll s i) = 0 → tstatVal s i 0 = (if tPoisoned (recAll s i) then 2 ^ 62 else 0) ∧
        tstatVal s i 1 = 0 ∧ tstatVal s i 2 = 0)) ∧
    (bodyRuns s h false [a] [] = true → ∀ i, hnd = .ok i →
      (tConv (recAll s i) = true → exec (.tsync h a) s = .next s) ∧
      (tConv (recAll s i) = false → tPoisoned (recAll s i) = true →
        exec (.tsync h a) s = .next (faulted s s (recOf s cPoison x.pc))) ∧
      (tConv (recAll s i) = false → tPoisoned (recAll s i) = false → exec (.tsync h a) s = .next (retired s 8 s))) ∧
    (∀ k, k < 4 →
      (∀ i n e, (getDie s k).unit = none → nextUnit s k = some (i, n) →
        (getDie s k).convs.find? (fun f => f.rec_ == i) = some e → ∃ t, exec (.layoutUnitTake k) s = .next t ∧
          (getDie t k).unit = some (i, n) ∧ ∀ j, getCtx t j = getCtx s j) ∧
      (∀ e n u ex, unitInHand s k = some (e, n) → convertUnit s e n = .ok (u, ex) →
        ∃ t, exec (.layoutUnitComplete k) s = .next t ∧ (getDie t k).unit = none ∧
        (let old := getCounter u (coreOfCtx e.ctx) e.cnt
         0 < old.value → (getCounter t (coreOfCtx e.ctx) e.cnt).value = old.value - 1) ∧
        (e.done + 1 = e.nu → ∀ f ∈ (getDie t k).convs, f.rec_ ≠ e.rec_)) ∧
      (∀ e n cause addr, unitInHand s k = some (e, n) → convertUnit s e n = .error (cause, addr) →
        (getCore s (coreOfCtx e.ctx)).faultq.length < 64 → ∃ t, exec (.layoutUnitFault k) s = .next t ∧
        (getDie t k).unit = none ∧ ∃ r ∈ (getCore t (coreOfCtx e.ctx)).faultq,
          r.cause = cause ∧ r.agent = 5 ∧ r.addr = addr ∧ r.pc = e.pc ∧ r.ctx = e.ctx))

/-- For every state and operands for which the body runs: PPART with fields in their limits, in quads and entries that
no partition holds, makes a partition of the lowest free number, binds the context and retires with the number;
PPART.REL of an idle partition outside a gang frees it and leaves its entries to be cleared; each queued command whose
operands pass its checks, a PDRAIN with an RM below 6, joins its queue, and a PDRAIN with another RM raises at once
ILLEGAL_INSTR or, under a true guard, the first condition that applies of those above it in R287's table; PEXC by its
operand reads or sets the counters, thresholds, dither phase and STOP; PPROG and PSTAT read the progress and the items
of the partition. Without a partition each of them but PPART raises ACCESS. (For what PEXC waits is the model's
reading, log 31, and so are the fields of PPROG while a command runs, log 30, which commands take a place of a queue,
log 79, and the order of a command's checks, logs 81 and 82.) (R270, R272, R275, R276, R277, R279, R280, R283, R284,
R287, R292, R293.) -/
def Obligations.PoolInstructionResults : Prop :=
  ∀ (h : Hdr) (ctl : CmdCtl) (d a b c e : BitVec 6) (rm : BitVec 3) (clr int bs rb : Bool) (s : State),
    let k := myCore s
    let q := getCore s k
    let ga := (rg s a).toNat
    let gb := (rg s b).toNat
    let access (i : Instr) : Prop := exec i s = .next (faulted s s (recOf s cAccess (me s).pc))
    (bodyRuns s h false [a, b] [d] = true → ∀ (x : Cohort) (n : Nat), cohortOf s s.cur = some x → (me s).coh = some n →
      let size := bitsOf ga 27 16
      let off := bitsOf ga 11 0
      let quad := (match seatOn x k with | some t => t.quad | none => 0) + off
      let asize := bitsOf gb 49 32
      let abase := bitsOf gb 16 0
      ppartFieldsOk ga gb = true → (me s).bind = none → off + size ≤ lrQuads x.lrec → abase + asize ≤ 131072 →
      (partNumbers q).length < 4 → (∀ v ∈ q.parts, rangesMeet quad size v.2.qbase v.2.qsize = false ∧
        rangesMeet abase asize v.2.abase v.2.asize = false) →
      (∀ w ∈ q.kept, rangesMeet abase asize w.abase w.asize = false) →
      (∀ w ∈ q.clearing, rangesMeet abase asize w.1 w.2 = false) →
      ∃ (p : Nat) (t : State) (y : Part), exec (.ppart h d a b) s = .next (retired s 8 (wg t d (BitVec.ofNat 64 p))) ∧
        p < 4 ∧ p ∉ partNumbers q ∧ (∀ r, r < p → r ∈ partNumbers q) ∧ (me t).bind = some p ∧ getPart t k p = some y ∧
        y.ctx = s.cur ∧ y.coh = n ∧ y.qbase = quad ∧ y.qsize = size ∧ y.abase = abase ∧ y.asize = asize ∧ SameMemory s t) ∧
    (bodyRuns s h false [] [] = true → ∀ (p : Nat) (x : Part), boundPart s = some (p, x) → x.gang = none →
      partIdle s k p x = true → ∃ t, exec (.ppartRel h) s = .next (retired s 8 t) ∧ getPart t k p = none ∧
        (getCore t k).clearing = q.clearing ++ [(x.abase, x.asize)] ∧ (getCtx t x.ctx).bind = none) ∧
    (bodyRuns s h false [a] [] = true → commandQueues s (.pcfg h ctl a) ctl .config (pcfgPlan a) ∧
      commandQueues s (.pcfgPlc h ctl a) ctl .config (pcfgPlcPlan a)) ∧
    (bodyRuns s h false [a, b] [] = true → commandQueues s (.pclr h ctl a b) ctl .drain (pclrPlan a b) ∧
      commandQueues s (.pscan h ctl a b) ctl .operand (pscanPlan a b)) ∧
    (bodyRuns s h false [a, b, c, e] [] = true →
      commandQueues s (.psweep h ctl a b c e) ctl .operand (psweepPlan a b c e) ∧
      commandQueues s (.psweeps h ctl a b c e) ctl .operand (psweepsPlan a b c e)) ∧
    (bodyRuns s h false (if rb then [a, b, c] else [a, b]) [] = true →
      commandQueues s (.ptopk h ctl a b c rb) ctl .operand (ptopkPlan a b c rb)) ∧
    (bodyRuns s h false (a :: c :: (pairRegs b ++ if bs then [e] else [])) [] = true →
      rm.toNat < 6 → commandQueues s (.pdrain h ctl a b c e rm clr int bs) ctl .drain (pdrainPlan a b c e rm clr int bs)) ∧
    (ctxBlocked (me s) = false → 6 ≤ rm.toNat →
      let raises (cause : Nat) : Prop :=
        exec (.pdrain h ctl a b c e rm clr int bs) s = .next (faulted s s (recOf s cause (me s).pc))
      let found := checkHandle s (getCr s crXspace) (BitVec.ofNat 64 (ga % 2 ^ 32))
      let ok (i : Nat) : Bool := drainRecordOk (recAll s i) (pairVal s b).1 (pairVal s b).2 (rg s c)
      (guardRuns s h = false → raises cIllegal) ∧
      (guardRuns s h = true →
        (∀ cause, found = .error cause → raises cause) ∧
        (∀ i, found = .ok i → tPoisoned (recAll s i) = true → raises cPoison) ∧
        (∀ i, found = .ok i → tPoisoned (recAll s i) = false → ok i = false → raises cAccess) ∧
        (∀ i, found = .ok i → tPoisoned (recAll s i) = false → ok i = true → raises cIllegal))) ∧
    (bodyRuns s h false [a, b] [d] = true → ∀ (p : Nat) (x : Part), boundPart s = some (p, x) → pexcWaits s k p x = false →
      let gives (i : Instr) (y : Part) (v : Word) : Prop := exec i s = .next (retired s 8 (wg (putPart s k p y) d v))
      (rg s a = 0 → gives (.pexcReadCounters h d a b) x (countsWord x.counts)) ∧
      (rg s a = 1 → gives (.pexcReadThresholds h d a b) x (countsWord x.thresh)) ∧
      (rg s a = 2 → gives (.pexcSetThresholds h d a b) { x with thresh := countsOf (rg s b) } (countsWord x.thresh)) ∧
      (rg s a = 3 → gives (.pexcReadClearCounters h d a b) { x with counts := ⟨0, 0, 0⟩ } (countsWord x.counts)) ∧
      (rg s a = 4 → gb < 16 → gives (.pexcSetDitherPhase h d a b) { x with phase := gb } (BitVec.ofNat 64 x.phase)) ∧
      (rg s a = 5 → gives (.pexcResume h d a b) { x with stop := false } (if x.stop then 1 else 0))) ∧
    (∀ (p : Nat) (x : Part), boundPart s = some (p, x) →
      (bodyRuns s h false [] [d] = true → exec (.pprog h d) s = .next (retired s 8 (wg s d (partProg x)))) ∧
      (bodyRuns s h false [a] [d] = true → ∀ v, pstatItem p x ga = some v →
        exec (.pstat h d a) s = .next (retired s 8 (wg s d v)))) ∧
    (boundPart s = none →
      (bodyRuns s h false [] [] = true → access (.ppartRel h)) ∧ (bodyRuns s h false [] [d] = true → access (.pprog h d)) ∧
      (bodyRuns s h false [a] [] = true → access (.pcfg h ctl a) ∧ access (.pcfgPlc h ctl a)) ∧
      (bodyRuns s h false [a, b] [] = true → access (.pclr h ctl a b) ∧ access (.pscan h ctl a b)) ∧
      (bodyRuns s h false [a] [d] = true → access (.pstat h d a)) ∧
      (bodyRuns s h false [a, b] [d] = true → access (.pexcReadCounters h d a b)))

/-- When the step is due: a freed window holds zeros without poison after PARTITION_WINDOW_CLEARED and no other entry
changes; a configuration load leaves its queue for the shadow, takes a set that the cache lacks by CONFIG_CACHE_FILL,
is READY once R245 accepts it and becomes active; a drain or clear leaves its queue, a clear leaves its entries zero,
and each ends; an operand command leaves its queue for the started ones, a sweep with its first fold begun, a fold
begins and lands, and PSCAN and PTOPK end. A command starts only when no write that it must follow is outstanding, and
a drain or clear once no started command has updates of its entries to land. (That a drain or clear acts in one step,
at its end, is the model's choice, log 42; so are the condition under which an operand command starts without an active
configuration, log 40, that a command waits unstarted for earlier drains of its entries, log 83, and the set cache's
tags of virtual address and ASID, log 78.) (R245, R252, R256, R263, R264, R266, R276, R277, R283, R285, R289, R349.) -/
def Obligations.PoolEngineSteps : Prop :=
  ∀ (s : State) (k p : Nat), k < 128 → p < 4 →
    (∀ base w, (getCore s k).clearing.find? (fun v => v.1 == base) = some w → ∃ t,
      exec (.partitionWindowCleared k base) s = .next t ∧ w ∉ (getCore t k).clearing ∧
      (∀ e, w.1 ≤ e ∧ e < w.1 + w.2 → accEntry (getCore t k) e = 0 ∧ e ∉ (getCore t k).poison) ∧
      (∀ e, e < w.1 ∨ w.1 + w.2 ≤ e → accEntry (getCore t k) e = accEntry (getCore s k) e) ∧
      ∀ c, getCtx t c = getCtx s c) ∧
    (∀ (die addr : Nat) (x : Part) (c : PoolCmd) (arg : Word) (bs : List Byte) (m : Bool) (u : State), die < 4 →
      getPart s (32 * die) 0 = some x → awaits addr x = some (c, arg) → loadSet s die (poolWho c) arg = .ok (bs, m, u) →
      exec (.configCacheFill die addr) s = .next (putPart u (32 * die) 0
        { x with misses := (x.misses + 1) % 2 ^ 64, shadow := .loading c (some ⟨false, addr, bs⟩) none })) ∧
    (∀ g y, tabFind s.gangs g = some y →
      let gno := ((y.members.head?).bind (headCmd s)).map (fun c => c.gno)
      allParts s y.members (fun m z => canStart s z && (headCmd s m).map (fun c => c.gno) == gno) = true →
      let t := startSet s y.members (if setAgrees s y.members then none else some cConfig)
      exec (.gangSetStart g) s = .next (if canBeginAll t y.members then beginFolds t y.members true else t)) ∧
    (∀ x : Part, getPart s k p = some x →
      (∀ c rest, x.cfgq = c :: rest → x.shadow = .empty → x.stop = false → ctxActive s c.ctx = true →
        classOpen s c.ctx c.oc = true → ∀ arg, c.op = .load arg false → cacheFind s (k / 32) (xspaceAsid c.xspace) (arg.toNat % 2 ^ 56) = none →
        exec (.configLoadStart k p) s = .next (putPart s k p { x with cfgq := rest, shadow := .loading c none none })) ∧
      (∀ c rest, classOpen s c.ctx c.oc = false →
        (x.cfgq = c :: rest → exec (.configLoadStart k p) s = .next s) ∧
        (x.drq = c :: rest → exec (.clearStart k p) s = .next s ∧ exec (.drainStart k p) s = .next s) ∧
        (x.opq = c :: rest → exec (.operandCommandStart k p) s = .next s)) ∧
      (∀ c y, x.shadow = .loading c (some y) none → setValid (setView y.bytes) x.qsize x.asize x.gang.isSome = true →
        exec (.configReady k p) s = .next (putPart s k p { x with shadow := .ready c y })) ∧
      (∀ c y, x.shadow = .loading c (some y) none → setValid (setView y.bytes) x.qsize x.asize x.gang.isSome = false →
        ∃ t z, exec (.configReady k p) s = .next t ∧ getPart t k p = some z ∧ z.shadow = .empty ∧ z.active = x.active) ∧
      (∀ c y, x.shadow = .ready c y → x.opq = [] → x.runs = [] → ctxActive s x.ctx = true →
        ∃ t z, exec (.configActivate k p) s = .next t ∧ getPart t k p = some z ∧ z.active = some y ∧ z.shadow = .empty) ∧
      (∀ c rest, x.drq = c :: rest → x.drRun = none → x.stop = false → ctxActive s x.ctx = true → classOpen s c.ctx c.oc = true →
        x.opq = [] → updatesPending x c = false → let t := putPart s k p { x with drq := rest, drRun := some c }
        (∀ f n, c.op = .clear f n → exec (.clearStart k p) s = .next t) ∧
        ((∀ f n, c.op ≠ .clear f n) → exec (.drainStart k p) s = .next t)) ∧
      (∀ c, x.drRun = some c → updatesPending x c = false →
        (∀ f n, c.op = .clear f n → ∃ t z, exec (.clearComplete k p) s = .next t ∧ getPart t k p = some z ∧ z.drRun = none ∧
          (∀ e, x.abase + f ≤ e ∧ e < x.abase + f + n → accEntry (getCore t k) e = 0 ∧ e ∉ (getCore t k).poison) ∧
          ∀ e, e < x.abase + f ∨ x.abase + f + n ≤ e → accEntry (getCore t k) e = accEntry (getCore s k) e) ∧
        (∀ hd r c0 c1 rect band rm clr int, c.op = .drain hd r c0 c1 rect band rm clr int →
          drainWaits s ⟨hd, r, c0, c1, rect, band, rm, clr, int⟩ = false → ∃ t z, exec (.drainComplete k p) s = .next t ∧
          getPart t k p = some z ∧ z.drRun = none ∧ z.phase = (x.phase + 1) % 16)) ∧
      (x.gang = none →
        (∀ c rest, canStart s x = true → x.opq = c :: rest →
          let u := putPart s k p { x with opq := rest, runs := x.runs ++ [opRunOf c none] }
          (startBad s x c = none → isSweep c = false → exec (.operandCommandStart k p) s = .next u) ∧
          (startBad s x c = none → isSweep c = true → 0 < cmdNf c → (planFold u (k, p)).1 = none → ∃ t z w,
            exec (.operandCommandStart k p) s = .next t ∧ getPart t k p = some z ∧ z.opq = rest ∧ lastRun z = some w ∧
            w.cmd = c ∧ w.begun = 1 ∧ w.flight.length = 1 ∧ w.done = 0 ∧ SameMemory s t) ∧
          (∀ e, startBad s x c = some e → ∃ t z, exec (.operandCommandStart k p) s = .next t ∧
            getPart t k p = some z ∧ z.opq = rest ∧ z.runs = x.runs ∧ z.progFlt = true)) ∧
        (canBegin s x = true → (planFold s (k, p)).1 = none → ∃ t z r w, exec (.foldBegin k p) s = .next t ∧
          getPart t k p = some z ∧ lastRun x = some r ∧ lastRun z = some w ∧ w.begun = r.begun + 1 ∧
          w.flight.length = r.flight.length + 1 ∧ SameMemory s t) ∧
        (∀ r f g fs, x.runs = [r] → r.flight = f :: g :: fs → ∃ t z w, exec (.foldLand k p) s = .next t ∧
          getPart t k p = some z ∧ z.runs = [w] ∧ w.flight = g :: fs ∧ w.done = r.done + 1 ∧
          ∀ e, accEntry (getCore t k) e = accEntry (landUpdates (getCore s k) f.updates).1 e) ∧
        (∀ r v, x.runs = [r] → frontRun x true = some (r, v) →
          ∃ t z, exec (.pscanComplete k p) s = .next t ∧ getPart t k p = some z ∧ z.runs = []) ∧
        (∀ r v, x.runs = [r] → frontRun x false = some (r, v) →
          ∃ t z, exec (.ptopkComplete k p) s = .next t ∧ getPart t k p = some z ∧ z.runs = [])))

/-- For every state and operands for which the body runs, each copy instruction whose operands and ranges pass the
checks of R393 joins the queue of its context on its engine, and its counter rises by its contribution.
COPY_COMMAND_START gives a free slot to an interrupted command that waits for one, else to the head of the next queue
in rotation, once no write that the command must follow is outstanding, and COPY_BEAT_LAND performs the next unit of a
command that waits for no peer. Of a plain copy within the scratchpad of its core, and of a fill of it, each step, of 1
to 4099 bytes, leaves in the next bytes of the destination what the source held when it was read, or the pattern,
changes no other byte of the scratchpad, lowers the counter by the bytes landed, and the command goes on behind them
with what it has read or, at its last byte, leaves its slot. (When a command reads its source and how far a step goes
is the model's choice, log 88; that an interrupted command waits for a slot, log 102.) (R347, R386, R387, R391, R393,
R395, R397, R402, R404, R408.) -/
def Obligations.CopyInstructionResults : Prop :=
  ∀ (h : Hdr) (cnt : BitVec 5) (oc : BitVec 2) (a b c d : BitVec 6) (eng mc red rop rfmt zfill xc prom sum : Bool)
      (p : BitVec 3) (s : State),
    let plain : CopyMods := ⟨mc, none, false⟩
    let full : CopyMods := ⟨mc, redOf red rop rfmt, rfmt⟩
    let one : CopyMods := ⟨false, none, false⟩
    (bodyRuns s h false [a, b, c] [] = true →
      copyQueues s (.cpy h cnt oc a b c eng mc red rop rfmt) cnt eng full false (cpyPlan a b c full) ∧
      copyQueues s (.cfill h cnt oc a b c eng mc p) cnt eng plain false (cfillPlan a b c plain p)) ∧
    (bodyRuns s h false [a, b, c, d] [] = true →
      copyQueues s (.cpy2 h cnt oc a b c d eng mc red rop rfmt) cnt eng full false (cpy2Plan a b c d full) ∧
      copyQueues s (.cpyg h cnt oc a b c d eng mc) cnt eng plain false (cpygPlan a b c d plain) ∧
      (let m : CopyMods := ⟨mc, none, rfmt⟩
       copyQueues s (.cpyr h cnt oc a b c d eng mc sum rfmt) cnt eng m false (cpyrPlan a b c d m sum)) ∧
      (let m : CopyMods := ⟨false, redOf red rop rfmt, rfmt⟩
       copyQueues s (.cpys h cnt oc a b c d eng red rop rfmt) cnt eng m false (cpysPlan a b c d m))) ∧
    (bodyRuns s h false (a :: c :: d :: pairRegs b) [] = true →
      copyQueues s (.cpyt h cnt oc a b c d eng mc zfill xc prom) cnt eng plain false (cpytPlan a b c d plain zfill xc prom) ∧
      copyQueues s (.cpyts h cnt oc a b c d eng xc prom p) cnt eng one xc (cpytsPlan a b c d xc prom p)) ∧
    (∀ (k e j : Nat), k < 128 → e < 2 → j < 4 →
      let g := getEngine s k e
      let o := 4 * k + (g.ptr + 1) % 4
      (∀ r rest, waitingRun g = some (r, rest) → tabFind g.active j = none → (∀ i, i < j → (tabFind g.active i).isSome = true) →
        exec (.copyCommandStart k e) s = .next (putEngine s k e { g with active := tabPut rest j r })) ∧
      (∀ cmd rest, ctxActive s o = true → classOpen s o cmd.oc = true → tabGet [] g.queues o = cmd :: rest → unitEnd cmd.op ≠ 0 →
        waitingRun g = none → tabFind g.active j = none → (∀ i, i < j → (tabFind g.active i).isSome = true) →
        ∃ t, exec (.copyCommandStart k e) s = .next t ∧ tabFind (getEngine t k e).active j = some (runOf cmd) ∧
          tabGet [] (getEngine t k e).queues o = rest ∧ (getEngine t k e).ptr = (g.ptr + 1) % 4 ∧ SameMemory s t) ∧
      (∀ r t, tabFind g.active j = some r → r.peer = none → runHalts s r = false → beat s k e j r = some t →
        ∃ u, exec (.copyBeatLand k e j) s = .next u ∧ (getEngine u k e).beat = j ∧ SameMemory t u) ∧
      (∀ r dst len n0 (byte : Nat → Byte), tabFind g.active j = some r → r.peer = none → runHalts s r = false →
        copyStands r dst len byte n0 → n0 < len → r.cmd.red = none → r.cmd.targets = [] → r.cmd.ctx / 4 = k →
        ((∃ src, r.cmd.op = .linear (spadPtr dst) (spadPtr src) 1 len 0 0 ∧ (r.loaded = false → src + len ≤ 2 ^ 22 ∧
            inSpadWindow s r.cmd.ctx src len = true ∧ ∀ i, i < len → byte i = locByte s (.spad k (src + i)) 0)) ∨
          (∃ pat size, r.cmd.op = .fill (spadPtr dst) pat size len ∧ 0 < size ∧
            ∀ i, byte i = (leBytes size pat.toNat).getD (i % size) 0)) →
        dst + len ≤ 2 ^ 22 → inSpadWindow s r.cmd.ctx dst len = true → (getCore s k).badSpad = [] → groupsOk s = true →
        len - n0 ≤ (getCounter s k r.cmd.cnt).value →
        ∃ t n, exec (.copyBeatLand k e j) s = .next t ∧ 1 ≤ n ∧ n ≤ 4099 ∧ n0 + n ≤ len ∧
          (∀ i, n0 ≤ i → i < n0 + n → locByte t (.spad k (dst + i)) 0 = byte i) ∧
          (∀ q, q < 2 ^ 22 → q < dst + n0 ∨ dst + n0 + n ≤ q →
            locByte t (.spad k q) 0 = locByte s (.spad k q) 0) ∧
          (getCounter t k r.cmd.cnt).value = (getCounter s k r.cmd.cnt).value - n ∧
          (n0 + n < len → ∃ w, tabFind (getEngine t k e).active j = some w ∧ w.cmd = r.cmd ∧
            w.landed = r.landed + n ∧ copyStands w dst len byte (n0 + n)) ∧
          (n0 + n = len → tabFind (getEngine t k e).active j = none)))

/-- For every state and operands for which the body runs and no order holds the class back, with a descriptor, keys and
offsets that R443 and R444 accept, whose bytes the context may reach and read without error: RBSET.CLR zeroes every
bitmap, RBSET of a key sets or clears its bit and no other bit of the scratchpad, RIDX leaves in each directory word
d_e[s] the number of set bits in superblocks 0 to s - 1 of bitmap e, RHIST leaves the set bits of each bitmap in its
count word and returns their sum, and both change no other byte of the scratchpad (bitmaps that neither the directory
nor the counts overlap). RRANK returns the stored directory word plus the set bits below the token in its superblock,
modulo 2^16, with NO where the token's bit is clear, and so the token's rank where the directory is current; RSEL under
a current directory returns the position of the set bit with j set bits below it, or NO where the bitmap has no more
than j set bits. PLACE with operands that R456 accepts joins the composer's queue with a reply slot and its counter 1
higher; a started one takes a free slot for its partition, and a completed one gives the slot its set and lowers the
counter, or frees the slot (when the composer reads its operands is the model's choice, log 24). The bank groupings are
those of R301. (R443, R444, R445, R448, R449, R450, R456, R460, R461.) -/
def Obligations.RoutingAndComposerResults : Prop :=
  ∀ (h : Hdr) (cnt : BitVec 5) (oc : BitVec 2) (a b c d : BitVec 6) (s : State),
    let k := myCore s
    let key := (rg s c).toNat
    let die := dieOfCtx s.cur
    (writeHeld s ⟨oc, 0, 0⟩ = false → groupsOk s = true → ∀ r, rdescOf (rg s a) = some r →
      (∀ e, e < r.ne → bitmapOff r e + 64 * r.nsb ≤ 2 ^ 22) →
      let bit (e i : Nat) : Bool := (locByte s (.spad k (bitmapOff r e + i / 8)) 0).getLsbD (i % 8)
      let below (e n : Nat) : Nat := (List.range n).countP (bit e)
      let word (u : State) (off : Nat) : Nat := locRead u (.spad k off) 4
      let inMaps (q : Nat) : Prop := ∃ e, e < r.ne ∧ bitmapOff r e ≤ q ∧ q < bitmapOff r e + 64 * r.nsb
      let keeps (u : State) (same : Nat → Prop) : Prop :=
        ∀ q, q < 2 ^ 22 → same q → locByte u (.spad k q) 0 = locByte s (.spad k q) 0
      let readable : Prop := ∀ e, e < r.ne → firstBad s k (bitmapOff r e) (64 * r.nsb) = none
      let apart (off n : Nat) : Prop := off + n ≤ 2 ^ 22 ∧ ∀ q, off ≤ q → q < off + n → ¬ inMaps q
      (bodyRuns s h false [a] [] = true → touchAll s [] (bitmapWords r) = none → ∃ t,
        exec (.rbsetClr h oc a) s = .next (retired s 8 t) ∧ (∀ q, q < 2 ^ 22 → inMaps q → locByte t (.spad k q) 0 = 0) ∧
          keeps t (fun q => ¬ inMaps q) ∧ GeneralSame (me s) (me t) []) ∧
      (bodyRuns s h false [a, c] [] = true → key < 2 ^ 32 → ∀ e n, keyOf r false key = some (e, n) →
        let off := bitmapOff r e + n / 8
        touch s off 1 .atomic = .ok () → ∀ set : Bool, ∃ t,
          exec (if set then .rbsetSet h oc a c else .rbsetUnset h oc a c) s = .next (retired s 8 t) ∧
          (∀ i, i < 8 → (locByte t (.spad k off) 0).getLsbD i =
            if i = n % 8 then set else (locByte s (.spad k off) 0).getLsbD i) ∧ keeps t (fun q => q ≠ off)) ∧
      (∀ o, dirOff (rg s b) = some o →
        let size := 4 * ((r.nsb + 1) * r.ne)
        (bodyRuns s h false [a, b] [] = true → readable → apart o size →
          touchAll s (bitmapWords r) (wordsAt o ((r.nsb + 1) * r.ne)) = none → ∃ t,
          exec (.ridx h oc a b) s = .next (retired s 8 t) ∧
          (∀ e i, e < r.ne → i ≤ r.nsb → word t (dirWord r o e i) = below e (512 * i)) ∧
          keeps t (fun q => q < o ∨ o + size ≤ q) ∧ GeneralSame (me s) (me t) []) ∧
        (bodyRuns s h false [a, b, c] [d] = true → key < 2 ^ 32 →
          let answers (i : Instr) (v : Nat) : Prop := exec i s = .next (retired s 8 (wg s d (BitVec.ofNat 64 v)))
          (∀ e n, keyOf r false key = some (e, n) →
            let sb := n / 512
            touchAll s (dirWord r o e sb :: wordsAt (sblockOff r e sb) 16) [] = none →
            touch s (dirWord r o e sb) 4 .load = .ok () → firstBad s k (sblockOff r e sb) 64 = none →
            let no := if bit e n then 0 else 2 ^ 31
            answers (.rrank h oc d a b c) (no + (word s (dirWord r o e sb) +
              (List.range (n % 512)).countP (fun i => bit e (512 * sb + i))) % 65536) ∧
            (word s (dirWord r o e sb) = below e (512 * sb) → answers (.rrank h oc d a b c) (no + below e n % 65536))) ∧
          (∀ e j, keyOf r true key = some (e, j) →
            (∀ i, i < r.nsb → touch s (dirWord r o e i) 4 .load = .ok () ∧ word s (dirWord r o e i) = below e (512 * i)) →
            (∀ i, i < 8 * r.nsb → touch s (bitmapOff r e + 8 * i) 8 .load = .ok ()) →
            (below e (512 * r.nsb) ≤ j → answers (.rsel h oc d a b c) (2 ^ 31)) ∧
            (∀ q, q < 512 * r.nsb → bit e q = true → below e q = j → answers (.rsel h oc d a b c) q)))) ∧
      (∀ o, dirOff (rg s c) = some o → bodyRuns s h false [a, c] [d] = true → readable → apart o (4 * r.ne) →
        touchAll s (bitmapWords r) (wordsAt o r.ne) = none → ∃ t,
        exec (.rhist h oc d a c) s = .next (retired s 8 (wg t d (BitVec.ofNat 64
          (((List.range r.ne).map (fun e => below e (512 * r.nsb))).sum)))) ∧
        (∀ e, e < r.ne → word t (o + 4 * e) = below e (512 * r.nsb)) ∧
        keeps t (fun q => q < o ∨ o + 4 * r.ne ≤ q) ∧ GeneralSame (me s) (me t) [])) ∧
    (bodyRuns s h false [a, b, c, d] [] = true → placeLoad s die < 64 → (me s).replies.length < 16 →
      coreHeld s s.cur = false → ownsCounter s s.cur cnt.toNat = true → ∀ p x, boundPart s = some (p, x) →
      placeBad s p x (rg s a) (rg s b) (rg s c) (rg s d) = none → (getCounter s k cnt.toNat).value + 1 < 2 ^ 40 →
      ∃ (t : State) (e : PlaceCmd), exec (.place h cnt oc a b c d) s = .next (retired s 8 t) ∧
        (getDie t die).placeq = (getDie s die).placeq ++ [e] ∧ e.ctx = s.cur ∧ e.cnt = cnt.toNat ∧ e.key = some s.replyKey ∧
        (me t).replies = (me s).replies ++ [.reserved s.replyKey] ∧
        (getCounter t k cnt.toNat).value = (getCounter s k cnt.toNat).value + 1 ∧ GeneralSame (me s) (me t) []) ∧
    (∀ m, m < 4 →
      (∀ e rest i, placeWaiting s m = e :: rest → (getDie s m).placing = none → classOpen s e.ctx e.oc = true →
        slotIds.find? (fun n => (getSlot s m n).held.isNone) = some i → ∃ t, exec (.placeStart m) s = .next t ∧
        (getDie t m).placing = some (e, i) ∧ (getSlot t m i).held = some e.holder ∧ SameMemory s t) ∧
      (∀ e i es set u, (getDie s m).placing = some (e, i) → (getSlot s m i).held = some e.holder →
        composePlace (modDie s m (fun q => { q with placing := none })) e = .ok (es, set, u) → ∃ t,
        exec (.placeComplete m) s = .next t ∧ (getDie t m).placing = none ∧
        (getSlot t m i).bytes = composedBytes set ∧ (getSlot t m i).gen = (getSlot u m i).gen ∧
        (0 < (getCounter u (coreOfCtx e.ctx) e.cnt).value → (getCounter t (coreOfCtx e.ctx) e.cnt).value =
          (getCounter u (coreOfCtx e.ctx) e.cnt).value - 1)) ∧
      (∀ e i err, (getDie s m).placing = some (e, i) → (getSlot s m i).held = some e.holder →
        composePlace (modDie s m (fun q => { q with placing := none })) e = .error err → ∃ t,
        exec (.placeComplete m) s = .next t ∧ (getDie t m).placing = none ∧ (getSlot t m i).held = none ∧
        (getSlot t m i).gen = (getSlot s m i).gen + 1))

/-- For every state and operands for which the body runs: CTXSAVE of a HALTED context leaves its image in memory (in
pages that do not overlap: the header, PC, every general register, predicate, mask, vector register and listed control
register, zeros for the other control registers, the reply slots, and of a bound context the counters and progress of
its partition) and changes no other byte of device memory and no context; CTXLOAD of a valid image gives a HALTED
context the image's registers and leaves it HALTED; TLBINV leaves no cached translation that its operands name, and
waits while an access of any context that this package translates is not performed. PREEMPT puts in gD the state of the
cohort before its operation, and no other general register of the context changes: STOP holds a queued or pre-empted
cohort and asks a placed one to stop, HALT asks the running members to halt, RESUME undoes both, TERMINATE ends a
cohort that holds no context at once and leaves no member of a placed one running; a TERMINATED cohort whose members'
commands still run, or whose accesses are not performed, has no handle any more, and PREEMPT waits while a cohort's
frames are read (the model's choices, logs 22, 50, 52, 60, 62 and 66: the order of a stop, of HOLD and of a
termination; log 113: that TLBINV waits for accesses that used another entry too). LCFG.GANG makes a gang whose members
R517 accepts and returns its hop counts, LCFG.UNGANG ends the gang of the bound partition, LCFG.WSET and WCLR set and
clear a receive window, LSTAT reads an item. (R496, R497, R498, R499, R517, R520, R529, R533.) -/
def Obligations.SupervisorAndLinkResults : Prop :=
  ∀ (h : Hdr) (d a b : BitVec 6) (s : State),
    let access (i : Instr) : Prop := exec i s = .next (faulted s s (recOf s cAccess (me s).pc))
    (bodyRuns s h true [a, b] [] = true →
      (writeHeld s ⟨0, 0, 0⟩ = false → ∀ c pas u, imageOpen a b .store (fun c => 4 * imageFrames s c) s = .ok (c, pas, u) →
        let x := getCtx s c
        x.bad = false → x.replies.length ≤ 16 →
        (∀ i j, i < j → j < pas.length → pas.getD i 0 + 4096 ≤ pas.getD j 0 ∨ pas.getD j 0 + 4096 ≤ pas.getD i 0) →
        (∀ p y v, x.bind = some p → getPart s (coreOfCtx c) p = some y → y.active = some v → v.composed = true →
          v.bytes.length ≤ 28672) →
        ∃ t, exec (.ctxsave h a b) s = .next (retired s 8 t) ∧ GeneralSame (me s) (me t) [] ∧ OthersSame s t ∧
          (∀ q, (∀ pa ∈ pas, q < pa ∨ pa + 4096 ≤ q) → memRead t.hbm q = memRead s.hbm q) ∧
          let rd (o : Nat) : Word := BitVec.ofNat 64 (memReadLe t.hbm (pageAddr pas o) 8)
          rd 0 = BitVec.ofNat 64 (0x201 + (if x.bind.isSome then 0x100 else 0) + (if x.wakePend then 0x800 else 0) +
            65536 * c) ∧ rd 0x008 = x.pc ∧ (∀ i, i < 64 → rd (0x040 + 8 * i) = ctxG x i) ∧
          (∀ i, i < 8 → (rd 0x240).getLsbD i = ctxP x i ∧ rd (0x248 + 8 * i) = ctxM x i) ∧
          rd 0x408 = (if x.sv then 1 else 0) ∧ (∀ n ∈ imageCrs, rd (0x400 + 8 * n) = ctxCr x n) ∧
          (∀ n, n < 512 → n ≠ 1 → n ∉ imageCrs → rd (0x400 + 8 * n) = 0) ∧
          (∀ i r, x.replies[i]? = some r → rd (0x1400 + 16 * i) = replyValue r ∧
            rd (0x1408 + 16 * i) = BitVec.ofNat 64 (replyState r)) ∧
          (∀ i j, i < 32 → j < 32 → rd (0x2000 + 256 * i + 8 * j) = (ctxV x i).extractLsb' (64 * j) 64) ∧
          ∀ p y, x.bind = some p → getPart s (coreOfCtx c) p = some y →
            rd 0x4020 = partProg y ∧ rd 0x4028 = countsWord y.counts ∧ rd 0x4030 = countsWord y.thresh) ∧
      (orderHeld s ⟨0, 0, 0⟩ = false → ∀ c pas u, imageOpen a b .load (fun _ => 4) s = .ok (c, pas, u) →
        let rd (o : Nat) : Word := BitVec.ofNat 64 (memReadLe u.hbm (pageAddr pas o) 8)
        (imageValid rd c = true → ∃ t, exec (.ctxload h a b) s = .next (retired s 8 t) ∧ SameMemory s t ∧ me t = me s ∧
          (∀ j, j ≠ c → getCtx t j = getCtx s j) ∧
          let z := getCtx t c
          z.phase = .halted ∧ z.pc = rd 0x008 ∧ z.sv = (rd 0x408).getLsbD 0 ∧ z.wakePend = (rd 0).getLsbD 11 ∧
          (∀ i, 1 ≤ i → i < 64 → ctxG z i = rd (0x040 + 8 * i)) ∧
          (∀ i, 1 ≤ i → i < 8 → ctxP z i = (rd 0x240).getLsbD i ∧ ctxM z i = rd (0x248 + 8 * i)) ∧
          (∀ i j, i < 32 → j < 32 → (ctxV z i).extractLsb' (64 * j) 64 = rd (0x2000 + 256 * i + 8 * j)) ∧
          ∀ n ∈ imageCrs, ctxCr z n = rd (0x400 + 8 * n)) ∧
        (imageValid rd c = false → access (.ctxload h a b))) ∧
      (let op := (rg s b).toNat % 4
       let asid := (rg s b).toNat / 2 ^ 48
       let left (u : State) (drops : TlbEntry → Bool) : Prop :=
         (∀ k, ∀ e ∈ (getCore u k).tlb, e ∈ (getCore s k).tlb ∧ drops e = false) ∧
         (∀ k, ∀ e ∈ (getDie u k).tlb, e ∈ (getDie s k).tlb ∧ drops e = false)
       let flushes (i : Instr) (drops : TlbEntry → Bool) : Prop := ∃ u, exec i s = .next (retired s 8 u) ∧ left u drops ∧
         SameMemory s u ∧ ∀ c, getCtx u c = getCtx s c
       releaseHeld s = false → bitsOf (rg s b).toNat 47 2 = 0 →
       (translatedLeft s = true →
         (op = 0 → (rg s a).toNat < 2 ^ 60 → exec (.tlbinvAddress h a b) s = .next s) ∧
         (op = 1 → rg s a = 0 → exec (.tlbinvAsid h a b) s = .next s) ∧
         (op = 2 → rg s a = 0 → exec (.tlbinvAll h a b) s = .next s)) ∧
       (translatedLeft s = false →
       (op = 0 → (rg s a).toNat < 2 ^ 60 → flushes (.tlbinvAddress h a b) (fun e => e.asid == asid &&
         decide (e.va ≤ (rg s a).toNat % 2 ^ 56) && decide ((rg s a).toNat % 2 ^ 56 < e.va + e.size))) ∧
       (op = 1 → rg s a = 0 → flushes (.tlbinvAsid h a b) (fun e => e.asid == asid)) ∧
       (op = 2 → rg s a = 0 → flushes (.tlbinvAll h a b) (fun _ => true))) ∧
       (op = 3 → access (.tlbinvAll h a b)))) ∧
    (bodyRuns s h true [a, b] [d] = true → (rg s a).toNat < 2 ^ 32 →
      let n := (rg s a).toNat
      let u := wg s d (preemptWord s n)
      let word (t : State) : Prop := (d ≠ 0 → rg t d = preemptWord s n) ∧ GeneralSame (me s) (me t) [d]
      (rg s b = 0 → isRestoring s n = false → exec (.preemptStatus h d a b) s = .next (retired s 8 u)) ∧
      (getCohort s n = none → preemptWord s n = 3 ∧
        (rg s b = 1 → exec (.preemptStop h d a b) s = .next (retired s 8 u)) ∧
        (rg s b = 2 → exec (.preemptHalt h d a b) s = .next (retired s 8 u)) ∧
        (rg s b = 3 → exec (.preemptResume h d a b) s = .next (retired s 8 u)) ∧
        (rg s b = 4 → exec (.preemptTerminate h d a b) s = .next (retired s 8 u))) ∧
      (∀ x, getCohort s n = some x → x.st = .terminated → preemptWord s n = 3) ∧
      (∀ x, getCohort s n = some x → x.st ≠ .terminated → x.saved = none → preemptWord s n = BitVec.ofNat 64
        ((match x.st with | .queued => 0 | .preempted => 2 | _ => 1) + (if x.hold then 8 else 0) +
          256 * (members x).countP (fun c => (getCtx s c).phase == .halted))) ∧
      (∀ x, getCohort s n = some x → x.st ≠ .restoring → x.st ≠ .terminated →
        (rg s b = 1 → ∃ t y, exec (.preemptStop h d a b) s = .next (retired s 8 t) ∧ getCohort t n = some y ∧ word t ∧
          (if x.st = .queued ∨ x.st = .preempted then y.hold = true else y.stopReq = true)) ∧
        (rg s b = 2 → ∃ t, exec (.preemptHalt h d a b) s = .next (retired s 8 t) ∧ word t ∧
          (x.st = .preempted → ∃ y, getCohort t n = some y ∧ y.haltOnResume = true) ∧
          (x.st = .placed → ∀ c ∈ members x, (getCtx s c).phase = .running ∨ (getCtx s c).phase = .parked →
            (getCtx t c).haltReq = true)) ∧
        (rg s b = 3 → ∃ t, exec (.preemptResume h d a b) s = .next (retired s 8 t) ∧ word t ∧
          (x.st = .queued ∨ x.st = .preempted → ∃ y, getCohort t n = some y ∧ y.hold = false) ∧
          (x.st = .placed → ∀ c ∈ members x, (getCtx t c).haltReq = false ∧ (getCtx t c).phase ≠ .halted)) ∧
        (rg s b = 4 → (∃ t, exec (.preemptTerminate h d a b) s = .next t) ∧ ((me s).coh ≠ some n → s.cur ∉ members x →
          ∃ t, exec (.preemptTerminate h d a b) s = .next (retired s 8 t) ∧ word t ∧
          (x.st = .queued ∨ x.st = .preempted ∧ x.saved.isSome = true → getCohort t n = none) ∧
          (x.st = .placed → (∀ y, getCohort t n = some y → y.st = .terminated) ∧
            ∀ c ∈ members x, (getCtx t c).phase = .free ∨ (getCtx t c).phase = .exited)))) ∧
      (∀ x, getCohort s n = some x → x.st = .restoring → 5 > (rg s b).toNat → exec (.preemptStatus h d a b) s = .next s)) ∧
    (bodyRuns s h false [a, b] [d] = true →
      (∀ g, gangPlan s (rg s a).toNat (rg s b).toNat = some g → ∃ t, exec (.lcfgGang h d a b) s =
        .next (retired s 8 (wg t d (BitVec.ofNat 64 (g.hdie + 16 * g.hedge)))) ∧
        tabFind t.gangs (newGangKey s) = some g ∧ SameMemory s t ∧ me t = me s) ∧
      (gangPlan s (rg s a).toNat (rg s b).toNat = none → access (.lcfgGang h d a b))) ∧
    (bodyRuns s h false [] [] = true → ∀ p x n g, boundPart s = some (p, x) → x.gang = some n → tabFind s.gangs n = some g →
      g.members.all (memberIdle s) = true →
      ∃ t, exec (.lcfgUngang h) s = .next (retired s 8 t) ∧ tabFind t.gangs n = none ∧
        ∀ m ∈ g.members, ∀ y, getPart t m.1 m.2 = some y → y.gang = none) ∧
    (bodyRuns s h true [a, b] [] = true → orderHeld s ⟨0, 0, 0⟩ = false → (rg s b).toNat < 16 → ∀ u bs,
      recordRead s (rg s a) 32 = some (u, bs) →
      let n := (rg s b).toNat
      let w (k : Nat) : Word := BitVec.ofNat 64 (leNat ((bs.drop (8 * k)).take 8))
      let win : Window := ⟨w 0, w 1, w 2, w 3, (getWindow s n).counts, []⟩
      (windowOk win = true → windowClash s n win = false →
        exec (.lcfgWset h a b) s = .next (retired s 8 { u with windows := tabPut u.windows n win })) ∧
      (windowOk win = false ∨ windowClash s n win = true → ∃ t, exec (.lcfgWset h a b) s = .next t ∧ t.windows = s.windows)) ∧
    (bodyRuns s h true [b] [] = true → (rg s b).toNat < 16 → ∃ t, exec (.lcfgWclr h b) s = .next (retired s 8 t) ∧
      getWindow t (rg s b).toNat = ⟨0, 0, 0, 0, (getWindow s (rg s b).toNat).counts, []⟩ ∧
      ∀ j, j ≠ (rg s b).toNat → getWindow t j = getWindow s j) ∧
    (bodyRuns s h false [a] [d] = true → (rg s a).toNat < 2 ^ 26 → bitsOf (rg s a).toNat 15 4 = 0 →
      (∀ v, lstatItem s ((rg s a).toNat % 16) (bitsOf (rg s a).toNat 25 16) = some v →
        exec (.lstat h d a) s = .next (retired s 8 (wg s d v))) ∧
      (lstatItem s ((rg s a).toNat % 16) (bitsOf (rg s a).toNat 25 16) = none → access (.lstat h d a)))

/-- A request that a port whose link is up receives, in READY, is performed and answered; an answer ends the request it
names and reaches the context that waits, and so does the time-out with cause 0; LINK_UP and LINK_DOWN set and clear
the port's bit while the compute dies are clocked, and LINK_DOWN without requests on the port changes no other
port. A host read of BAR2 in READY returns the bytes of device memory and a write leaves them there, where the address
is in the device memory and its granule is not withheld; a register write to a die's XSPACE default stores a value whose
reserved bits are 0, and a value with another reserved bit leaves the default as it was (dropping it is the model's
choice, log 69). (R335, R523, R524, R525, R526,
R535, R536, R537, R539.) -/
def Obligations.LinkAndHostSteps : Prop :=
  ∀ (s : State) (k : Nat),
    (∀ req d t, k < 24 → portUp s k = true → s.modState = .ready → performPeer s k req = .ok (d, t) →
      exec (.peerRequestReceive k req) s = .next { t with answers := t.answers ++ [(k, .ok d)] }) ∧
    (∀ req cause, k < 24 → portUp s k = true → s.modState = .ready → performPeer s k req = .error cause →
      exec (.peerRequestReceive k req) s =
        .next { s with answers := s.answers ++ [(k, .failed (BitVec.ofNat 8 cause))] }) ∧
    (∀ r, tabFind s.peers k = some r → r.user = .scalar → (getCtx s r.ctx).peerWait = some k →
      (∀ v, ∃ t, exec (.peerResponseReceive k v) s = .next t ∧ tabFind t.peers k = none ∧
        (getCtx t r.ctx).peerWait = none ∧ (getCtx t r.ctx).peerData = some v ∧ SameMemory s t) ∧
      (r.sent + s.ltmo.toNat ≤ s.clk → ∃ t, exec (.peerTimeout k) s = .next t ∧ tabFind t.peers k = none ∧
        (getCtx t r.ctx).peerWait = none ∧ (getCtx t r.ctx).peerData = some (.failed 0) ∧ SameMemory s t)) ∧
    (k < 24 → computeClocked s = true → ∀ device, ∃ t, exec (.linkUp k device) s = .next t ∧ t.linkUp.getLsbD k = true ∧
      (∀ j, j ≠ k → t.linkUp.getLsbD j = s.linkUp.getLsbD j) ∧ (getPort t k).far = device % 1024 ∧ SameMemory s t) ∧
    (k < 24 → computeClocked s = true → (∀ r ∈ s.peers, r.2.port ≠ k) → ∃ t, exec (.linkDown k) s = .next t ∧ t.linkUp.getLsbD k = false ∧
      (∀ j, j ≠ k → t.linkUp.getLsbD j = s.linkUp.getLsbD j) ∧ t.peers = s.peers ∧ SameMemory s t) ∧
    (∀ len, s.modState = .ready → k + len ≤ hbmBytes → (∀ i, i < len → withheldPa s (k + i) = false) →
      exec (.hostBar2Read k len) s = .next { s with hostReads := s.hostReads ++ [memReadBytes s.hbm k len] }) ∧
    (∀ bs, s.modState = .ready → k + bs.length ≤ hbmBytes → (∀ i, i < bs.length → withheldPa s (k + i) = false) →
      ∃ t, exec (.hostBar2Write k bs) s = .next t ∧ memReadBytes t.hbm k bs.length = bs ∧
        ∀ a, a < k ∨ k + bs.length ≤ a → memRead t.hbm a = memRead s.hbm a) ∧
    (∀ v, k < 4 → ∃ t, exec (.bar0RegisterWrite (0x1000 * k + 0x418) 8 v) s = .next t ∧
      (getDie t k).defXspace = (if v &&& 0xFFFF00FFFFFFF000 = v then v else (getDie s k).defXspace) ∧ ∀ c, getCtx t c = getCtx s c)

/-- COHORT_COMPLETION of a settled cohort frees its contexts, whose registers stay as they are until the next
placement, decrements its completion gate if that is not zero, and the cohort is gone. FIRMWARE_TERMINATE ends a cohort
that holds no context at once, and leaves no member of a placed one running; the cohort is gone or TERMINATED until its
members' commands have stopped and their accesses are performed (that state is the model's own, log 22). A scheduler
pass that is due is made. It places the one cohort of an otherwise empty module, eligible and of MODE ANY, on the
lowest NCORE cores that its record allows, on their CPC lowest contexts, at quad and page 0, with the lowest NBAR
barriers; a core is allowed when it is in service, on a permitted die and in CORESEL. Rank j * CPC + i is context i of
the j-th core, and starts with the state of R39: the entry address, stack top, argument, rank and size in its
registers, every other register zero, its window and its inherited XSPACE and TVEC; the cores' instruction caches are
empty. With no cohort a pass changes no context; an expired quantum and an expired head wait are noted.
COHORT_SAVE_COMPLETE, where no member's state reads with an error, leaves the cohort PREEMPTED with its members STOPPED
or EXITED, COHORT_RESTORE_COMPLETE leaves it PLACED. A record of 64 bytes written to a launch window with room waits
there, and is accepted with the die's defaults; a write outside READY counts in LWDROP. (R14, R39, R40, R160, R161,
R162, R166, R167, R171, R174, R482, R491.) -/
def Obligations.SchedulerSteps : Prop :=
  ∀ (s : State) (n : Nat),
    (∀ x, getCohort s n = some x →
      (x.st = .placed → cohortSettled s n x = true → ∃ t, exec (.cohortCompletion n) s = .next t ∧ getCohort t n = none ∧
        (∀ c ∈ members x, (getCtx t c).phase = .free ∧ (getCtx t c).coh = none ∧
          GeneralSame (getCtx s c) (getCtx t c) [] ∧ VectorsSame (getCtx s c) (getCtx t c) ∧
          ∀ r, ctxCr (getCtx t c) r = ctxCr (getCtx s c) r) ∧
        (lrDoneEn x.lrec = true → getGate s (lrDoneGate x.lrec) ≠ 0 →
          getGate t (lrDoneGate x.lrec) = getGate s (lrDoneGate x.lrec) - 1)) ∧
      (∃ t, exec (.firmwareTerminate n) s = .next t ∧
        (x.st = .queued ∨ x.st = .preempted ∧ x.saved.isSome = true → getCohort t n = none) ∧
        (x.st = .placed → (∀ y, getCohort t n = some y → y.st = .terminated) ∧
          ∀ c ∈ members x, (getCtx t c).phase = .free ∨ (getCtx t c).phase = .exited)) ∧
      (x.st = .placed → lrTshare x.lrec = true → x.quantumOver = false → quantumRun s x = true →
        exec (.quantumExpiry n) s = .next (passAll (putCohort s n { x with quantumOver := true }))) ∧
      (x.st = .stopping → allExited s x = false → cohortQuiet s n x = true → (∀ c ∈ members x, (getCtx s c).bad = false) →
        ∃ t y, exec (.cohortSaveComplete n) s = .next t ∧
        getCohort t n = some y ∧ y.st = .preempted ∧ y.saved.isSome = true ∧ y.hold = (x.hold || x.stopReq) ∧
        ∀ c ∈ members x, (getCtx t c).phase = .stopped ∨ (getCtx t c).phase = .exited) ∧
      (∀ v, x.st = .restoring → x.saved = some v → ∃ t y, exec (.cohortRestoreComplete n) s = .next t ∧
        getCohort t n = some y ∧ y.st = .placed ∧ y.saved = none)) ∧
    (∀ m, m < 4 →
      ((getDie s m).passDue = true → ∃ t, exec (.schedulerPass m) s = .next t ∧
        (s.cohorts = [] → ∀ c, getCtx t c = getCtx s c) ∧
        (∀ x, s.cohorts = [(n, x)] → s.reserves = [] → handleDie n = m → x.st = .queued → eligible s x = true →
          (∀ k, (getCore s k).kept = []) →
          let r := x.lrec
          lrMode r = 0 → 1 ≤ lrNcore r → lrNcore r ≤ (allowedCores s r).length → 1 ≤ lrCpc r → lrCpc r ≤ 4 →
          lrQuads r ≤ 3072 → lrSpadPg r ≤ 1024 → lrNbar r ≤ 256 →
          ∃ y, getCohort t n = some y ∧ y.st = .placed ∧ y.lrec = r ∧ y.bars = List.range (lrNbar r) ∧
            y.seats = ((allowedCores s r).take (lrNcore r)).map (fun k => ⟨k, (ctxsOfCore k).take (lrCpc r), 0, 0⟩) ∧
            (∀ b, b < lrNbar r → getBarrier t (lrHome r) b = ⟨lrNcore r * lrCpc r, 0, 0, false⟩) ∧
            ∀ j k i, j < lrNcore r → (allowedCores s r)[j]? = some k → i < lrCpc r →
              (getCore t k).icache = [] ∧
              let z := getCtx t (4 * k + i)
              let rank : Word := BitVec.ofNat 64 (j * lrCpc r + i)
              z.phase = .running ∧ z.coh = some n ∧ z.sv = lrSv r ∧ z.pc = r.entry ∧ ctxCr z crEntrypc = r.entry ∧
              ctxG z 2 = r.stack - BitVec.ofNat 64 (16 * lrStkStride r) * rank ∧ ctxG z 3 = r.argp ∧ ctxG z 4 = rank ∧
              ctxG z 5 = BitVec.ofNat 64 (lrNcore r * lrCpc r) ∧ (∀ g, g < 64 → g ∉ [2, 3, 4, 5] → ctxG z g = 0) ∧
              (∀ v, v < 32 → ctxV z v = 0) ∧ (∀ p, 1 ≤ p → p < 8 → ctxP z p = false ∧ ctxM z p = 0) ∧
              ctxCr z crXspace = x.xspace ∧ ctxCr z crTvec = x.tvec ∧ ctxCr z crSpBase = 0 ∧
              ctxCr z crSpLimit = BitVec.ofNat 64 (4096 * lrSpadPg r) ∧
              (∀ q ∈ [crRetired, crLpctl, crFpctl, crFpstat, crTlsptr], ctxCr z q = 0) ∧ noLoop z = true)) ∧
      (∀ r k, k ∈ allowedCores s r ↔ k < 128 ∧ (getCore s k).out = false ∧
        (if lrSpan r then (lrDieMask r).testBit (k / 32) = true else k / 32 = lrHome r) ∧
        (r.sel0 = 0 ∧ r.sel1 = 0 ∨ (if k < 64 then r.sel0.getLsbD k else r.sel1.getLsbD (k - 64)) = true)) ∧
      (∀ l h x, l < 8 → (levelQueue s m l).find? (fun j => match getCohort s j with
          | some y => !y.headExpired && headWaited s j
          | none => false) = some h → getCohort s h = some x →
        ∃ t y, exec (.headWaitExpiry m l) s = .next t ∧ getCohort t h = some y ∧ y.headExpired = true ∧
          (getDie t m).passDue = true) ∧
      (∀ l r, l < 8 → (getDie s m).window.find? (fun e => lrPrio e == l) = some r → levelCount s m l < 64 →
        let a := (getDie s (lrHome r)).accNo
        ∃ t, exec (.launchWindowAccept m l) s = .next t ∧ (getDie t m).window = (getDie s m).window.erase r ∧
          getCohort t (lrHome r * 2 ^ 30 + a % 2 ^ 30) = some (cohortNew r a (getDie s m).defXspace (getDie s m).defTvec)) ∧
      (∀ off bs, s.modState = .ready → bs.length = 64 → off % 64 = 0 → off < 1024 → (getDie s m).window.length < 16 →
        malformed s (lrecOf bs) = false → lrHome (lrecOf bs) = m → exec (.hostLaunchWindowWrite m off bs) s =
          .next (modDie s m (fun d => { d with window := d.window ++ [lrecOf bs] }))) ∧
      (∀ off bs, s.modState ≠ .ready → exec (.hostLaunchWindowWrite m off bs) s =
        .next (modDie s m (fun d => { d with lwdrop := d.lwdrop + 1 }))))

/-- Power-on leaves the module in RESET with the host's memory and the fuse as they were. A self-test moves it to HELD
where a unit failed that all of it needs and to LOADING otherwise, takes the core of a failed lane or bank out of
service and brings up the ports that trained. An accepted flash image moves it to CONFIG with its measurement, a
rejected one leaves it in LOADING for a LOAD. CONFIG_DONE with a clock within its limits for every core island,
throttle points within theirs, no reserved bit set in a register and a memory map that withholds enough moves it to
READY with firmware's tables, and one without does nothing; a trip moves it to TRIPPED from every state but HELD and
power-off, and so does a sample of 115 °C or more. While the compute dies are clocked, a stretched period advances the
clock and is lost to its island; a monitor refresh, a clock within its limits and a scrubbed accumulator entry are
recorded. Each mailbox request that is posted is answered: BUSY clears and MSI-X vector 0 is raised, a cap between 300
and 2800 is taken, SVNSET never lowers the fuse, TERMLOG empties the log. (That the flash image is tried before a LOAD,
and that CONFIG_DONE waits for values within the limits, are the model's reading, logs 14 and 69; the layout of the
mailbox's payloads, log 33, what a stretched period is in a model of one clock, logs 67 and 5, and that HELD and
TRIPPED stay, log 68, are its choices.) (R302, R539, R540, R542, R543, R544, R546, R547, R548.) -/
def Obligations.ManagementSteps : Prop :=
  ∀ (s : State) (n : Nat),
    (∃ t, exec .powerOnReset s = .next t ∧ t.modState = .reset ∧ t.hostMem = s.hostMem ∧ t.svnFuse = s.svnFuse ∧
      t.pcap = 2800 ∧ ∀ c, getCtx t c = ctxReset) ∧
    (∃ t, exec .powerOff s = .next t ∧ t.modState = .off) ∧
    (∀ r, s.modState = .selftest → ∃ t, exec (.selftestDone r) s = .next t ∧
      ((∀ d, .dieCache d ∉ r.failed ∧ .configCache d ∉ r.failed ∧ .scheduler d ∉ r.failed ∧ .layoutEngine d ∉ r.failed ∧
        .translationUnit d ∉ r.failed ∧ .ucieEdge d ∉ r.failed) → t.modState = .loading) ∧
      (∀ d, .dieCache d ∈ r.failed ∨ .configCache d ∈ r.failed ∨ .scheduler d ∈ r.failed ∨ .layoutEngine d ∈ r.failed ∨
        .translationUnit d ∈ r.failed ∨ .ucieEdge d ∈ r.failed → t.modState = .held) ∧
      (∀ k, k < 128 → .poolLane k ∈ r.failed ∨ .scratchpadBank k ∈ r.failed ∨ .accumulatorBank k ∈ r.failed ∨
        .cacheBank k ∈ r.failed → (getCore t k).out = true) ∧
      ∀ p, p < 24 → (t.linkUp.getLsbD p = true ↔ .linkPort p ∉ r.failed ∧ ∃ far, (p, far) ∈ r.far)) ∧
    (∀ img, s.modState = .loading → s.flashBad = false →
      (imageGood s img = true → ∃ t, exec (.firmwareVerify img) s = .next t ∧ t.modState = .config ∧
        t.meas = Config.sha3 img ∧ SameMemory s t) ∧
      (imageGood s img = false → exec (.firmwareVerify img) s = .next { s with flashBad := true })) ∧
    (∀ cfg, s.modState = .config →
      let clock (m : Nat) : Prop := ∃ f, cfg.mhz[m]? = some f ∧ 800 ≤ f ∧ f ≤ 3300 ∧ f % 100 = 0
      (∀ m, m < 32 → m % 8 < 4 → ¬ clock m → exec (.configDone cfg) s = .next s) ∧
      (registersOk cfg = false ∨ mapOk s cfg = false → exec (.configDone cfg) s = .next s) ∧
      ((∀ m, m < 32 → m % 8 < 4 → clock m) → (∀ f ∈ cfg.mhz, f < 4096) →
      (∀ p ∈ cfg.throttle, p.toInt < 920) → registersOk cfg = true → mapOk s cfg = true →
      ∃ t, exec (.configDone cfg) s = .next t ∧ t.modState = .ready ∧
      t.ttbase = cfg.ttbase ∧ t.withheld = cfg.withheld ∧ t.ltmo = cfg.ltmo ∧ (∀ d, d < 4 → (getDie t d).quantum = cfg.quantum) ∧
      ∀ c, getCtx t c = getCtx s c)) ∧
    (n < 32 →
      (s.modState ≠ .off → s.modState ≠ .held → ∃ t, exec (.trip n) s = .next t ∧ t.modState = .tripped) ∧
      (computeClocked s = true → ∃ t, exec (.currentLimitStretch n) s = .next t ∧ t.clk = s.clk + 1 ∧
        tabGet 0 t.lost n = tabGet 0 s.lost n + 1 ∧ (getIsland t n).stretch = (getIsland s n).stretch + 1 ∧
        ∀ c, getCtx t c = getCtx s c) ∧
      (∀ m, s.modState ≠ .off → ∃ t, exec (.monitorRefresh n m) s = .next t ∧ (getIsland t n).temp = m.temp ∧
        (getIsland t n).vmv = m.vmv ∧ (getIsland t n).rosc = m.rosc ∧ t.modpwr = m.modpwr ∧
        (920 ≤ m.temp.toInt → s.modState ≠ .held → t.modState = .tripped) ∧ ∀ c, getCtx t c = getCtx s c) ∧
      (∀ mhz, (if n % 8 < 4 then 800 ≤ mhz ∧ mhz ≤ 3300 ∧ mhz % 100 = 0 else mhz < 4096) → computeClocked s = true → ∃ t,
        exec (.islandClockChange n mhz) s = .next t ∧
        (getIsland t n).mhz = BitVec.ofNat 12 mhz ∧ ∀ j, j ≠ n → getIsland t j = getIsland s j)) ∧
    (computeClocked s = true → (∀ e, n < 128 → e < 131072 → ∃ t, exec (.patrolScrub (.acc n e)) s = .next t ∧
      e ∈ (getCore t n).poison ∧ e ∈ (getCore t n).badAcc ∧ SameMemory s t) ∧ exec (.patrolScrub .clean) s = .next s) ∧
    (s.mbBusy = true → s.modState ≠ .off →
      let answers (i : Instr) (f : State → Prop) : Prop :=
        ∃ t, exec i s = .next t ∧ t.mbBusy = false ∧ t.msix = s.msix ++ [0] ∧ SameMemory s t ∧ f t
      (mbOp s = 1 → (s.modState = .loading → s.flashBad = true) → answers .mailboxLoad (fun t => mbLen s = 16 →
        s.modState = .loading →
        t.modState = (if imageGood s (memReadBytes s.hostMem (mbWord s 0) (mbWord s 1)) then .config else .held))) ∧
      (mbOp s = 2 → answers .mailboxAttest (fun t => t.modState = s.modState)) ∧
      (mbOp s = 3 → answers .mailboxSetcap (fun t => mbLen s = 8 →
        t.pcap = if 300 ≤ mbWord s 0 ∧ mbWord s 0 ≤ 2800 then mbWord s 0 else s.pcap)) ∧
      (mbOp s = 4 → answers .mailboxTermlog (fun t => t.termLog = [])) ∧
      (mbOp s = 5 → answers .mailboxSvnset (fun t => t.svnFuse = if s.svnFuse < s.svn then s.svn else s.svnFuse)) ∧
      (mbOp s = 6 → answers .mailboxSelftest (fun t => t.modState = s.modState)))

/-- When a counter, barrier, gate, wake, park, queue or status instruction, or an instruction that queues a pool, copy
or composer command, answers a next state, on a path on which a trap would enter a handler: every memory reads as
before, in every context every general register and predicate but the instruction's destinations in the executing one,
every vector register and mask is as before, and in the executing context every control register but those that
retirement and trap entry write. (R9, R177, R183, R185, R272, R393.) -/
def Obligations.SynchronizationAndCommandFrame : Prop :=
  ∀ (i : Instr) (ds : List (BitVec 6)) (ps : List (BitVec 3)) (s t : State),
      syncDest i = some (ds, ps) ∨ queuedCommand i = true ∧ ds = [] ∧ ps = [] →
      handlerReady s s.cur = true → exec i s = .next t →
      SameMemory s t ∧ GeneralSame (me s) (getCtx t s.cur) ds ∧ PredsSame (me s) (getCtx t s.cur) ps ∧
      CrsSame (me s) (getCtx t s.cur) (trapCrs ++ retireCrs) ∧
      (∀ c, c ≠ s.cur → GeneralSame (getCtx s c) (getCtx t c) [] ∧ PredsSame (getCtx s c) (getCtx t c) []) ∧
      ∀ c, VectorsSame (getCtx s c) (getCtx t c)

/-- Right after power-on every context is FREE, no loop is active, every completion counter and gate reads 0, no cohort
exists, QUANTUM is 2^20 on each die, SPMAP.G is 0 on each core, PCAP is 2800 and LTMO 2^24, the module is in RESET,
the clock reads 0, and the memories are in their canonical form with the groupings of R301. (That registers without a
stated value hold 0 is the model's choice, log 2; it is not part of this statement.) (R38, R187, R297, R501, R537,
R539, R541.) -/
def Obligations.ResetLeavesTheStatedValues : Prop :=
  let s := State.reset
  (∀ c, (getCtx s c).phase = .free ∧ noLoop (getCtx s c) = true ∧ exctlAen (getCtx s c) = true) ∧
  (∀ k i, (getCounter s k i).value = 0 ∧ (getCounter s k i).faulted = false) ∧ (∀ g, getGate s g = 0) ∧
  (∀ h, getCohort s h = none) ∧ (∀ d, (getDie s d).quantum = 2 ^ 20) ∧ (∀ k, (getCore s k).spmapG = 0) ∧
  s.pcap = 2800 ∧ s.ltmo = 2 ^ 24 ∧ s.modState = .reset ∧ s.clk = 0 ∧ memOk s = true ∧ groupsOk s = true

/-- From every state in which device memory, host memory and every scratchpad list their bytes in strictly rising order
with no byte of the default value, every step that answers a next state gives such a state. (R3, R154.) -/
def Obligations.StepKeepsMemoryForm : Prop :=
  ∀ s t : State, memOk s = true → step s = .next t → memOk t = true

/-- From every state in which the bank grouping of every core, and one that waits to take effect, is one of R301 (0 to
5), every step that answers a next state gives such a state. (R297, R301.) -/
def Obligations.StepKeepsBankGroupings : Prop :=
  ∀ s t : State, groupsOk s = true → step s = .next t → groupsOk t = true
end

