-- ==== Sys2Proof/Laws/State.lean ====
section
/-!
SUPPORT. What each update of the state leaves as it is: one lemma for each field and each update, so that no proof
unfolds a record update.
-/
namespace Sys2Proof.Machine

/-! ## putCtx -/

@[simp] theorem putCtx_cur (s : State) (c : Nat) (x : Ctx) : (putCtx s c x).cur = s.cur := rfl
@[simp] theorem putCtx_clk (s : State) (c : Nat) (x : Ctx) : (putCtx s c x).clk = s.clk := rfl
@[simp] theorem putCtx_inputs (s : State) (c : Nat) (x : Ctx) : (putCtx s c x).inputs = s.inputs := rfl
@[simp] theorem putCtx_pace (s : State) (c : Nat) (x : Ctx) : (putCtx s c x).pace = s.pace := rfl
@[simp] theorem putCtx_cores (s : State) (c : Nat) (x : Ctx) : (putCtx s c x).cores = s.cores := rfl
@[simp] theorem putCtx_dies (s : State) (c : Nat) (x : Ctx) : (putCtx s c x).dies = s.dies := rfl
@[simp] theorem putCtx_cohorts (s : State) (c : Nat) (x : Ctx) : (putCtx s c x).cohorts = s.cohorts := rfl
@[simp] theorem putCtx_reserves (s : State) (c : Nat) (x : Ctx) : (putCtx s c x).reserves = s.reserves := rfl
@[simp] theorem putCtx_gates (s : State) (c : Nat) (x : Ctx) : (putCtx s c x).gates = s.gates := rfl
@[simp] theorem putCtx_hbm (s : State) (c : Nat) (x : Ctx) : (putCtx s c x).hbm = s.hbm := rfl
@[simp] theorem putCtx_badHbm (s : State) (c : Nat) (x : Ctx) : (putCtx s c x).badHbm = s.badHbm := rfl
@[simp] theorem putCtx_withheld (s : State) (c : Nat) (x : Ctx) : (putCtx s c x).withheld = s.withheld := rfl
@[simp] theorem putCtx_stacksOut (s : State) (c : Nat) (x : Ctx) : (putCtx s c x).stacksOut = s.stacksOut := rfl
@[simp] theorem putCtx_ttbase (s : State) (c : Nat) (x : Ctx) : (putCtx s c x).ttbase = s.ttbase := rfl
@[simp] theorem putCtx_hostMem (s : State) (c : Nat) (x : Ctx) : (putCtx s c x).hostMem = s.hostMem := rfl
@[simp] theorem putCtx_devnum (s : State) (c : Nat) (x : Ctx) : (putCtx s c x).devnum = s.devnum := rfl
@[simp] theorem putCtx_freeCount (s : State) (c : Nat) (x : Ctx) : (putCtx s c x).freeCount = s.freeCount := rfl
@[simp] theorem putCtx_replyKey (s : State) (c : Nat) (x : Ctx) : (putCtx s c x).replyKey = s.replyKey := rfl
@[simp] theorem putCtx_termLog (s : State) (c : Nat) (x : Ctx) : (putCtx s c x).termLog = s.termLog := rfl
@[simp] theorem putCtx_modState (s : State) (c : Nat) (x : Ctx) : (putCtx s c x).modState = s.modState := rfl
@[simp] theorem putCtx_routes (s : State) (c : Nat) (x : Ctx) : (putCtx s c x).routes = s.routes := rfl
@[simp] theorem putCtx_ports (s : State) (c : Nat) (x : Ctx) : (putCtx s c x).ports = s.ports := rfl
@[simp] theorem putCtx_linkUp (s : State) (c : Nat) (x : Ctx) : (putCtx s c x).linkUp = s.linkUp := rfl
@[simp] theorem putCtx_windows (s : State) (c : Nat) (x : Ctx) : (putCtx s c x).windows = s.windows := rfl
@[simp] theorem putCtx_xpeer (s : State) (c : Nat) (x : Ctx) : (putCtx s c x).xpeer = s.xpeer := rfl
@[simp] theorem putCtx_ltmo (s : State) (c : Nat) (x : Ctx) : (putCtx s c x).ltmo = s.ltmo := rfl
@[simp] theorem putCtx_peers (s : State) (c : Nat) (x : Ctx) : (putCtx s c x).peers = s.peers := rfl
@[simp] theorem putCtx_peerNext (s : State) (c : Nat) (x : Ctx) : (putCtx s c x).peerNext = s.peerNext := rfl
@[simp] theorem putCtx_answers (s : State) (c : Nat) (x : Ctx) : (putCtx s c x).answers = s.answers := rfl
@[simp] theorem putCtx_gangs (s : State) (c : Nat) (x : Ctx) : (putCtx s c x).gangs = s.gangs := rfl
@[simp] theorem putCtx_lastConv (s : State) (c : Nat) (x : Ctx) : (putCtx s c x).lastConv = s.lastConv := rfl
@[simp] theorem putCtx_lost (s : State) (c : Nat) (x : Ctx) : (putCtx s c x).lost = s.lost := rfl
@[simp] theorem putCtx_islands (s : State) (c : Nat) (x : Ctx) : (putCtx s c x).islands = s.islands := rfl
@[simp] theorem putCtx_seq (s : State) (c : Nat) (x : Ctx) : (putCtx s c x).seq = s.seq := rfl
@[simp] theorem putCtx_failUnit (s : State) (c : Nat) (x : Ctx) : (putCtx s c x).failUnit = s.failUnit := rfl
@[simp] theorem putCtx_fwver (s : State) (c : Nat) (x : Ctx) : (putCtx s c x).fwver = s.fwver := rfl
@[simp] theorem putCtx_meas (s : State) (c : Nat) (x : Ctx) : (putCtx s c x).meas = s.meas := rfl
@[simp] theorem putCtx_svn (s : State) (c : Nat) (x : Ctx) : (putCtx s c x).svn = s.svn := rfl
@[simp] theorem putCtx_svnFuse (s : State) (c : Nat) (x : Ctx) : (putCtx s c x).svnFuse = s.svnFuse := rfl
@[simp] theorem putCtx_flashBad (s : State) (c : Nat) (x : Ctx) : (putCtx s c x).flashBad = s.flashBad := rfl
@[simp] theorem putCtx_pcap (s : State) (c : Nat) (x : Ctx) : (putCtx s c x).pcap = s.pcap := rfl
@[simp] theorem putCtx_modpwr (s : State) (c : Nat) (x : Ctx) : (putCtx s c x).modpwr = s.modpwr := rfl
@[simp] theorem putCtx_selftest (s : State) (c : Nat) (x : Ctx) : (putCtx s c x).selftest = s.selftest := rfl
@[simp] theorem putCtx_mbReq (s : State) (c : Nat) (x : Ctx) : (putCtx s c x).mbReq = s.mbReq := rfl
@[simp] theorem putCtx_mbPost (s : State) (c : Nat) (x : Ctx) : (putCtx s c x).mbPost = s.mbPost := rfl
@[simp] theorem putCtx_mbResp (s : State) (c : Nat) (x : Ctx) : (putCtx s c x).mbResp = s.mbResp := rfl
@[simp] theorem putCtx_mbBusy (s : State) (c : Nat) (x : Ctx) : (putCtx s c x).mbBusy = s.mbBusy := rfl
@[simp] theorem putCtx_msix (s : State) (c : Nat) (x : Ctx) : (putCtx s c x).msix = s.msix := rfl
@[simp] theorem putCtx_hnotify (s : State) (c : Nat) (x : Ctx) : (putCtx s c x).hnotify = s.hnotify := rfl
@[simp] theorem putCtx_hostReads (s : State) (c : Nat) (x : Ctx) : (putCtx s c x).hostReads = s.hostReads := rfl

/-! ## modCtx -/

@[simp] theorem modCtx_cur (s : State) (c : Nat) (f : Ctx → Ctx) : (modCtx s c f).cur = s.cur := rfl
@[simp] theorem modCtx_clk (s : State) (c : Nat) (f : Ctx → Ctx) : (modCtx s c f).clk = s.clk := rfl
@[simp] theorem modCtx_inputs (s : State) (c : Nat) (f : Ctx → Ctx) : (modCtx s c f).inputs = s.inputs := rfl
@[simp] theorem modCtx_pace (s : State) (c : Nat) (f : Ctx → Ctx) : (modCtx s c f).pace = s.pace := rfl
@[simp] theorem modCtx_cores (s : State) (c : Nat) (f : Ctx → Ctx) : (modCtx s c f).cores = s.cores := rfl
@[simp] theorem modCtx_dies (s : State) (c : Nat) (f : Ctx → Ctx) : (modCtx s c f).dies = s.dies := rfl
@[simp] theorem modCtx_cohorts (s : State) (c : Nat) (f : Ctx → Ctx) : (modCtx s c f).cohorts = s.cohorts := rfl
@[simp] theorem modCtx_reserves (s : State) (c : Nat) (f : Ctx → Ctx) : (modCtx s c f).reserves = s.reserves := rfl
@[simp] theorem modCtx_gates (s : State) (c : Nat) (f : Ctx → Ctx) : (modCtx s c f).gates = s.gates := rfl
@[simp] theorem modCtx_hbm (s : State) (c : Nat) (f : Ctx → Ctx) : (modCtx s c f).hbm = s.hbm := rfl
@[simp] theorem modCtx_badHbm (s : State) (c : Nat) (f : Ctx → Ctx) : (modCtx s c f).badHbm = s.badHbm := rfl
@[simp] theorem modCtx_withheld (s : State) (c : Nat) (f : Ctx → Ctx) : (modCtx s c f).withheld = s.withheld := rfl
@[simp] theorem modCtx_stacksOut (s : State) (c : Nat) (f : Ctx → Ctx) : (modCtx s c f).stacksOut = s.stacksOut := rfl
@[simp] theorem modCtx_ttbase (s : State) (c : Nat) (f : Ctx → Ctx) : (modCtx s c f).ttbase = s.ttbase := rfl
@[simp] theorem modCtx_hostMem (s : State) (c : Nat) (f : Ctx → Ctx) : (modCtx s c f).hostMem = s.hostMem := rfl
@[simp] theorem modCtx_devnum (s : State) (c : Nat) (f : Ctx → Ctx) : (modCtx s c f).devnum = s.devnum := rfl
@[simp] theorem modCtx_freeCount (s : State) (c : Nat) (f : Ctx → Ctx) : (modCtx s c f).freeCount = s.freeCount := rfl
@[simp] theorem modCtx_replyKey (s : State) (c : Nat) (f : Ctx → Ctx) : (modCtx s c f).replyKey = s.replyKey := rfl
@[simp] theorem modCtx_termLog (s : State) (c : Nat) (f : Ctx → Ctx) : (modCtx s c f).termLog = s.termLog := rfl
@[simp] theorem modCtx_modState (s : State) (c : Nat) (f : Ctx → Ctx) : (modCtx s c f).modState = s.modState := rfl
@[simp] theorem modCtx_routes (s : State) (c : Nat) (f : Ctx → Ctx) : (modCtx s c f).routes = s.routes := rfl
@[simp] theorem modCtx_ports (s : State) (c : Nat) (f : Ctx → Ctx) : (modCtx s c f).ports = s.ports := rfl
@[simp] theorem modCtx_linkUp (s : State) (c : Nat) (f : Ctx → Ctx) : (modCtx s c f).linkUp = s.linkUp := rfl
@[simp] theorem modCtx_windows (s : State) (c : Nat) (f : Ctx → Ctx) : (modCtx s c f).windows = s.windows := rfl
@[simp] theorem modCtx_xpeer (s : State) (c : Nat) (f : Ctx → Ctx) : (modCtx s c f).xpeer = s.xpeer := rfl
@[simp] theorem modCtx_ltmo (s : State) (c : Nat) (f : Ctx → Ctx) : (modCtx s c f).ltmo = s.ltmo := rfl
@[simp] theorem modCtx_peers (s : State) (c : Nat) (f : Ctx → Ctx) : (modCtx s c f).peers = s.peers := rfl
@[simp] theorem modCtx_peerNext (s : State) (c : Nat) (f : Ctx → Ctx) : (modCtx s c f).peerNext = s.peerNext := rfl
@[simp] theorem modCtx_answers (s : State) (c : Nat) (f : Ctx → Ctx) : (modCtx s c f).answers = s.answers := rfl
@[simp] theorem modCtx_gangs (s : State) (c : Nat) (f : Ctx → Ctx) : (modCtx s c f).gangs = s.gangs := rfl
@[simp] theorem modCtx_lastConv (s : State) (c : Nat) (f : Ctx → Ctx) : (modCtx s c f).lastConv = s.lastConv := rfl
@[simp] theorem modCtx_lost (s : State) (c : Nat) (f : Ctx → Ctx) : (modCtx s c f).lost = s.lost := rfl
@[simp] theorem modCtx_islands (s : State) (c : Nat) (f : Ctx → Ctx) : (modCtx s c f).islands = s.islands := rfl
@[simp] theorem modCtx_seq (s : State) (c : Nat) (f : Ctx → Ctx) : (modCtx s c f).seq = s.seq := rfl
@[simp] theorem modCtx_failUnit (s : State) (c : Nat) (f : Ctx → Ctx) : (modCtx s c f).failUnit = s.failUnit := rfl
@[simp] theorem modCtx_fwver (s : State) (c : Nat) (f : Ctx → Ctx) : (modCtx s c f).fwver = s.fwver := rfl
@[simp] theorem modCtx_meas (s : State) (c : Nat) (f : Ctx → Ctx) : (modCtx s c f).meas = s.meas := rfl
@[simp] theorem modCtx_svn (s : State) (c : Nat) (f : Ctx → Ctx) : (modCtx s c f).svn = s.svn := rfl
@[simp] theorem modCtx_svnFuse (s : State) (c : Nat) (f : Ctx → Ctx) : (modCtx s c f).svnFuse = s.svnFuse := rfl
@[simp] theorem modCtx_flashBad (s : State) (c : Nat) (f : Ctx → Ctx) : (modCtx s c f).flashBad = s.flashBad := rfl
@[simp] theorem modCtx_pcap (s : State) (c : Nat) (f : Ctx → Ctx) : (modCtx s c f).pcap = s.pcap := rfl
@[simp] theorem modCtx_modpwr (s : State) (c : Nat) (f : Ctx → Ctx) : (modCtx s c f).modpwr = s.modpwr := rfl
@[simp] theorem modCtx_selftest (s : State) (c : Nat) (f : Ctx → Ctx) : (modCtx s c f).selftest = s.selftest := rfl
@[simp] theorem modCtx_mbReq (s : State) (c : Nat) (f : Ctx → Ctx) : (modCtx s c f).mbReq = s.mbReq := rfl
@[simp] theorem modCtx_mbPost (s : State) (c : Nat) (f : Ctx → Ctx) : (modCtx s c f).mbPost = s.mbPost := rfl
@[simp] theorem modCtx_mbResp (s : State) (c : Nat) (f : Ctx → Ctx) : (modCtx s c f).mbResp = s.mbResp := rfl
@[simp] theorem modCtx_mbBusy (s : State) (c : Nat) (f : Ctx → Ctx) : (modCtx s c f).mbBusy = s.mbBusy := rfl
@[simp] theorem modCtx_msix (s : State) (c : Nat) (f : Ctx → Ctx) : (modCtx s c f).msix = s.msix := rfl
@[simp] theorem modCtx_hnotify (s : State) (c : Nat) (f : Ctx → Ctx) : (modCtx s c f).hnotify = s.hnotify := rfl
@[simp] theorem modCtx_hostReads (s : State) (c : Nat) (f : Ctx → Ctx) : (modCtx s c f).hostReads = s.hostReads := rfl

/-! ## setMe -/

@[simp] theorem setMe_cur (s : State) (x : Ctx) : (setMe s x).cur = s.cur := rfl
@[simp] theorem setMe_clk (s : State) (x : Ctx) : (setMe s x).clk = s.clk := rfl
@[simp] theorem setMe_inputs (s : State) (x : Ctx) : (setMe s x).inputs = s.inputs := rfl
@[simp] theorem setMe_pace (s : State) (x : Ctx) : (setMe s x).pace = s.pace := rfl
@[simp] theorem setMe_cores (s : State) (x : Ctx) : (setMe s x).cores = s.cores := rfl
@[simp] theorem setMe_dies (s : State) (x : Ctx) : (setMe s x).dies = s.dies := rfl
@[simp] theorem setMe_cohorts (s : State) (x : Ctx) : (setMe s x).cohorts = s.cohorts := rfl
@[simp] theorem setMe_reserves (s : State) (x : Ctx) : (setMe s x).reserves = s.reserves := rfl
@[simp] theorem setMe_gates (s : State) (x : Ctx) : (setMe s x).gates = s.gates := rfl
@[simp] theorem setMe_hbm (s : State) (x : Ctx) : (setMe s x).hbm = s.hbm := rfl
@[simp] theorem setMe_badHbm (s : State) (x : Ctx) : (setMe s x).badHbm = s.badHbm := rfl
@[simp] theorem setMe_withheld (s : State) (x : Ctx) : (setMe s x).withheld = s.withheld := rfl
@[simp] theorem setMe_stacksOut (s : State) (x : Ctx) : (setMe s x).stacksOut = s.stacksOut := rfl
@[simp] theorem setMe_ttbase (s : State) (x : Ctx) : (setMe s x).ttbase = s.ttbase := rfl
@[simp] theorem setMe_hostMem (s : State) (x : Ctx) : (setMe s x).hostMem = s.hostMem := rfl
@[simp] theorem setMe_devnum (s : State) (x : Ctx) : (setMe s x).devnum = s.devnum := rfl
@[simp] theorem setMe_freeCount (s : State) (x : Ctx) : (setMe s x).freeCount = s.freeCount := rfl
@[simp] theorem setMe_replyKey (s : State) (x : Ctx) : (setMe s x).replyKey = s.replyKey := rfl
@[simp] theorem setMe_termLog (s : State) (x : Ctx) : (setMe s x).termLog = s.termLog := rfl
@[simp] theorem setMe_modState (s : State) (x : Ctx) : (setMe s x).modState = s.modState := rfl
@[simp] theorem setMe_routes (s : State) (x : Ctx) : (setMe s x).routes = s.routes := rfl
@[simp] theorem setMe_ports (s : State) (x : Ctx) : (setMe s x).ports = s.ports := rfl
@[simp] theorem setMe_linkUp (s : State) (x : Ctx) : (setMe s x).linkUp = s.linkUp := rfl
@[simp] theorem setMe_windows (s : State) (x : Ctx) : (setMe s x).windows = s.windows := rfl
@[simp] theorem setMe_xpeer (s : State) (x : Ctx) : (setMe s x).xpeer = s.xpeer := rfl
@[simp] theorem setMe_ltmo (s : State) (x : Ctx) : (setMe s x).ltmo = s.ltmo := rfl
@[simp] theorem setMe_peers (s : State) (x : Ctx) : (setMe s x).peers = s.peers := rfl
@[simp] theorem setMe_peerNext (s : State) (x : Ctx) : (setMe s x).peerNext = s.peerNext := rfl
@[simp] theorem setMe_answers (s : State) (x : Ctx) : (setMe s x).answers = s.answers := rfl
@[simp] theorem setMe_gangs (s : State) (x : Ctx) : (setMe s x).gangs = s.gangs := rfl
@[simp] theorem setMe_lastConv (s : State) (x : Ctx) : (setMe s x).lastConv = s.lastConv := rfl
@[simp] theorem setMe_lost (s : State) (x : Ctx) : (setMe s x).lost = s.lost := rfl
@[simp] theorem setMe_islands (s : State) (x : Ctx) : (setMe s x).islands = s.islands := rfl
@[simp] theorem setMe_seq (s : State) (x : Ctx) : (setMe s x).seq = s.seq := rfl
@[simp] theorem setMe_failUnit (s : State) (x : Ctx) : (setMe s x).failUnit = s.failUnit := rfl
@[simp] theorem setMe_fwver (s : State) (x : Ctx) : (setMe s x).fwver = s.fwver := rfl
@[simp] theorem setMe_meas (s : State) (x : Ctx) : (setMe s x).meas = s.meas := rfl
@[simp] theorem setMe_svn (s : State) (x : Ctx) : (setMe s x).svn = s.svn := rfl
@[simp] theorem setMe_svnFuse (s : State) (x : Ctx) : (setMe s x).svnFuse = s.svnFuse := rfl
@[simp] theorem setMe_flashBad (s : State) (x : Ctx) : (setMe s x).flashBad = s.flashBad := rfl
@[simp] theorem setMe_pcap (s : State) (x : Ctx) : (setMe s x).pcap = s.pcap := rfl
@[simp] theorem setMe_modpwr (s : State) (x : Ctx) : (setMe s x).modpwr = s.modpwr := rfl
@[simp] theorem setMe_selftest (s : State) (x : Ctx) : (setMe s x).selftest = s.selftest := rfl
@[simp] theorem setMe_mbReq (s : State) (x : Ctx) : (setMe s x).mbReq = s.mbReq := rfl
@[simp] theorem setMe_mbPost (s : State) (x : Ctx) : (setMe s x).mbPost = s.mbPost := rfl
@[simp] theorem setMe_mbResp (s : State) (x : Ctx) : (setMe s x).mbResp = s.mbResp := rfl
@[simp] theorem setMe_mbBusy (s : State) (x : Ctx) : (setMe s x).mbBusy = s.mbBusy := rfl
@[simp] theorem setMe_msix (s : State) (x : Ctx) : (setMe s x).msix = s.msix := rfl
@[simp] theorem setMe_hnotify (s : State) (x : Ctx) : (setMe s x).hnotify = s.hnotify := rfl
@[simp] theorem setMe_hostReads (s : State) (x : Ctx) : (setMe s x).hostReads = s.hostReads := rfl

/-! ## wg -/

@[simp] theorem wg_cur (s : State) (d : BitVec 6) (w : Word) : (wg s d w).cur = s.cur := rfl
@[simp] theorem wg_clk (s : State) (d : BitVec 6) (w : Word) : (wg s d w).clk = s.clk := rfl
@[simp] theorem wg_inputs (s : State) (d : BitVec 6) (w : Word) : (wg s d w).inputs = s.inputs := rfl
@[simp] theorem wg_pace (s : State) (d : BitVec 6) (w : Word) : (wg s d w).pace = s.pace := rfl
@[simp] theorem wg_cores (s : State) (d : BitVec 6) (w : Word) : (wg s d w).cores = s.cores := rfl
@[simp] theorem wg_dies (s : State) (d : BitVec 6) (w : Word) : (wg s d w).dies = s.dies := rfl
@[simp] theorem wg_cohorts (s : State) (d : BitVec 6) (w : Word) : (wg s d w).cohorts = s.cohorts := rfl
@[simp] theorem wg_reserves (s : State) (d : BitVec 6) (w : Word) : (wg s d w).reserves = s.reserves := rfl
@[simp] theorem wg_gates (s : State) (d : BitVec 6) (w : Word) : (wg s d w).gates = s.gates := rfl
@[simp] theorem wg_hbm (s : State) (d : BitVec 6) (w : Word) : (wg s d w).hbm = s.hbm := rfl
@[simp] theorem wg_badHbm (s : State) (d : BitVec 6) (w : Word) : (wg s d w).badHbm = s.badHbm := rfl
@[simp] theorem wg_withheld (s : State) (d : BitVec 6) (w : Word) : (wg s d w).withheld = s.withheld := rfl
@[simp] theorem wg_stacksOut (s : State) (d : BitVec 6) (w : Word) : (wg s d w).stacksOut = s.stacksOut := rfl
@[simp] theorem wg_ttbase (s : State) (d : BitVec 6) (w : Word) : (wg s d w).ttbase = s.ttbase := rfl
@[simp] theorem wg_hostMem (s : State) (d : BitVec 6) (w : Word) : (wg s d w).hostMem = s.hostMem := rfl
@[simp] theorem wg_devnum (s : State) (d : BitVec 6) (w : Word) : (wg s d w).devnum = s.devnum := rfl
@[simp] theorem wg_freeCount (s : State) (d : BitVec 6) (w : Word) : (wg s d w).freeCount = s.freeCount := rfl
@[simp] theorem wg_replyKey (s : State) (d : BitVec 6) (w : Word) : (wg s d w).replyKey = s.replyKey := rfl
@[simp] theorem wg_termLog (s : State) (d : BitVec 6) (w : Word) : (wg s d w).termLog = s.termLog := rfl
@[simp] theorem wg_modState (s : State) (d : BitVec 6) (w : Word) : (wg s d w).modState = s.modState := rfl
@[simp] theorem wg_routes (s : State) (d : BitVec 6) (w : Word) : (wg s d w).routes = s.routes := rfl
@[simp] theorem wg_ports (s : State) (d : BitVec 6) (w : Word) : (wg s d w).ports = s.ports := rfl
@[simp] theorem wg_linkUp (s : State) (d : BitVec 6) (w : Word) : (wg s d w).linkUp = s.linkUp := rfl
@[simp] theorem wg_windows (s : State) (d : BitVec 6) (w : Word) : (wg s d w).windows = s.windows := rfl
@[simp] theorem wg_xpeer (s : State) (d : BitVec 6) (w : Word) : (wg s d w).xpeer = s.xpeer := rfl
@[simp] theorem wg_ltmo (s : State) (d : BitVec 6) (w : Word) : (wg s d w).ltmo = s.ltmo := rfl
@[simp] theorem wg_peers (s : State) (d : BitVec 6) (w : Word) : (wg s d w).peers = s.peers := rfl
@[simp] theorem wg_peerNext (s : State) (d : BitVec 6) (w : Word) : (wg s d w).peerNext = s.peerNext := rfl
@[simp] theorem wg_answers (s : State) (d : BitVec 6) (w : Word) : (wg s d w).answers = s.answers := rfl
@[simp] theorem wg_gangs (s : State) (d : BitVec 6) (w : Word) : (wg s d w).gangs = s.gangs := rfl
@[simp] theorem wg_lastConv (s : State) (d : BitVec 6) (w : Word) : (wg s d w).lastConv = s.lastConv := rfl
@[simp] theorem wg_lost (s : State) (d : BitVec 6) (w : Word) : (wg s d w).lost = s.lost := rfl
@[simp] theorem wg_islands (s : State) (d : BitVec 6) (w : Word) : (wg s d w).islands = s.islands := rfl
@[simp] theorem wg_seq (s : State) (d : BitVec 6) (w : Word) : (wg s d w).seq = s.seq := rfl
@[simp] theorem wg_failUnit (s : State) (d : BitVec 6) (w : Word) : (wg s d w).failUnit = s.failUnit := rfl
@[simp] theorem wg_fwver (s : State) (d : BitVec 6) (w : Word) : (wg s d w).fwver = s.fwver := rfl
@[simp] theorem wg_meas (s : State) (d : BitVec 6) (w : Word) : (wg s d w).meas = s.meas := rfl
@[simp] theorem wg_svn (s : State) (d : BitVec 6) (w : Word) : (wg s d w).svn = s.svn := rfl
@[simp] theorem wg_svnFuse (s : State) (d : BitVec 6) (w : Word) : (wg s d w).svnFuse = s.svnFuse := rfl
@[simp] theorem wg_flashBad (s : State) (d : BitVec 6) (w : Word) : (wg s d w).flashBad = s.flashBad := rfl
@[simp] theorem wg_pcap (s : State) (d : BitVec 6) (w : Word) : (wg s d w).pcap = s.pcap := rfl
@[simp] theorem wg_modpwr (s : State) (d : BitVec 6) (w : Word) : (wg s d w).modpwr = s.modpwr := rfl
@[simp] theorem wg_selftest (s : State) (d : BitVec 6) (w : Word) : (wg s d w).selftest = s.selftest := rfl
@[simp] theorem wg_mbReq (s : State) (d : BitVec 6) (w : Word) : (wg s d w).mbReq = s.mbReq := rfl
@[simp] theorem wg_mbPost (s : State) (d : BitVec 6) (w : Word) : (wg s d w).mbPost = s.mbPost := rfl
@[simp] theorem wg_mbResp (s : State) (d : BitVec 6) (w : Word) : (wg s d w).mbResp = s.mbResp := rfl
@[simp] theorem wg_mbBusy (s : State) (d : BitVec 6) (w : Word) : (wg s d w).mbBusy = s.mbBusy := rfl
@[simp] theorem wg_msix (s : State) (d : BitVec 6) (w : Word) : (wg s d w).msix = s.msix := rfl
@[simp] theorem wg_hnotify (s : State) (d : BitVec 6) (w : Word) : (wg s d w).hnotify = s.hnotify := rfl
@[simp] theorem wg_hostReads (s : State) (d : BitVec 6) (w : Word) : (wg s d w).hostReads = s.hostReads := rfl

/-! ## wp -/

@[simp] theorem wp_cur (s : State) (d : BitVec 3) (b : Bool) : (wp s d b).cur = s.cur := rfl
@[simp] theorem wp_clk (s : State) (d : BitVec 3) (b : Bool) : (wp s d b).clk = s.clk := rfl
@[simp] theorem wp_inputs (s : State) (d : BitVec 3) (b : Bool) : (wp s d b).inputs = s.inputs := rfl
@[simp] theorem wp_pace (s : State) (d : BitVec 3) (b : Bool) : (wp s d b).pace = s.pace := rfl
@[simp] theorem wp_cores (s : State) (d : BitVec 3) (b : Bool) : (wp s d b).cores = s.cores := rfl
@[simp] theorem wp_dies (s : State) (d : BitVec 3) (b : Bool) : (wp s d b).dies = s.dies := rfl
@[simp] theorem wp_cohorts (s : State) (d : BitVec 3) (b : Bool) : (wp s d b).cohorts = s.cohorts := rfl
@[simp] theorem wp_reserves (s : State) (d : BitVec 3) (b : Bool) : (wp s d b).reserves = s.reserves := rfl
@[simp] theorem wp_gates (s : State) (d : BitVec 3) (b : Bool) : (wp s d b).gates = s.gates := rfl
@[simp] theorem wp_hbm (s : State) (d : BitVec 3) (b : Bool) : (wp s d b).hbm = s.hbm := rfl
@[simp] theorem wp_badHbm (s : State) (d : BitVec 3) (b : Bool) : (wp s d b).badHbm = s.badHbm := rfl
@[simp] theorem wp_withheld (s : State) (d : BitVec 3) (b : Bool) : (wp s d b).withheld = s.withheld := rfl
@[simp] theorem wp_stacksOut (s : State) (d : BitVec 3) (b : Bool) : (wp s d b).stacksOut = s.stacksOut := rfl
@[simp] theorem wp_ttbase (s : State) (d : BitVec 3) (b : Bool) : (wp s d b).ttbase = s.ttbase := rfl
@[simp] theorem wp_hostMem (s : State) (d : BitVec 3) (b : Bool) : (wp s d b).hostMem = s.hostMem := rfl
@[simp] theorem wp_devnum (s : State) (d : BitVec 3) (b : Bool) : (wp s d b).devnum = s.devnum := rfl
@[simp] theorem wp_freeCount (s : State) (d : BitVec 3) (b : Bool) : (wp s d b).freeCount = s.freeCount := rfl
@[simp] theorem wp_replyKey (s : State) (d : BitVec 3) (b : Bool) : (wp s d b).replyKey = s.replyKey := rfl
@[simp] theorem wp_termLog (s : State) (d : BitVec 3) (b : Bool) : (wp s d b).termLog = s.termLog := rfl
@[simp] theorem wp_modState (s : State) (d : BitVec 3) (b : Bool) : (wp s d b).modState = s.modState := rfl
@[simp] theorem wp_routes (s : State) (d : BitVec 3) (b : Bool) : (wp s d b).routes = s.routes := rfl
@[simp] theorem wp_ports (s : State) (d : BitVec 3) (b : Bool) : (wp s d b).ports = s.ports := rfl
@[simp] theorem wp_linkUp (s : State) (d : BitVec 3) (b : Bool) : (wp s d b).linkUp = s.linkUp := rfl
@[simp] theorem wp_windows (s : State) (d : BitVec 3) (b : Bool) : (wp s d b).windows = s.windows := rfl
@[simp] theorem wp_xpeer (s : State) (d : BitVec 3) (b : Bool) : (wp s d b).xpeer = s.xpeer := rfl
@[simp] theorem wp_ltmo (s : State) (d : BitVec 3) (b : Bool) : (wp s d b).ltmo = s.ltmo := rfl
@[simp] theorem wp_peers (s : State) (d : BitVec 3) (b : Bool) : (wp s d b).peers = s.peers := rfl
@[simp] theorem wp_peerNext (s : State) (d : BitVec 3) (b : Bool) : (wp s d b).peerNext = s.peerNext := rfl
@[simp] theorem wp_answers (s : State) (d : BitVec 3) (b : Bool) : (wp s d b).answers = s.answers := rfl
@[simp] theorem wp_gangs (s : State) (d : BitVec 3) (b : Bool) : (wp s d b).gangs = s.gangs := rfl
@[simp] theorem wp_lastConv (s : State) (d : BitVec 3) (b : Bool) : (wp s d b).lastConv = s.lastConv := rfl
@[simp] theorem wp_lost (s : State) (d : BitVec 3) (b : Bool) : (wp s d b).lost = s.lost := rfl
@[simp] theorem wp_islands (s : State) (d : BitVec 3) (b : Bool) : (wp s d b).islands = s.islands := rfl
@[simp] theorem wp_seq (s : State) (d : BitVec 3) (b : Bool) : (wp s d b).seq = s.seq := rfl
@[simp] theorem wp_failUnit (s : State) (d : BitVec 3) (b : Bool) : (wp s d b).failUnit = s.failUnit := rfl
@[simp] theorem wp_fwver (s : State) (d : BitVec 3) (b : Bool) : (wp s d b).fwver = s.fwver := rfl
@[simp] theorem wp_meas (s : State) (d : BitVec 3) (b : Bool) : (wp s d b).meas = s.meas := rfl
@[simp] theorem wp_svn (s : State) (d : BitVec 3) (b : Bool) : (wp s d b).svn = s.svn := rfl
@[simp] theorem wp_svnFuse (s : State) (d : BitVec 3) (b : Bool) : (wp s d b).svnFuse = s.svnFuse := rfl
@[simp] theorem wp_flashBad (s : State) (d : BitVec 3) (b : Bool) : (wp s d b).flashBad = s.flashBad := rfl
@[simp] theorem wp_pcap (s : State) (d : BitVec 3) (b : Bool) : (wp s d b).pcap = s.pcap := rfl
@[simp] theorem wp_modpwr (s : State) (d : BitVec 3) (b : Bool) : (wp s d b).modpwr = s.modpwr := rfl
@[simp] theorem wp_selftest (s : State) (d : BitVec 3) (b : Bool) : (wp s d b).selftest = s.selftest := rfl
@[simp] theorem wp_mbReq (s : State) (d : BitVec 3) (b : Bool) : (wp s d b).mbReq = s.mbReq := rfl
@[simp] theorem wp_mbPost (s : State) (d : BitVec 3) (b : Bool) : (wp s d b).mbPost = s.mbPost := rfl
@[simp] theorem wp_mbResp (s : State) (d : BitVec 3) (b : Bool) : (wp s d b).mbResp = s.mbResp := rfl
@[simp] theorem wp_mbBusy (s : State) (d : BitVec 3) (b : Bool) : (wp s d b).mbBusy = s.mbBusy := rfl
@[simp] theorem wp_msix (s : State) (d : BitVec 3) (b : Bool) : (wp s d b).msix = s.msix := rfl
@[simp] theorem wp_hnotify (s : State) (d : BitVec 3) (b : Bool) : (wp s d b).hnotify = s.hnotify := rfl
@[simp] theorem wp_hostReads (s : State) (d : BitVec 3) (b : Bool) : (wp s d b).hostReads = s.hostReads := rfl

/-! ## setCr -/

@[simp] theorem setCr_cur (s : State) (n : Nat) (w : Word) : (setCr s n w).cur = s.cur := rfl
@[simp] theorem setCr_clk (s : State) (n : Nat) (w : Word) : (setCr s n w).clk = s.clk := rfl
@[simp] theorem setCr_inputs (s : State) (n : Nat) (w : Word) : (setCr s n w).inputs = s.inputs := rfl
@[simp] theorem setCr_pace (s : State) (n : Nat) (w : Word) : (setCr s n w).pace = s.pace := rfl
@[simp] theorem setCr_cores (s : State) (n : Nat) (w : Word) : (setCr s n w).cores = s.cores := rfl
@[simp] theorem setCr_dies (s : State) (n : Nat) (w : Word) : (setCr s n w).dies = s.dies := rfl
@[simp] theorem setCr_cohorts (s : State) (n : Nat) (w : Word) : (setCr s n w).cohorts = s.cohorts := rfl
@[simp] theorem setCr_reserves (s : State) (n : Nat) (w : Word) : (setCr s n w).reserves = s.reserves := rfl
@[simp] theorem setCr_gates (s : State) (n : Nat) (w : Word) : (setCr s n w).gates = s.gates := rfl
@[simp] theorem setCr_hbm (s : State) (n : Nat) (w : Word) : (setCr s n w).hbm = s.hbm := rfl
@[simp] theorem setCr_badHbm (s : State) (n : Nat) (w : Word) : (setCr s n w).badHbm = s.badHbm := rfl
@[simp] theorem setCr_withheld (s : State) (n : Nat) (w : Word) : (setCr s n w).withheld = s.withheld := rfl
@[simp] theorem setCr_stacksOut (s : State) (n : Nat) (w : Word) : (setCr s n w).stacksOut = s.stacksOut := rfl
@[simp] theorem setCr_ttbase (s : State) (n : Nat) (w : Word) : (setCr s n w).ttbase = s.ttbase := rfl
@[simp] theorem setCr_hostMem (s : State) (n : Nat) (w : Word) : (setCr s n w).hostMem = s.hostMem := rfl
@[simp] theorem setCr_devnum (s : State) (n : Nat) (w : Word) : (setCr s n w).devnum = s.devnum := rfl
@[simp] theorem setCr_freeCount (s : State) (n : Nat) (w : Word) : (setCr s n w).freeCount = s.freeCount := rfl
@[simp] theorem setCr_replyKey (s : State) (n : Nat) (w : Word) : (setCr s n w).replyKey = s.replyKey := rfl
@[simp] theorem setCr_termLog (s : State) (n : Nat) (w : Word) : (setCr s n w).termLog = s.termLog := rfl
@[simp] theorem setCr_modState (s : State) (n : Nat) (w : Word) : (setCr s n w).modState = s.modState := rfl
@[simp] theorem setCr_routes (s : State) (n : Nat) (w : Word) : (setCr s n w).routes = s.routes := rfl
@[simp] theorem setCr_ports (s : State) (n : Nat) (w : Word) : (setCr s n w).ports = s.ports := rfl
@[simp] theorem setCr_linkUp (s : State) (n : Nat) (w : Word) : (setCr s n w).linkUp = s.linkUp := rfl
@[simp] theorem setCr_windows (s : State) (n : Nat) (w : Word) : (setCr s n w).windows = s.windows := rfl
@[simp] theorem setCr_xpeer (s : State) (n : Nat) (w : Word) : (setCr s n w).xpeer = s.xpeer := rfl
@[simp] theorem setCr_ltmo (s : State) (n : Nat) (w : Word) : (setCr s n w).ltmo = s.ltmo := rfl
@[simp] theorem setCr_peers (s : State) (n : Nat) (w : Word) : (setCr s n w).peers = s.peers := rfl
@[simp] theorem setCr_peerNext (s : State) (n : Nat) (w : Word) : (setCr s n w).peerNext = s.peerNext := rfl
@[simp] theorem setCr_answers (s : State) (n : Nat) (w : Word) : (setCr s n w).answers = s.answers := rfl
@[simp] theorem setCr_gangs (s : State) (n : Nat) (w : Word) : (setCr s n w).gangs = s.gangs := rfl
@[simp] theorem setCr_lastConv (s : State) (n : Nat) (w : Word) : (setCr s n w).lastConv = s.lastConv := rfl
@[simp] theorem setCr_lost (s : State) (n : Nat) (w : Word) : (setCr s n w).lost = s.lost := rfl
@[simp] theorem setCr_islands (s : State) (n : Nat) (w : Word) : (setCr s n w).islands = s.islands := rfl
@[simp] theorem setCr_seq (s : State) (n : Nat) (w : Word) : (setCr s n w).seq = s.seq := rfl
@[simp] theorem setCr_failUnit (s : State) (n : Nat) (w : Word) : (setCr s n w).failUnit = s.failUnit := rfl
@[simp] theorem setCr_fwver (s : State) (n : Nat) (w : Word) : (setCr s n w).fwver = s.fwver := rfl
@[simp] theorem setCr_meas (s : State) (n : Nat) (w : Word) : (setCr s n w).meas = s.meas := rfl
@[simp] theorem setCr_svn (s : State) (n : Nat) (w : Word) : (setCr s n w).svn = s.svn := rfl
@[simp] theorem setCr_svnFuse (s : State) (n : Nat) (w : Word) : (setCr s n w).svnFuse = s.svnFuse := rfl
@[simp] theorem setCr_flashBad (s : State) (n : Nat) (w : Word) : (setCr s n w).flashBad = s.flashBad := rfl
@[simp] theorem setCr_pcap (s : State) (n : Nat) (w : Word) : (setCr s n w).pcap = s.pcap := rfl
@[simp] theorem setCr_modpwr (s : State) (n : Nat) (w : Word) : (setCr s n w).modpwr = s.modpwr := rfl
@[simp] theorem setCr_selftest (s : State) (n : Nat) (w : Word) : (setCr s n w).selftest = s.selftest := rfl
@[simp] theorem setCr_mbReq (s : State) (n : Nat) (w : Word) : (setCr s n w).mbReq = s.mbReq := rfl
@[simp] theorem setCr_mbPost (s : State) (n : Nat) (w : Word) : (setCr s n w).mbPost = s.mbPost := rfl
@[simp] theorem setCr_mbResp (s : State) (n : Nat) (w : Word) : (setCr s n w).mbResp = s.mbResp := rfl
@[simp] theorem setCr_mbBusy (s : State) (n : Nat) (w : Word) : (setCr s n w).mbBusy = s.mbBusy := rfl
@[simp] theorem setCr_msix (s : State) (n : Nat) (w : Word) : (setCr s n w).msix = s.msix := rfl
@[simp] theorem setCr_hnotify (s : State) (n : Nat) (w : Word) : (setCr s n w).hnotify = s.hnotify := rfl
@[simp] theorem setCr_hostReads (s : State) (n : Nat) (w : Word) : (setCr s n w).hostReads = s.hostReads := rfl

/-! ## putCore -/

@[simp] theorem putCore_cur (s : State) (k : Nat) (x : Core) : (putCore s k x).cur = s.cur := rfl
@[simp] theorem putCore_clk (s : State) (k : Nat) (x : Core) : (putCore s k x).clk = s.clk := rfl
@[simp] theorem putCore_inputs (s : State) (k : Nat) (x : Core) : (putCore s k x).inputs = s.inputs := rfl
@[simp] theorem putCore_pace (s : State) (k : Nat) (x : Core) : (putCore s k x).pace = s.pace := rfl
@[simp] theorem putCore_ctxs (s : State) (k : Nat) (x : Core) : (putCore s k x).ctxs = s.ctxs := rfl
@[simp] theorem putCore_dies (s : State) (k : Nat) (x : Core) : (putCore s k x).dies = s.dies := rfl
@[simp] theorem putCore_cohorts (s : State) (k : Nat) (x : Core) : (putCore s k x).cohorts = s.cohorts := rfl
@[simp] theorem putCore_reserves (s : State) (k : Nat) (x : Core) : (putCore s k x).reserves = s.reserves := rfl
@[simp] theorem putCore_gates (s : State) (k : Nat) (x : Core) : (putCore s k x).gates = s.gates := rfl
@[simp] theorem putCore_hbm (s : State) (k : Nat) (x : Core) : (putCore s k x).hbm = s.hbm := rfl
@[simp] theorem putCore_badHbm (s : State) (k : Nat) (x : Core) : (putCore s k x).badHbm = s.badHbm := rfl
@[simp] theorem putCore_withheld (s : State) (k : Nat) (x : Core) : (putCore s k x).withheld = s.withheld := rfl
@[simp] theorem putCore_stacksOut (s : State) (k : Nat) (x : Core) : (putCore s k x).stacksOut = s.stacksOut := rfl
@[simp] theorem putCore_ttbase (s : State) (k : Nat) (x : Core) : (putCore s k x).ttbase = s.ttbase := rfl
@[simp] theorem putCore_hostMem (s : State) (k : Nat) (x : Core) : (putCore s k x).hostMem = s.hostMem := rfl
@[simp] theorem putCore_devnum (s : State) (k : Nat) (x : Core) : (putCore s k x).devnum = s.devnum := rfl
@[simp] theorem putCore_freeCount (s : State) (k : Nat) (x : Core) : (putCore s k x).freeCount = s.freeCount := rfl
@[simp] theorem putCore_replyKey (s : State) (k : Nat) (x : Core) : (putCore s k x).replyKey = s.replyKey := rfl
@[simp] theorem putCore_termLog (s : State) (k : Nat) (x : Core) : (putCore s k x).termLog = s.termLog := rfl
@[simp] theorem putCore_modState (s : State) (k : Nat) (x : Core) : (putCore s k x).modState = s.modState := rfl
@[simp] theorem putCore_routes (s : State) (k : Nat) (x : Core) : (putCore s k x).routes = s.routes := rfl
@[simp] theorem putCore_ports (s : State) (k : Nat) (x : Core) : (putCore s k x).ports = s.ports := rfl
@[simp] theorem putCore_linkUp (s : State) (k : Nat) (x : Core) : (putCore s k x).linkUp = s.linkUp := rfl
@[simp] theorem putCore_windows (s : State) (k : Nat) (x : Core) : (putCore s k x).windows = s.windows := rfl
@[simp] theorem putCore_xpeer (s : State) (k : Nat) (x : Core) : (putCore s k x).xpeer = s.xpeer := rfl
@[simp] theorem putCore_ltmo (s : State) (k : Nat) (x : Core) : (putCore s k x).ltmo = s.ltmo := rfl
@[simp] theorem putCore_peers (s : State) (k : Nat) (x : Core) : (putCore s k x).peers = s.peers := rfl
@[simp] theorem putCore_peerNext (s : State) (k : Nat) (x : Core) : (putCore s k x).peerNext = s.peerNext := rfl
@[simp] theorem putCore_answers (s : State) (k : Nat) (x : Core) : (putCore s k x).answers = s.answers := rfl
@[simp] theorem putCore_gangs (s : State) (k : Nat) (x : Core) : (putCore s k x).gangs = s.gangs := rfl
@[simp] theorem putCore_lastConv (s : State) (k : Nat) (x : Core) : (putCore s k x).lastConv = s.lastConv := rfl
@[simp] theorem putCore_lost (s : State) (k : Nat) (x : Core) : (putCore s k x).lost = s.lost := rfl
@[simp] theorem putCore_islands (s : State) (k : Nat) (x : Core) : (putCore s k x).islands = s.islands := rfl
@[simp] theorem putCore_seq (s : State) (k : Nat) (x : Core) : (putCore s k x).seq = s.seq := rfl
@[simp] theorem putCore_failUnit (s : State) (k : Nat) (x : Core) : (putCore s k x).failUnit = s.failUnit := rfl
@[simp] theorem putCore_fwver (s : State) (k : Nat) (x : Core) : (putCore s k x).fwver = s.fwver := rfl
@[simp] theorem putCore_meas (s : State) (k : Nat) (x : Core) : (putCore s k x).meas = s.meas := rfl
@[simp] theorem putCore_svn (s : State) (k : Nat) (x : Core) : (putCore s k x).svn = s.svn := rfl
@[simp] theorem putCore_svnFuse (s : State) (k : Nat) (x : Core) : (putCore s k x).svnFuse = s.svnFuse := rfl
@[simp] theorem putCore_flashBad (s : State) (k : Nat) (x : Core) : (putCore s k x).flashBad = s.flashBad := rfl
@[simp] theorem putCore_pcap (s : State) (k : Nat) (x : Core) : (putCore s k x).pcap = s.pcap := rfl
@[simp] theorem putCore_modpwr (s : State) (k : Nat) (x : Core) : (putCore s k x).modpwr = s.modpwr := rfl
@[simp] theorem putCore_selftest (s : State) (k : Nat) (x : Core) : (putCore s k x).selftest = s.selftest := rfl
@[simp] theorem putCore_mbReq (s : State) (k : Nat) (x : Core) : (putCore s k x).mbReq = s.mbReq := rfl
@[simp] theorem putCore_mbPost (s : State) (k : Nat) (x : Core) : (putCore s k x).mbPost = s.mbPost := rfl
@[simp] theorem putCore_mbResp (s : State) (k : Nat) (x : Core) : (putCore s k x).mbResp = s.mbResp := rfl
@[simp] theorem putCore_mbBusy (s : State) (k : Nat) (x : Core) : (putCore s k x).mbBusy = s.mbBusy := rfl
@[simp] theorem putCore_msix (s : State) (k : Nat) (x : Core) : (putCore s k x).msix = s.msix := rfl
@[simp] theorem putCore_hnotify (s : State) (k : Nat) (x : Core) : (putCore s k x).hnotify = s.hnotify := rfl
@[simp] theorem putCore_hostReads (s : State) (k : Nat) (x : Core) : (putCore s k x).hostReads = s.hostReads := rfl

/-! ## modCore -/

@[simp] theorem modCore_cur (s : State) (k : Nat) (f : Core → Core) : (modCore s k f).cur = s.cur := rfl
@[simp] theorem modCore_clk (s : State) (k : Nat) (f : Core → Core) : (modCore s k f).clk = s.clk := rfl
@[simp] theorem modCore_inputs (s : State) (k : Nat) (f : Core → Core) : (modCore s k f).inputs = s.inputs := rfl
@[simp] theorem modCore_pace (s : State) (k : Nat) (f : Core → Core) : (modCore s k f).pace = s.pace := rfl
@[simp] theorem modCore_ctxs (s : State) (k : Nat) (f : Core → Core) : (modCore s k f).ctxs = s.ctxs := rfl
@[simp] theorem modCore_dies (s : State) (k : Nat) (f : Core → Core) : (modCore s k f).dies = s.dies := rfl
@[simp] theorem modCore_cohorts (s : State) (k : Nat) (f : Core → Core) : (modCore s k f).cohorts = s.cohorts := rfl
@[simp] theorem modCore_reserves (s : State) (k : Nat) (f : Core → Core) : (modCore s k f).reserves = s.reserves := rfl
@[simp] theorem modCore_gates (s : State) (k : Nat) (f : Core → Core) : (modCore s k f).gates = s.gates := rfl
@[simp] theorem modCore_hbm (s : State) (k : Nat) (f : Core → Core) : (modCore s k f).hbm = s.hbm := rfl
@[simp] theorem modCore_badHbm (s : State) (k : Nat) (f : Core → Core) : (modCore s k f).badHbm = s.badHbm := rfl
@[simp] theorem modCore_withheld (s : State) (k : Nat) (f : Core → Core) : (modCore s k f).withheld = s.withheld := rfl
@[simp] theorem modCore_stacksOut (s : State) (k : Nat) (f : Core → Core) : (modCore s k f).stacksOut = s.stacksOut := rfl
@[simp] theorem modCore_ttbase (s : State) (k : Nat) (f : Core → Core) : (modCore s k f).ttbase = s.ttbase := rfl
@[simp] theorem modCore_hostMem (s : State) (k : Nat) (f : Core → Core) : (modCore s k f).hostMem = s.hostMem := rfl
@[simp] theorem modCore_devnum (s : State) (k : Nat) (f : Core → Core) : (modCore s k f).devnum = s.devnum := rfl
@[simp] theorem modCore_freeCount (s : State) (k : Nat) (f : Core → Core) : (modCore s k f).freeCount = s.freeCount := rfl
@[simp] theorem modCore_replyKey (s : State) (k : Nat) (f : Core → Core) : (modCore s k f).replyKey = s.replyKey := rfl
@[simp] theorem modCore_termLog (s : State) (k : Nat) (f : Core → Core) : (modCore s k f).termLog = s.termLog := rfl
@[simp] theorem modCore_modState (s : State) (k : Nat) (f : Core → Core) : (modCore s k f).modState = s.modState := rfl
@[simp] theorem modCore_routes (s : State) (k : Nat) (f : Core → Core) : (modCore s k f).routes = s.routes := rfl
@[simp] theorem modCore_ports (s : State) (k : Nat) (f : Core → Core) : (modCore s k f).ports = s.ports := rfl
@[simp] theorem modCore_linkUp (s : State) (k : Nat) (f : Core → Core) : (modCore s k f).linkUp = s.linkUp := rfl
@[simp] theorem modCore_windows (s : State) (k : Nat) (f : Core → Core) : (modCore s k f).windows = s.windows := rfl
@[simp] theorem modCore_xpeer (s : State) (k : Nat) (f : Core → Core) : (modCore s k f).xpeer = s.xpeer := rfl
@[simp] theorem modCore_ltmo (s : State) (k : Nat) (f : Core → Core) : (modCore s k f).ltmo = s.ltmo := rfl
@[simp] theorem modCore_peers (s : State) (k : Nat) (f : Core → Core) : (modCore s k f).peers = s.peers := rfl
@[simp] theorem modCore_peerNext (s : State) (k : Nat) (f : Core → Core) : (modCore s k f).peerNext = s.peerNext := rfl
@[simp] theorem modCore_answers (s : State) (k : Nat) (f : Core → Core) : (modCore s k f).answers = s.answers := rfl
@[simp] theorem modCore_gangs (s : State) (k : Nat) (f : Core → Core) : (modCore s k f).gangs = s.gangs := rfl
@[simp] theorem modCore_lastConv (s : State) (k : Nat) (f : Core → Core) : (modCore s k f).lastConv = s.lastConv := rfl
@[simp] theorem modCore_lost (s : State) (k : Nat) (f : Core → Core) : (modCore s k f).lost = s.lost := rfl
@[simp] theorem modCore_islands (s : State) (k : Nat) (f : Core → Core) : (modCore s k f).islands = s.islands := rfl
@[simp] theorem modCore_seq (s : State) (k : Nat) (f : Core → Core) : (modCore s k f).seq = s.seq := rfl
@[simp] theorem modCore_failUnit (s : State) (k : Nat) (f : Core → Core) : (modCore s k f).failUnit = s.failUnit := rfl
@[simp] theorem modCore_fwver (s : State) (k : Nat) (f : Core → Core) : (modCore s k f).fwver = s.fwver := rfl
@[simp] theorem modCore_meas (s : State) (k : Nat) (f : Core → Core) : (modCore s k f).meas = s.meas := rfl
@[simp] theorem modCore_svn (s : State) (k : Nat) (f : Core → Core) : (modCore s k f).svn = s.svn := rfl
@[simp] theorem modCore_svnFuse (s : State) (k : Nat) (f : Core → Core) : (modCore s k f).svnFuse = s.svnFuse := rfl
@[simp] theorem modCore_flashBad (s : State) (k : Nat) (f : Core → Core) : (modCore s k f).flashBad = s.flashBad := rfl
@[simp] theorem modCore_pcap (s : State) (k : Nat) (f : Core → Core) : (modCore s k f).pcap = s.pcap := rfl
@[simp] theorem modCore_modpwr (s : State) (k : Nat) (f : Core → Core) : (modCore s k f).modpwr = s.modpwr := rfl
@[simp] theorem modCore_selftest (s : State) (k : Nat) (f : Core → Core) : (modCore s k f).selftest = s.selftest := rfl
@[simp] theorem modCore_mbReq (s : State) (k : Nat) (f : Core → Core) : (modCore s k f).mbReq = s.mbReq := rfl
@[simp] theorem modCore_mbPost (s : State) (k : Nat) (f : Core → Core) : (modCore s k f).mbPost = s.mbPost := rfl
@[simp] theorem modCore_mbResp (s : State) (k : Nat) (f : Core → Core) : (modCore s k f).mbResp = s.mbResp := rfl
@[simp] theorem modCore_mbBusy (s : State) (k : Nat) (f : Core → Core) : (modCore s k f).mbBusy = s.mbBusy := rfl
@[simp] theorem modCore_msix (s : State) (k : Nat) (f : Core → Core) : (modCore s k f).msix = s.msix := rfl
@[simp] theorem modCore_hnotify (s : State) (k : Nat) (f : Core → Core) : (modCore s k f).hnotify = s.hnotify := rfl
@[simp] theorem modCore_hostReads (s : State) (k : Nat) (f : Core → Core) : (modCore s k f).hostReads = s.hostReads := rfl

/-! ## putCounter -/

@[simp] theorem putCounter_cur (s : State) (k i : Nat) (x : Counter) : (putCounter s k i x).cur = s.cur := rfl
@[simp] theorem putCounter_clk (s : State) (k i : Nat) (x : Counter) : (putCounter s k i x).clk = s.clk := rfl
@[simp] theorem putCounter_inputs (s : State) (k i : Nat) (x : Counter) : (putCounter s k i x).inputs = s.inputs := rfl
@[simp] theorem putCounter_pace (s : State) (k i : Nat) (x : Counter) : (putCounter s k i x).pace = s.pace := rfl
@[simp] theorem putCounter_ctxs (s : State) (k i : Nat) (x : Counter) : (putCounter s k i x).ctxs = s.ctxs := rfl
@[simp] theorem putCounter_dies (s : State) (k i : Nat) (x : Counter) : (putCounter s k i x).dies = s.dies := rfl
@[simp] theorem putCounter_cohorts (s : State) (k i : Nat) (x : Counter) : (putCounter s k i x).cohorts = s.cohorts := rfl
@[simp] theorem putCounter_reserves (s : State) (k i : Nat) (x : Counter) : (putCounter s k i x).reserves = s.reserves := rfl
@[simp] theorem putCounter_gates (s : State) (k i : Nat) (x : Counter) : (putCounter s k i x).gates = s.gates := rfl
@[simp] theorem putCounter_hbm (s : State) (k i : Nat) (x : Counter) : (putCounter s k i x).hbm = s.hbm := rfl
@[simp] theorem putCounter_badHbm (s : State) (k i : Nat) (x : Counter) : (putCounter s k i x).badHbm = s.badHbm := rfl
@[simp] theorem putCounter_withheld (s : State) (k i : Nat) (x : Counter) : (putCounter s k i x).withheld = s.withheld := rfl
@[simp] theorem putCounter_stacksOut (s : State) (k i : Nat) (x : Counter) : (putCounter s k i x).stacksOut = s.stacksOut := rfl
@[simp] theorem putCounter_ttbase (s : State) (k i : Nat) (x : Counter) : (putCounter s k i x).ttbase = s.ttbase := rfl
@[simp] theorem putCounter_hostMem (s : State) (k i : Nat) (x : Counter) : (putCounter s k i x).hostMem = s.hostMem := rfl
@[simp] theorem putCounter_devnum (s : State) (k i : Nat) (x : Counter) : (putCounter s k i x).devnum = s.devnum := rfl
@[simp] theorem putCounter_freeCount (s : State) (k i : Nat) (x : Counter) : (putCounter s k i x).freeCount = s.freeCount := rfl
@[simp] theorem putCounter_replyKey (s : State) (k i : Nat) (x : Counter) : (putCounter s k i x).replyKey = s.replyKey := rfl
@[simp] theorem putCounter_termLog (s : State) (k i : Nat) (x : Counter) : (putCounter s k i x).termLog = s.termLog := rfl
@[simp] theorem putCounter_modState (s : State) (k i : Nat) (x : Counter) : (putCounter s k i x).modState = s.modState := rfl
@[simp] theorem putCounter_routes (s : State) (k i : Nat) (x : Counter) : (putCounter s k i x).routes = s.routes := rfl
@[simp] theorem putCounter_ports (s : State) (k i : Nat) (x : Counter) : (putCounter s k i x).ports = s.ports := rfl
@[simp] theorem putCounter_linkUp (s : State) (k i : Nat) (x : Counter) : (putCounter s k i x).linkUp = s.linkUp := rfl
@[simp] theorem putCounter_windows (s : State) (k i : Nat) (x : Counter) : (putCounter s k i x).windows = s.windows := rfl
@[simp] theorem putCounter_xpeer (s : State) (k i : Nat) (x : Counter) : (putCounter s k i x).xpeer = s.xpeer := rfl
@[simp] theorem putCounter_ltmo (s : State) (k i : Nat) (x : Counter) : (putCounter s k i x).ltmo = s.ltmo := rfl
@[simp] theorem putCounter_peers (s : State) (k i : Nat) (x : Counter) : (putCounter s k i x).peers = s.peers := rfl
@[simp] theorem putCounter_peerNext (s : State) (k i : Nat) (x : Counter) : (putCounter s k i x).peerNext = s.peerNext := rfl
@[simp] theorem putCounter_answers (s : State) (k i : Nat) (x : Counter) : (putCounter s k i x).answers = s.answers := rfl
@[simp] theorem putCounter_gangs (s : State) (k i : Nat) (x : Counter) : (putCounter s k i x).gangs = s.gangs := rfl
@[simp] theorem putCounter_lastConv (s : State) (k i : Nat) (x : Counter) : (putCounter s k i x).lastConv = s.lastConv := rfl
@[simp] theorem putCounter_lost (s : State) (k i : Nat) (x : Counter) : (putCounter s k i x).lost = s.lost := rfl
@[simp] theorem putCounter_islands (s : State) (k i : Nat) (x : Counter) : (putCounter s k i x).islands = s.islands := rfl
@[simp] theorem putCounter_seq (s : State) (k i : Nat) (x : Counter) : (putCounter s k i x).seq = s.seq := rfl
@[simp] theorem putCounter_failUnit (s : State) (k i : Nat) (x : Counter) : (putCounter s k i x).failUnit = s.failUnit := rfl
@[simp] theorem putCounter_fwver (s : State) (k i : Nat) (x : Counter) : (putCounter s k i x).fwver = s.fwver := rfl
@[simp] theorem putCounter_meas (s : State) (k i : Nat) (x : Counter) : (putCounter s k i x).meas = s.meas := rfl
@[simp] theorem putCounter_svn (s : State) (k i : Nat) (x : Counter) : (putCounter s k i x).svn = s.svn := rfl
@[simp] theorem putCounter_svnFuse (s : State) (k i : Nat) (x : Counter) : (putCounter s k i x).svnFuse = s.svnFuse := rfl
@[simp] theorem putCounter_flashBad (s : State) (k i : Nat) (x : Counter) : (putCounter s k i x).flashBad = s.flashBad := rfl
@[simp] theorem putCounter_pcap (s : State) (k i : Nat) (x : Counter) : (putCounter s k i x).pcap = s.pcap := rfl
@[simp] theorem putCounter_modpwr (s : State) (k i : Nat) (x : Counter) : (putCounter s k i x).modpwr = s.modpwr := rfl
@[simp] theorem putCounter_selftest (s : State) (k i : Nat) (x : Counter) : (putCounter s k i x).selftest = s.selftest := rfl
@[simp] theorem putCounter_mbReq (s : State) (k i : Nat) (x : Counter) : (putCounter s k i x).mbReq = s.mbReq := rfl
@[simp] theorem putCounter_mbPost (s : State) (k i : Nat) (x : Counter) : (putCounter s k i x).mbPost = s.mbPost := rfl
@[simp] theorem putCounter_mbResp (s : State) (k i : Nat) (x : Counter) : (putCounter s k i x).mbResp = s.mbResp := rfl
@[simp] theorem putCounter_mbBusy (s : State) (k i : Nat) (x : Counter) : (putCounter s k i x).mbBusy = s.mbBusy := rfl
@[simp] theorem putCounter_msix (s : State) (k i : Nat) (x : Counter) : (putCounter s k i x).msix = s.msix := rfl
@[simp] theorem putCounter_hnotify (s : State) (k i : Nat) (x : Counter) : (putCounter s k i x).hnotify = s.hnotify := rfl
@[simp] theorem putCounter_hostReads (s : State) (k i : Nat) (x : Counter) : (putCounter s k i x).hostReads = s.hostReads := rfl

/-! ## putPart -/

@[simp] theorem putPart_cur (s : State) (k p : Nat) (x : Part) : (putPart s k p x).cur = s.cur := rfl
@[simp] theorem putPart_clk (s : State) (k p : Nat) (x : Part) : (putPart s k p x).clk = s.clk := rfl
@[simp] theorem putPart_inputs (s : State) (k p : Nat) (x : Part) : (putPart s k p x).inputs = s.inputs := rfl
@[simp] theorem putPart_pace (s : State) (k p : Nat) (x : Part) : (putPart s k p x).pace = s.pace := rfl
@[simp] theorem putPart_ctxs (s : State) (k p : Nat) (x : Part) : (putPart s k p x).ctxs = s.ctxs := rfl
@[simp] theorem putPart_dies (s : State) (k p : Nat) (x : Part) : (putPart s k p x).dies = s.dies := rfl
@[simp] theorem putPart_cohorts (s : State) (k p : Nat) (x : Part) : (putPart s k p x).cohorts = s.cohorts := rfl
@[simp] theorem putPart_reserves (s : State) (k p : Nat) (x : Part) : (putPart s k p x).reserves = s.reserves := rfl
@[simp] theorem putPart_gates (s : State) (k p : Nat) (x : Part) : (putPart s k p x).gates = s.gates := rfl
@[simp] theorem putPart_hbm (s : State) (k p : Nat) (x : Part) : (putPart s k p x).hbm = s.hbm := rfl
@[simp] theorem putPart_badHbm (s : State) (k p : Nat) (x : Part) : (putPart s k p x).badHbm = s.badHbm := rfl
@[simp] theorem putPart_withheld (s : State) (k p : Nat) (x : Part) : (putPart s k p x).withheld = s.withheld := rfl
@[simp] theorem putPart_stacksOut (s : State) (k p : Nat) (x : Part) : (putPart s k p x).stacksOut = s.stacksOut := rfl
@[simp] theorem putPart_ttbase (s : State) (k p : Nat) (x : Part) : (putPart s k p x).ttbase = s.ttbase := rfl
@[simp] theorem putPart_hostMem (s : State) (k p : Nat) (x : Part) : (putPart s k p x).hostMem = s.hostMem := rfl
@[simp] theorem putPart_devnum (s : State) (k p : Nat) (x : Part) : (putPart s k p x).devnum = s.devnum := rfl
@[simp] theorem putPart_freeCount (s : State) (k p : Nat) (x : Part) : (putPart s k p x).freeCount = s.freeCount := rfl
@[simp] theorem putPart_replyKey (s : State) (k p : Nat) (x : Part) : (putPart s k p x).replyKey = s.replyKey := rfl
@[simp] theorem putPart_termLog (s : State) (k p : Nat) (x : Part) : (putPart s k p x).termLog = s.termLog := rfl
@[simp] theorem putPart_modState (s : State) (k p : Nat) (x : Part) : (putPart s k p x).modState = s.modState := rfl
@[simp] theorem putPart_routes (s : State) (k p : Nat) (x : Part) : (putPart s k p x).routes = s.routes := rfl
@[simp] theorem putPart_ports (s : State) (k p : Nat) (x : Part) : (putPart s k p x).ports = s.ports := rfl
@[simp] theorem putPart_linkUp (s : State) (k p : Nat) (x : Part) : (putPart s k p x).linkUp = s.linkUp := rfl
@[simp] theorem putPart_windows (s : State) (k p : Nat) (x : Part) : (putPart s k p x).windows = s.windows := rfl
@[simp] theorem putPart_xpeer (s : State) (k p : Nat) (x : Part) : (putPart s k p x).xpeer = s.xpeer := rfl
@[simp] theorem putPart_ltmo (s : State) (k p : Nat) (x : Part) : (putPart s k p x).ltmo = s.ltmo := rfl
@[simp] theorem putPart_peers (s : State) (k p : Nat) (x : Part) : (putPart s k p x).peers = s.peers := rfl
@[simp] theorem putPart_peerNext (s : State) (k p : Nat) (x : Part) : (putPart s k p x).peerNext = s.peerNext := rfl
@[simp] theorem putPart_answers (s : State) (k p : Nat) (x : Part) : (putPart s k p x).answers = s.answers := rfl
@[simp] theorem putPart_gangs (s : State) (k p : Nat) (x : Part) : (putPart s k p x).gangs = s.gangs := rfl
@[simp] theorem putPart_lastConv (s : State) (k p : Nat) (x : Part) : (putPart s k p x).lastConv = s.lastConv := rfl
@[simp] theorem putPart_lost (s : State) (k p : Nat) (x : Part) : (putPart s k p x).lost = s.lost := rfl
@[simp] theorem putPart_islands (s : State) (k p : Nat) (x : Part) : (putPart s k p x).islands = s.islands := rfl
@[simp] theorem putPart_seq (s : State) (k p : Nat) (x : Part) : (putPart s k p x).seq = s.seq := rfl
@[simp] theorem putPart_failUnit (s : State) (k p : Nat) (x : Part) : (putPart s k p x).failUnit = s.failUnit := rfl
@[simp] theorem putPart_fwver (s : State) (k p : Nat) (x : Part) : (putPart s k p x).fwver = s.fwver := rfl
@[simp] theorem putPart_meas (s : State) (k p : Nat) (x : Part) : (putPart s k p x).meas = s.meas := rfl
@[simp] theorem putPart_svn (s : State) (k p : Nat) (x : Part) : (putPart s k p x).svn = s.svn := rfl
@[simp] theorem putPart_svnFuse (s : State) (k p : Nat) (x : Part) : (putPart s k p x).svnFuse = s.svnFuse := rfl
@[simp] theorem putPart_flashBad (s : State) (k p : Nat) (x : Part) : (putPart s k p x).flashBad = s.flashBad := rfl
@[simp] theorem putPart_pcap (s : State) (k p : Nat) (x : Part) : (putPart s k p x).pcap = s.pcap := rfl
@[simp] theorem putPart_modpwr (s : State) (k p : Nat) (x : Part) : (putPart s k p x).modpwr = s.modpwr := rfl
@[simp] theorem putPart_selftest (s : State) (k p : Nat) (x : Part) : (putPart s k p x).selftest = s.selftest := rfl
@[simp] theorem putPart_mbReq (s : State) (k p : Nat) (x : Part) : (putPart s k p x).mbReq = s.mbReq := rfl
@[simp] theorem putPart_mbPost (s : State) (k p : Nat) (x : Part) : (putPart s k p x).mbPost = s.mbPost := rfl
@[simp] theorem putPart_mbResp (s : State) (k p : Nat) (x : Part) : (putPart s k p x).mbResp = s.mbResp := rfl
@[simp] theorem putPart_mbBusy (s : State) (k p : Nat) (x : Part) : (putPart s k p x).mbBusy = s.mbBusy := rfl
@[simp] theorem putPart_msix (s : State) (k p : Nat) (x : Part) : (putPart s k p x).msix = s.msix := rfl
@[simp] theorem putPart_hnotify (s : State) (k p : Nat) (x : Part) : (putPart s k p x).hnotify = s.hnotify := rfl
@[simp] theorem putPart_hostReads (s : State) (k p : Nat) (x : Part) : (putPart s k p x).hostReads = s.hostReads := rfl

/-! ## putEngine -/

@[simp] theorem putEngine_cur (s : State) (k e : Nat) (x : CopyEngine) : (putEngine s k e x).cur = s.cur := rfl
@[simp] theorem putEngine_clk (s : State) (k e : Nat) (x : CopyEngine) : (putEngine s k e x).clk = s.clk := rfl
@[simp] theorem putEngine_inputs (s : State) (k e : Nat) (x : CopyEngine) : (putEngine s k e x).inputs = s.inputs := rfl
@[simp] theorem putEngine_pace (s : State) (k e : Nat) (x : CopyEngine) : (putEngine s k e x).pace = s.pace := rfl
@[simp] theorem putEngine_ctxs (s : State) (k e : Nat) (x : CopyEngine) : (putEngine s k e x).ctxs = s.ctxs := rfl
@[simp] theorem putEngine_dies (s : State) (k e : Nat) (x : CopyEngine) : (putEngine s k e x).dies = s.dies := rfl
@[simp] theorem putEngine_cohorts (s : State) (k e : Nat) (x : CopyEngine) : (putEngine s k e x).cohorts = s.cohorts := rfl
@[simp] theorem putEngine_reserves (s : State) (k e : Nat) (x : CopyEngine) : (putEngine s k e x).reserves = s.reserves := rfl
@[simp] theorem putEngine_gates (s : State) (k e : Nat) (x : CopyEngine) : (putEngine s k e x).gates = s.gates := rfl
@[simp] theorem putEngine_hbm (s : State) (k e : Nat) (x : CopyEngine) : (putEngine s k e x).hbm = s.hbm := rfl
@[simp] theorem putEngine_badHbm (s : State) (k e : Nat) (x : CopyEngine) : (putEngine s k e x).badHbm = s.badHbm := rfl
@[simp] theorem putEngine_withheld (s : State) (k e : Nat) (x : CopyEngine) : (putEngine s k e x).withheld = s.withheld := rfl
@[simp] theorem putEngine_stacksOut (s : State) (k e : Nat) (x : CopyEngine) : (putEngine s k e x).stacksOut = s.stacksOut := rfl
@[simp] theorem putEngine_ttbase (s : State) (k e : Nat) (x : CopyEngine) : (putEngine s k e x).ttbase = s.ttbase := rfl
@[simp] theorem putEngine_hostMem (s : State) (k e : Nat) (x : CopyEngine) : (putEngine s k e x).hostMem = s.hostMem := rfl
@[simp] theorem putEngine_devnum (s : State) (k e : Nat) (x : CopyEngine) : (putEngine s k e x).devnum = s.devnum := rfl
@[simp] theorem putEngine_freeCount (s : State) (k e : Nat) (x : CopyEngine) : (putEngine s k e x).freeCount = s.freeCount := rfl
@[simp] theorem putEngine_replyKey (s : State) (k e : Nat) (x : CopyEngine) : (putEngine s k e x).replyKey = s.replyKey := rfl
@[simp] theorem putEngine_termLog (s : State) (k e : Nat) (x : CopyEngine) : (putEngine s k e x).termLog = s.termLog := rfl
@[simp] theorem putEngine_modState (s : State) (k e : Nat) (x : CopyEngine) : (putEngine s k e x).modState = s.modState := rfl
@[simp] theorem putEngine_routes (s : State) (k e : Nat) (x : CopyEngine) : (putEngine s k e x).routes = s.routes := rfl
@[simp] theorem putEngine_ports (s : State) (k e : Nat) (x : CopyEngine) : (putEngine s k e x).ports = s.ports := rfl
@[simp] theorem putEngine_linkUp (s : State) (k e : Nat) (x : CopyEngine) : (putEngine s k e x).linkUp = s.linkUp := rfl
@[simp] theorem putEngine_windows (s : State) (k e : Nat) (x : CopyEngine) : (putEngine s k e x).windows = s.windows := rfl
@[simp] theorem putEngine_xpeer (s : State) (k e : Nat) (x : CopyEngine) : (putEngine s k e x).xpeer = s.xpeer := rfl
@[simp] theorem putEngine_ltmo (s : State) (k e : Nat) (x : CopyEngine) : (putEngine s k e x).ltmo = s.ltmo := rfl
@[simp] theorem putEngine_peers (s : State) (k e : Nat) (x : CopyEngine) : (putEngine s k e x).peers = s.peers := rfl
@[simp] theorem putEngine_peerNext (s : State) (k e : Nat) (x : CopyEngine) : (putEngine s k e x).peerNext = s.peerNext := rfl
@[simp] theorem putEngine_answers (s : State) (k e : Nat) (x : CopyEngine) : (putEngine s k e x).answers = s.answers := rfl
@[simp] theorem putEngine_gangs (s : State) (k e : Nat) (x : CopyEngine) : (putEngine s k e x).gangs = s.gangs := rfl
@[simp] theorem putEngine_lastConv (s : State) (k e : Nat) (x : CopyEngine) : (putEngine s k e x).lastConv = s.lastConv := rfl
@[simp] theorem putEngine_lost (s : State) (k e : Nat) (x : CopyEngine) : (putEngine s k e x).lost = s.lost := rfl
@[simp] theorem putEngine_islands (s : State) (k e : Nat) (x : CopyEngine) : (putEngine s k e x).islands = s.islands := rfl
@[simp] theorem putEngine_seq (s : State) (k e : Nat) (x : CopyEngine) : (putEngine s k e x).seq = s.seq := rfl
@[simp] theorem putEngine_failUnit (s : State) (k e : Nat) (x : CopyEngine) : (putEngine s k e x).failUnit = s.failUnit := rfl
@[simp] theorem putEngine_fwver (s : State) (k e : Nat) (x : CopyEngine) : (putEngine s k e x).fwver = s.fwver := rfl
@[simp] theorem putEngine_meas (s : State) (k e : Nat) (x : CopyEngine) : (putEngine s k e x).meas = s.meas := rfl
@[simp] theorem putEngine_svn (s : State) (k e : Nat) (x : CopyEngine) : (putEngine s k e x).svn = s.svn := rfl
@[simp] theorem putEngine_svnFuse (s : State) (k e : Nat) (x : CopyEngine) : (putEngine s k e x).svnFuse = s.svnFuse := rfl
@[simp] theorem putEngine_flashBad (s : State) (k e : Nat) (x : CopyEngine) : (putEngine s k e x).flashBad = s.flashBad := rfl
@[simp] theorem putEngine_pcap (s : State) (k e : Nat) (x : CopyEngine) : (putEngine s k e x).pcap = s.pcap := rfl
@[simp] theorem putEngine_modpwr (s : State) (k e : Nat) (x : CopyEngine) : (putEngine s k e x).modpwr = s.modpwr := rfl
@[simp] theorem putEngine_selftest (s : State) (k e : Nat) (x : CopyEngine) : (putEngine s k e x).selftest = s.selftest := rfl
@[simp] theorem putEngine_mbReq (s : State) (k e : Nat) (x : CopyEngine) : (putEngine s k e x).mbReq = s.mbReq := rfl
@[simp] theorem putEngine_mbPost (s : State) (k e : Nat) (x : CopyEngine) : (putEngine s k e x).mbPost = s.mbPost := rfl
@[simp] theorem putEngine_mbResp (s : State) (k e : Nat) (x : CopyEngine) : (putEngine s k e x).mbResp = s.mbResp := rfl
@[simp] theorem putEngine_mbBusy (s : State) (k e : Nat) (x : CopyEngine) : (putEngine s k e x).mbBusy = s.mbBusy := rfl
@[simp] theorem putEngine_msix (s : State) (k e : Nat) (x : CopyEngine) : (putEngine s k e x).msix = s.msix := rfl
@[simp] theorem putEngine_hnotify (s : State) (k e : Nat) (x : CopyEngine) : (putEngine s k e x).hnotify = s.hnotify := rfl
@[simp] theorem putEngine_hostReads (s : State) (k e : Nat) (x : CopyEngine) : (putEngine s k e x).hostReads = s.hostReads := rfl

/-! ## putDie -/

@[simp] theorem putDie_cur (s : State) (d : Nat) (x : Die) : (putDie s d x).cur = s.cur := rfl
@[simp] theorem putDie_clk (s : State) (d : Nat) (x : Die) : (putDie s d x).clk = s.clk := rfl
@[simp] theorem putDie_inputs (s : State) (d : Nat) (x : Die) : (putDie s d x).inputs = s.inputs := rfl
@[simp] theorem putDie_pace (s : State) (d : Nat) (x : Die) : (putDie s d x).pace = s.pace := rfl
@[simp] theorem putDie_ctxs (s : State) (d : Nat) (x : Die) : (putDie s d x).ctxs = s.ctxs := rfl
@[simp] theorem putDie_cores (s : State) (d : Nat) (x : Die) : (putDie s d x).cores = s.cores := rfl
@[simp] theorem putDie_cohorts (s : State) (d : Nat) (x : Die) : (putDie s d x).cohorts = s.cohorts := rfl
@[simp] theorem putDie_reserves (s : State) (d : Nat) (x : Die) : (putDie s d x).reserves = s.reserves := rfl
@[simp] theorem putDie_gates (s : State) (d : Nat) (x : Die) : (putDie s d x).gates = s.gates := rfl
@[simp] theorem putDie_hbm (s : State) (d : Nat) (x : Die) : (putDie s d x).hbm = s.hbm := rfl
@[simp] theorem putDie_badHbm (s : State) (d : Nat) (x : Die) : (putDie s d x).badHbm = s.badHbm := rfl
@[simp] theorem putDie_withheld (s : State) (d : Nat) (x : Die) : (putDie s d x).withheld = s.withheld := rfl
@[simp] theorem putDie_stacksOut (s : State) (d : Nat) (x : Die) : (putDie s d x).stacksOut = s.stacksOut := rfl
@[simp] theorem putDie_ttbase (s : State) (d : Nat) (x : Die) : (putDie s d x).ttbase = s.ttbase := rfl
@[simp] theorem putDie_hostMem (s : State) (d : Nat) (x : Die) : (putDie s d x).hostMem = s.hostMem := rfl
@[simp] theorem putDie_devnum (s : State) (d : Nat) (x : Die) : (putDie s d x).devnum = s.devnum := rfl
@[simp] theorem putDie_freeCount (s : State) (d : Nat) (x : Die) : (putDie s d x).freeCount = s.freeCount := rfl
@[simp] theorem putDie_replyKey (s : State) (d : Nat) (x : Die) : (putDie s d x).replyKey = s.replyKey := rfl
@[simp] theorem putDie_termLog (s : State) (d : Nat) (x : Die) : (putDie s d x).termLog = s.termLog := rfl
@[simp] theorem putDie_modState (s : State) (d : Nat) (x : Die) : (putDie s d x).modState = s.modState := rfl
@[simp] theorem putDie_routes (s : State) (d : Nat) (x : Die) : (putDie s d x).routes = s.routes := rfl
@[simp] theorem putDie_ports (s : State) (d : Nat) (x : Die) : (putDie s d x).ports = s.ports := rfl
@[simp] theorem putDie_linkUp (s : State) (d : Nat) (x : Die) : (putDie s d x).linkUp = s.linkUp := rfl
@[simp] theorem putDie_windows (s : State) (d : Nat) (x : Die) : (putDie s d x).windows = s.windows := rfl
@[simp] theorem putDie_xpeer (s : State) (d : Nat) (x : Die) : (putDie s d x).xpeer = s.xpeer := rfl
@[simp] theorem putDie_ltmo (s : State) (d : Nat) (x : Die) : (putDie s d x).ltmo = s.ltmo := rfl
@[simp] theorem putDie_peers (s : State) (d : Nat) (x : Die) : (putDie s d x).peers = s.peers := rfl
@[simp] theorem putDie_peerNext (s : State) (d : Nat) (x : Die) : (putDie s d x).peerNext = s.peerNext := rfl
@[simp] theorem putDie_answers (s : State) (d : Nat) (x : Die) : (putDie s d x).answers = s.answers := rfl
@[simp] theorem putDie_gangs (s : State) (d : Nat) (x : Die) : (putDie s d x).gangs = s.gangs := rfl
@[simp] theorem putDie_lastConv (s : State) (d : Nat) (x : Die) : (putDie s d x).lastConv = s.lastConv := rfl
@[simp] theorem putDie_lost (s : State) (d : Nat) (x : Die) : (putDie s d x).lost = s.lost := rfl
@[simp] theorem putDie_islands (s : State) (d : Nat) (x : Die) : (putDie s d x).islands = s.islands := rfl
@[simp] theorem putDie_seq (s : State) (d : Nat) (x : Die) : (putDie s d x).seq = s.seq := rfl
@[simp] theorem putDie_failUnit (s : State) (d : Nat) (x : Die) : (putDie s d x).failUnit = s.failUnit := rfl
@[simp] theorem putDie_fwver (s : State) (d : Nat) (x : Die) : (putDie s d x).fwver = s.fwver := rfl
@[simp] theorem putDie_meas (s : State) (d : Nat) (x : Die) : (putDie s d x).meas = s.meas := rfl
@[simp] theorem putDie_svn (s : State) (d : Nat) (x : Die) : (putDie s d x).svn = s.svn := rfl
@[simp] theorem putDie_svnFuse (s : State) (d : Nat) (x : Die) : (putDie s d x).svnFuse = s.svnFuse := rfl
@[simp] theorem putDie_flashBad (s : State) (d : Nat) (x : Die) : (putDie s d x).flashBad = s.flashBad := rfl
@[simp] theorem putDie_pcap (s : State) (d : Nat) (x : Die) : (putDie s d x).pcap = s.pcap := rfl
@[simp] theorem putDie_modpwr (s : State) (d : Nat) (x : Die) : (putDie s d x).modpwr = s.modpwr := rfl
@[simp] theorem putDie_selftest (s : State) (d : Nat) (x : Die) : (putDie s d x).selftest = s.selftest := rfl
@[simp] theorem putDie_mbReq (s : State) (d : Nat) (x : Die) : (putDie s d x).mbReq = s.mbReq := rfl
@[simp] theorem putDie_mbPost (s : State) (d : Nat) (x : Die) : (putDie s d x).mbPost = s.mbPost := rfl
@[simp] theorem putDie_mbResp (s : State) (d : Nat) (x : Die) : (putDie s d x).mbResp = s.mbResp := rfl
@[simp] theorem putDie_mbBusy (s : State) (d : Nat) (x : Die) : (putDie s d x).mbBusy = s.mbBusy := rfl
@[simp] theorem putDie_msix (s : State) (d : Nat) (x : Die) : (putDie s d x).msix = s.msix := rfl
@[simp] theorem putDie_hnotify (s : State) (d : Nat) (x : Die) : (putDie s d x).hnotify = s.hnotify := rfl
@[simp] theorem putDie_hostReads (s : State) (d : Nat) (x : Die) : (putDie s d x).hostReads = s.hostReads := rfl

/-! ## modDie -/

@[simp] theorem modDie_cur (s : State) (d : Nat) (f : Die → Die) : (modDie s d f).cur = s.cur := rfl
@[simp] theorem modDie_clk (s : State) (d : Nat) (f : Die → Die) : (modDie s d f).clk = s.clk := rfl
@[simp] theorem modDie_inputs (s : State) (d : Nat) (f : Die → Die) : (modDie s d f).inputs = s.inputs := rfl
@[simp] theorem modDie_pace (s : State) (d : Nat) (f : Die → Die) : (modDie s d f).pace = s.pace := rfl
@[simp] theorem modDie_ctxs (s : State) (d : Nat) (f : Die → Die) : (modDie s d f).ctxs = s.ctxs := rfl
@[simp] theorem modDie_cores (s : State) (d : Nat) (f : Die → Die) : (modDie s d f).cores = s.cores := rfl
@[simp] theorem modDie_cohorts (s : State) (d : Nat) (f : Die → Die) : (modDie s d f).cohorts = s.cohorts := rfl
@[simp] theorem modDie_reserves (s : State) (d : Nat) (f : Die → Die) : (modDie s d f).reserves = s.reserves := rfl
@[simp] theorem modDie_gates (s : State) (d : Nat) (f : Die → Die) : (modDie s d f).gates = s.gates := rfl
@[simp] theorem modDie_hbm (s : State) (d : Nat) (f : Die → Die) : (modDie s d f).hbm = s.hbm := rfl
@[simp] theorem modDie_badHbm (s : State) (d : Nat) (f : Die → Die) : (modDie s d f).badHbm = s.badHbm := rfl
@[simp] theorem modDie_withheld (s : State) (d : Nat) (f : Die → Die) : (modDie s d f).withheld = s.withheld := rfl
@[simp] theorem modDie_stacksOut (s : State) (d : Nat) (f : Die → Die) : (modDie s d f).stacksOut = s.stacksOut := rfl
@[simp] theorem modDie_ttbase (s : State) (d : Nat) (f : Die → Die) : (modDie s d f).ttbase = s.ttbase := rfl
@[simp] theorem modDie_hostMem (s : State) (d : Nat) (f : Die → Die) : (modDie s d f).hostMem = s.hostMem := rfl
@[simp] theorem modDie_devnum (s : State) (d : Nat) (f : Die → Die) : (modDie s d f).devnum = s.devnum := rfl
@[simp] theorem modDie_freeCount (s : State) (d : Nat) (f : Die → Die) : (modDie s d f).freeCount = s.freeCount := rfl
@[simp] theorem modDie_replyKey (s : State) (d : Nat) (f : Die → Die) : (modDie s d f).replyKey = s.replyKey := rfl
@[simp] theorem modDie_termLog (s : State) (d : Nat) (f : Die → Die) : (modDie s d f).termLog = s.termLog := rfl
@[simp] theorem modDie_modState (s : State) (d : Nat) (f : Die → Die) : (modDie s d f).modState = s.modState := rfl
@[simp] theorem modDie_routes (s : State) (d : Nat) (f : Die → Die) : (modDie s d f).routes = s.routes := rfl
@[simp] theorem modDie_ports (s : State) (d : Nat) (f : Die → Die) : (modDie s d f).ports = s.ports := rfl
@[simp] theorem modDie_linkUp (s : State) (d : Nat) (f : Die → Die) : (modDie s d f).linkUp = s.linkUp := rfl
@[simp] theorem modDie_windows (s : State) (d : Nat) (f : Die → Die) : (modDie s d f).windows = s.windows := rfl
@[simp] theorem modDie_xpeer (s : State) (d : Nat) (f : Die → Die) : (modDie s d f).xpeer = s.xpeer := rfl
@[simp] theorem modDie_ltmo (s : State) (d : Nat) (f : Die → Die) : (modDie s d f).ltmo = s.ltmo := rfl
@[simp] theorem modDie_peers (s : State) (d : Nat) (f : Die → Die) : (modDie s d f).peers = s.peers := rfl
@[simp] theorem modDie_peerNext (s : State) (d : Nat) (f : Die → Die) : (modDie s d f).peerNext = s.peerNext := rfl
@[simp] theorem modDie_answers (s : State) (d : Nat) (f : Die → Die) : (modDie s d f).answers = s.answers := rfl
@[simp] theorem modDie_gangs (s : State) (d : Nat) (f : Die → Die) : (modDie s d f).gangs = s.gangs := rfl
@[simp] theorem modDie_lastConv (s : State) (d : Nat) (f : Die → Die) : (modDie s d f).lastConv = s.lastConv := rfl
@[simp] theorem modDie_lost (s : State) (d : Nat) (f : Die → Die) : (modDie s d f).lost = s.lost := rfl
@[simp] theorem modDie_islands (s : State) (d : Nat) (f : Die → Die) : (modDie s d f).islands = s.islands := rfl
@[simp] theorem modDie_seq (s : State) (d : Nat) (f : Die → Die) : (modDie s d f).seq = s.seq := rfl
@[simp] theorem modDie_failUnit (s : State) (d : Nat) (f : Die → Die) : (modDie s d f).failUnit = s.failUnit := rfl
@[simp] theorem modDie_fwver (s : State) (d : Nat) (f : Die → Die) : (modDie s d f).fwver = s.fwver := rfl
@[simp] theorem modDie_meas (s : State) (d : Nat) (f : Die → Die) : (modDie s d f).meas = s.meas := rfl
@[simp] theorem modDie_svn (s : State) (d : Nat) (f : Die → Die) : (modDie s d f).svn = s.svn := rfl
@[simp] theorem modDie_svnFuse (s : State) (d : Nat) (f : Die → Die) : (modDie s d f).svnFuse = s.svnFuse := rfl
@[simp] theorem modDie_flashBad (s : State) (d : Nat) (f : Die → Die) : (modDie s d f).flashBad = s.flashBad := rfl
@[simp] theorem modDie_pcap (s : State) (d : Nat) (f : Die → Die) : (modDie s d f).pcap = s.pcap := rfl
@[simp] theorem modDie_modpwr (s : State) (d : Nat) (f : Die → Die) : (modDie s d f).modpwr = s.modpwr := rfl
@[simp] theorem modDie_selftest (s : State) (d : Nat) (f : Die → Die) : (modDie s d f).selftest = s.selftest := rfl
@[simp] theorem modDie_mbReq (s : State) (d : Nat) (f : Die → Die) : (modDie s d f).mbReq = s.mbReq := rfl
@[simp] theorem modDie_mbPost (s : State) (d : Nat) (f : Die → Die) : (modDie s d f).mbPost = s.mbPost := rfl
@[simp] theorem modDie_mbResp (s : State) (d : Nat) (f : Die → Die) : (modDie s d f).mbResp = s.mbResp := rfl
@[simp] theorem modDie_mbBusy (s : State) (d : Nat) (f : Die → Die) : (modDie s d f).mbBusy = s.mbBusy := rfl
@[simp] theorem modDie_msix (s : State) (d : Nat) (f : Die → Die) : (modDie s d f).msix = s.msix := rfl
@[simp] theorem modDie_hnotify (s : State) (d : Nat) (f : Die → Die) : (modDie s d f).hnotify = s.hnotify := rfl
@[simp] theorem modDie_hostReads (s : State) (d : Nat) (f : Die → Die) : (modDie s d f).hostReads = s.hostReads := rfl

/-! ## putBarrier -/

@[simp] theorem putBarrier_cur (s : State) (d b : Nat) (x : Barrier) : (putBarrier s d b x).cur = s.cur := rfl
@[simp] theorem putBarrier_clk (s : State) (d b : Nat) (x : Barrier) : (putBarrier s d b x).clk = s.clk := rfl
@[simp] theorem putBarrier_inputs (s : State) (d b : Nat) (x : Barrier) : (putBarrier s d b x).inputs = s.inputs := rfl
@[simp] theorem putBarrier_pace (s : State) (d b : Nat) (x : Barrier) : (putBarrier s d b x).pace = s.pace := rfl
@[simp] theorem putBarrier_ctxs (s : State) (d b : Nat) (x : Barrier) : (putBarrier s d b x).ctxs = s.ctxs := rfl
@[simp] theorem putBarrier_cores (s : State) (d b : Nat) (x : Barrier) : (putBarrier s d b x).cores = s.cores := rfl
@[simp] theorem putBarrier_cohorts (s : State) (d b : Nat) (x : Barrier) : (putBarrier s d b x).cohorts = s.cohorts := rfl
@[simp] theorem putBarrier_reserves (s : State) (d b : Nat) (x : Barrier) : (putBarrier s d b x).reserves = s.reserves := rfl
@[simp] theorem putBarrier_gates (s : State) (d b : Nat) (x : Barrier) : (putBarrier s d b x).gates = s.gates := rfl
@[simp] theorem putBarrier_hbm (s : State) (d b : Nat) (x : Barrier) : (putBarrier s d b x).hbm = s.hbm := rfl
@[simp] theorem putBarrier_badHbm (s : State) (d b : Nat) (x : Barrier) : (putBarrier s d b x).badHbm = s.badHbm := rfl
@[simp] theorem putBarrier_withheld (s : State) (d b : Nat) (x : Barrier) : (putBarrier s d b x).withheld = s.withheld := rfl
@[simp] theorem putBarrier_stacksOut (s : State) (d b : Nat) (x : Barrier) : (putBarrier s d b x).stacksOut = s.stacksOut := rfl
@[simp] theorem putBarrier_ttbase (s : State) (d b : Nat) (x : Barrier) : (putBarrier s d b x).ttbase = s.ttbase := rfl
@[simp] theorem putBarrier_hostMem (s : State) (d b : Nat) (x : Barrier) : (putBarrier s d b x).hostMem = s.hostMem := rfl
@[simp] theorem putBarrier_devnum (s : State) (d b : Nat) (x : Barrier) : (putBarrier s d b x).devnum = s.devnum := rfl
@[simp] theorem putBarrier_freeCount (s : State) (d b : Nat) (x : Barrier) : (putBarrier s d b x).freeCount = s.freeCount := rfl
@[simp] theorem putBarrier_replyKey (s : State) (d b : Nat) (x : Barrier) : (putBarrier s d b x).replyKey = s.replyKey := rfl
@[simp] theorem putBarrier_termLog (s : State) (d b : Nat) (x : Barrier) : (putBarrier s d b x).termLog = s.termLog := rfl
@[simp] theorem putBarrier_modState (s : State) (d b : Nat) (x : Barrier) : (putBarrier s d b x).modState = s.modState := rfl
@[simp] theorem putBarrier_routes (s : State) (d b : Nat) (x : Barrier) : (putBarrier s d b x).routes = s.routes := rfl
@[simp] theorem putBarrier_ports (s : State) (d b : Nat) (x : Barrier) : (putBarrier s d b x).ports = s.ports := rfl
@[simp] theorem putBarrier_linkUp (s : State) (d b : Nat) (x : Barrier) : (putBarrier s d b x).linkUp = s.linkUp := rfl
@[simp] theorem putBarrier_windows (s : State) (d b : Nat) (x : Barrier) : (putBarrier s d b x).windows = s.windows := rfl
@[simp] theorem putBarrier_xpeer (s : State) (d b : Nat) (x : Barrier) : (putBarrier s d b x).xpeer = s.xpeer := rfl
@[simp] theorem putBarrier_ltmo (s : State) (d b : Nat) (x : Barrier) : (putBarrier s d b x).ltmo = s.ltmo := rfl
@[simp] theorem putBarrier_peers (s : State) (d b : Nat) (x : Barrier) : (putBarrier s d b x).peers = s.peers := rfl
@[simp] theorem putBarrier_peerNext (s : State) (d b : Nat) (x : Barrier) : (putBarrier s d b x).peerNext = s.peerNext := rfl
@[simp] theorem putBarrier_answers (s : State) (d b : Nat) (x : Barrier) : (putBarrier s d b x).answers = s.answers := rfl
@[simp] theorem putBarrier_gangs (s : State) (d b : Nat) (x : Barrier) : (putBarrier s d b x).gangs = s.gangs := rfl
@[simp] theorem putBarrier_lastConv (s : State) (d b : Nat) (x : Barrier) : (putBarrier s d b x).lastConv = s.lastConv := rfl
@[simp] theorem putBarrier_lost (s : State) (d b : Nat) (x : Barrier) : (putBarrier s d b x).lost = s.lost := rfl
@[simp] theorem putBarrier_islands (s : State) (d b : Nat) (x : Barrier) : (putBarrier s d b x).islands = s.islands := rfl
@[simp] theorem putBarrier_seq (s : State) (d b : Nat) (x : Barrier) : (putBarrier s d b x).seq = s.seq := rfl
@[simp] theorem putBarrier_failUnit (s : State) (d b : Nat) (x : Barrier) : (putBarrier s d b x).failUnit = s.failUnit := rfl
@[simp] theorem putBarrier_fwver (s : State) (d b : Nat) (x : Barrier) : (putBarrier s d b x).fwver = s.fwver := rfl
@[simp] theorem putBarrier_meas (s : State) (d b : Nat) (x : Barrier) : (putBarrier s d b x).meas = s.meas := rfl
@[simp] theorem putBarrier_svn (s : State) (d b : Nat) (x : Barrier) : (putBarrier s d b x).svn = s.svn := rfl
@[simp] theorem putBarrier_svnFuse (s : State) (d b : Nat) (x : Barrier) : (putBarrier s d b x).svnFuse = s.svnFuse := rfl
@[simp] theorem putBarrier_flashBad (s : State) (d b : Nat) (x : Barrier) : (putBarrier s d b x).flashBad = s.flashBad := rfl
@[simp] theorem putBarrier_pcap (s : State) (d b : Nat) (x : Barrier) : (putBarrier s d b x).pcap = s.pcap := rfl
@[simp] theorem putBarrier_modpwr (s : State) (d b : Nat) (x : Barrier) : (putBarrier s d b x).modpwr = s.modpwr := rfl
@[simp] theorem putBarrier_selftest (s : State) (d b : Nat) (x : Barrier) : (putBarrier s d b x).selftest = s.selftest := rfl
@[simp] theorem putBarrier_mbReq (s : State) (d b : Nat) (x : Barrier) : (putBarrier s d b x).mbReq = s.mbReq := rfl
@[simp] theorem putBarrier_mbPost (s : State) (d b : Nat) (x : Barrier) : (putBarrier s d b x).mbPost = s.mbPost := rfl
@[simp] theorem putBarrier_mbResp (s : State) (d b : Nat) (x : Barrier) : (putBarrier s d b x).mbResp = s.mbResp := rfl
@[simp] theorem putBarrier_mbBusy (s : State) (d b : Nat) (x : Barrier) : (putBarrier s d b x).mbBusy = s.mbBusy := rfl
@[simp] theorem putBarrier_msix (s : State) (d b : Nat) (x : Barrier) : (putBarrier s d b x).msix = s.msix := rfl
@[simp] theorem putBarrier_hnotify (s : State) (d b : Nat) (x : Barrier) : (putBarrier s d b x).hnotify = s.hnotify := rfl
@[simp] theorem putBarrier_hostReads (s : State) (d b : Nat) (x : Barrier) : (putBarrier s d b x).hostReads = s.hostReads := rfl

/-! ## putCohort -/

@[simp] theorem putCohort_cur (s : State) (h : Nat) (x : Cohort) : (putCohort s h x).cur = s.cur := rfl
@[simp] theorem putCohort_clk (s : State) (h : Nat) (x : Cohort) : (putCohort s h x).clk = s.clk := rfl
@[simp] theorem putCohort_inputs (s : State) (h : Nat) (x : Cohort) : (putCohort s h x).inputs = s.inputs := rfl
@[simp] theorem putCohort_pace (s : State) (h : Nat) (x : Cohort) : (putCohort s h x).pace = s.pace := rfl
@[simp] theorem putCohort_ctxs (s : State) (h : Nat) (x : Cohort) : (putCohort s h x).ctxs = s.ctxs := rfl
@[simp] theorem putCohort_cores (s : State) (h : Nat) (x : Cohort) : (putCohort s h x).cores = s.cores := rfl
@[simp] theorem putCohort_dies (s : State) (h : Nat) (x : Cohort) : (putCohort s h x).dies = s.dies := rfl
@[simp] theorem putCohort_reserves (s : State) (h : Nat) (x : Cohort) : (putCohort s h x).reserves = s.reserves := rfl
@[simp] theorem putCohort_gates (s : State) (h : Nat) (x : Cohort) : (putCohort s h x).gates = s.gates := rfl
@[simp] theorem putCohort_hbm (s : State) (h : Nat) (x : Cohort) : (putCohort s h x).hbm = s.hbm := rfl
@[simp] theorem putCohort_badHbm (s : State) (h : Nat) (x : Cohort) : (putCohort s h x).badHbm = s.badHbm := rfl
@[simp] theorem putCohort_withheld (s : State) (h : Nat) (x : Cohort) : (putCohort s h x).withheld = s.withheld := rfl
@[simp] theorem putCohort_stacksOut (s : State) (h : Nat) (x : Cohort) : (putCohort s h x).stacksOut = s.stacksOut := rfl
@[simp] theorem putCohort_ttbase (s : State) (h : Nat) (x : Cohort) : (putCohort s h x).ttbase = s.ttbase := rfl
@[simp] theorem putCohort_hostMem (s : State) (h : Nat) (x : Cohort) : (putCohort s h x).hostMem = s.hostMem := rfl
@[simp] theorem putCohort_devnum (s : State) (h : Nat) (x : Cohort) : (putCohort s h x).devnum = s.devnum := rfl
@[simp] theorem putCohort_freeCount (s : State) (h : Nat) (x : Cohort) : (putCohort s h x).freeCount = s.freeCount := rfl
@[simp] theorem putCohort_replyKey (s : State) (h : Nat) (x : Cohort) : (putCohort s h x).replyKey = s.replyKey := rfl
@[simp] theorem putCohort_termLog (s : State) (h : Nat) (x : Cohort) : (putCohort s h x).termLog = s.termLog := rfl
@[simp] theorem putCohort_modState (s : State) (h : Nat) (x : Cohort) : (putCohort s h x).modState = s.modState := rfl
@[simp] theorem putCohort_routes (s : State) (h : Nat) (x : Cohort) : (putCohort s h x).routes = s.routes := rfl
@[simp] theorem putCohort_ports (s : State) (h : Nat) (x : Cohort) : (putCohort s h x).ports = s.ports := rfl
@[simp] theorem putCohort_linkUp (s : State) (h : Nat) (x : Cohort) : (putCohort s h x).linkUp = s.linkUp := rfl
@[simp] theorem putCohort_windows (s : State) (h : Nat) (x : Cohort) : (putCohort s h x).windows = s.windows := rfl
@[simp] theorem putCohort_xpeer (s : State) (h : Nat) (x : Cohort) : (putCohort s h x).xpeer = s.xpeer := rfl
@[simp] theorem putCohort_ltmo (s : State) (h : Nat) (x : Cohort) : (putCohort s h x).ltmo = s.ltmo := rfl
@[simp] theorem putCohort_peers (s : State) (h : Nat) (x : Cohort) : (putCohort s h x).peers = s.peers := rfl
@[simp] theorem putCohort_peerNext (s : State) (h : Nat) (x : Cohort) : (putCohort s h x).peerNext = s.peerNext := rfl
@[simp] theorem putCohort_answers (s : State) (h : Nat) (x : Cohort) : (putCohort s h x).answers = s.answers := rfl
@[simp] theorem putCohort_gangs (s : State) (h : Nat) (x : Cohort) : (putCohort s h x).gangs = s.gangs := rfl
@[simp] theorem putCohort_lastConv (s : State) (h : Nat) (x : Cohort) : (putCohort s h x).lastConv = s.lastConv := rfl
@[simp] theorem putCohort_lost (s : State) (h : Nat) (x : Cohort) : (putCohort s h x).lost = s.lost := rfl
@[simp] theorem putCohort_islands (s : State) (h : Nat) (x : Cohort) : (putCohort s h x).islands = s.islands := rfl
@[simp] theorem putCohort_seq (s : State) (h : Nat) (x : Cohort) : (putCohort s h x).seq = s.seq := rfl
@[simp] theorem putCohort_failUnit (s : State) (h : Nat) (x : Cohort) : (putCohort s h x).failUnit = s.failUnit := rfl
@[simp] theorem putCohort_fwver (s : State) (h : Nat) (x : Cohort) : (putCohort s h x).fwver = s.fwver := rfl
@[simp] theorem putCohort_meas (s : State) (h : Nat) (x : Cohort) : (putCohort s h x).meas = s.meas := rfl
@[simp] theorem putCohort_svn (s : State) (h : Nat) (x : Cohort) : (putCohort s h x).svn = s.svn := rfl
@[simp] theorem putCohort_svnFuse (s : State) (h : Nat) (x : Cohort) : (putCohort s h x).svnFuse = s.svnFuse := rfl
@[simp] theorem putCohort_flashBad (s : State) (h : Nat) (x : Cohort) : (putCohort s h x).flashBad = s.flashBad := rfl
@[simp] theorem putCohort_pcap (s : State) (h : Nat) (x : Cohort) : (putCohort s h x).pcap = s.pcap := rfl
@[simp] theorem putCohort_modpwr (s : State) (h : Nat) (x : Cohort) : (putCohort s h x).modpwr = s.modpwr := rfl
@[simp] theorem putCohort_selftest (s : State) (h : Nat) (x : Cohort) : (putCohort s h x).selftest = s.selftest := rfl
@[simp] theorem putCohort_mbReq (s : State) (h : Nat) (x : Cohort) : (putCohort s h x).mbReq = s.mbReq := rfl
@[simp] theorem putCohort_mbPost (s : State) (h : Nat) (x : Cohort) : (putCohort s h x).mbPost = s.mbPost := rfl
@[simp] theorem putCohort_mbResp (s : State) (h : Nat) (x : Cohort) : (putCohort s h x).mbResp = s.mbResp := rfl
@[simp] theorem putCohort_mbBusy (s : State) (h : Nat) (x : Cohort) : (putCohort s h x).mbBusy = s.mbBusy := rfl
@[simp] theorem putCohort_msix (s : State) (h : Nat) (x : Cohort) : (putCohort s h x).msix = s.msix := rfl
@[simp] theorem putCohort_hnotify (s : State) (h : Nat) (x : Cohort) : (putCohort s h x).hnotify = s.hnotify := rfl
@[simp] theorem putCohort_hostReads (s : State) (h : Nat) (x : Cohort) : (putCohort s h x).hostReads = s.hostReads := rfl

/-! ## dropCohort -/

@[simp] theorem dropCohort_cur (s : State) (h : Nat) : (dropCohort s h).cur = s.cur := rfl
@[simp] theorem dropCohort_clk (s : State) (h : Nat) : (dropCohort s h).clk = s.clk := rfl
@[simp] theorem dropCohort_inputs (s : State) (h : Nat) : (dropCohort s h).inputs = s.inputs := rfl
@[simp] theorem dropCohort_pace (s : State) (h : Nat) : (dropCohort s h).pace = s.pace := rfl
@[simp] theorem dropCohort_ctxs (s : State) (h : Nat) : (dropCohort s h).ctxs = s.ctxs := rfl
@[simp] theorem dropCohort_cores (s : State) (h : Nat) : (dropCohort s h).cores = s.cores := rfl
@[simp] theorem dropCohort_dies (s : State) (h : Nat) : (dropCohort s h).dies = s.dies := rfl
@[simp] theorem dropCohort_reserves (s : State) (h : Nat) : (dropCohort s h).reserves = s.reserves := rfl
@[simp] theorem dropCohort_gates (s : State) (h : Nat) : (dropCohort s h).gates = s.gates := rfl
@[simp] theorem dropCohort_hbm (s : State) (h : Nat) : (dropCohort s h).hbm = s.hbm := rfl
@[simp] theorem dropCohort_badHbm (s : State) (h : Nat) : (dropCohort s h).badHbm = s.badHbm := rfl
@[simp] theorem dropCohort_withheld (s : State) (h : Nat) : (dropCohort s h).withheld = s.withheld := rfl
@[simp] theorem dropCohort_stacksOut (s : State) (h : Nat) : (dropCohort s h).stacksOut = s.stacksOut := rfl
@[simp] theorem dropCohort_ttbase (s : State) (h : Nat) : (dropCohort s h).ttbase = s.ttbase := rfl
@[simp] theorem dropCohort_hostMem (s : State) (h : Nat) : (dropCohort s h).hostMem = s.hostMem := rfl
@[simp] theorem dropCohort_devnum (s : State) (h : Nat) : (dropCohort s h).devnum = s.devnum := rfl
@[simp] theorem dropCohort_freeCount (s : State) (h : Nat) : (dropCohort s h).freeCount = s.freeCount := rfl
@[simp] theorem dropCohort_replyKey (s : State) (h : Nat) : (dropCohort s h).replyKey = s.replyKey := rfl
@[simp] theorem dropCohort_termLog (s : State) (h : Nat) : (dropCohort s h).termLog = s.termLog := rfl
@[simp] theorem dropCohort_modState (s : State) (h : Nat) : (dropCohort s h).modState = s.modState := rfl
@[simp] theorem dropCohort_routes (s : State) (h : Nat) : (dropCohort s h).routes = s.routes := rfl
@[simp] theorem dropCohort_ports (s : State) (h : Nat) : (dropCohort s h).ports = s.ports := rfl
@[simp] theorem dropCohort_linkUp (s : State) (h : Nat) : (dropCohort s h).linkUp = s.linkUp := rfl
@[simp] theorem dropCohort_windows (s : State) (h : Nat) : (dropCohort s h).windows = s.windows := rfl
@[simp] theorem dropCohort_xpeer (s : State) (h : Nat) : (dropCohort s h).xpeer = s.xpeer := rfl
@[simp] theorem dropCohort_ltmo (s : State) (h : Nat) : (dropCohort s h).ltmo = s.ltmo := rfl
@[simp] theorem dropCohort_peers (s : State) (h : Nat) : (dropCohort s h).peers = s.peers := rfl
@[simp] theorem dropCohort_peerNext (s : State) (h : Nat) : (dropCohort s h).peerNext = s.peerNext := rfl
@[simp] theorem dropCohort_answers (s : State) (h : Nat) : (dropCohort s h).answers = s.answers := rfl
@[simp] theorem dropCohort_gangs (s : State) (h : Nat) : (dropCohort s h).gangs = s.gangs := rfl
@[simp] theorem dropCohort_lastConv (s : State) (h : Nat) : (dropCohort s h).lastConv = s.lastConv := rfl
@[simp] theorem dropCohort_lost (s : State) (h : Nat) : (dropCohort s h).lost = s.lost := rfl
@[simp] theorem dropCohort_islands (s : State) (h : Nat) : (dropCohort s h).islands = s.islands := rfl
@[simp] theorem dropCohort_seq (s : State) (h : Nat) : (dropCohort s h).seq = s.seq := rfl
@[simp] theorem dropCohort_failUnit (s : State) (h : Nat) : (dropCohort s h).failUnit = s.failUnit := rfl
@[simp] theorem dropCohort_fwver (s : State) (h : Nat) : (dropCohort s h).fwver = s.fwver := rfl
@[simp] theorem dropCohort_meas (s : State) (h : Nat) : (dropCohort s h).meas = s.meas := rfl
@[simp] theorem dropCohort_svn (s : State) (h : Nat) : (dropCohort s h).svn = s.svn := rfl
@[simp] theorem dropCohort_svnFuse (s : State) (h : Nat) : (dropCohort s h).svnFuse = s.svnFuse := rfl
@[simp] theorem dropCohort_flashBad (s : State) (h : Nat) : (dropCohort s h).flashBad = s.flashBad := rfl
@[simp] theorem dropCohort_pcap (s : State) (h : Nat) : (dropCohort s h).pcap = s.pcap := rfl
@[simp] theorem dropCohort_modpwr (s : State) (h : Nat) : (dropCohort s h).modpwr = s.modpwr := rfl
@[simp] theorem dropCohort_selftest (s : State) (h : Nat) : (dropCohort s h).selftest = s.selftest := rfl
@[simp] theorem dropCohort_mbReq (s : State) (h : Nat) : (dropCohort s h).mbReq = s.mbReq := rfl
@[simp] theorem dropCohort_mbPost (s : State) (h : Nat) : (dropCohort s h).mbPost = s.mbPost := rfl
@[simp] theorem dropCohort_mbResp (s : State) (h : Nat) : (dropCohort s h).mbResp = s.mbResp := rfl
@[simp] theorem dropCohort_mbBusy (s : State) (h : Nat) : (dropCohort s h).mbBusy = s.mbBusy := rfl
@[simp] theorem dropCohort_msix (s : State) (h : Nat) : (dropCohort s h).msix = s.msix := rfl
@[simp] theorem dropCohort_hnotify (s : State) (h : Nat) : (dropCohort s h).hnotify = s.hnotify := rfl
@[simp] theorem dropCohort_hostReads (s : State) (h : Nat) : (dropCohort s h).hostReads = s.hostReads := rfl

/-! ## Registers of a context -/

@[simp] theorem ctxSetV_phase (x : Ctx) (i : Nat) (w : VReg) : (ctxSetV x i w).phase = x.phase := rfl
@[simp] theorem ctxSetV_coh (x : Ctx) (i : Nat) (w : VReg) : (ctxSetV x i w).coh = x.coh := rfl
@[simp] theorem ctxSetV_rank (x : Ctx) (i : Nat) (w : VReg) : (ctxSetV x i w).rank = x.rank := rfl
@[simp] theorem ctxSetV_sv (x : Ctx) (i : Nat) (w : VReg) : (ctxSetV x i w).sv = x.sv := rfl
@[simp] theorem ctxSetV_pc (x : Ctx) (i : Nat) (w : VReg) : (ctxSetV x i w).pc = x.pc := rfl
@[simp] theorem ctxSetV_g (x : Ctx) (i : Nat) (w : VReg) : (ctxSetV x i w).g = x.g := rfl
@[simp] theorem ctxSetV_p (x : Ctx) (i : Nat) (w : VReg) : (ctxSetV x i w).p = x.p := rfl
@[simp] theorem ctxSetV_m (x : Ctx) (i : Nat) (w : VReg) : (ctxSetV x i w).m = x.m := rfl
@[simp] theorem ctxSetV_cr (x : Ctx) (i : Nat) (w : VReg) : (ctxSetV x i w).cr = x.cr := rfl
@[simp] theorem ctxSetV_loading (x : Ctx) (i : Nat) (w : VReg) : (ctxSetV x i w).loading = x.loading := rfl
@[simp] theorem ctxSetV_vq (x : Ctx) (i : Nat) (w : VReg) : (ctxSetV x i w).vq = x.vq := rfl
@[simp] theorem ctxSetV_vrun (x : Ctx) (i : Nat) (w : VReg) : (ctxSetV x i w).vrun = x.vrun := rfl
@[simp] theorem ctxSetV_replies (x : Ctx) (i : Nat) (w : VReg) : (ctxSetV x i w).replies = x.replies := rfl
@[simp] theorem ctxSetV_out (x : Ctx) (i : Nat) (w : VReg) : (ctxSetV x i w).out = x.out := rfl
@[simp] theorem ctxSetV_parkD (x : Ctx) (i : Nat) (w : VReg) : (ctxSetV x i w).parkD = x.parkD := rfl
@[simp] theorem ctxSetV_parkEnd (x : Ctx) (i : Nat) (w : VReg) : (ctxSetV x i w).parkEnd = x.parkEnd := rfl
@[simp] theorem ctxSetV_wakePend (x : Ctx) (i : Nat) (w : VReg) : (ctxSetV x i w).wakePend = x.wakePend := rfl
@[simp] theorem ctxSetV_wakesIn (x : Ctx) (i : Nat) (w : VReg) : (ctxSetV x i w).wakesIn = x.wakesIn := rfl
@[simp] theorem ctxSetV_baraIn (x : Ctx) (i : Nat) (w : VReg) : (ctxSetV x i w).baraIn = x.baraIn := rfl
@[simp] theorem ctxSetV_bind (x : Ctx) (i : Nat) (w : VReg) : (ctxSetV x i w).bind = x.bind := rfl
@[simp] theorem ctxSetV_yieldEnd (x : Ctx) (i : Nat) (w : VReg) : (ctxSetV x i w).yieldEnd = x.yieldEnd := rfl
@[simp] theorem ctxSetV_haltReq (x : Ctx) (i : Nat) (w : VReg) : (ctxSetV x i w).haltReq = x.haltReq := rfl
@[simp] theorem ctxSetV_peerWait (x : Ctx) (i : Nat) (w : VReg) : (ctxSetV x i w).peerWait = x.peerWait := rfl
@[simp] theorem ctxSetV_peerData (x : Ctx) (i : Nat) (w : VReg) : (ctxSetV x i w).peerData = x.peerData := rfl
@[simp] theorem ctxSetV_handleStall (x : Ctx) (i : Nat) (w : VReg) : (ctxSetV x i w).handleStall = x.handleStall := rfl
@[simp] theorem ctxSetV_bad (x : Ctx) (i : Nat) (w : VReg) : (ctxSetV x i w).bad = x.bad := rfl
@[simp] theorem ctxSetV_ending (x : Ctx) (i : Nat) (w : VReg) : (ctxSetV x i w).ending = x.ending := rfl

@[simp] theorem ctxSetCr_phase (x : Ctx) (n : Nat) (w : Word) : (ctxSetCr x n w).phase = x.phase := rfl
@[simp] theorem ctxSetCr_coh (x : Ctx) (n : Nat) (w : Word) : (ctxSetCr x n w).coh = x.coh := rfl
@[simp] theorem ctxSetCr_rank (x : Ctx) (n : Nat) (w : Word) : (ctxSetCr x n w).rank = x.rank := rfl
@[simp] theorem ctxSetCr_sv (x : Ctx) (n : Nat) (w : Word) : (ctxSetCr x n w).sv = x.sv := rfl
@[simp] theorem ctxSetCr_pc (x : Ctx) (n : Nat) (w : Word) : (ctxSetCr x n w).pc = x.pc := rfl
@[simp] theorem ctxSetCr_g (x : Ctx) (n : Nat) (w : Word) : (ctxSetCr x n w).g = x.g := rfl
@[simp] theorem ctxSetCr_p (x : Ctx) (n : Nat) (w : Word) : (ctxSetCr x n w).p = x.p := rfl
@[simp] theorem ctxSetCr_v (x : Ctx) (n : Nat) (w : Word) : (ctxSetCr x n w).v = x.v := rfl
@[simp] theorem ctxSetCr_m (x : Ctx) (n : Nat) (w : Word) : (ctxSetCr x n w).m = x.m := rfl
@[simp] theorem ctxSetCr_loading (x : Ctx) (n : Nat) (w : Word) : (ctxSetCr x n w).loading = x.loading := rfl
@[simp] theorem ctxSetCr_vq (x : Ctx) (n : Nat) (w : Word) : (ctxSetCr x n w).vq = x.vq := rfl
@[simp] theorem ctxSetCr_vrun (x : Ctx) (n : Nat) (w : Word) : (ctxSetCr x n w).vrun = x.vrun := rfl
@[simp] theorem ctxSetCr_replies (x : Ctx) (n : Nat) (w : Word) : (ctxSetCr x n w).replies = x.replies := rfl
@[simp] theorem ctxSetCr_out (x : Ctx) (n : Nat) (w : Word) : (ctxSetCr x n w).out = x.out := rfl
@[simp] theorem ctxSetCr_parkD (x : Ctx) (n : Nat) (w : Word) : (ctxSetCr x n w).parkD = x.parkD := rfl
@[simp] theorem ctxSetCr_parkEnd (x : Ctx) (n : Nat) (w : Word) : (ctxSetCr x n w).parkEnd = x.parkEnd := rfl
@[simp] theorem ctxSetCr_wakePend (x : Ctx) (n : Nat) (w : Word) : (ctxSetCr x n w).wakePend = x.wakePend := rfl
@[simp] theorem ctxSetCr_wakesIn (x : Ctx) (n : Nat) (w : Word) : (ctxSetCr x n w).wakesIn = x.wakesIn := rfl
@[simp] theorem ctxSetCr_baraIn (x : Ctx) (n : Nat) (w : Word) : (ctxSetCr x n w).baraIn = x.baraIn := rfl
@[simp] theorem ctxSetCr_bind (x : Ctx) (n : Nat) (w : Word) : (ctxSetCr x n w).bind = x.bind := rfl
@[simp] theorem ctxSetCr_yieldEnd (x : Ctx) (n : Nat) (w : Word) : (ctxSetCr x n w).yieldEnd = x.yieldEnd := rfl
@[simp] theorem ctxSetCr_haltReq (x : Ctx) (n : Nat) (w : Word) : (ctxSetCr x n w).haltReq = x.haltReq := rfl
@[simp] theorem ctxSetCr_peerWait (x : Ctx) (n : Nat) (w : Word) : (ctxSetCr x n w).peerWait = x.peerWait := rfl
@[simp] theorem ctxSetCr_peerData (x : Ctx) (n : Nat) (w : Word) : (ctxSetCr x n w).peerData = x.peerData := rfl
@[simp] theorem ctxSetCr_handleStall (x : Ctx) (n : Nat) (w : Word) : (ctxSetCr x n w).handleStall = x.handleStall := rfl
@[simp] theorem ctxSetCr_bad (x : Ctx) (n : Nat) (w : Word) : (ctxSetCr x n w).bad = x.bad := rfl
@[simp] theorem ctxSetCr_ending (x : Ctx) (n : Nat) (w : Word) : (ctxSetCr x n w).ending = x.ending := rfl

@[simp] theorem ctxSetG_phase (x : Ctx) (i : Nat) (w : Word) : (ctxSetG x i w).phase = x.phase := by unfold ctxSetG; split <;> rfl
@[simp] theorem ctxSetG_coh (x : Ctx) (i : Nat) (w : Word) : (ctxSetG x i w).coh = x.coh := by unfold ctxSetG; split <;> rfl
@[simp] theorem ctxSetG_rank (x : Ctx) (i : Nat) (w : Word) : (ctxSetG x i w).rank = x.rank := by unfold ctxSetG; split <;> rfl
@[simp] theorem ctxSetG_sv (x : Ctx) (i : Nat) (w : Word) : (ctxSetG x i w).sv = x.sv := by unfold ctxSetG; split <;> rfl
@[simp] theorem ctxSetG_pc (x : Ctx) (i : Nat) (w : Word) : (ctxSetG x i w).pc = x.pc := by unfold ctxSetG; split <;> rfl
@[simp] theorem ctxSetG_p (x : Ctx) (i : Nat) (w : Word) : (ctxSetG x i w).p = x.p := by unfold ctxSetG; split <;> rfl
@[simp] theorem ctxSetG_v (x : Ctx) (i : Nat) (w : Word) : (ctxSetG x i w).v = x.v := by unfold ctxSetG; split <;> rfl
@[simp] theorem ctxSetG_m (x : Ctx) (i : Nat) (w : Word) : (ctxSetG x i w).m = x.m := by unfold ctxSetG; split <;> rfl
@[simp] theorem ctxSetG_cr (x : Ctx) (i : Nat) (w : Word) : (ctxSetG x i w).cr = x.cr := by unfold ctxSetG; split <;> rfl
@[simp] theorem ctxSetG_loading (x : Ctx) (i : Nat) (w : Word) : (ctxSetG x i w).loading = x.loading := by unfold ctxSetG; split <;> rfl
@[simp] theorem ctxSetG_vq (x : Ctx) (i : Nat) (w : Word) : (ctxSetG x i w).vq = x.vq := by unfold ctxSetG; split <;> rfl
@[simp] theorem ctxSetG_vrun (x : Ctx) (i : Nat) (w : Word) : (ctxSetG x i w).vrun = x.vrun := by unfold ctxSetG; split <;> rfl
@[simp] theorem ctxSetG_replies (x : Ctx) (i : Nat) (w : Word) : (ctxSetG x i w).replies = x.replies := by unfold ctxSetG; split <;> rfl
@[simp] theorem ctxSetG_out (x : Ctx) (i : Nat) (w : Word) : (ctxSetG x i w).out = x.out := by unfold ctxSetG; split <;> rfl
@[simp] theorem ctxSetG_parkD (x : Ctx) (i : Nat) (w : Word) : (ctxSetG x i w).parkD = x.parkD := by unfold ctxSetG; split <;> rfl
@[simp] theorem ctxSetG_parkEnd (x : Ctx) (i : Nat) (w : Word) : (ctxSetG x i w).parkEnd = x.parkEnd := by unfold ctxSetG; split <;> rfl
@[simp] theorem ctxSetG_wakePend (x : Ctx) (i : Nat) (w : Word) : (ctxSetG x i w).wakePend = x.wakePend := by unfold ctxSetG; split <;> rfl
@[simp] theorem ctxSetG_wakesIn (x : Ctx) (i : Nat) (w : Word) : (ctxSetG x i w).wakesIn = x.wakesIn := by unfold ctxSetG; split <;> rfl
@[simp] theorem ctxSetG_baraIn (x : Ctx) (i : Nat) (w : Word) : (ctxSetG x i w).baraIn = x.baraIn := by unfold ctxSetG; split <;> rfl
@[simp] theorem ctxSetG_bind (x : Ctx) (i : Nat) (w : Word) : (ctxSetG x i w).bind = x.bind := by unfold ctxSetG; split <;> rfl
@[simp] theorem ctxSetG_yieldEnd (x : Ctx) (i : Nat) (w : Word) : (ctxSetG x i w).yieldEnd = x.yieldEnd := by unfold ctxSetG; split <;> rfl
@[simp] theorem ctxSetG_haltReq (x : Ctx) (i : Nat) (w : Word) : (ctxSetG x i w).haltReq = x.haltReq := by unfold ctxSetG; split <;> rfl
@[simp] theorem ctxSetG_peerWait (x : Ctx) (i : Nat) (w : Word) : (ctxSetG x i w).peerWait = x.peerWait := by unfold ctxSetG; split <;> rfl
@[simp] theorem ctxSetG_peerData (x : Ctx) (i : Nat) (w : Word) : (ctxSetG x i w).peerData = x.peerData := by unfold ctxSetG; split <;> rfl
@[simp] theorem ctxSetG_handleStall (x : Ctx) (i : Nat) (w : Word) : (ctxSetG x i w).handleStall = x.handleStall := by unfold ctxSetG; split <;> rfl
@[simp] theorem ctxSetG_bad (x : Ctx) (i : Nat) (w : Word) : (ctxSetG x i w).bad = x.bad := by unfold ctxSetG; split <;> rfl
@[simp] theorem ctxSetG_ending (x : Ctx) (i : Nat) (w : Word) : (ctxSetG x i w).ending = x.ending := by unfold ctxSetG; split <;> rfl

@[simp] theorem ctxSetP_phase (x : Ctx) (i : Nat) (b : Bool) : (ctxSetP x i b).phase = x.phase := by unfold ctxSetP; split <;> rfl
@[simp] theorem ctxSetP_coh (x : Ctx) (i : Nat) (b : Bool) : (ctxSetP x i b).coh = x.coh := by unfold ctxSetP; split <;> rfl
@[simp] theorem ctxSetP_rank (x : Ctx) (i : Nat) (b : Bool) : (ctxSetP x i b).rank = x.rank := by unfold ctxSetP; split <;> rfl
@[simp] theorem ctxSetP_sv (x : Ctx) (i : Nat) (b : Bool) : (ctxSetP x i b).sv = x.sv := by unfold ctxSetP; split <;> rfl
@[simp] theorem ctxSetP_pc (x : Ctx) (i : Nat) (b : Bool) : (ctxSetP x i b).pc = x.pc := by unfold ctxSetP; split <;> rfl
@[simp] theorem ctxSetP_g (x : Ctx) (i : Nat) (b : Bool) : (ctxSetP x i b).g = x.g := by unfold ctxSetP; split <;> rfl
@[simp] theorem ctxSetP_v (x : Ctx) (i : Nat) (b : Bool) : (ctxSetP x i b).v = x.v := by unfold ctxSetP; split <;> rfl
@[simp] theorem ctxSetP_m (x : Ctx) (i : Nat) (b : Bool) : (ctxSetP x i b).m = x.m := by unfold ctxSetP; split <;> rfl
@[simp] theorem ctxSetP_cr (x : Ctx) (i : Nat) (b : Bool) : (ctxSetP x i b).cr = x.cr := by unfold ctxSetP; split <;> rfl
@[simp] theorem ctxSetP_loading (x : Ctx) (i : Nat) (b : Bool) : (ctxSetP x i b).loading = x.loading := by unfold ctxSetP; split <;> rfl
@[simp] theorem ctxSetP_vq (x : Ctx) (i : Nat) (b : Bool) : (ctxSetP x i b).vq = x.vq := by unfold ctxSetP; split <;> rfl
@[simp] theorem ctxSetP_vrun (x : Ctx) (i : Nat) (b : Bool) : (ctxSetP x i b).vrun = x.vrun := by unfold ctxSetP; split <;> rfl
@[simp] theorem ctxSetP_replies (x : Ctx) (i : Nat) (b : Bool) : (ctxSetP x i b).replies = x.replies := by unfold ctxSetP; split <;> rfl
@[simp] theorem ctxSetP_out (x : Ctx) (i : Nat) (b : Bool) : (ctxSetP x i b).out = x.out := by unfold ctxSetP; split <;> rfl
@[simp] theorem ctxSetP_parkD (x : Ctx) (i : Nat) (b : Bool) : (ctxSetP x i b).parkD = x.parkD := by unfold ctxSetP; split <;> rfl
@[simp] theorem ctxSetP_parkEnd (x : Ctx) (i : Nat) (b : Bool) : (ctxSetP x i b).parkEnd = x.parkEnd := by unfold ctxSetP; split <;> rfl
@[simp] theorem ctxSetP_wakePend (x : Ctx) (i : Nat) (b : Bool) : (ctxSetP x i b).wakePend = x.wakePend := by unfold ctxSetP; split <;> rfl
@[simp] theorem ctxSetP_wakesIn (x : Ctx) (i : Nat) (b : Bool) : (ctxSetP x i b).wakesIn = x.wakesIn := by unfold ctxSetP; split <;> rfl
@[simp] theorem ctxSetP_baraIn (x : Ctx) (i : Nat) (b : Bool) : (ctxSetP x i b).baraIn = x.baraIn := by unfold ctxSetP; split <;> rfl
@[simp] theorem ctxSetP_bind (x : Ctx) (i : Nat) (b : Bool) : (ctxSetP x i b).bind = x.bind := by unfold ctxSetP; split <;> rfl
@[simp] theorem ctxSetP_yieldEnd (x : Ctx) (i : Nat) (b : Bool) : (ctxSetP x i b).yieldEnd = x.yieldEnd := by unfold ctxSetP; split <;> rfl
@[simp] theorem ctxSetP_haltReq (x : Ctx) (i : Nat) (b : Bool) : (ctxSetP x i b).haltReq = x.haltReq := by unfold ctxSetP; split <;> rfl
@[simp] theorem ctxSetP_peerWait (x : Ctx) (i : Nat) (b : Bool) : (ctxSetP x i b).peerWait = x.peerWait := by unfold ctxSetP; split <;> rfl
@[simp] theorem ctxSetP_peerData (x : Ctx) (i : Nat) (b : Bool) : (ctxSetP x i b).peerData = x.peerData := by unfold ctxSetP; split <;> rfl
@[simp] theorem ctxSetP_handleStall (x : Ctx) (i : Nat) (b : Bool) : (ctxSetP x i b).handleStall = x.handleStall := by unfold ctxSetP; split <;> rfl
@[simp] theorem ctxSetP_bad (x : Ctx) (i : Nat) (b : Bool) : (ctxSetP x i b).bad = x.bad := by unfold ctxSetP; split <;> rfl
@[simp] theorem ctxSetP_ending (x : Ctx) (i : Nat) (b : Bool) : (ctxSetP x i b).ending = x.ending := by unfold ctxSetP; split <;> rfl

@[simp] theorem ctxSetM_phase (x : Ctx) (i : Nat) (w : Word) : (ctxSetM x i w).phase = x.phase := by unfold ctxSetM; split <;> rfl
@[simp] theorem ctxSetM_coh (x : Ctx) (i : Nat) (w : Word) : (ctxSetM x i w).coh = x.coh := by unfold ctxSetM; split <;> rfl
@[simp] theorem ctxSetM_rank (x : Ctx) (i : Nat) (w : Word) : (ctxSetM x i w).rank = x.rank := by unfold ctxSetM; split <;> rfl
@[simp] theorem ctxSetM_sv (x : Ctx) (i : Nat) (w : Word) : (ctxSetM x i w).sv = x.sv := by unfold ctxSetM; split <;> rfl
@[simp] theorem ctxSetM_pc (x : Ctx) (i : Nat) (w : Word) : (ctxSetM x i w).pc = x.pc := by unfold ctxSetM; split <;> rfl
@[simp] theorem ctxSetM_g (x : Ctx) (i : Nat) (w : Word) : (ctxSetM x i w).g = x.g := by unfold ctxSetM; split <;> rfl
@[simp] theorem ctxSetM_p (x : Ctx) (i : Nat) (w : Word) : (ctxSetM x i w).p = x.p := by unfold ctxSetM; split <;> rfl
@[simp] theorem ctxSetM_v (x : Ctx) (i : Nat) (w : Word) : (ctxSetM x i w).v = x.v := by unfold ctxSetM; split <;> rfl
@[simp] theorem ctxSetM_cr (x : Ctx) (i : Nat) (w : Word) : (ctxSetM x i w).cr = x.cr := by unfold ctxSetM; split <;> rfl
@[simp] theorem ctxSetM_loading (x : Ctx) (i : Nat) (w : Word) : (ctxSetM x i w).loading = x.loading := by unfold ctxSetM; split <;> rfl
@[simp] theorem ctxSetM_vq (x : Ctx) (i : Nat) (w : Word) : (ctxSetM x i w).vq = x.vq := by unfold ctxSetM; split <;> rfl
@[simp] theorem ctxSetM_vrun (x : Ctx) (i : Nat) (w : Word) : (ctxSetM x i w).vrun = x.vrun := by unfold ctxSetM; split <;> rfl
@[simp] theorem ctxSetM_replies (x : Ctx) (i : Nat) (w : Word) : (ctxSetM x i w).replies = x.replies := by unfold ctxSetM; split <;> rfl
@[simp] theorem ctxSetM_out (x : Ctx) (i : Nat) (w : Word) : (ctxSetM x i w).out = x.out := by unfold ctxSetM; split <;> rfl
@[simp] theorem ctxSetM_parkD (x : Ctx) (i : Nat) (w : Word) : (ctxSetM x i w).parkD = x.parkD := by unfold ctxSetM; split <;> rfl
@[simp] theorem ctxSetM_parkEnd (x : Ctx) (i : Nat) (w : Word) : (ctxSetM x i w).parkEnd = x.parkEnd := by unfold ctxSetM; split <;> rfl
@[simp] theorem ctxSetM_wakePend (x : Ctx) (i : Nat) (w : Word) : (ctxSetM x i w).wakePend = x.wakePend := by unfold ctxSetM; split <;> rfl
@[simp] theorem ctxSetM_wakesIn (x : Ctx) (i : Nat) (w : Word) : (ctxSetM x i w).wakesIn = x.wakesIn := by unfold ctxSetM; split <;> rfl
@[simp] theorem ctxSetM_baraIn (x : Ctx) (i : Nat) (w : Word) : (ctxSetM x i w).baraIn = x.baraIn := by unfold ctxSetM; split <;> rfl
@[simp] theorem ctxSetM_bind (x : Ctx) (i : Nat) (w : Word) : (ctxSetM x i w).bind = x.bind := by unfold ctxSetM; split <;> rfl
@[simp] theorem ctxSetM_yieldEnd (x : Ctx) (i : Nat) (w : Word) : (ctxSetM x i w).yieldEnd = x.yieldEnd := by unfold ctxSetM; split <;> rfl
@[simp] theorem ctxSetM_haltReq (x : Ctx) (i : Nat) (w : Word) : (ctxSetM x i w).haltReq = x.haltReq := by unfold ctxSetM; split <;> rfl
@[simp] theorem ctxSetM_peerWait (x : Ctx) (i : Nat) (w : Word) : (ctxSetM x i w).peerWait = x.peerWait := by unfold ctxSetM; split <;> rfl
@[simp] theorem ctxSetM_peerData (x : Ctx) (i : Nat) (w : Word) : (ctxSetM x i w).peerData = x.peerData := by unfold ctxSetM; split <;> rfl
@[simp] theorem ctxSetM_handleStall (x : Ctx) (i : Nat) (w : Word) : (ctxSetM x i w).handleStall = x.handleStall := by unfold ctxSetM; split <;> rfl
@[simp] theorem ctxSetM_bad (x : Ctx) (i : Nat) (w : Word) : (ctxSetM x i w).bad = x.bad := by unfold ctxSetM; split <;> rfl
@[simp] theorem ctxSetM_ending (x : Ctx) (i : Nat) (w : Word) : (ctxSetM x i w).ending = x.ending := by unfold ctxSetM; split <;> rfl

end Sys2Proof.Machine
end

