-- ==== Sys2Proof/Laws/Tab.lean ====
section
/-!
SUPPORT. Sparse tables and byte memories: a key reads as it was last written, the other keys as before, and every
memory operation keeps the canonical form.
-/
namespace Sys2Proof.Machine

/-! ## Erasing and inserting -/

theorem tabGet_tabErase {α : Type} (d : α) (t : Tab α) (k j : Nat) :
    tabGet d (tabErase t k) j = if k = j then d else tabGet d t j := by
  induction t with
  | nil => simp [tabErase, tabGet]
  | cons e t ih =>
    obtain ⟨a, b⟩ := e
    by_cases h : a = k
    · subst h; simp only [tabErase, if_true, ih, tabGet]; split <;> rfl
    · simp only [tabErase, h, if_false, tabGet, ih]
      by_cases hj : a = j
      · subst hj; simp [Ne.symm h]
      · simp [hj]

theorem tabFind_tabErase {α : Type} (t : Tab α) (k j : Nat) :
    tabFind (tabErase t k) j = if k = j then none else tabFind t j := by
  induction t with
  | nil => simp [tabErase, tabFind]
  | cons e t ih =>
    obtain ⟨a, b⟩ := e
    by_cases h : a = k
    · subst h; simp only [tabErase, if_true, ih, tabFind]; split <;> rfl
    · simp only [tabErase, h, if_false, tabFind, ih]
      by_cases hj : a = j
      · subst hj; simp [Ne.symm h]
      · simp [hj]

/-- No key of the table is k. -/
def tabFree {α : Type} (t : Tab α) (k : Nat) : Prop := ∀ e ∈ t, e.1 ≠ k

theorem mem_tabErase {α : Type} (t : Tab α) (k : Nat) (e : Nat × α) : e ∈ tabErase t k ↔ e ∈ t ∧ e.1 ≠ k := by
  induction t with
  | nil => simp [tabErase]
  | cons a t ih =>
    obtain ⟨a, b⟩ := a
    by_cases h : a = k
    · subst h
      simp only [tabErase, if_true, ih, List.mem_cons]
      exact ⟨fun ⟨p, q⟩ => ⟨.inr p, q⟩, fun ⟨p, q⟩ => ⟨p.resolve_left (fun r => q (by rw [r])), q⟩⟩
    · simp only [tabErase, h, if_false, List.mem_cons, ih]
      exact ⟨fun p => p.elim (fun r => ⟨.inl r, by rw [r]; exact h⟩) (fun r => ⟨.inr r.1, r.2⟩),
        fun ⟨p, q⟩ => p.elim .inl (fun r => .inr ⟨r, q⟩)⟩

theorem mem_tabInsert {α : Type} (t : Tab α) (k : Nat) (v : α) (e : Nat × α) :
    e ∈ tabInsert t k v ↔ e = (k, v) ∨ e ∈ t := by
  induction t with
  | nil => simp [tabInsert]
  | cons a t ih =>
    obtain ⟨a, b⟩ := a
    simp only [tabInsert]
    split
    · simp
    · simp only [List.mem_cons, ih]
      exact ⟨fun p => p.elim (fun r => .inr (.inl r)) (fun r => r.elim .inl (fun q => .inr (.inr q))),
        fun p => p.elim (fun r => .inr (.inl r)) (fun r => r.elim .inl (fun q => .inr (.inr q)))⟩

theorem tabGet_tabInsert {α : Type} (d : α) (t : Tab α) (k : Nat) (v : α) (h : tabFree t k) (j : Nat) :
    tabGet d (tabInsert t k v) j = if k = j then v else tabGet d t j := by
  induction t with
  | nil => simp [tabInsert, tabGet]
  | cons e t ih =>
    obtain ⟨a, b⟩ := e
    have ha : a ≠ k := h (a, b) (by simp)
    have ht : tabFree t k := fun e he => h e (by simp [he])
    simp only [tabInsert]
    split
    · rfl
    · simp only [tabGet, ih ht]
      by_cases hj : a = j
      · subst hj; simp [Ne.symm ha]
      · simp [hj]

theorem tabFind_tabInsert {α : Type} (t : Tab α) (k : Nat) (v : α) (h : tabFree t k) (j : Nat) :
    tabFind (tabInsert t k v) j = if k = j then some v else tabFind t j := by
  induction t with
  | nil => simp [tabInsert, tabFind]
  | cons e t ih =>
    obtain ⟨a, b⟩ := e
    have ha : a ≠ k := h (a, b) (by simp)
    have ht : tabFree t k := fun e he => h e (by simp [he])
    simp only [tabInsert]
    split
    · rfl
    · simp only [tabFind, ih ht]
      by_cases hj : a = j
      · subst hj; simp [Ne.symm ha]
      · simp [hj]

theorem tabFree_tabErase {α : Type} (t : Tab α) (k : Nat) : tabFree (tabErase t k) k :=
  fun e he => ((mem_tabErase t k e).1 he).2

/-! ## Reading what was written -/

/-- A key reads as it was last written; the other keys read as before. -/
theorem tabGet_tabPut {α : Type} (d : α) (t : Tab α) (k : Nat) (v : α) (j : Nat) :
    tabGet d (tabPut t k v) j = if k = j then v else tabGet d t j := by
  rw [tabPut, tabGet_tabInsert d _ k v (tabFree_tabErase t k) j, tabGet_tabErase]
  split <;> rfl

@[simp] theorem tabGet_tabPut_same {α : Type} (d : α) (t : Tab α) (k : Nat) (v : α) : tabGet d (tabPut t k v) k = v := by
  simp [tabGet_tabPut]

theorem tabGet_tabPut_other {α : Type} (d : α) (t : Tab α) {k j : Nat} (v : α) (h : k ≠ j) :
    tabGet d (tabPut t k v) j = tabGet d t j := by simp [tabGet_tabPut, h]

theorem tabFind_tabPut {α : Type} (t : Tab α) (k : Nat) (v : α) (j : Nat) :
    tabFind (tabPut t k v) j = if k = j then some v else tabFind t j := by
  rw [tabPut, tabFind_tabInsert _ k v (tabFree_tabErase t k) j, tabFind_tabErase]
  split <;> rfl

@[simp] theorem tabFind_tabPut_same {α : Type} (t : Tab α) (k : Nat) (v : α) : tabFind (tabPut t k v) k = some v := by
  simp [tabFind_tabPut]

theorem tabGet_tabSet {α : Type} [DecidableEq α] (d : α) (t : Tab α) (k : Nat) (v : α) (j : Nat) :
    tabGet d (tabSet d t k v) j = if k = j then v else tabGet d t j := by
  unfold tabSet
  split
  · rename_i h; subst h; exact tabGet_tabErase v t k j
  · rw [tabGet_tabInsert d _ k v (tabFree_tabErase t k) j, tabGet_tabErase]; split <;> rfl

@[simp] theorem tabGet_tabSet_same {α : Type} [DecidableEq α] (d : α) (t : Tab α) (k : Nat) (v : α) :
    tabGet d (tabSet d t k v) k = v := by simp [tabGet_tabSet]

theorem tabGet_tabSet_other {α : Type} [DecidableEq α] (d : α) (t : Tab α) {k j : Nat} (v : α) (h : k ≠ j) :
    tabGet d (tabSet d t k v) j = tabGet d t j := by simp [tabGet_tabSet, h]

/-- The pairs of a written table: the new one, and the others of the old table. -/
theorem mem_tabPut {α : Type} (t : Tab α) (k : Nat) (v : α) (e : Nat × α) :
    e ∈ tabPut t k v ↔ e = (k, v) ∨ (e ∈ t ∧ e.1 ≠ k) := by
  rw [tabPut, mem_tabInsert, mem_tabErase]

/-- A value that a table answers is the default or stands in it. -/
theorem tabGet_mem {α : Type} (d : α) (t : Tab α) (k : Nat) : tabGet d t k = d ∨ (k, tabGet d t k) ∈ t := by
  induction t with
  | nil => exact .inl rfl
  | cons e t ih =>
    obtain ⟨a, b⟩ := e
    by_cases h : a = k
    · subst h; exact .inr (by simp [tabGet])
    · simp only [tabGet, h, if_false, List.mem_cons]
      exact ih.imp id .inr

/-! ## Ascending keys -/

/-- Keys strictly ascending, in the form that inductions use. -/
theorem tabSorted_cons {α : Type} (e : Nat × α) (t : Tab α) :
    tabSorted (e :: t) = true ↔ (∀ f ∈ t, e.1 < f.1) ∧ tabSorted t = true := by
  induction t generalizing e with
  | nil => simp [tabSorted]
  | cons f t ih =>
    obtain ⟨a, b⟩ := e
    obtain ⟨c, d⟩ := f
    simp only [tabSorted, Bool.and_eq_true, decide_eq_true_eq]
    refine ⟨fun ⟨h, hs⟩ => ⟨fun g hg => ?_, hs⟩, fun ⟨h, hs⟩ => ⟨h (c, d) (by simp), hs⟩⟩
    rcases List.mem_cons.1 hg with rfl | hg
    · exact h
    · exact Nat.lt_trans h (((ih (c, d)).1 hs).1 g hg)

theorem tabSorted_tabErase {α : Type} (t : Tab α) (k : Nat) (h : tabSorted t = true) : tabSorted (tabErase t k) = true := by
  induction t with
  | nil => rfl
  | cons e t ih =>
    obtain ⟨a, b⟩ := e
    have hc := (tabSorted_cons (a, b) t).1 h
    simp only [tabErase]
    split
    · exact ih hc.2
    · exact (tabSorted_cons _ _).2 ⟨fun f hf => hc.1 f ((mem_tabErase t k f).1 hf).1, ih hc.2⟩

theorem tabSorted_tabInsert {α : Type} (t : Tab α) (k : Nat) (v : α) (h : tabSorted t = true) (hf : tabFree t k) :
    tabSorted (tabInsert t k v) = true := by
  induction t with
  | nil => rfl
  | cons e t ih =>
    obtain ⟨a, b⟩ := e
    have hc := (tabSorted_cons (a, b) t).1 h
    have ha : a ≠ k := hf (a, b) (by simp)
    simp only [tabInsert]
    split
    · rename_i hlt
      refine (tabSorted_cons _ _).2 ⟨fun f hm => ?_, h⟩
      rcases List.mem_cons.1 hm with rfl | hm
      · exact hlt
      · exact Nat.lt_trans hlt (hc.1 f hm)
    · rename_i hge
      refine (tabSorted_cons _ _).2 ⟨fun f hm => ?_, ih hc.2 (fun e he => hf e (by simp [he]))⟩
      rcases (mem_tabInsert t k v f).1 hm with rfl | hm
      · exact Nat.lt_of_le_of_ne (Nat.le_of_not_lt hge) ha
      · exact hc.1 f hm

theorem tabSorted_tabPut {α : Type} (t : Tab α) (k : Nat) (v : α) (h : tabSorted t = true) :
    tabSorted (tabPut t k v) = true :=
  tabSorted_tabInsert _ k v (tabSorted_tabErase t k h) (tabFree_tabErase t k)

theorem tabSorted_tabSet {α : Type} [DecidableEq α] (d : α) (t : Tab α) (k : Nat) (v : α) (h : tabSorted t = true) :
    tabSorted (tabSet d t k v) = true := by
  unfold tabSet
  split
  · exact tabSorted_tabErase t k h
  · exact tabSorted_tabPut t k v h

/-! ## Byte memories -/

theorem memRead_memWrite (m : Mem) (a : Nat) (b : Byte) (j : Nat) :
    memRead (memWrite m a b) j = if a = j then b else memRead m j := tabGet_tabSet memDefault m a b j

@[simp] theorem memRead_memWrite_same (m : Mem) (a : Nat) (b : Byte) : memRead (memWrite m a b) a = b := by
  simp [memRead_memWrite]

theorem memRead_memWrite_other (m : Mem) {a j : Nat} (b : Byte) (h : a ≠ j) : memRead (memWrite m a b) j = memRead m j := by
  simp [memRead_memWrite, h]

/-- Writing one byte keeps the canonical form. -/
theorem memWf_memWrite (m : Mem) (a : Nat) (b : Byte) (h : memWf m = true) : memWf (memWrite m a b) = true := by
  simp only [memWf, Bool.and_eq_true, List.all_eq_true, bne_iff_ne] at h ⊢
  refine ⟨tabSorted_tabSet _ m a b h.1, fun e he => ?_⟩
  unfold memWrite tabSet at he
  split at he
  · exact h.2 e ((mem_tabErase m a e).1 he).1
  · rename_i hb
    rcases (mem_tabInsert _ _ _ _).1 he with rfl | he
    · exact hb
    · exact h.2 e ((mem_tabErase m a e).1 he).1

/-- Writing bytes at consecutive addresses keeps the canonical form. -/
theorem memWf_memWriteBytes (bs : List Byte) : ∀ (m : Mem) (a : Nat), memWf m = true → memWf (memWriteBytes m a bs) = true := by
  induction bs with
  | nil => exact fun _ _ h => h
  | cons b bs ih => exact fun m a h => ih _ _ (memWf_memWrite m a b h)

/-- An address reads as the byte written there, or as before. -/
theorem memRead_memWriteBytes (bs : List Byte) : ∀ (m : Mem) (a j : Nat),
    memRead (memWriteBytes m a bs) j = if a ≤ j ∧ j < a + bs.length then bs.getD (j - a) 0 else memRead m j := by
  induction bs with
  | nil =>
    intro m a j
    rw [if_neg (fun h => by simp only [List.length_nil] at h; omega)]
    rfl
  | cons b bs ih =>
    intro m a j
    rw [memWriteBytes, ih, memRead_memWrite]
    by_cases h : a = j
    · subst h
      rw [if_neg (by omega), if_pos rfl, if_pos ⟨Nat.le_refl a, by simp⟩, Nat.sub_self]; rfl
    · by_cases h1 : a + 1 ≤ j ∧ j < a + 1 + bs.length
      · have h2 : a ≤ j ∧ j < a + (b :: bs).length := ⟨by omega, by simp only [List.length_cons]; omega⟩
        rw [if_pos h1, if_pos h2]
        obtain ⟨n, hn⟩ : ∃ n, j - a = n + 1 := ⟨j - a - 1, by omega⟩
        have hm : j - (a + 1) = n := by omega
        simp [hn, hm]
      · have h2 : ¬ (a ≤ j ∧ j < a + (b :: bs).length) := by simp only [List.length_cons]; omega
        rw [if_neg h1, if_neg h2, if_neg h]

@[simp] theorem length_leBytes (n v : Nat) : (leBytes n v).length = n := by
  induction n generalizing v with
  | zero => rfl
  | succ n ih => simp [leBytes, ih]

/-- The value of the low n bytes of v. -/
@[simp] theorem leNat_leBytes (n v : Nat) : leNat (leBytes n v) = v % 2 ^ (8 * n) := by
  induction n generalizing v with
  | zero => simp [leBytes, leNat, Nat.mod_one]
  | succ n ih =>
    have h : 2 ^ (8 * (n + 1)) = 256 * 2 ^ (8 * n) := by rw [Nat.mul_add, Nat.pow_add, Nat.mul_comm]
    simp only [leBytes, leNat, ih, h, BitVec.toNat_ofNat]
    exact (Nat.mod_mul ..).symm

end Sys2Proof.Machine
end

