-- ==== Sys2Proof/Laws/Registers.lean ====
section
/-!
SUPPORT. Reads after writes: contexts, registers, control registers, cores, dies, cohorts, counters, partitions.
-/
namespace Sys2Proof.Machine

/-! ## Contexts -/

theorem getCtx_putCtx (s : State) (c : Nat) (x : Ctx) (j : Nat) :
    getCtx (putCtx s c x) j = if c = j then x else getCtx s j := tabGet_tabPut ctxReset s.ctxs c x j

@[simp] theorem getCtx_putCtx_same (s : State) (c : Nat) (x : Ctx) : getCtx (putCtx s c x) c = x := by
  simp [getCtx_putCtx]

theorem getCtx_putCtx_other (s : State) {c j : Nat} (x : Ctx) (h : c ≠ j) : getCtx (putCtx s c x) j = getCtx s j := by
  simp [getCtx_putCtx, h]

@[simp] theorem getCtx_modCtx_same (s : State) (c : Nat) (f : Ctx → Ctx) : getCtx (modCtx s c f) c = f (getCtx s c) :=
  getCtx_putCtx_same s c _

theorem getCtx_modCtx_other (s : State) {c j : Nat} (f : Ctx → Ctx) (h : c ≠ j) : getCtx (modCtx s c f) j = getCtx s j :=
  getCtx_putCtx_other s _ h

@[simp] theorem me_setMe (s : State) (x : Ctx) : me (setMe s x) = x := getCtx_putCtx_same s s.cur x

theorem getCtx_setMe_other (s : State) (x : Ctx) {j : Nat} (h : s.cur ≠ j) : getCtx (setMe s x) j = getCtx s j :=
  getCtx_putCtx_other s x h

/-- A read of a context looks at the contexts alone. -/
theorem getCtx_congr {s t : State} (h : t.ctxs = s.ctxs) (c : Nat) : getCtx t c = getCtx s c := by
  simp [getCtx, h]

@[simp] theorem getCtx_putCore (s : State) (k : Nat) (x : Core) (c : Nat) : getCtx (putCore s k x) c = getCtx s c := rfl
@[simp] theorem getCtx_modCore (s : State) (k : Nat) (f : Core → Core) (c : Nat) : getCtx (modCore s k f) c = getCtx s c := rfl
@[simp] theorem getCtx_putDie (s : State) (d : Nat) (x : Die) (c : Nat) : getCtx (putDie s d x) c = getCtx s c := rfl
@[simp] theorem getCtx_modDie (s : State) (d : Nat) (f : Die → Die) (c : Nat) : getCtx (modDie s d f) c = getCtx s c := rfl
@[simp] theorem getCtx_putCohort (s : State) (h : Nat) (x : Cohort) (c : Nat) : getCtx (putCohort s h x) c = getCtx s c := rfl
@[simp] theorem getCtx_putCounter (s : State) (k i : Nat) (x : Counter) (c : Nat) :
    getCtx (putCounter s k i x) c = getCtx s c := rfl

/-! ## Registers (R9-R12) -/

/-- General register i reads as it was written; g0 reads zero. -/
theorem ctxG_ctxSetG (x : Ctx) (i : Nat) (w : Word) (j : Nat) :
    ctxG (ctxSetG x i w) j = if i = j ∧ i ≠ 0 then w else ctxG x j := by
  unfold ctxG ctxSetG
  by_cases hj : j = 0
  · subst hj; simp
  · by_cases hi : i = 0
    · subst hi; simp [hj]
    · by_cases h : i = j
      · subst h; simp [hi]
      · simp [hi, hj, h, tabGet_tabSet]

@[simp] theorem ctxG_zero (x : Ctx) : ctxG x 0 = 0 := rfl
@[simp] theorem ctxSetG_zero (x : Ctx) (w : Word) : ctxSetG x 0 w = x := rfl
@[simp] theorem ctxP_zero (x : Ctx) : ctxP x 0 = true := rfl
@[simp] theorem ctxSetP_zero (x : Ctx) (b : Bool) : ctxSetP x 0 b = x := rfl
@[simp] theorem ctxM_zero (x : Ctx) : ctxM x 0 = BitVec.allOnes 64 := rfl
@[simp] theorem ctxSetM_zero (x : Ctx) (w : Word) : ctxSetM x 0 w = x := rfl

theorem ctxM_ctxSetM (x : Ctx) (i : Nat) (w : Word) (j : Nat) :
    ctxM (ctxSetM x i w) j = if i = j ∧ i ≠ 0 then w else ctxM x j := by
  unfold ctxM ctxSetM
  by_cases hj : j = 0
  · subst hj; simp
  · by_cases hi : i = 0
    · subst hi; simp [hj]
    · by_cases h : i = j
      · subst h; simp [hi]
      · simp [hi, hj, h, tabGet_tabSet]

theorem ctxV_ctxSetV (x : Ctx) (i : Nat) (w : VReg) (j : Nat) : ctxV (ctxSetV x i w) j = if i = j then w else ctxV x j :=
  tabGet_tabSet 0 x.v i w j

theorem ctxCr_ctxSetCr (x : Ctx) (n : Nat) (w : Word) (j : Nat) :
    ctxCr (ctxSetCr x n w) j = if n = j then w else ctxCr x j := tabGet_tabSet 0 x.cr n w j

@[simp] theorem ctxCr_ctxSetCr_same (x : Ctx) (n : Nat) (w : Word) : ctxCr (ctxSetCr x n w) n = w := by
  simp [ctxCr_ctxSetCr]

theorem ctxCr_ctxSetCr_other (x : Ctx) {n j : Nat} (w : Word) (h : n ≠ j) : ctxCr (ctxSetCr x n w) j = ctxCr x j := by
  simp [ctxCr_ctxSetCr, h]

/-! A register file's write leaves the others alone. -/

@[simp] theorem ctxG_ctxSetCr (x : Ctx) (n : Nat) (w : Word) (j : Nat) : ctxG (ctxSetCr x n w) j = ctxG x j := rfl
@[simp] theorem ctxP_ctxSetCr (x : Ctx) (n : Nat) (w : Word) (j : Nat) : ctxP (ctxSetCr x n w) j = ctxP x j := rfl
@[simp] theorem ctxV_ctxSetCr (x : Ctx) (n : Nat) (w : Word) (j : Nat) : ctxV (ctxSetCr x n w) j = ctxV x j := rfl
@[simp] theorem ctxM_ctxSetCr (x : Ctx) (n : Nat) (w : Word) (j : Nat) : ctxM (ctxSetCr x n w) j = ctxM x j := rfl
@[simp] theorem ctxCr_ctxSetG (x : Ctx) (i : Nat) (w : Word) (n : Nat) : ctxCr (ctxSetG x i w) n = ctxCr x n := by
  unfold ctxCr; simp
@[simp] theorem ctxP_ctxSetG (x : Ctx) (i : Nat) (w : Word) (n : Nat) : ctxP (ctxSetG x i w) n = ctxP x n := by
  unfold ctxP; simp
@[simp] theorem ctxV_ctxSetG (x : Ctx) (i : Nat) (w : Word) (n : Nat) : ctxV (ctxSetG x i w) n = ctxV x n := by
  unfold ctxV; simp
@[simp] theorem ctxM_ctxSetG (x : Ctx) (i : Nat) (w : Word) (n : Nat) : ctxM (ctxSetG x i w) n = ctxM x n := by
  unfold ctxM; simp
@[simp] theorem ctxG_ctxSetP (x : Ctx) (i : Nat) (b : Bool) (n : Nat) : ctxG (ctxSetP x i b) n = ctxG x n := by
  unfold ctxG; simp
@[simp] theorem ctxCr_ctxSetP (x : Ctx) (i : Nat) (b : Bool) (n : Nat) : ctxCr (ctxSetP x i b) n = ctxCr x n := by
  unfold ctxCr; simp

/-! ## Cores, dies, cohorts -/

theorem getCore_putCore (s : State) (k : Nat) (x : Core) (j : Nat) :
    getCore (putCore s k x) j = if k = j then x else getCore s j := tabGet_tabPut coreReset s.cores k x j

@[simp] theorem getCore_modCore_same (s : State) (k : Nat) (f : Core → Core) : getCore (modCore s k f) k = f (getCore s k) := by
  simp [modCore, getCore_putCore]

theorem getCore_modCore_other (s : State) {k j : Nat} (f : Core → Core) (h : k ≠ j) :
    getCore (modCore s k f) j = getCore s j := by simp [modCore, getCore_putCore, h]

@[simp] theorem getCore_putCtx (s : State) (c : Nat) (x : Ctx) (k : Nat) : getCore (putCtx s c x) k = getCore s k := rfl
@[simp] theorem getCore_modCtx (s : State) (c : Nat) (f : Ctx → Ctx) (k : Nat) : getCore (modCtx s c f) k = getCore s k := rfl
@[simp] theorem getCore_setMe (s : State) (x : Ctx) (k : Nat) : getCore (setMe s x) k = getCore s k := rfl
@[simp] theorem getCore_putDie (s : State) (d : Nat) (x : Die) (k : Nat) : getCore (putDie s d x) k = getCore s k := rfl

theorem getDie_putDie (s : State) (d : Nat) (x : Die) (j : Nat) :
    getDie (putDie s d x) j = if d = j then x else getDie s j := tabGet_tabPut dieReset s.dies d x j

@[simp] theorem getDie_modDie_same (s : State) (d : Nat) (f : Die → Die) : getDie (modDie s d f) d = f (getDie s d) := by
  simp [modDie, getDie_putDie]

theorem getDie_modDie_other (s : State) {d j : Nat} (f : Die → Die) (h : d ≠ j) : getDie (modDie s d f) j = getDie s j := by
  simp [modDie, getDie_putDie, h]

@[simp] theorem getDie_putCtx (s : State) (c : Nat) (x : Ctx) (d : Nat) : getDie (putCtx s c x) d = getDie s d := rfl
@[simp] theorem getDie_putCore (s : State) (k : Nat) (x : Core) (d : Nat) : getDie (putCore s k x) d = getDie s d := rfl

theorem getCohort_putCohort (s : State) (h : Nat) (x : Cohort) (j : Nat) :
    getCohort (putCohort s h x) j = if h = j then some x else getCohort s j := tabFind_tabPut s.cohorts h x j

theorem getCohort_dropCohort (s : State) (h j : Nat) :
    getCohort (dropCohort s h) j = if h = j then none else getCohort s j := tabFind_tabErase s.cohorts h j

theorem getCounter_putCounter (s : State) (k i : Nat) (x : Counter) (m j : Nat) :
    getCounter (putCounter s k i x) m j = if k = m ∧ i = j then x else getCounter s m j := by
  unfold getCounter putCounter
  by_cases h : k = m
  · subst h; simp [tabGet_tabSet]
  · simp [getCore_modCore_other, h]

theorem getPart_putPart (s : State) (k p : Nat) (x : Part) (m q : Nat) :
    getPart (putPart s k p x) m q = if k = m ∧ p = q then some x else getPart s m q := by
  unfold getPart putPart
  by_cases h : k = m
  · subst h; simp [tabFind_tabPut]
  · simp [getCore_modCore_other, h]

end Sys2Proof.Machine
end

