-- ==== Sys2Proof/Laws/Issue.lean ====
section
/-!
SUPPORT. What the shared operations of every instruction can do: the issue with its checks, retirement, the loop
test, taking a trap, and a step of the package.
-/
namespace Sys2Proof.Machine

/-! ## Issue (R33, R34, R44) -/

/-- Every issue answers a next state. -/
theorem issue_next (h : Hdr) (len : Nat) (p : Bool) (rs ws : List (BitVec 6)) (body : State → Exe) (s : State) :
    ∃ t, issue h len p rs ws body s = .next t := ⟨_, rfl⟩

/-- The wait field lets the instruction go on exactly when it names no counter, or a sound one at zero. -/
theorem waitField_none (s : State) (h : Hdr) : waitField s h = none ↔ waitDone s h = true := by
  unfold waitField waitDone
  generalize getCounter s (myCore s) h.wtcnt.toNat = c
  obtain ⟨v, f⟩ := c
  by_cases hz : v = 0 <;> cases h.wten <;> cases ownsCounter s s.cur h.wtcnt.toNat <;> cases f <;> simp [hz]

/-- Once the checks pass and the guard is true the body decides. -/
theorem issue_body {h : Hdr} {len : Nat} {p : Bool} {rs ws : List (BitVec 6)} {body : State → Exe} {s : State}
    (hr : bodyRuns s h p rs ws = true) : issue h len p rs ws body s = .next (settle s len (body s)) := by
  simp only [bodyRuns, Bool.and_eq_true, Bool.or_eq_true, Bool.not_eq_true'] at hr
  obtain ⟨⟨⟨⟨hb, hp⟩, hw⟩, ho⟩, hg⟩ := hr
  have hp' : (p && !(me s).sv) = false := by
    rcases hp with hp | hp <;> simp [hp]
  simp [issue, issueExe, hb, hp', (waitField_none s h).2 hw, ho, hg]

/-- With the guard false the instruction retires without effect. -/
theorem issue_guard {h : Hdr} {len : Nat} {p : Bool} {rs ws : List (BitVec 6)} {body : State → Exe} {s : State}
    (hb : ctxBlocked (me s) = false) (hp : p = true → (me s).sv = true) (hw : waitDone s h = true)
    (ho : operandsReady (me s) rs ws = true) (hg : guardRuns s h = false) :
    issue h len p rs ws body s = .next (retired s len s) := by
  have hp' : (p && !(me s).sv) = false := by cases p <;> simp_all
  simp [issue, issueExe, hb, hp', (waitField_none s h).2 hw, ho, hg, settle, retired]

/-- In user mode a privileged instruction raises PRIV before anything else. -/
theorem issue_priv {h : Hdr} {len : Nat} {rs ws : List (BitVec 6)} {body : State → Exe} {s : State}
    (hb : ctxBlocked (me s) = false) (hs : (me s).sv = false) :
    issue h len true rs ws body s = .next (faulted s s (recOf s cPriv (me s).pc)) := by
  simp [issue, issueExe, hb, hs, settle, faulted, recOf, recBase, cPriv]

/-- A context inside an instruction of its own is left as it is. -/
theorem issue_blocked {h : Hdr} {len : Nat} {p : Bool} {rs ws : List (BitVec 6)} {body : State → Exe} {s : State}
    (hb : ctxBlocked (me s) = true) : issue h len p rs ws body s = .next s := by
  simp [issue, issueExe, hb, settle]

/-- With nothing awaited every operand is ready. -/
theorem operandsReady_of_nothingPending {s : State} (h : nothingPending s = true) (rs ws : List (BitVec 6)) :
    operandsReady (me s) rs ws = true := by
  simp only [nothingPending, Bool.and_eq_true, List.isEmpty_iff] at h
  simp [operandsReady, vecPending, h.1.1, h.1.2, h.2]

/-! ## What a body's answer becomes -/

@[simp] theorem settle_retire (s : State) (len : Nat) (t : State) : settle s len (.retire t) = retired s len t := rfl
@[simp] theorem settle_jump (s : State) (len : Nat) (t : State) (a : Word) (d : BitVec 32) :
    settle s len (.jump t a d) = redirected s t a d := rfl
@[simp] theorem settle_stall (s : State) (len : Nat) (t : State) : settle s len (.stall t) = t := rfl

theorem settle_fault (s : State) (len : Nat) (r : FaultRec) (t : State) (h : r.cause ≠ 0) :
    settle s len (.fault r t) = faulted s t r := by simp [settle, h, faulted]

/-- An instruction that writes one register. -/
theorem issue_writes {h : Hdr} {rs : List (BitVec 6)} {d : BitVec 6} {f : State → Word} {s : State}
    (hr : bodyRuns s h false rs [d] = true) :
    issue1 h rs [d] (writes d f) s = .next (retired s 8 (wg s d (f s))) := by
  rw [issue1, issue_body hr]; rfl

/-! ## Retirement and the loop test -/

/-- A loop that is inactive or ends elsewhere is not concerned. -/
theorem loopTestOne_idle {x : Ctx} {a : Word} {n : Nat} (h : loopAct x n = false ∨ a ≠ ctxCr x (crLpend n)) :
    loopTestOne x a n = (none, x) := by
  unfold loopTestOne
  rcases h with h | h <;> simp [h]

/-- With no loop active execution goes on. -/
theorem loopTest_idle {x : Ctx} (h : noLoop x = true) (a next : Word) : loopTest x a next = (next, x) := by
  simp only [noLoop, Bool.and_eq_true, Bool.not_eq_true'] at h
  simp [loopTest, loopTestOne_idle (.inl h.1), loopTestOne_idle (.inl h.2)]

/-- Without single step nothing follows a retirement. -/
theorem afterRetire_noStep {x : Ctx} (h : dbgSs x = false) (c : Nat) (s : State) : afterRetire x c s = s := by
  simp [afterRetire, stepDue, h]

/-- The retirement of the executing context's instruction outside loops and without single step. -/
theorem retired_plain {s u : State} {len : Nat} (hp : (getCtx u s.cur).phase ≠ .free) (hs : noStep s = true)
    (hl : noLoop (getCtx u s.cur) = true) :
    retired s len u = putCtx u s.cur (retireCtx (dbgSkip1 (me s)) (getCtx u s.cur)
      ((getCtx u s.cur).pc + BitVec.ofNat 64 len)) := by
  have hs' : dbgSs (me s) = false := by simpa [noStep] using hs
  simp [retired, retireNext, hp, loopTest_idle hl, afterRetire_noStep hs']

/-! ## Traps (R470) -/

/-- take_trap with a handler set and traps not inhibited. -/
theorem takeTrap_enters {s : State} {c : Nat} {r : FaultRec} {ret : Word} (h : handlerReady s c = true) :
    takeTrap s c r ret = putCtx s c (enterHandler (getCtx s c) r ret) := by
  simp only [handlerReady, Bool.and_eq_true, Bool.not_eq_true', bne_iff_ne] at h
  simp only [takeTrap, h.1, Bool.false_or, beq_iff_eq, h.2, if_false]

/-- take_trap otherwise terminates the context. -/
theorem takeTrap_terminates {s : State} {c : Nat} {r : FaultRec} {ret : Word} (h : handlerReady s c = false) :
    takeTrap s c r ret = terminateCtx s c r := by
  have : (estatInh (getCtx s c) || addrField (ctxCr (getCtx s c) crTvec) == 0) = true := by
    simp only [handlerReady, Bool.and_eq_false_iff, Bool.not_eq_false'] at h
    rcases h with h | h
    · simp [h]
    · simp_all
  simp only [takeTrap, this, if_true]

/-- A fault that no breakpoint or step match raised takes the trap. -/
theorem raiseFault_trap (s : State) (c : Nat) {r : FaultRec} (ret : Word) (h : r.cause ≠ cBreak) :
    raiseFault s c r ret = takeTrap s c r ret := by simp [raiseFault, h]

/-! ## A step of the package -/

theorem step_input {s : State} {m : Move} {rest : List Move} (h : s.inputs = m :: rest) :
    step s = tick (runMove m { s with inputs := rest }) := by simp [step, h]

theorem step_auto {s : State} (h : s.inputs = []) : step s = tick (autoStep s) := by simp [step, h]

/-- A step's next state is one period after what its move answers. -/
theorem tick_next {o : Host.Outcome State Fault Refusal} {t : State} (h : tick o = .next t) :
    ∃ u, o = .next u ∧ t = { u with clk := u.clk + 1 } := by
  cases o with
  | next u => exact ⟨u, rfl, by simpa [tick] using h.symm⟩
  | fault f => cases h
  | refused r => cases h

/-- A move that makes progress answers a next state. -/
theorem progress_next {s t : State} {m : Move} (h : progress s m = some t) : runMove m s = .next t := by
  unfold progress at h
  split at h
  · split at h
    · cases h
    · rename_i u hu hne; cases h; exact hu
  · cases h

/-- The first step that makes progress is one of the moves offered. -/
theorem firstStep_move {s t : State} {ms : List Move} (h : firstStep s ms = some t) : ∃ m ∈ ms, runMove m s = .next t := by
  obtain ⟨m, hm, hp⟩ := List.exists_of_findSome?_eq_some h
  exact ⟨m, hm, progress_next hp⟩

end Sys2Proof.Machine
end

