-- ==== Sys2Proof/Laws/Memory.lean ====
section
/-!
SUPPORT. What the checks of an access can answer, what reading and writing a place changes, and that every write keeps
the memories in their canonical form.
-/
namespace Sys2Proof.Machine

/-! ## Translation and the checks of R125 -/

/-- A translation that answers found a leaf that allows the access, in a granule that is not withheld, and enters the
leaf in the caches. -/
theorem translate_ok {s t : State} {w : Who} {va pa : Nat} {kind : AccKind} (h : translate s w va kind = .ok (pa, t)) :
    ∃ e, lookupLeaf s (coreOfCtx w.ctx) (dieOfCtx w.ctx) (xspaceAsid w.xspace) (xspaceRoot w.xspace) va = .ok e ∧
      leafAllows e w.sv kind = true ∧ pa = e.pa + (va - e.va) ∧ withheldPa s pa = false ∧
      t = fillTlb s (coreOfCtx w.ctx) (dieOfCtx w.ctx) e := by
  simp only [translate] at h
  split at h
  · cases h
  · rename_i e he
    split at h
    · cases h
    · rename_i ha
      split at h
      · cases h
      · rename_i hw
        cases h
        exact ⟨e, he, by simpa using ha, rfl, by simpa using hw, rfl⟩

/-- An access that passes every check has a pointer of a space, aligned, and a place in that space. -/
theorem checkAccess_ok {s t : State} {w : Who} {p : Word} {n : Nat} {kind : AccKind} {plain : Bool} {l : Loc}
    (h : checkAccess s w p n kind plain = .ok (l, t)) :
    ∃ sp, decodePtr p = some sp ∧ p.toNat % n = 0 ∧ locate s w sp n kind = .ok (l, t) := by
  unfold checkAccess at h
  split at h
  · cases h
  · rename_i sp hsp
    split at h
    · cases h
    · rename_i hn
      split at h
      · cases h
      · rename_i l' t' hl
        split at h
        · cases h
        · cases h; exact ⟨sp, hsp, by simpa using hn, hl⟩

/-- Finding a place changes nothing but the caches of translations. -/
theorem locate_state {s t : State} {w : Who} {sp : Space} {n : Nat} {kind : AccKind} {l : Loc}
    (h : locate s w sp n kind = .ok (l, t)) :
    t = s ∨ ∃ e, t = fillTlb s (coreOfCtx w.ctx) (dieOfCtx w.ctx) e := by
  cases sp <;> simp only [locate] at h
  case dev va =>
    split at h
    · rename_i pa u hu
      obtain ⟨e, -, -, -, -, he⟩ := translate_ok hu
      cases h; exact .inr ⟨e, he⟩
    · cases h
  all_goals
    repeat' split at h
    all_goals first | (cases h; done) | exact .inl rfl | (cases h; exact .inl rfl)

/-- Entering a translation changes the caches of translations of one core and one die. -/
theorem fillTlb_frame (s : State) (k d : Nat) (e : TlbEntry) :
    (fillTlb s k d e).ctxs = s.ctxs ∧ (fillTlb s k d e).cohorts = s.cohorts ∧ (fillTlb s k d e).gates = s.gates ∧
      (fillTlb s k d e).hbm = s.hbm ∧ (fillTlb s k d e).hostMem = s.hostMem ∧ (fillTlb s k d e).cur = s.cur := by
  unfold fillTlb
  dsimp only
  split <;> split <;> simp

/-- Entering a translation leaves every core but for its translations. -/
theorem getCore_fillTlb (s : State) (k d : Nat) (e : TlbEntry) (j : Nat) :
    ∃ l, getCore (fillTlb s k d e) j = { getCore s j with tlb := l } := by
  have hcore : ∀ u : State, ∃ l, getCore (modCore u k (fun q => { q with tlb := (e :: q.tlb).take 128 })) j
      = { getCore u j with tlb := l } := fun u => by
    by_cases h : k = j
    · subst h; exact ⟨(e :: (getCore u k).tlb).take 128, by rw [getCore_modCore_same]⟩
    · exact ⟨(getCore u j).tlb, by rw [getCore_modCore_other _ _ h]⟩
  have hdie : ∀ u : State, getCore (modDie u d (fun x => { x with tlb := (e :: x.tlb).take 16384 })) j = getCore u j :=
    fun u => rfl
  unfold fillTlb
  dsimp only
  split <;> split
  · exact ⟨(getCore s j).tlb, rfl⟩
  · exact ⟨(getCore s j).tlb, by rw [hdie]⟩
  · exact hcore s
  · obtain ⟨l, hl⟩ := hcore s; exact ⟨l, by rw [hdie, hl]⟩

/-- Every memory and accumulator entry reads as before. -/
theorem sameMemory_fillTlb (s : State) (k d : Nat) (e : TlbEntry) : SameMemory s (fillTlb s k d e) := by
  intro l i
  cases l with
  | mem a => simp only [locByte, (fillTlb_frame s k d e).2.2.2.1]
  | host a => simp only [locByte, (fillTlb_frame s k d e).2.2.2.2.1]
  | peer a b => rfl
  | spad j a => obtain ⟨l, h⟩ := getCore_fillTlb s k d e j; simp only [locByte, h]
  | acc j a => obtain ⟨l, h⟩ := getCore_fillTlb s k d e j; simp only [locByte, accByte, accEntry, h]

/-- A place whose checks pass leaves every memory as it is. -/
theorem checkAccess_memory {s t : State} {w : Who} {p : Word} {n : Nat} {kind : AccKind} {plain : Bool} {l : Loc}
    (h : checkAccess s w p n kind plain = .ok (l, t)) : SameMemory s t := by
  obtain ⟨sp, -, -, hl⟩ := checkAccess_ok h
  rcases locate_state hl with rfl | ⟨e, rfl⟩
  · exact fun _ _ => rfl
  · exact sameMemory_fillTlb s _ _ e

/-! ## The canonical form -/

theorem memOk_iff (s : State) :
    memOk s = true ↔ memWf s.hbm = true ∧ memWf s.hostMem = true ∧ ∀ e ∈ s.cores, memWf e.2.spad = true := by
  simp [memOk, Bool.and_eq_true, and_assoc]

/-- A change that touches none of the memories and none of the cores keeps the canonical form. -/
theorem memOk_congr {s t : State} (h : memOk s = true) (h1 : t.hbm = s.hbm) (h2 : t.hostMem = s.hostMem)
    (h3 : t.cores = s.cores) : memOk t = true := by
  unfold memOk at h ⊢; rw [h1, h2, h3]; exact h

/-- The scratchpad of every core is in canonical form. -/
theorem memWf_getCore {s : State} (h : memOk s = true) (k : Nat) : memWf (getCore s k).spad = true := by
  rcases tabGet_mem coreReset s.cores k with hk | hk
  · rw [getCore, hk]; rfl
  · exact ((memOk_iff s).1 h).2.2 _ hk

theorem memOk_putCore {s : State} (h : memOk s = true) (k : Nat) {x : Core} (hx : memWf x.spad = true) :
    memOk (putCore s k x) = true := by
  rw [memOk_iff] at h ⊢
  refine ⟨h.1, h.2.1, fun e he => ?_⟩
  rcases (mem_tabPut s.cores k x e).1 he with rfl | he
  · exact hx
  · exact h.2.2 e he.1

theorem memWf_spadWriteGo (g : Nat) (bs : List Byte) : ∀ (m : Mem) (off : Nat), memWf m = true →
    memWf (spadWriteGo g m off bs) = true := by
  induction bs with
  | nil => exact fun _ _ h => h
  | cons b bs ih => exact fun m off h => ih _ _ (memWf_memWrite m (spadLoc g off) b h)

theorem memOk_writeHbm {s : State} (h : memOk s = true) (pa : Nat) (bs : List Byte) : memOk (writeHbm s pa bs) = true := by
  rw [memOk_iff] at h ⊢
  exact ⟨memWf_memWriteBytes bs s.hbm pa h.1, h.2⟩

theorem memOk_writeSpad {s : State} (h : memOk s = true) (k off : Nat) (bs : List Byte) :
    memOk (writeSpad s k off bs) = true :=
  memOk_putCore h k (memWf_spadWriteGo _ bs _ off (memWf_getCore h k))

theorem memOk_writeAcc {s : State} (h : memOk s = true) (k off : Nat) (bs : List Byte) : memOk (writeAcc s k off bs) = true :=
  memOk_putCore h k (memWf_getCore h k)

/-- Writing bytes at a place of any space keeps the canonical form. -/
theorem memOk_locWrite {s : State} (h : memOk s = true) (l : Loc) (bs : List Byte) : memOk (locWrite s l bs) = true := by
  cases l with
  | mem pa => exact memOk_writeHbm h pa bs
  | spad k off => exact memOk_writeSpad h k off bs
  | acc k off => exact memOk_writeAcc h k off bs
  | peer d a => exact h
  | host a =>
    rw [memOk_iff] at h ⊢
    exact ⟨h.1, memWf_memWriteBytes bs s.hostMem a h.2.1, h.2.2⟩

/-- Writing contexts, dies and cohorts keeps the canonical form. -/
theorem memOk_putCtx {s : State} (h : memOk s = true) (c : Nat) (x : Ctx) : memOk (putCtx s c x) = true := memOk_congr h rfl rfl rfl
theorem memOk_putDie {s : State} (h : memOk s = true) (d : Nat) (x : Die) : memOk (putDie s d x) = true := memOk_congr h rfl rfl rfl
theorem memOk_putCohort {s : State} (h : memOk s = true) (c : Nat) (x : Cohort) : memOk (putCohort s c x) = true :=
  memOk_congr h rfl rfl rfl

/-! ## Bytes of places -/

/-- A write of device memory reads back, and leaves the bytes outside it. -/
theorem memRead_writeHbm (s : State) (pa : Nat) (bs : List Byte) (j : Nat) :
    memRead (writeHbm s pa bs).hbm j = if pa ≤ j ∧ j < pa + bs.length then bs.getD (j - pa) 0 else memRead s.hbm j :=
  memRead_memWriteBytes bs s.hbm pa j

/-- A write of device memory leaves contexts, cores, cohorts and gates as they are. -/
theorem writeHbm_frame (s : State) (pa : Nat) (bs : List Byte) :
    (writeHbm s pa bs).ctxs = s.ctxs ∧ (writeHbm s pa bs).cores = s.cores ∧ (writeHbm s pa bs).cohorts = s.cohorts ∧
      (writeHbm s pa bs).gates = s.gates ∧ (writeHbm s pa bs).hostMem = s.hostMem := ⟨rfl, rfl, rfl, rfl, rfl⟩

/-- Bytes of a scratchpad whose places are none of those written read as before. -/
theorem memRead_spadWriteGo_other (g : Nat) (bs : List Byte) : ∀ (m : Mem) (off j : Nat),
    (∀ i, i < bs.length → spadLoc g (off + i) ≠ j) → memRead (spadWriteGo g m off bs) j = memRead m j := by
  induction bs with
  | nil => exact fun _ _ _ _ => rfl
  | cons b bs ih =>
    intro m off j h
    rw [spadWriteGo, ih _ _ _ (fun i hi => by
      have := h (i + 1) (by simp only [List.length_cons]; omega)
      rwa [show off + 1 + i = off + (i + 1) by omega])]
    exact memRead_memWrite_other m b (h 0 (by simp))

/-! ## Accesses that are not performed yet (R131, R349, R350) -/

/-- A write that is not held back has no order to wait for and no read-modify-write before it. -/
theorem writeHeld_false {s : State} {o : MemOrd} (h : writeHeld s o = false) :
    orderHeld s o = false ∧ lateOut (me s) = false := by
  simpa [writeHeld] using h

/-- A plain read waits exactly for the writes that hold its class. -/
theorem orderHeld_plain {s : State} {o : MemOrd} (h : o.ord.toNat < 2) :
    orderHeld s o = (me s).out.any (fun w => w.holds.getLsbD o.oc.toNat) := by
  have : ¬ 2 ≤ o.ord.toNat := by omega
  simp [orderHeld, this]

/-- Above scope CTX a read-modify-write writes at its step. -/
theorem rmwWrite_now {s : State} {l : Loc} {bs : List Byte} {o : MemOrd} {k : BitVec 4} (h : o.scope ≠ 0) :
    rmwWrite s l bs o k = noteWrite (locWrite s l bs) l o.oc := by
  have hs : (o.scope == 0) = false := by simpa using h
  have : writesLate s l o = false := by simp only [writesLate, hs, Bool.false_and]
  simp [rmwWrite, this]

/-- One that writes later leaves all but its context's list of accesses as it is. -/
theorem rmwWrite_late {s : State} {l : Loc} {bs : List Byte} {o : MemOrd} {k : BitVec 4} (h : writesLate s l o = true) :
    rmwWrite s l bs o k = setMe s { me s with out := (me s).out ++ [⟨o.oc, k, none, [(l, bs)]⟩] } := by
  simp [rmwWrite, h]

/-- STORE_PERFORMED of a write of this module takes it from the list and writes what it has still to write. -/
theorem execStorePerformed_eq {s : State} {c i : Nat} {w : OutAccess} (hc : c < 512) (hw : (getCtx s c).out[i]? = some w)
    (hp : w.peer = none) :
    execStorePerformed c i s = .next (w.late.foldl (fun t b => locWrite t b.1 b.2)
      (modCtx s c (fun x => { x with out := x.out.eraseIdx i }))) := by
  obtain ⟨cls, holds, peer, late⟩ := w
  obtain rfl : peer = none := hp
  have : ¬ 512 ≤ c := by omega
  simp [execStorePerformed, this, hw]

end Sys2Proof.Machine
end

