-- ==== Sys2Proof/Tests/Slice0.lean ====
section
/-!
SUPPORT. Tests: words of the spec's encodings, ill-formed instructions, single steps against the manual's examples,
and for every obligation with hypotheses a state and operands that meet them.
-/
namespace Sys2Proof.Tests
open Sys2Proof Sys2Proof.Machine
set_option Elab.async false
/-- The decoder reads the words as the instruction, and the encoder gives its words back. -/
def decodesTo (w0 w1 : Word) (i : Instr) : Bool :=
  match decode w0 w1 with
  | .ok j => decide (j = i) && (encode i == some [w0] || encode i == some [w0, w1])
  | .error _ => false


/-! ## Words -/

/-- Words that the manual works out or names in an example, of major 0x01 (R46). -/
theorem test_manual_words_integer : ([
    (0x0400245180006000, 0, .div ⟨false, 0, false, 0⟩ 9 5 6)] : List (Word × Word × Instr)).all (fun e => decodesTo e.1 e.2.1 e.2.2) = true := by decide

/-- Words that the manual works out or names in an example, of major 0x02 (R46). -/
theorem test_manual_words_immediate : ([
    (0x08001C70FFFFFFFF, 0, .addi ⟨false, 0, false, 0⟩ 7 7 0xffffffff)] : List (Word × Word × Instr)).all (fun e => decodesTo e.1 e.2.1 e.2.2) = true := by decide

/-- Words that the manual works out or names in an example, of major 0x03 (R46). -/
theorem test_manual_words_compare_immediate : ([
    (0x0C00847100000000, 0, .cmpi ⟨false, 0, false, 0⟩ 1 7 1 0)] : List (Word × Word × Instr)).all (fun e => decodesTo e.1 e.2.1 e.2.2) = true := by decide

/-- Words that the manual works out or names in an example, of major 0x04 (R46). -/
theorem test_manual_words_transfer : ([
    (0x104003FFFFFFFFFD, 0, .br ⟨false, 1, false, 0⟩ 0x3fffffffffd)] : List (Word × Word × Instr)).all (fun e => decodesTo e.1 e.2.1 e.2.2) = true := by decide

/-- Words that the manual works out or names in an example, of major 0x05 (R46). -/
theorem test_manual_words_indirect_transfer : ([
    (0x1400000340010003, 0, .loop ⟨false, 0, false, 0⟩ false 13 3)] : List (Word × Word × Instr)).all (fun e => decodesTo e.1 e.2.1 e.2.2) = true := by decide

/-- Words that the manual works out or names in an example, of major 0x06 (R46). -/
theorem test_manual_words_load : ([
    (0x1AE5185010280010, 0, .ld ⟨true, 3, true, 5⟩ 6 5 0 ⟨1, 0, 0⟩ 2 true 16),
    (0x1800248004A00000, 0, .ld ⟨false, 0, false, 0⟩ 9 8 0 ⟨0, 2, 1⟩ 2 false 0)] : List (Word × Word × Instr)).all (fun e => decodesTo e.1 e.2.1 e.2.2) = true := by decide

/-- Words that the manual works out or names in an example, of major 0x07 (R46). -/
theorem test_manual_words_store : ([
    (0x1C00188005200000, 0, .st ⟨false, 0, false, 0⟩ 6 8 0 ⟨0, 2, 2⟩ 2 0)] : List (Word × Word × Instr)).all (fun e => decodesTo e.1 e.2.1 e.2.2) = true := by decide

/-- Words that the manual works out or names in an example, of major 0x08 (R46). -/
theorem test_manual_words_atomic : ([
    (0x200000E440001082, 0, .amoAdd ⟨false, 0, false, 0⟩ 0 14 17 ⟨0, 1, 0⟩ false)] : List (Word × Word × Instr)).all (fun e => decodesTo e.1 e.2.1 e.2.2) = true := by decide

/-- Words that the manual works out or names in an example, of major 0x09 (R46). -/
theorem test_manual_words_synchronization : ([
    (0x2400007005032000, 0, .cwait ⟨false, 0, false, 0⟩ 5 7),
    (0x240000000000003F, 0, .fence ⟨false, 0, false, 0⟩ 3 15),
    (0x2400000000000021, 0, .fence ⟨false, 0, false, 0⟩ 2 1)] : List (Word × Word × Instr)).all (fun e => decodesTo e.1 e.2.1 e.2.2) = true := by decide

/-- Words that the manual works out or names in an example, of major 0x0C (R46). -/
theorem test_manual_words_system : ([
    (0x30000070000020B0, 0, .cwr ⟨false, 0, false, 0⟩ 7 176),
    (0x300000C340020000, 0, .ctxsave ⟨false, 0, false, 0⟩ 12 13),
    (0x300000C340021000, 0, .ctxload ⟨false, 0, false, 0⟩ 12 13),
    (0x3000014540022000, 0, .tlbinvAddress ⟨false, 0, false, 0⟩ 20 21),
    (0x300024C340023000, 0, .preemptStatus ⟨false, 0, false, 0⟩ 9 12 13),
    (0x3000300000001108, 0, .crd ⟨false, 0, false, 0⟩ 12 264),
    (0x3000000000000000, 0, .nop ⟨false, 0, false, 0⟩),
    (0x3000187000010000, 0, .launch ⟨false, 0, false, 0⟩ 6 7),
    (0x30001C00000011C0, 0, .crd ⟨false, 0, false, 0⟩ 7 448)] : List (Word × Word × Instr)).all (fun e => decodesTo e.1 e.2.1 e.2.2) = true := by decide

/-- Words that the manual works out or names in an example, of major 0x0D (R46). -/
theorem test_manual_words_context : ([
    (0x3400515000003000, 0, .frpop ⟨false, 0, false, 0⟩ 20 21)] : List (Word × Word × Instr)).all (fun e => decodesTo e.1 e.2.1 e.2.2) = true := by decide

/-- Words that the manual works out or names in an example, of major 0x10 (R46). -/
theorem test_manual_words_vector_float : ([
    (0x4000101083003000, 0, .vfma ⟨false, 0, false, 0⟩ 4 1 2 false 3 0 false 0)] : List (Word × Word × Instr)).all (fun e => decodesTo e.1 e.2.1 e.2.2) = true := by decide

/-- Words that the manual works out or names in an example, of major 0x11 (R46). -/
theorem test_manual_words_vector_integer : ([
    (0x4400103600021080, 0, .vshr ⟨false, 0, false, 0⟩ 4 3 24 true 0 false)] : List (Word × Word × Instr)).all (fun e => decodesTo e.1 e.2.1 e.2.2) = true := by decide

/-- Words that the manual works out or names in an example, of major 0x12 (R46). -/
theorem test_manual_words_vector_conversion : ([
    (0x4800183000112118, 0, .vcvt ⟨false, 0, false, 0⟩ 6 3 0 false 1 18 17 8)] : List (Word × Word × Instr)).all (fun e => decodesTo e.1 e.2.1 e.2.2) = true := by decide

/-- Words that the manual works out or names in an example, of major 0x13 (R46). -/
theorem test_manual_words_vector_function : ([
    (0x4C00206000005000, 0, .vcospi ⟨false, 0, false, 0⟩ 8 6 0 false)] : List (Word × Word × Instr)).all (fun e => decodesTo e.1 e.2.1 e.2.2) = true := by decide

/-- Words that the manual works out or names in an example, of major 0x14 (R46). -/
theorem test_manual_words_vector_mask_and_move : ([
    (0x5000144000004408, 0, .vpswap ⟨false, 0, false, 0⟩ 5 4 0 true 2 false),
    (0x500034B000004008, 0, .vpswap ⟨false, 0, false, 0⟩ 13 11 0 true 0 false),
    (0x50001C7000012000, 0, .vscanExcl ⟨false, 0, false, 0⟩ 7 7 0 0 0 false),
    (0x500024D300000002, 0, .vmovGeneralToLane ⟨false, 0, false, 0⟩ 9 13 12)] : List (Word × Word × Instr)).all (fun e => decodesTo e.1 e.2.1 e.2.2) = true := by decide

/-- Words that the manual works out or names in an example, of major 0x17 (R46). -/
theorem test_manual_words_vector_scatter : ([
    (0x5C002CC240111108, 0, .vscatAdd ⟨false, 0, false, 0⟩ 11 12 9 2 false ⟨0, 2, 0⟩ 2 false),
    (0x5C00144002002000, 0, .vconfl ⟨false, 0, false, 0⟩ 5 4 2 0 false),
    (0x5C00289002002000, 0, .vconfl ⟨false, 0, false, 0⟩ 10 9 2 0 false),
    (0x5C002C7280003000, 0, .vcomb ⟨false, 0, false, 0⟩ 11 7 10 0 0 0 false),
    (0x5C002D7240111088, 0, .vscatAdd ⟨false, 0, false, 0⟩ 11 23 9 2 false ⟨0, 1, 0⟩ 2 false)] : List (Word × Word × Instr)).all (fun e => decodesTo e.1 e.2.1 e.2.2) = true := by decide

/-- Words that the manual works out or names in an example, of major 0x18 (R46). -/
theorem test_manual_words_tensor : ([
    (0x60001C8280004000, 0, .tld ⟨false, 0, false, 0⟩ 7 8 10 false false ⟨0, 0, 0⟩),
    (0x6000248280045000, 0, .tst ⟨false, 0, false, 0⟩ 9 8 10 false false true 0 ⟨0, 0, 0⟩),
    (0x60000C8280006004, 0, .vldt ⟨false, 0, false, 0⟩ 3 8 10 false false ⟨0, 0, 0⟩ 1 false),
    (0x600018C340000000, 0, .treg ⟨false, 0, false, 0⟩ 6 12 13)] : List (Word × Word × Instr)).all (fun e => decodesTo e.1 e.2.1 e.2.2) = true := by decide

/-- Words that the manual works out or names in an example, of major 0x19 (R46). -/
theorem test_manual_words_layout : ([
    (0x64003C20928B0000, 0, .relayout ⟨false, 0, false, 0⟩ 7 0 11 8 9 10),
    (0x64000020000C0001, 0, .tstat ⟨false, 0, false, 0⟩ 12 8 0),
    (0x6400002000000002, 0, .tsync ⟨false, 0, false, 0⟩ 8),
    (0x6400002090000010, 0, .relayoutResRetry ⟨false, 0, false, 0⟩ 8 9),
    (0x64001C59455D0000, 0, .relayout ⟨false, 0, false, 0⟩ 3 0 29 22 20 21)] : List (Word × Word × Instr)).all (fun e => decodesTo e.1 e.2.1 e.2.2) = true := by decide

/-- Words that the manual works out or names in an example, of major 0x1A (R46). -/
theorem test_manual_words_mapping : ([
    (0x6800005000000000, 0, .spcfg ⟨false, 0, false, 0⟩ 5)] : List (Word × Word × Instr)).all (fun e => decodesTo e.1 e.2.1 e.2.2) = true := by decide

/-- Words that the manual works out or names in an example, of major 0x1D (R46). -/
theorem test_manual_words_sweep : ([
    (0x74001C28B30D0000, 0, .psweep ⟨false, 0, false, 0⟩ ⟨3, true, 0⟩ 10 11 12 13),
    (0x7400355155970003, 0, .psweeps ⟨false, 0, false, 0⟩ ⟨6, true, 1⟩ 20 21 22 23),
    (0x74000028B30D0003, 0, .psweeps ⟨false, 0, false, 0⟩ ⟨0, false, 0⟩ 10 11 12 13),
    (0x7424346DC75E0000, 0, .psweep ⟨false, 0, true, 4⟩ ⟨6, true, 0⟩ 27 28 29 30),
    (0x74211400079F0000, 0, .psweep ⟨false, 0, true, 1⟩ ⟨2, true, 0⟩ 0 0 30 31)] : List (Word × Word × Instr)).all (fun e => decodesTo e.1 e.2.1 e.2.2) = true := by decide

/-- Words that the manual works out or names in an example, of major 0x1E (R46). -/
theorem test_manual_words_drain : ([
    (0x78002420A3000080, 0, .pdrain ⟨false, 0, false, 0⟩ ⟨4, true, 0⟩ 8 10 12 0 0 true false false),
    (0x7800000000140001, 0, .pprog ⟨false, 0, false, 0⟩ 20),
    (0x780034A228000000, 0, .pdrain ⟨false, 0, false, 0⟩ ⟨6, true, 0⟩ 40 34 32 0 0 false false false)] : List (Word × Word × Instr)).all (fun e => decodesTo e.1 e.2.1 e.2.2) = true := by decide

/-- Words that the manual works out or names in an example, of major 0x1F (R46). -/
theorem test_manual_words_routing : ([
    (0x7C00005005800010, 0, .rbsetSet ⟨false, 0, false, 0⟩ 0 20 22),
    (0x7C00005150000001, 0, .ridx ⟨false, 0, false, 0⟩ 0 20 21),
    (0x7C00005155890002, 0, .rrank ⟨false, 0, false, 0⟩ 0 9 20 21 22),
    (0x7C00005155890003, 0, .rsel ⟨false, 0, false, 0⟩ 0 9 20 21 22),
    (0x7C000051510500C2, 0, .rrankV ⟨false, 0, false, 0⟩ 0 5 20 21 4 1 false),
    (0x7C00005005970004, 0, .rhist ⟨false, 0, false, 0⟩ 0 23 20 22),
    (0x7C003C79F8210005, 0, .place ⟨false, 0, false, 0⟩ 7 0 30 31 32 33)] : List (Word × Word × Instr)).all (fun e => decodesTo e.1 e.2.1 e.2.2) = true := by decide

/-- Words that the manual works out or names in an example, of major 0x20 (R46). -/
theorem test_manual_words_copy : ([
    (0x80001428B3000000, 0, .cpy ⟨false, 0, false, 0⟩ 2 0 10 11 12 false false false false false),
    (0x8000002000070003, 0, .echk ⟨false, 0, false, 0⟩ 7 8),
    (0x80001444F4930001, 0, .cpy2 ⟨false, 0, false, 0⟩ 2 0 17 15 18 19 false false false false false),
    (0x80000C3173400002, 0, .cfill ⟨false, 0, false, 0⟩ 1 0 12 23 13 false false 0),
    (0x80000C31434E0001, 0, .cpy2 ⟨false, 0, false, 0⟩ 1 0 12 20 13 14 false false false false false)] : List (Word × Word × Instr)).all (fun e => decodesTo e.1 e.2.1 e.2.2) = true := by decide

/-- Words that the manual works out or names in an example, of major 0x21 (R46). -/
theorem test_manual_words_tile_copy : ([
    (0x8400355166190100, 0, .cpyt ⟨false, 0, false, 0⟩ 6 1 20 22 24 25 false false true false false),
    (0x84002458030E0900, 0, .cpyt ⟨false, 0, false, 0⟩ 4 0 22 0 12 14 false false true false true)] : List (Word × Word × Instr)).all (fun e => decodesTo e.1 e.2.1 e.2.2) = true := by decide

/-- Words that the manual works out or names in an example, of major 0x22 (R46). -/
theorem test_manual_words_gather_copy : ([
    (0x88001C28B30D0022, 0, .cpys ⟨false, 0, false, 0⟩ 3 0 10 11 12 13 false true false false)] : List (Word × Word × Instr)).all (fun e => decodesTo e.1 e.2.1 e.2.2) = true := by decide

/-- Words that the manual works out or names in an example, of major 0x24 (R46). -/
theorem test_manual_words_link : ([
    (0x900018C340000000, 0, .lcfgGang ⟨false, 0, false, 0⟩ 6 12 13),
    (0x9000000000000001, 0, .lcfgUngang ⟨false, 0, false, 0⟩),
    (0x9000254000001000, 0, .lstat ⟨false, 0, false, 0⟩ 9 20)] : List (Word × Word × Instr)).all (fun e => decodesTo e.1 e.2.1 e.2.2) = true := by decide

/-- Words put together field by field from the tables of major 0x01, with a guard and a wait field (R42-R46). -/
theorem test_words_integer_1 : ([
    (0x05722A6100000000, 0, .add ⟨false, 5, true, 18⟩ 10 38 4),
    (0x057E4EDF00001000, 0, .sub ⟨false, 5, true, 30⟩ 19 45 60),
    (0x076BAEE000002000, 0, .mul ⟨true, 5, true, 11⟩ 43 46 0),
    (0x07E50969C0003000, 0, .mulh ⟨true, 7, true, 5⟩ 2 22 39),
    (0x05FEA84540004000, 0, .mulhu ⟨false, 7, true, 30⟩ 42 4 21),
    (0x05A0989E80005000, 0, .mulhsu ⟨false, 6, true, 0⟩ 38 9 58),
    (0x04BE603940007000, 0, .divu ⟨false, 2, true, 30⟩ 24 3 37),
    (0x05B35091C0008000, 0, .rem ⟨false, 6, true, 19⟩ 20 9 7),
    (0x06A1B06DC0009000, 0, .remu ⟨true, 2, true, 1⟩ 44 6 55),
    (0x0526431BC0010000, 0, .and ⟨false, 4, true, 6⟩ 16 49 47),
    (0x05E56E3F40011000, 0, .or ⟨false, 7, true, 5⟩ 27 35 61),
    (0x04BAB491C0012000, 0, .xor ⟨false, 2, true, 26⟩ 45 9 7)] : List (Word × Word × Instr)).all (fun e => decodesTo e.1 e.2.1 e.2.2) = true := by decide

/-- Words put together field by field from the tables of major 0x01, with a guard and a wait field (R42-R46). -/
theorem test_words_integer_2 : ([
    (0x04A8ABFC80013000, 0, .andn ⟨false, 2, true, 8⟩ 42 63 50),
    (0x057CDBE7C0014000, 0, .orn ⟨false, 5, true, 28⟩ 54 62 31),
    (0x05E4B7F900015000, 0, .xnor ⟨false, 7, true, 4⟩ 45 63 36),
    (0x05336DD8C0020000, 0, .shl ⟨false, 4, true, 19⟩ 27 29 35),
    (0x05E08EF800021000, 0, .shr ⟨false, 7, true, 0⟩ 35 47 32),
    (0x06F5E1E440022000, 0, .sar ⟨true, 3, true, 21⟩ 56 30 17),
    (0x052B03AB80023000, 0, .rol ⟨false, 4, true, 11⟩ 0 58 46),
    (0x04A3229780024000, 0, .ror ⟨false, 2, true, 3⟩ 8 41 30),
    (0x04F563CB80028000, 0, .min ⟨false, 3, true, 21⟩ 24 60 46),
    (0x04BFEBE740029000, 0, .max ⟨false, 2, true, 31⟩ 58 62 29),
    (0x07F21A5D8002A000, 0, .minu ⟨true, 7, true, 18⟩ 6 37 54),
    (0x047D247BC002B000, 0, .maxu ⟨false, 1, true, 29⟩ 9 7 47)] : List (Word × Word × Instr)).all (fun e => decodesTo e.1 e.2.1 e.2.2) = true := by decide

/-- Words put together field by field from the tables of major 0x01, with a guard and a wait field (R42-R46). -/
theorem test_words_integer_3 : ([
    (0x04A63FD000030000, 0, .clz ⟨false, 2, true, 6⟩ 15 61 0),
    (0x05BDC19000031003, 0, .ctz ⟨false, 6, true, 29⟩ 48 25 3),
    (0x06E0247000032002, 0, .popc ⟨true, 3, true, 0⟩ 9 7 2),
    (0x0471B0C000033003, 0, .brev ⟨false, 1, true, 17⟩ 44 12 3),
    (0x046018B000034003, 0, .bswap ⟨false, 1, true, 0⟩ 6 11 3),
    (0x04F2B2400003803B, 0, .exts ⟨false, 3, true, 18⟩ 44 36 59),
    (0x04B7A9100003901E, 0, .extz ⟨false, 2, true, 23⟩ 42 17 30),
    (0x04F4C0E00003A0A3, 0, .bfx ⟨false, 3, true, 20⟩ 48 14 2 35),
    (0x06BA916CC003B413, 0, .bfi ⟨true, 2, true, 26⟩ 36 22 51 16 19),
    (0x05E5939980040000, 0, .sel ⟨false, 7, true, 5⟩ 36 57 38 0),
    (0x053CC80E00041D11, 0, .lea ⟨false, 4, true, 28⟩ 50 0 56 1 836)] : List (Word × Word × Instr)).all (fun e => decodesTo e.1 e.2.1 e.2.2) = true := by decide

/-- Words put together field by field from the tables of major 0x02, with a guard and a wait field (R42-R46). -/
theorem test_words_immediate : ([
    (0x0AA90EF164DE1C8B, 0, .muli ⟨true, 2, true, 9⟩ 3 47 0x64de1c8b),
    (0x0AEB7DD2B3153634, 0, .andi ⟨true, 3, true, 11⟩ 31 29 0xb3153634),
    (0x08E616839DB770E6, 0, .ori ⟨false, 3, true, 6⟩ 5 40 0x9db770e6),
    (0x097E52A4BBFD61C9, 0, .xori ⟨false, 5, true, 30⟩ 20 42 0xbbfd61c9),
    (0x0B70C7F50000003E, 0, .shli ⟨true, 5, true, 16⟩ 49 63 62),
    (0x09A51B2600000012, 0, .shri ⟨false, 6, true, 5⟩ 6 50 18),
    (0x0B71C43700000037, 0, .sari ⟨true, 5, true, 17⟩ 49 3 55),
    (0x0872D408CB70AFF8, 0, .movi ⟨false, 1, true, 18⟩ 53 0xcb70aff8),
    (0x09E825A95A682AFC, 0, .movhi ⟨false, 7, true, 8⟩ 9 26 0x5a682afc)] : List (Word × Word × Instr)).all (fun e => decodesTo e.1 e.2.1 e.2.2) = true := by decide

/-- Words put together field by field from the tables of major 0x03, with a guard and a wait field (R42-R46). -/
theorem test_words_compare_immediate : ([
    (0x0D7115F800000000, 0, .cmp ⟨false, 5, true, 17⟩ 5 31 32 0),
    (0x0DFD0A4B00001001, 0, .test ⟨false, 7, true, 29⟩ 2 36 44 true),
    (0x0DA80471C0010000, 0, .pand ⟨false, 6, true, 8⟩ 1 7 7 false false),
    (0x0DB2144000011002, 0, .por ⟨false, 6, true, 18⟩ 5 4 0 false true),
    (0x0F751851C0012002, 0, .pxor ⟨true, 5, true, 21⟩ 6 5 7 false true),
    (0x0D6A001000013000, 0, .pnot ⟨false, 5, true, 10⟩ 0 1),
    (0x0E720C1000014000, 0, .pmov ⟨true, 1, true, 18⟩ 3 1)] : List (Word × Word × Instr)).all (fun e => decodesTo e.1 e.2.1 e.2.2) = true := by decide

/-- Words put together field by field from the tables of major 0x04, with a guard and a wait field (R42-R46). -/
theorem test_words_transfer : ([
    (0x1131EF658EC66C78, 0, .call ⟨false, 4, true, 17⟩ 59 0x3658ec66c78)] : List (Word × Word × Instr)).all (fun e => decodesTo e.1 e.2.1 e.2.2) = true := by decide

/-- Words put together field by field from the tables of major 0x05, with a guard and a wait field (R42-R46). -/
theorem test_words_indirect_transfer : ([
    (0x17ED002000000000, 0, .jmpr ⟨true, 7, true, 13⟩ 2),
    (0x14AC7E9000001000, 0, .callr ⟨false, 2, true, 12⟩ 31 41),
    (0x147D001000002000, 0, .ret ⟨false, 1, true, 29⟩ 1)] : List (Word × Word × Instr)).all (fun e => decodesTo e.1 e.2.1 e.2.2) = true := by decide

/-- Words put together field by field from the tables of major 0x06, with a guard and a wait field (R42-R46). -/
theorem test_words_load : ([
    (0x1876033640719FE2, 0, .pref ⟨false, 1, true, 22⟩ 51 25 0x19fe2)] : List (Word × Word × Instr)).all (fun e => decodesTo e.1 e.2.1 e.2.2) = true := by decide

/-- Words put together field by field from the tables of major 0x08, with a guard and a wait field (R42-R46). -/
theorem test_words_atomic : ([
    (0x2372628740000643, 0, .amoSwap ⟨true, 5, true, 18⟩ 24 40 29 ⟨1, 4, 2⟩ true),
    (0x212E1BF080002C63, 0, .amoAnd ⟨false, 4, true, 14⟩ 6 63 2 ⟨3, 0, 3⟩ true),
    (0x2320184BC0003E42, 0, .amoOr ⟨true, 4, true, 0⟩ 6 4 47 ⟨3, 4, 2⟩ false),
    (0x217C45CA40004023, 0, .amoXor ⟨false, 5, true, 28⟩ 17 28 41 ⟨0, 0, 1⟩ true),
    (0x20A699CC400050E3, 0, .amoMin ⟨false, 2, true, 6⟩ 38 28 49 ⟨0, 1, 3⟩ true),
    (0x23A61928C0006882, 0, .amoMax ⟨true, 6, true, 6⟩ 6 18 35 ⟨2, 1, 0⟩ false),
    (0x2132936240007143, 0, .amoMinu ⟨false, 4, true, 18⟩ 36 54 9 ⟨0, 2, 2⟩ true),
    (0x23AB9BC540008103, 0, .amoMaxu ⟨true, 6, true, 11⟩ 38 60 21 ⟨0, 2, 0⟩ true),
    (0x22A4B2C77A010202, 0, .amocas ⟨true, 2, true, 4⟩ 44 44 29 58 ⟨0, 4, 0⟩ false),
    (0x2174EEEB80020C83, 0, .amofadd ⟨false, 5, true, 20⟩ 59 46 46 ⟨3, 1, 0⟩ true)] : List (Word × Word × Instr)).all (fun e => decodesTo e.1 e.2.1 e.2.2) = true := by decide

/-- Words put together field by field from the tables of major 0x09, with a guard and a wait field (R42-R46). -/
theorem test_words_synchronization : ([
    (0x24A3000000020001, 0, .yieldI ⟨false, 2, true, 3⟩ true),
    (0x26F840D000021000, 0, .park ⟨true, 3, true, 24⟩ 16 13),
    (0x2461008000022000, 0, .wake ⟨false, 1, true, 1⟩ 8),
    (0x24F502800B030000, 0, .cset ⟨false, 3, true, 21⟩ 11 40),
    (0x26F803E01D031000, 0, .cadd ⟨true, 3, true, 24⟩ 29 62),
    (0x25EA780003033000, 0, .crdc ⟨false, 7, true, 10⟩ 30 3),
    (0x2564030E00040000, 0, .barinit ⟨false, 5, true, 4⟩ 48 56),
    (0x26F3ABE000041000, 0, .bara ⟨true, 3, true, 19⟩ 42 62),
    (0x2469017CC0042000, 0, .barw ⟨false, 1, true, 9⟩ 23 51),
    (0x257C02BDC0050000, 0, .gset ⟨false, 5, true, 28⟩ 43 55),
    (0x26BCD4F740051000, 0, .gadd ⟨true, 2, true, 28⟩ 53 15 29),
    (0x2735A2B000052000, 0, .grd ⟨true, 4, true, 21⟩ 40 43)] : List (Word × Word × Instr)).all (fun e => decodesTo e.1 e.2.1 e.2.2) = true := by decide

/-- Words put together field by field from the tables of major 0x0A, with a guard and a wait field (R42-R46). -/
theorem test_words_float : ([
    (0x287B018BC000011C, 0, .fadd ⟨false, 1, true, 27⟩ 0 24 47 1 12),
    (0x29A928B84000112C, 0, .fsub ⟨false, 6, true, 9⟩ 10 11 33 2 12),
    (0x2BA3ECE400002139, 0, .fmul ⟨true, 6, true, 3⟩ 59 14 16 3 9),
    (0x29EB8B763700310C, 0, .ffma ⟨false, 7, true, 11⟩ 34 55 24 55 0 12),
    (0x29793D8E80004118, 0, .fdiv ⟨false, 5, true, 25⟩ 15 24 58 1 8),
    (0x29A1185000005118, 0, .fsqrt ⟨false, 6, true, 1⟩ 6 5 1 8),
    (0x286F63BB00006130, 0, .fmin ⟨false, 1, true, 15⟩ 24 59 44 3),
    (0x2BB795C540007110, 0, .fmax ⟨true, 6, true, 23⟩ 37 28 21 1),
    (0x28BF179800008100, 0, .fcmp ⟨false, 2, true, 31⟩ 5 57 32 0 0),
    (0x2AE3B65000009110, 0, .fclass ⟨true, 3, true, 3⟩ 45 37 1),
    (0x2AE2458E4000A121, 0, .fsgn ⟨true, 3, true, 2⟩ 17 24 57 2 1)] : List (Word × Word × Instr)).all (fun e => decodesTo e.1 e.2.1 e.2.2) = true := by decide

/-- Words put together field by field from the tables of major 0x0B, with a guard and a wait field (R42-R46). -/
theorem test_words_conversion : ([
    (0x2FA980500001515C, 0, .fcvt ⟨true, 6, true, 9⟩ 32 5 21 21 12),
    (0x2D747CB00010614B, 0, .fcvti ⟨false, 5, true, 20⟩ 31 11 6 20 11),
    (0x2CB9AB800021000C, 0, .icvtf ⟨false, 2, true, 25⟩ 42 56 16 0 12)] : List (Word × Word × Instr)).all (fun e => decodesTo e.1 e.2.1 e.2.2) = true := by decide

/-- Words put together field by field from the tables of major 0x0C, with a guard and a wait field (R42-R46). -/
theorem test_words_system : ([
    (0x3074000000003000, 0, .halt ⟨false, 1, true, 20⟩),
    (0x33AF0000000044B7, 0, .trap ⟨true, 6, true, 15⟩ 0x4b7),
    (0x3165000000005000, 0, .eret ⟨false, 5, true, 5⟩),
    (0x3136000000006E73, 0, .brk ⟨false, 4, true, 22⟩ 0xe73),
    (0x33AA000000011000, 0, .exit ⟨true, 6, true, 10⟩)] : List (Word × Word × Instr)).all (fun e => decodesTo e.1 e.2.1 e.2.2) = true := by decide

/-- Words put together field by field from the tables of major 0x0D, with a guard and a wait field (R42-R46). -/
theorem test_words_context : ([
    (0x36BD340006000001, 0, .rpop ⟨true, 2, true, 29⟩ 13 6 true),
    (0x36E93D2000001000, 0, .qflush ⟨true, 3, true, 9⟩ 15 18),
    (0x36FF1CC000002000, 0, .qstat ⟨true, 3, true, 31⟩ 7 12)] : List (Word × Word × Instr)).all (fun e => decodesTo e.1 e.2.1 e.2.2) = true := by decide

/-- Words put together field by field from the tables of major 0x10, with a guard and a wait field (R42-R46). -/
theorem test_words_vector_float : ([
    (0x426C654200000408, 0, .vadd ⟨true, 1, true, 12⟩ 25 20 8 false 2 false 8),
    (0x40F021BA4000188C, 0, .vsub ⟨false, 3, true, 16⟩ 8 27 41 true 4 false 12),
    (0x42B645610000210B, 0, .vmul ⟨true, 2, true, 22⟩ 17 22 4 false 0 true 11),
    (0x41A81950C000408A, 0, .vdiv ⟨false, 6, true, 8⟩ 6 21 3 true 0 false 10),
    (0x41BB41500000570B, 0, .vsqrt ⟨false, 6, true, 27⟩ 16 21 3 true 11),
    (0x40B969A000006000, 0, .vrcp ⟨false, 2, true, 25⟩ 26 26 0 false),
    (0x43FB3D4000007E00, 0, .vrsq ⟨true, 7, true, 27⟩ 15 20 7 false),
    (0x41F2389D80008880, 0, .vmin ⟨false, 7, true, 18⟩ 14 9 54 true 4 false),
    (0x41F2055800009480, 0, .vmax ⟨false, 7, true, 18⟩ 1 21 32 true 2 false),
    (0x432225F04000A782, 0, .vsgn ⟨true, 4, true, 2⟩ 9 31 1 true 2 3 true)] : List (Word × Word × Instr)).all (fun e => decodesTo e.1 e.2.1 e.2.2) = true := by decide

/-- Words put together field by field from the tables of major 0x11, with a guard and a wait field (R42-R46). -/
theorem test_words_vector_integer : ([
    (0x45EE71E180000700, 0, .viadd ⟨false, 7, true, 14⟩ 28 30 6 false false false 3 true),
    (0x45BD5146C0001820, 0, .visub ⟨false, 6, true, 29⟩ 20 20 27 false true false 4 false),
    (0x44EA28D280002650, 0, .vimul ⟨false, 3, true, 10⟩ 10 13 10 false true true 3 false),
    (0x44705C8F00010A80, 0, .vand ⟨false, 1, true, 16⟩ 23 8 60 true 5 false),
    (0x44FF7D8000011580, 0, .vor ⟨false, 3, true, 31⟩ 31 24 0 true 2 true),
    (0x44FA698740012280, 0, .vxor ⟨false, 3, true, 26⟩ 26 24 29 true 1 false),
    (0x44F438EB80020C80, 0, .vshl ⟨false, 3, true, 20⟩ 14 14 46 true 6 false),
    (0x47E6753C00022080, 0, .vsar ⟨true, 7, true, 6⟩ 29 19 48 true 0 false),
    (0x45FC585080028F80, 0, .vimin ⟨false, 7, true, 28⟩ 22 5 2 true false 7 true),
    (0x45E2247680029790, 0, .vimax ⟨false, 7, true, 2⟩ 9 7 26 true true 3 true),
    (0x46B054F000030500, 0, .vpopc ⟨true, 2, true, 16⟩ 21 15 2 true),
    (0x44F16134C0038440, 0, .vclmul ⟨false, 3, true, 17⟩ 24 19 19 false true 2 false)] : List (Word × Word × Instr)).all (fun e => decodesTo e.1 e.2.1 e.2.2) = true := by decide

/-- Words put together field by field from the tables of major 0x13, with a guard and a wait field (R42-R46). -/
theorem test_words_vector_function : ([
    (0x4DF4298000000D00, 0, .vexp2 ⟨false, 7, true, 20⟩ 10 24 6 true),
    (0x4D6340D000001100, 0, .vlog2 ⟨false, 5, true, 3⟩ 16 13 0 true),
    (0x4CA2559000002900, 0, .vsin ⟨false, 2, true, 2⟩ 21 25 4 true),
    (0x4DFB10D000003B00, 0, .vcos ⟨false, 7, true, 27⟩ 4 13 5 true),
    (0x4D6C20B000004500, 0, .vsinpi ⟨false, 5, true, 12⟩ 8 11 2 true)] : List (Word × Word × Instr)).all (fun e => decodesTo e.1 e.2.1 e.2.2) = true := by decide

/-- Words put together field by field from the tables of major 0x14, with a guard and a wait field (R42-R46). -/
theorem test_words_vector_mask_and_move_1 : ([
    (0x512C04E000000D00, 0, .vmovVector ⟨false, 4, true, 12⟩ 1 14 6 true),
    (0x5073F049C0000001, 0, .vmovLaneToGeneral ⟨false, 1, true, 19⟩ 60 4 39),
    (0x51ED104000000003, 0, .vmovGeneralToMask ⟨false, 7, true, 13⟩ 4 4),
    (0x53ACE86000000004, 0, .vmovMaskToGeneral ⟨true, 6, true, 12⟩ 58 6),
    (0x51A5281940001301, 0, .vbcast ⟨false, 6, true, 5⟩ 10 1 37 true 1 true),
    (0x51F5599640002322, 0, .vext ⟨false, 7, true, 21⟩ 22 25 25 34 1 true),
    (0x51AC684797003D01, 0, .vperm ⟨false, 6, true, 12⟩ 26 4 30 23 true 6 true),
    (0x50A255FDF2005D01, 0, .vslide ⟨false, 2, true, 2⟩ 21 31 55 50 true 6 true),
    (0x5172712000006800, 0, .vcompress ⟨false, 5, true, 18⟩ 28 18 4 false),
    (0x50AF019000007100, 0, .vexpand ⟨false, 2, true, 15⟩ 0 25 0 true),
    (0x52A3149286008000, 0, .vsel ⟨true, 2, true, 3⟩ 5 9 10 6),
    (0x5123545000009400, 0, .viota ⟨false, 4, true, 3⟩ 21 5 2 false)] : List (Word × Word × Instr)).all (fun e => decodesTo e.1 e.2.1 e.2.2) = true := by decide

/-- Words put together field by field from the tables of major 0x14, with a guard and a wait field (R42-R46). -/
theorem test_words_vector_mask_and_move_2 : ([
    (0x51F2CD9000010060, 0, .vred ⟨false, 7, true, 18⟩ 51 25 6 0 0),
    (0x50A3386000011230, 0, .vscan ⟨false, 2, true, 3⟩ 14 6 3 0 1 false)] : List (Word × Word × Instr)).all (fun e => decodesTo e.1 e.2.1 e.2.2) = true := by decide

/-- Words put together field by field from the tables of major 0x15, with a guard and a wait field (R42-R46). -/
theorem test_words_vector_reduction : ([
    (0x556519B000000F82, 0, .vcmp ⟨false, 5, true, 5⟩ 6 27 0 true 2 7 true),
    (0x55A4048600001184, 0, .vicmp ⟨false, 6, true, 4⟩ 1 8 24 true 4 0 true),
    (0x5663086080010003, 0, .mand ⟨true, 1, true, 3⟩ 2 6 2 true true),
    (0x57EF042040011000, 0, .mor ⟨true, 7, true, 15⟩ 1 2 1 false false),
    (0x54A0004080012000, 0, .mxor ⟨false, 2, true, 0⟩ 0 4 2 false false),
    (0x54F9046000013000, 0, .mnot ⟨false, 3, true, 25⟩ 1 6),
    (0x55F8C81000020000, 0, .mpopc ⟨false, 7, true, 24⟩ 50 1)] : List (Word × Word × Instr)).all (fun e => decodesTo e.1 e.2.1 e.2.2) = true := by decide

/-- Words put together field by field from the tables of major 0x16, with a guard and a wait field (R42-R46). -/
theorem test_words_vector_memory : ([
    (0x5A6A30C6EE0109A9, 0, .vld ⟨true, 1, true, 10⟩ 12 12 27 46 true ⟨2, 3, 1⟩ 2 true),
    (0x593241BEB0011009, 0, .vst ⟨false, 4, true, 18⟩ 16 27 58 48 true ⟨0, 0, 0⟩ 2 true)] : List (Word × Word × Instr)).all (fun e => decodesTo e.1 e.2.1 e.2.2) = true := by decide

/-- Words put together field by field from the tables of major 0x17, with a guard and a wait field (R42-R46). -/
theorem test_words_vector_scatter : ([
    (0x5DA60536402804BD, 0, .vgath ⟨false, 6, true, 6⟩ 1 19 25 1 true ⟨1, 1, 1⟩ 7 true),
    (0x5CA815B540181958, 0, .vscat ⟨false, 2, true, 8⟩ 5 27 21 3 false ⟨2, 2, 2⟩ 6 false),
    (0x5D2A603140221A58, 0, .vscatIadd ⟨false, 4, true, 10⟩ 24 3 5 0 true ⟨2, 4, 2⟩ 6 false),
    (0x5CFE7DF600331964, 0, .vscatImin ⟨false, 3, true, 30⟩ 31 31 24 2 true ⟨2, 2, 3⟩ 1 false),
    (0x5CE73C80403C10A0, 0, .vscatImax ⟨false, 3, true, 7⟩ 15 8 1 3 true ⟨0, 1, 1⟩ 0 false)] : List (Word × Word × Instr)).all (fun e => decodesTo e.1 e.2.1 e.2.2) = true := by decide

/-- Words put together field by field from the tables of major 0x18, with a guard and a wait field (R42-R46). -/
theorem test_words_tensor : ([
    (0x61F3002000001000, 0, .trel ⟨false, 7, true, 19⟩ 2),
    (0x60E440300000200B, 0, .tinfo ⟨false, 3, true, 4⟩ 16 3 11),
    (0x62EF84BB40003000, 0, .taddr ⟨true, 3, true, 15⟩ 33 11 45 false),
    (0x60B2138C401E724D, 0, .vstt ⟨false, 2, true, 18⟩ 4 56 49 false true true 3 ⟨0, 4, 2⟩ 3 true)] : List (Word × Word × Instr)).all (fun e => decodesTo e.1 e.2.1 e.2.2) = true := by decide

/-- Words put together field by field from the tables of major 0x1C, with a guard and a wait field (R42-R46). -/
theorem test_words_pool : ([
    (0x71B8006C501C0000, 0, .ppart ⟨false, 6, true, 24⟩ 28 27 5),
    (0x726C000000000010, 0, .ppartRel ⟨true, 1, true, 12⟩),
    (0x70B2036800000001, 0, .pcfg ⟨false, 2, true, 18⟩ ⟨0, false, 3⟩ 26),
    (0x73BE55A400000011, 0, .pcfgPlc ⟨true, 6, true, 30⟩ ⟨10, true, 1⟩ 41),
    (0x70B08EF790000002, 0, .pclr ⟨false, 2, true, 16⟩ ⟨17, true, 2⟩ 61 57),
    (0x72EC00AD40170003, 0, .pexcReadCounters ⟨true, 3, true, 12⟩ 23 43 20)] : List (Word × Word × Instr)).all (fun e => decodesTo e.1 e.2.1 e.2.2) = true := by decide

/-- Words put together field by field from the tables of major 0x1D, with a guard and a wait field (R42-R46). -/
theorem test_words_sweep : ([
    (0x74E202E8D0000001, 0, .pscan ⟨false, 3, true, 2⟩ ⟨0, false, 2⟩ 58 13),
    (0x75A5568986400012, 0, .ptopk ⟨false, 6, true, 5⟩ ⟨10, true, 2⟩ 34 24 25 true)] : List (Word × Word × Instr)).all (fun e => decodesTo e.1 e.2.1 e.2.2) = true := by decide

/-- Words put together field by field from the tables of major 0x1E, with a guard and a wait field (R42-R46). -/
theorem test_words_drain : ([
    (0x79B5002C00120002, 0, .pstat ⟨false, 6, true, 21⟩ 18 11)] : List (Word × Word × Instr)).all (fun e => decodesTo e.1 e.2.1 e.2.2) = true := by decide

/-- Words put together field by field from the tables of major 0x1F, with a guard and a wait field (R42-R46). -/
theorem test_words_routing : ([
    (0x7EAA02FC00000000, 0, .rbsetClr ⟨true, 2, true, 10⟩ 2 63),
    (0x7D2B029405400020, 0, .rbsetUnset ⟨false, 4, true, 11⟩ 2 37 21),
    (0x7D68015C070005D0, 0, .rbsetSetV ⟨false, 5, true, 8⟩ 1 23 28 3 true),
    (0x7C75034403400160, 0, .rbsetUnsetV ⟨false, 1, true, 21⟩ 3 17 13 2 false),
    (0x7DA6012A949F0143, 0, .rselV ⟨false, 6, true, 6⟩ 1 31 10 41 18 2 false)] : List (Word × Word × Instr)).all (fun e => decodesTo e.1 e.2.1 e.2.2) = true := by decide

/-- Words put together field by field from the tables of major 0x21, with a guard and a wait field (R42-R46). -/
theorem test_words_tile_copy : ([
    (0x8527D659DCDA1801, 0, .cpyts ⟨false, 4, true, 7⟩ 26 2 22 29 51 26 false false true 1)] : List (Word × Word × Instr)).all (fun e => decodesTo e.1 e.2.1 e.2.2) = true := by decide

/-- Words put together field by field from the tables of major 0x22, with a guard and a wait field (R42-R46). -/
theorem test_words_gather_copy : ([
    (0x8962EF2C8A0E0018, 0, .cpyg ⟨false, 5, true, 2⟩ 29 3 11 8 40 14 true true),
    (0x89E78D956C860419, 0, .cpyr ⟨false, 7, true, 7⟩ 17 1 37 22 50 6 true true true false)] : List (Word × Word × Instr)).all (fun e => decodesTo e.1 e.2.1 e.2.2) = true := by decide

/-- Words put together field by field from the tables of major 0x24, with a guard and a wait field (R42-R46). -/
theorem test_words_link : ([
    (0x9162017C40000002, 0, .lcfgWset ⟨false, 5, true, 2⟩ 23 49),
    (0x90BD000880000003, 0, .lcfgWclr ⟨false, 2, true, 29⟩ 34)] : List (Word × Word × Instr)).all (fun e => decodesTo e.1 e.2.1 e.2.2) = true := by decide

/-- Words put together field by field from the tables of major 0x38, with a guard and a wait field (R42-R46). -/
theorem test_words_wide_immediate : ([
    (0xE37EA40000000000, 0x37B13F937D26C0AA, .movx ⟨true, 5, true, 30⟩ 41 0x37b13f937d26c0aa)] : List (Word × Word × Instr)).all (fun e => decodesTo e.1 e.2.1 e.2.2) = true := by decide

/-- Words put together field by field from the tables of major 0x39, with a guard and a wait field (R42-R46). -/
theorem test_words_far_transfer : ([
    (0xE5EEDC0000000000, 0x1FE017D25BBD6C28, .brx ⟨false, 7, true, 14⟩ 55 0x1fe017d25bbd6c28),
    (0xE4A5400100000000, 0x921496F65C6133A8, .brxRel ⟨false, 2, true, 5⟩ 16 0x921496f65c6133a8)] : List (Word × Word × Instr)).all (fun e => decodesTo e.1 e.2.1 e.2.2) = true := by decide

/-! ## Ill-formed instructions -/

/-- A header without guard or wait. -/
def plain : Hdr := ⟨false, 0, false, 0⟩
/-- No order and no scope. -/
def noOrder : MemOrd := ⟨0, 0, 0⟩

/-- The header: GRD = 0b1000, and a counter without WT.EN (R43, R44). -/
theorem test_ill_formed_header : ([
    .nop ⟨true, 0, false, 0⟩, .add ⟨true, 0, false, 0⟩ 1 2 3, .nop ⟨false, 0, false, 7⟩] : List Instr).all
      (fun i => !WellFormed i) = true := by decide

/-- Scalar forms: sizes, field ranges, conditions, link registers, loop length. -/
theorem test_ill_formed_scalar : ([
    .bswap plain 1 2 0, .bfx plain 1 2 32 32, .bfi plain 1 2 3 63 1, .cmp plain 1 2 3 10, .cmpi plain 1 2 15 0,
    .call plain 0 4, .callr plain 0 4, .loop plain false 1 0, .fsgn plain 1 2 3 1 3, .brx plain 0 4, .brxRel plain 1 1,
    .fence plain 5 1, .fence plain 0 0] : List Instr).all (fun i => !WellFormed i) = true := by decide

/-- Orders and scopes by the column of R50: a load that releases, a store that acquires, a scope without an order, a
scope above 4, and a sign-extended double-word load. -/
theorem test_ill_formed_orders : ([
    .ld plain 1 2 3 ⟨0, 0, 2⟩ 3 false 0, .ld plain 1 2 3 ⟨0, 1, 0⟩ 3 false 0, .ld plain 1 2 3 ⟨0, 5, 1⟩ 3 false 0,
    .ld plain 1 2 3 noOrder 3 true 0, .st plain 1 2 3 ⟨0, 0, 1⟩ 3 0, .st plain 1 2 3 ⟨0, 0, 3⟩ 3 0,
    .amoAdd plain 1 2 3 ⟨0, 5, 0⟩ true, .amocas plain 1 2 3 4 ⟨0, 7, 3⟩ true, .amofadd plain 1 2 3 ⟨0, 6, 1⟩ false,
    .vgath plain 1 2 3 0 false ⟨0, 0, 2⟩ 0 false, .vscat plain 1 2 3 0 false ⟨0, 0, 1⟩ 0 false,
    .vscatAdd plain 1 2 3 0 false ⟨0, 5, 0⟩ 0 false] : List Instr).all (fun i => !WellFormed i) = true := by decide

/-- Rounding modes without RMEN or past the last one; format codes that the form does not take (R74, R135, R143). -/
theorem test_ill_formed_formats : ([
    .fadd plain 1 2 3 0 1, .ffma plain 1 2 3 4 0 13, .fsqrt plain 1 2 0 15, .fcvt plain 1 2 0x19 0x10 0,
    .fcvt plain 1 2 0x10 0x00 0, .fcvti plain 1 2 0x08 0x10 0, .fcvti plain 1 2 0x00 0x30 0, .icvtf plain 1 2 0x11 0x09 0,
    .icvtf plain 1 2 0x30 0x00 0] : List Instr).all (fun i => !WellFormed i) = true := by decide

/-- Control registers: numbers the spec does not define, and writes of read-only ones (R25). -/
theorem test_ill_formed_control_registers : ([
    .crd plain 1 0x005, .crd plain 1 0xFFF, .crd plain 1 0x110, .crd plain 1 0x1C5, .cwr plain 1 0x00B, .cwr plain 1 0x1C4, .cwr plain 1 0x003,
    .cwr plain 1 0x108] : List Instr).all (fun i => !WellFormed i) = true := by decide

/-- Vector forms: a vector register above 31 in field B, U without its modifier, PART past the end, and the rest. -/
theorem test_ill_formed_vector : ([
    .vadd plain 1 2 32 false 0 false 0, .vadd plain 1 2 3 false 0 false 5, .vsgn plain 1 2 3 false 3 0 false,
    .viadd plain 1 2 3 false false true 0 false, .visub plain 1 2 3 false false true 0 false,
    .vimul plain 1 2 3 false false true 0 false, .vcvt plain 1 2 0 false 2 0x11 0x12 0, .vcvt plain 1 2 0 false 0 0x10 0x11 0,
    .vcvt plain 1 2 0 false 0 0x30 0x00 0, .vicmp plain 1 2 3 false 10 0 false, .vbcast plain 1 32 0 true 0 false,
    .vbcast plain 1 2 1 false 0 false, .vperm plain 1 2 3 1 false 0 false, .vpswap plain 1 2 6 false 0 false,
    .vred plain 1 2 11 0 0, .vred plain 1 2 0 8 0, .vscan plain 1 2 8 13 0 false, .vscanExcl plain 1 2 12 0 0 false,
    .vld plain 1 2 3 1 false noOrder 0 false, .vst plain 1 2 3 1 false noOrder 0 false, .vcomb plain 1 2 3 6 0 0 false,
    .vcomb plain 1 2 3 1 8 0 false, .rpop plain 1 1 false] : List Instr).all (fun i => !WellFormed i) = true := by decide

/-- Pool, tensor, copy and layout forms. -/
theorem test_ill_formed_engines : ([
    .pcfg plain ⟨1, false, 0⟩ 1, .ptopk plain ⟨0, false, 0⟩ 1 2 3 false, .pdrain plain ⟨0, false, 0⟩ 1 63 3 0 0 false false false,
    .pdrain plain ⟨0, false, 0⟩ 1 2 3 4 0 false false false,
    .taddr plain 1 2 63 false, .tld plain 1 2 63 false false noOrder, .tst plain 1 2 3 true false true 0 noOrder,
    .tst plain 1 2 3 false false false 1 noOrder, .tst plain 1 2 3 false false true 5 noOrder,
    .vldt plain 1 2 3 false false ⟨0, 0, 2⟩ 0 false, .vstt plain 1 2 3 false false true 7 noOrder 0 false,
    .cpy plain 0 0 1 2 3 false true true false false, .cpy plain 0 0 1 2 3 false false false true false,
    .cpy2 plain 0 0 1 2 3 4 false false false false true, .cfill plain 0 0 1 2 3 false false 4,
    .cpyts plain 0 0 1 2 3 4 false false false 5, .cpyr plain 0 0 1 2 3 4 false false false true,
    .cpys plain 0 0 1 2 3 4 false false true false, .tstat plain 1 2 3] : List Instr).all
      (fun i => !WellFormed i) = true := by decide

/-- Steps of agents the package does not have (R8, R27). -/
theorem test_ill_formed_agents : ([
    .loadReturn 512 0, .loadReturn 0 64, .icacheFill 128 0, .schedulerPass 4, .headWaitExpiry 0 8, .parkTimeout 512,
    .configReady 0 4, .copyBeatLand 0 2 0, .copyBeatLand 0 0 4, .hostGateRead 1024, .trip 32, .linkDown 24,
    .linkUp 0 1024, .islandClockChange 0 850, .islandClockChange 0 3400] : List Instr).all
      (fun i => !WellFormed i) = true := by decide



/-! ## The states of the tests -/

/-- After reset with a NOP placed as the program: context 0 runs in supervisor mode, nothing is awaited. -/
def base : State := { State.reset.withFetchWord 64 0x3000000000000000 with inputs := [] }
/-- The executing context changed. -/
def withMe (f : Ctx → Ctx) (s : State) : State := setMe s (f (me s))
def withG (rs : List (Nat × Word)) (s : State) : State := withMe (fun x => { x with g := rs }) s
def withCr (n : Nat) (v : Word) (s : State) : State := withMe (fun x => ctxSetCr x n v) s
/-- The executing context's cohort changed. -/
def withCoh (f : Cohort → Cohort) (s : State) : State :=
  match getCohort s 0 with
  | some x => putCohort s 0 (f x)
  | none => s
/-- The cohort has these completion counters. -/
def withMask (m : Word) (s : State) : State := withCoh (fun x => { x with lrec := { x.lrec with cmask := m } }) s
/-- A handler is set. -/
def handled : State := withCr crTvec 0x20000 base
def user (s : State) : State := withMe (fun x => { x with sv := false }) s
/-- Bytes in the scratchpad of core 0, and words in device memory. -/
def withSpad (off : Nat) (bs : List Byte) (s : State) : State := writeSpad s 0 off bs
def withWords (pa : Nat) (ws : List Nat) (s : State) : State :=
  writeHbm s pa (ws.flatMap (fun w => leBytes 8 w))
def counterIs (i v : Nat) (f : Bool) (s : State) : State := putCounter s 0 i ⟨v, f⟩
def h0 : Hdr := ⟨false, 0, false, 0⟩
/-- No order, the caller's level. -/
def o0 : MemOrd := ⟨0, 0, 0⟩
/-- A pointer to offset n of the scratchpad. -/
def sp (n : Nat) : Word := BitVec.ofNat 64 (2 ^ 60 + n)
/-- All of a list hold. -/
def allHold (bs : List Bool) : Bool := bs.all id
def nexts (o : Host.Outcome State Fault Refusal) : Bool := match o with | .next _ => true | _ => false
/-- The instruction answers a state that passes a test. -/
def leaves (o : Host.Outcome State Fault Refusal) (f : State → Bool) : Bool := match o with | .next t => f t | _ => false
def okE {ε α : Type} (e : Except ε α) : Bool := match e with | .ok _ => true | .error _ => false
/-- The error of a failed check, 0 without one. -/
def errOf {α : Type} (e : Except Nat α) : Nat := match e with | .ok _ => 0 | .error c => c
def recCause {α : Type} (e : Except FaultRec α) : Nat := match e with | .ok _ => 0 | .error r => r.cause
/-- Every body runs: a form of any operands and privilege. -/
def ready (s : State) : Bool := bodyRuns s h0 true [1, 2, 3, 4] [5]


/-! ## Single steps: the expected values stand in the manual's examples and tables -/

/-- A general register after an instruction, from a state with g5 and g8 as given. -/
def g7After (g5 g8 : Word) (i : Instr) (r : Nat) (want : Word) : Bool :=
  leaves (exec i (withG [(5, g5), (8, g8)] base)) (fun t => ctxG (me t) r == want)

/-- R108's example: -7 divided by 2 gives -3 and -1. -/
theorem test_div_rem : allHold [g7After (-7) 2 (.div h0 7 5 8) 7 (-3), g7After (-7) 2 (.rem h0 7 5 8) 7 (-1)] = true := by
  decide +kernel

/-- R108's example: SHL by 65 shifts by 1. -/
theorem test_shl_count : g7After 3 65 (.shl h0 7 5 8) 7 6 = true := by decide +kernel

/-- R118's example: CMPI.LTU with -1 is true but for 2^64 - 1. -/
theorem test_cmpi_unsigned : allHold [
    leaves (exec (.cmpi h0 1 5 2 0xFFFFFFFF) (withG [(5, 0xFFFFFFFFFFFFFFFE)] base)) (fun t => ctxP (me t) 1),
    leaves (exec (.cmpi h0 1 5 2 0xFFFFFFFF) (withG [(5, 0xFFFFFFFFFFFFFFFF)] base)) (fun t => !ctxP (me t) 1)] = true := by
  decide +kernel

/-- R117's example: PNOT p1, p0 gives false. -/
theorem test_pnot : leaves (exec (.pnot h0 1 0) (withMe (fun x => { x with p := 0xFF }) base)) (fun t => !ctxP (me t) 1) = true := by
  decide +kernel

/-- R17's example: 16 past the last 8 bytes of the scratchpad is no SPAD address; at 0 the load reads them. -/
theorem test_pointer_sum : allHold (
    let s := withG [(5, 0x10000000003FFFF8)] (withSpad 0x3FFFF8 [1, 2, 3, 4, 5, 6, 7, 8] handled)
    [leaves (exec (.ld h0 6 5 0 o0 3 false 16) s) (fun t => decide ((ctxCr (me t) 0x108).toNat % 256 = 0x03)),
     leaves (exec (.ld h0 6 5 0 o0 3 false 0) s) (fun t => ctxG (me t) 6 == 0x0807060504030201)]) = true := by decide +kernel

/-- R10: a write to g0 is discarded; the load still takes its fault. -/
theorem test_write_g0 : allHold [g7After 1 2 (.add h0 0 5 8) 0 0,
    leaves (exec (.ld h0 0 5 0 o0 3 false 0) (withG [(5, sp 1)] handled))
      (fun t => decide ((ctxCr (me t) 0x108).toNat % 256 = 0x04))] = true := by decide +kernel

/-- R134's example, one of the two additions: at scope CORE, and at scope CTX, where an addition of another agent between
the read and the write is lost (R131). -/
theorem test_amo_add : (
    let s := withG [(5, sp 64), (7, 1)] (withSpad 64 [1] base)
    allHold [leaves (exec (.amoAdd h0 6 5 7 ⟨0, 1, 0⟩ false) s) (fun t => ctxG (me t) 6 == 1 && mySpad t 64 4 == 2),
      leaves (exec (.amoAdd h0 6 5 7 ⟨0, 0, 0⟩ false) s) (fun t => ctxG (me t) 6 == 1 && mySpad t 64 4 == 1 &&
        leaves (exec (.storePerformed 0 0) (withSpad 64 [9] t)) (fun u => mySpad u 64 4 == 2 && (me u).out.isEmpty))]) = true := by
  decide +kernel

/-- R141's example: FSGN.JN of a register with itself negates, FSGN.JX gives the absolute value. -/
theorem test_fsgn : allHold [g7After 0 0x40200000 (.fsgn h0 7 8 8 1 1) 7 0xC0200000,
    g7After 0 0xC0200000 (.fsgn h0 7 8 8 1 2) 7 0x40200000] = true := by decide +kernel

/-- R144's examples: 300.0 to E4M3 is 0x79, and -2.75 to I32 towards zero is -2 with NX. -/
theorem test_conversions : allHold [g7After 0 0x43960000 (.fcvt h0 7 8 0x14 0x11 8) 7 0x79,
    leaves (exec (.fcvti h0 7 8 0x04 0x11 9) (withG [(8, 0xC0300000)] base))
      (fun t => ctxG (me t) 7 == 0xFFFFFFFE && (ctxCr (me t) 0x019).getLsbD 0)] = true := by decide +kernel

/-- R95's example: 500 to E4M3 towards zero saturates at 448, counts in SATC and raises no flag. -/
theorem test_saturation : leaves (exec (.fcvt h0 7 8 0x14 0x11 9) (withG [(8, 0x43FA0000)] base))
    (fun t => ctxG (me t) 7 == 0x7E && (ctxCr (me t) 0x019).toNat % 32 == 0 && ctxCr (me t) 0x019 != 0) = true := by decide +kernel

/-- R81's example: E3M5U code 0x6A is 0.65625. -/
theorem test_e3m5u : g7After 0 0x6A (.fcvt h0 7 8 0x11 0x31 8) 7 0x3F280000 = true := by decide +kernel

/-- A vector instruction at the head of the executing context's queue, and what its start leaves in a lane of v5. -/
def vlaneAfter (i : Instr) (v4 : VReg) (j want : Nat) : Bool :=
  leaves (execVectorStart 0 (withMe (fun x => ctxSetV { x with vq := [⟨i, x.pc, 0, 0, 0, 0, none, false, 0⟩] } 4 v4) base))
    (fun t => decide (lane (vreg t 5) j = want))

/-- R200's examples: VSINPI of 0.25 is the FP32 value nearest half the root of 2, and VCOSPI of 0.5 is +0. -/
theorem test_vsinpi : allHold [vlaneAfter (.vsinpi h0 5 4 0 false) (mkVec fun _ => 0x3E800000) 63 0x3F3504F3,
    vlaneAfter (.vcospi h0 5 4 0 false) (mkVec fun _ => 0x3F000000) 0 0] = true := by decide +kernel

/-- R205's example: part 1 of FP32 0x3FB504F3 as BF16 lies in the upper half; j = 2 lands in bits 31:0 of lane 33. -/
theorem test_vcvt_part : allHold [
    vlaneAfter (.vcvt h0 5 4 0 false 1 0x12 0x11 8) (mkVec fun j => if j = 2 then 0x3FB504F3 else 0) 33 0x3FB5] = true := by
  decide +kernel

/-- R209's example: VPSWAP.NEG with 0 maps the pair (x0, x1) to (-x1, x0). -/
theorem test_vpswap : allHold (
    let v := mkVec fun j => 0x3F800000 + j
    [vlaneAfter (.vpswap h0 5 4 0 true 0 false) v 0 0xBF800001, vlaneAfter (.vpswap h0 5 4 0 true 0 false) v 1 0x3F800000]) = true := by
  decide +kernel

/-- R305's example: physical address 0x30_0012_5ABC lies on stack 3, pseudo-channel 101, row 0. -/
theorem test_home : hbmHome 0x3000125ABC = (3, 101, 0) := by decide +kernel

/-- R323's example: offset 18950 is swizzled to 19526. -/
theorem test_swizzle : swz 18950 = 19526 := by decide +kernel

/-- R313's example: the walk of VA 0x0000_7F00_0003_5ABC through a leaf of 64 KiB. -/
theorem test_walk : (
    let s := withWords 0x1000 [0x2001] (withWords (0x2000 + 254 * 8) [0x3001]
      (withWords 0x3000 [0x4001] (withWords 0x4000 [0x5001] (withWords (0x5000 + 48 * 8) (List.replicate 16 0x300012082F) base))))
    match translate s ⟨0, false, 0x2000000001000⟩ 0x7F0000035ABC .load with
    | .ok (pa, _) => decide (pa = 0x3000125ABC)
    | .error _ => false) = true := by decide +kernel

/-- R39 and R29: a step of ADDI at the entry moves the PC by 8 and counts one retired instruction. -/
theorem test_step_addi : (match step (State.reset.withFetchWord 64 0x08001C70FFFFFFFF) with
    | .next t => ctxG (getCtx t 0) 7 == 0xFFFFFFFFFFFFFFFF && (getCtx t 0).pc == 0x10008 && ctxCr (getCtx t 0) 3 == 1
    | _ => false) = true := by decide +kernel


/-! ## Hypotheses of the statements: states that meet them -/

/-- Context 511 of core 127, which shares the program's cohort and has its line cached. -/
def far : State :=
  modCore (putCtx base 511 (me base)) 127 (fun q => { q with icache := (getCore base 0).icache })

/-- StepRunsDecodedInstruction: an issue named for context 511, and context 0 with no input. -/
theorem witness_step_runs : allHold [
    (let s := { far with inputs := [.issue 511] }
     let t := { s with inputs := [] }
     s.modState == .ready && !asyncDue t 511 && !haltDue t 511 && ctxReady t 511 && ownsSlot t 511 &&
     (match fetchWords (takeSlot t 511) 511 with
      | .words w0 w1 u => (fetchBreak (me u)).isNone && okE (decode w0 w1)
      | _ => false)),
    (base.inputs.isEmpty && base.modState == .ready && (firstStep base (mailMoves base ++ quickMoves base)).isNone &&
     base.pace.isNone && (engineWork base).isEmpty && ((tabKeys base.ctxs).find? (haltDue base)).isNone &&
     firstToAct base == some 0 &&
     (match fetchWords (takeSlot base 0) 0 with
      | .words w0 w1 u => (fetchBreak (me u)).isNone && okE (decode w0 w1)
      | _ => false))] = true := by decide +kernel

/-- FetchReadsProgramBytes: a misaligned PC, one at 2^56, and the program's. -/
theorem witness_fetch : allHold [
    decide ((0x10007 : Word).toNat % 8 ≠ 0), decide ((0x100000000000000 : Word).toNat % 8 = 0),
    decide (2 ^ 56 ≤ (0x100000000000000 : Word).toNat),
    (let x := getCtx base 0
     decide (x.pc.toNat % 8 = 0) && decide (x.pc.toNat < 2 ^ 56) &&
     (match translate base ⟨0, x.sv, ctxCr x crXspace⟩ x.pc.toNat .fetch with
      | .ok (pa, t) => (match tabFind (getCore t 0).icache (pa / 64) with
         | some bs => isDouble (w64 (leNat ((bs.drop (pa % 64)).take 8))) == false
         | none => false)
      | .error _ => false))] = true := by decide +kernel

/-- RetirementAdvancesThePc: no loop, no single step; a step that traps, one deeper than STEPDEP that does not; a fetch
breakpoint of range 2^63 bytes that matches, with SKIP1 and without, and one that does not match. -/
theorem witness_retirement : allHold (
    let step (dbg depth : Word) : State := withCr crCdepth depth (withCr crDbgctl dbg handled)
    let deep (s : State) : Bool :=
      dbgSo (me s) && decide (((getCr s crStepdep).setWidth 32).toInt < ((ctxCr (me s) crCdepth).setWidth 32).toInt)
    let steps (s : State) : Bool := dbgSs (me s) && !estatInh (me s) && (me s).phase == .running && noLoop (me s) &&
      !dbgBph (me s) && handlerReady s s.cur
    let breaks (bpa dbg : Word) : State := withCr (crBpa 3) bpa (withCr (crBpc 3) 0x1F9 (withCr crDbgctl dbg handled))
    [decide ((getCtx base base.cur).phase ≠ .free), noStep base, noLoop (getCtx base base.cur),
     steps (step 1 0) && !deep (step 1 0), steps (step 3 0) && !deep (step 3 0), steps (step 3 1) && deep (step 3 1),
     !dbgSkip1 (me (breaks 0x7FF8 0)) && !dbgBph (me (breaks 0x7FF8 0)) && fetchBreak (me (breaks 0x7FF8 0)) == some 3,
     dbgSkip1 (me (breaks 0x7FF8 8)), okE (decode 0x3000000000000000 0),
     !dbgSkip1 (me (breaks 0x8000000000000000 0)) && fetchBreak (me (breaks 0x8000000000000000 0)) == none]) = true := by
  decide +kernel

/-- A context at address 0x100 with the loops as given: active bits, counts, ends. -/
def loops (act c0 c1 e0 e1 : Word) : Ctx :=
  ctxSetCr (ctxSetCr (ctxSetCr (ctxSetCr (ctxSetCr ctxReset crLpctl act) (crLpcount 0) c0) (crLpcount 1) c1)
    (crLpend 0) e0) (crLpend 1) e1

/-- LoopTestFollowsTheCounts: each clause, with counts of 2, 1 and 0. -/
theorem witness_loops : allHold (
    let act (x : Ctx) (n : Nat) : Bool := (ctxCr x crLpctl).getLsbD n && ctxCr x (crLpend n) == 0x100
    let more (x : Ctx) (n : Nat) : Bool := decide (1 < (ctxCr x (crLpcount n)).toNat)
    let a := loops 3 2 0 0x100 0x100
    let b := loops 1 1 0 0x100 0x100
    let c := loops 2 0 2 0x100 0x100
    let d := loops 3 0 2 0x100 0x100
    let e := loops 3 1 1 0x100 0x100
    let f := loops 3 5 5 0x108 0x108
    let g := loops 2 0 1 0x100 0x100
    [act a 0 && more a 0, act b 0 && !more b 0 && !act b 1, !act c 0 && act c 1 && more c 1,
     act d 0 && !more d 0 && act d 1 && more d 1, act e 1 && !more e 1 && !(act e 0 && more e 0),
     !act f 0 && !act f 1, !act g 0 && act g 1 && !more g 1]) = true := by decide +kernel

/-- R34, R56, R287: a PDRAIN with RM 7 raises ILLEGAL_INSTR under a false guard, and TENSOR_HANDLE for a stale handle
under a true one. -/
theorem test_pdrain_rm :
    let run (g : BitVec 3) : Out := exec (.pdrain ⟨false, g, false, 0⟩ ⟨0, false, 0⟩ 1 2 3 4 7 false false true) handled
    let raises (g : BitVec 3) (cause : Nat) : Bool := leaves (run g) (fun t =>
      (me t).pc == 0x20000 && (getCr t (crFrec 0)).toNat % 256 == cause)
    (raises 7 cIllegal && raises 0 cTensorHandle) = true := by decide +kernel

/-- FalseGuardRetiresWithoutEffect, for a privileged form, one of the vector unit and a PDRAIN with RM 6 under a false p7. -/
theorem witness_guard : allHold (
    let h : Hdr := ⟨false, 7, false, 0⟩
    [hdrOf (.halt h) == some h, hdrOf (.vadd h 1 2 3 true 0 false 0) == some h, !ctxBlocked (me base), (me base).sv,
     waitDone base h, nothingPending base, !guardRuns base h, rmReserved (.pdrain h ⟨0, false, 0⟩ 1 2 3 4 6 false false false),
     hdrOf (.pdrain h ⟨0, false, 0⟩ 1 2 3 4 6 false false false) == some h, !rmReserved (.halt h)]) = true := by decide +kernel

/-- WaitFieldHoldsIssueBack: counter 31 of the cohort non-zero, faulted, and another cohort's. -/
theorem witness_wait : allHold (
    let h : Hdr := ⟨false, 0, true, 31⟩
    let c (s : State) : Counter := getCounter s (myCore s) 31
    let a := counterIs 31 1 false base
    let b := counterIs 31 0 true base
    let d := withMask 0x7FFFFFFF base
    [hdrOf (.nop h) == some h, h.wten, !ctxBlocked (me base), (me base).sv,
     ownsCounter a 0 31 && !(c a).faulted && decide ((c a).value ≠ 0), ownsCounter b 0 31 && (c b).faulted,
     !ownsCounter d 0 31, rmReserved (.pdrain h ⟨0, false, 0⟩ 1 2 3 4 7 false false false), !waitDone a h,
     hdrOf (.pdrain h ⟨0, false, 0⟩ 1 2 3 4 7 false false false) == some h]) = true := by decide +kernel

/-- ControlRegisterAccess, the privileged forms: HALT, CRD and CWR of the first privileged register, CRD of the last one. -/
theorem witness_privileged : allHold [
    supOnly (.halt h0), supOnly (.crd h0 1 0x100) && WellFormed (.crd h0 1 0x100),
    supOnly (.cwr h0 1 0x100) && WellFormed (.cwr h0 1 0x100), supOnly (.crd h0 1 0x1C4) && WellFormed (.crd h0 1 0x1C4),
    !supOnly (.crd h0 1 0xC2), !(me (user base)).sv, !ctxBlocked (me (user base))] = true := by decide +kernel

/-- RoundingIsNearest: a tie, an inexact value below ulp, an exact one, the last dither entry, and in every row of the table a value that fits and
one that is too large. -/
theorem witness_rounding : allHold ([
    (let r := roundMag 4 (-6) false 17 0 .rne
     r.inexact && decide (r.ulp > 0)), (roundMag 4 (-6) true 1 (-40) .rup).inexact, !(roundMag 4 (-6) false 15 3 .rna).inexact,
    decide ((255 : Nat) < 256) && (roundMag 4 (-6) false 17 0 (.dith 255)).n == 9] ++
    roundingTable.map (fun row => !ltMag row.topN row.topExp 1 0 &&
      (let r := roundMag row.p row.emin false 1 2000 .rne
       ltMag row.topN row.topExp r.n r.ulp))) = true := by decide +kernel

/-- UndefinedWordsAndFieldsAreRefused: the all-zero word; the operands at the edge of each clause. -/
theorem witness_undefined : allHold [
    (fetchBreak (me base)).isNone, !okE (decode 0 0), decide (64 < (63 : BitVec 6).toNat + (1 : BitVec 6).toNat + 1),
    decide (9 < (10 : BitVec 4).toNat)] = true := by decide +kernel

/-- The major of the words of a well-formed instruction lies between two values. -/
def majorIn (i : Instr) (lo hi : Nat) : Bool :=
  WellFormed i && (match encode i with
    | some (w :: _) => decide (lo ≤ (w.extractLsb' 58 6).toNat) && decide ((w.extractLsb' 58 6).toNat < hi)
    | _ => false)

/-- ScalarFormsDecodeFromTheirWords, VectorForms…, EngineForms…: a first and a last major of each. -/
theorem witness_encodings : allHold [
    majorIn (.add h0 1 2 3) 0 0x10, majorIn (.movx h0 1 5) 0x38 0x40, majorIn (.vadd h0 1 2 3 false 0 false 0) 0x10 0x18,
    majorIn (.vld h0 1 2 3 0 false o0 0 false) 0x10 0x18, majorIn (.ppart h0 1 2 3) 0x18 0x38,
    majorIn (.lstat h0 1 2) 0x18 0x38] = true := by decide +kernel

/-- IntegerArithmeticResults, BitFieldResults, ImmediateFormResults, ComparisonAndPredicateResults, FloatingPointResults,
TransferResults, LoopSetsUpItsRegisters and every later statement whose hypothesis is bodyRuns: it holds of any registers,
of the last ones, and in user mode for a form that is not privileged. -/
theorem witness_body_runs : allHold [
    ready base, bodyRuns base h0 true [63, 62] [61], bodyRuns (user base) h0 false [1, 2, 3, 4] [5],
    decide ((63 : BitVec 6).toNat + ((0 : BitVec 6).toNat + 1) ≤ 64), decide ((9 : BitVec 4).toNat ≤ 9)] = true := by decide +kernel

/-- ScalarInstructionFrame: ADD, and FDIV by zero with the trap enabled, which enters a handler. -/
theorem witness_scalar_frame : allHold (
    let s := withCr crFpctl 0x200 (withG [(2, 0x3F800000)] handled)
    [handlerReady handled 0, handlerReady s 0, (scalarDest (.add h0 5 1 2)).isSome, nexts (exec (.add h0 5 1 2) handled),
     (scalarDest (.fdiv h0 5 2 3 1 0)).isSome, nexts (exec (.fdiv h0 5 2 3 1 0) s)]) = true := by decide +kernel

/-- FloatingPointResults: 1.0 + 1.0 in FP32 traps nothing, nor does a comparison with a NaN while NV is not enabled. -/
theorem witness_float : allHold (
    let s := withG [(1, 0x3F800000), (2, 0x7FC00000)] base
    [!flagTraps (me s) (fpAdd 0x11 (fval s 0x11 1) (fval s 0x11 1) (fmode s 0)).2,
     !flagTraps (me s) (fpCompare 2 (fval s 0x11 1) (fval s 0x11 2)).2]) = true := by decide +kernel

/-- EnabledFlagTrapsBeforeAnyWrite: infinity minus infinity, zero times infinity, 1 divided by 0, and the square root of
-1, with every flag enabled. -/
theorem witness_enabled_flags : allHold (
    let s := withCr crFpctl 0x1F00 (withG [(1, 0x7F800000), (2, 0xFF800000), (3, 0), (4, 0x3F800000), (6, 0xBF800000)] handled)
    let v (r : BitVec 6) : FVal := fval s 0x11 r
    let m := fmode s 0
    let traps (e : Exc) : Bool := flagTraps (me s) e
    [ready s, handlerReady s 0, traps (fpAdd 0x11 (v 1) (v 2) m).2, traps (fpSub 0x11 (v 1) (v 1) m).2,
     traps (fpMul 0x11 (v 1) (v 3) m).2, traps (fpDiv 0x11 (v 4) (v 3) m).2, traps (fpFma 0x11 (v 1) (v 3) (v 4) m).2,
     traps (fpSqrt 0x11 (v 6) m).2, nexts (exec (.fsqrt h0 5 6 1 0) s)]) = true := by decide +kernel

/-- LoopSetsUpItsRegisters: counts of 2^32 - 1 and 0; an end within the program's line, and one whose page is not mapped. -/
theorem witness_loop : allHold (
    let s := withG [(1, 0xFFFFFFFF), (2, 0x100000000)] base
    let t := withMe (fun x => { x with pc := 0xFFFFFFFFFFFFF8 }) s
    [decide (0 < (rg s 1).toNat % 2 ^ 32), decide ((rg s 2).toNat % 2 ^ 32 = 0),
     (match fetchNow s 0 ((me s).pc + 8) with | .word _ v => v.cur == 0 | _ => false),
     (match fetchNow t 0 ((me t).pc + 8) with | .fault c => decide (c ≠ 0) | _ => false)]) = true := by decide +kernel

/-- LoadResults, StoreResults, AtomicResults and LoadAndStoreFrame: 8 bytes at the last place of the scratchpad and in
device memory, and an address in no space, which faults. -/
theorem witness_accesses : allHold (
    let s := withG [(1, 0x10000003FFFF8), (2, sp 0x3FFFF8), (3, 0x10000), (4, 0x6000000000000000)] handled
    let inside (l : Loc) : Bool := match l with | .peer _ _ => false | _ => true
    let ok (p : Word) (k : AccKind) : Bool := match openAccess s p 8 k false with | .ok (l, _) => inside l | .error _ => false
    let bad (p : Word) (k : AccKind) : Bool := decide (recCause (openAccess s p 8 k false) ≠ 0)
    [ready s, !writeHeld s o0, handlerReady s 0, groupsOk s, ok (rg s 2) .load, ok (rg s 3) .load, ok (rg s 2) .store,
     ok (rg s 3) .store, ok (rg s 2) .atomic, ok (rg s 3) .atomic, bad (rg s 4) .load, bad (rg s 4) .store,
     nexts (exec (.ld h0 5 3 0 o0 3 false 0) s), nexts (exec (.st h0 1 2 0 o0 3 0) s), nexts (exec (.pref h0 3 0 0) s),
     decide (decodePtr (effAddr (rg s 2) 0 0) = some (.spad 0x3FFFF8))]) = true := by decide +kernel

/-- AtomicResults: a comparison that succeeds and one that fails, at scope CTX and at scope CORE. -/
theorem witness_amocas : allHold (
    let s := withSpad 0 [7] (withG [(1, sp 0), (2, 7), (3, 8)] base)
    let old := BitVec.ofNat 64 (locRead s (.spad 0 0) 8)
    [decide (old = BitVec.ofNat 64 (rg s 2).toNat), decide (old ≠ BitVec.ofNat 64 (rg s 3).toNat),
     !writeHeld s o0, !writeHeld s ⟨0, 1, 0⟩, writesLate s (.spad 0 0) o0, !writesLate s (.spad 0 0) ⟨0, 1, 0⟩,
     writesLate s (.acc 0 0) o0]) = true := by decide +kernel

/-- AddressChecksInOrder: each refusal, and an access to each space that passes. 2^34 is the first address the tables do not
map; 0x400000 is the end of the scratchpad. -/
theorem witness_address_checks : allHold (
    let w := whoMe base
    let u := { w with sv := false }
    let look (va : Nat) : Except Nat TlbEntry := lookupLeaf base 0 0 (xspaceAsid w.xspace) (xspaceRoot w.xspace) va
    let ro := withWords 0x3000 [0x423] base
    let hidden := { base with withheld := [(16, 1)] }
    let pois := modCore base 0 (fun q => { q with poison := [1] })
    let far := { base with routes := [(1023, 23)] }
    [decide (decodePtr 0x400000000000000 = none), decide (decodePtr (sp 1) = some (.spad 1)), decide ((sp 1).toNat % 2 ≠ 0),
     decide (decodePtr (sp 0x3FFFFC) = some (.spad 0x3FFFFC)), !inSpadWindow base 0 0x3FFFFC 8,
     !okE (look (2 ^ 34)), decide (decodePtr 0x10000 = some (.dev 0x10000)),
     (match lookupLeaf ro 0 0 0 0x1000 0x10000 with | .ok e => !leafAllows e false .store | .error _ => false),
     decide (decodePtr 0x5000000000000000 = some (.host 0)), decide (u.sv = false),
     (match look 0x10000 with
      | .ok e => leafAllows e w.sv .store && !withheldPa base (e.pa + (0x10000 - e.va)) && withheldPa hidden (e.pa + (0x10000 - e.va))
      | .error _ => false),
     inSpadWindow base 0 0x3FFFF8 8, decide (decodePtr 0x37F00000003FFFF8 = some (.rspad 127 0x3FFFF8)),
     !(getCore base 127).out && w.sv && decide (127 ≠ coreOfCtx w.ctx), !inCohortWindow base 0 127 0x3FFFF8 8,
     decide (decodePtr 0x2000000000000004 = some (.acc 4)), accAllowed base w 1 1 && !locPoisoned base (.acc 0 4) 4,
     accAllowed pois w 1 1 && locPoisoned pois (.acc 0 4) 4 && !poisonExempt pois w,
     decide (decodePtr 0x4FFCFFFFFFFFFFF8 = some (.peer 1023 0xFFFFFFFFFFF8)), (tabFind far.routes 1023).isSome && (tabFind base.routes 1023).isNone]) = true := by decide +kernel

/-- PointerSpaces: the first and the last pointer of each clause. -/
theorem witness_pointers : allHold [
    decide ((0x3FFFFFFFFFFFFFF : Word).toNat < 2 ^ 58), decide (2 ^ 58 ≤ (0x400000000000000 : Word).toNat),
    decide ((0x1000000000400008 : Word).toNat ≥ 2 ^ 60 + 2 ^ 22), decide ((0x1000000000400008 : Word).toNat < 2 ^ 61),
    decide ((0x2000000000080000 : Word).toNat = 2 ^ 61 + 2 ^ 19), decide ((0x37F00000003FFFFF : Word).toNat = 3 * 2 ^ 60 + 127 * 2 ^ 52 + 0x3FFFFF),
    decide ((0x4FFCFFFFFFFFFFFF : Word).toNat = 4 * 2 ^ 60 + 1023 * 2 ^ 50 + (2 ^ 48 - 1)),
    decide ((0x50FFFFFFFFFFFFFF : Word).toNat = 5 * 2 ^ 60 + (2 ^ 56 - 1)),
    decide ((0x3800000000000000 : Word).toNat / 2 ^ 60 = 3), (0x3800000000000000 : Word).getLsbD 59,
    decide ((0x3000000000400000 : Word).extractLsb' 22 30 ≠ 0), decide ((0x3008000000000000 : Word).extractLsb' 22 30 ≠ 0),
    decide ((0x4001000000000000 : Word).toNat / 2 ^ 60 = 4), decide ((0x4001000000000000 : Word).extractLsb' 48 2 ≠ 0),
    decide ((0x5800000000000000 : Word).toNat / 2 ^ 60 = 5), decide ((0x5100000000000000 : Word).extractLsb' 56 4 ≠ 0), decide (6 * 2 ^ 60 ≤ (0x6000000000000000 : Word).toNat)] = true := by
  decide

/-- MemoryReadsBackWhatIsWritten: a memory in canonical form that is not empty; the edges of R297. -/
theorem witness_memory : allHold [
    memWf [(3, 1), (9, 2)], !memWf [(3, 0)], !memWf [(9, 2), (3, 1)], spadLoc 5 4194303 < 4194304] = true := by decide +kernel

/-- ControlRegisterAccess: RETIRED is refused to user mode, FPCTL takes a value that its fields permit and not another. -/
theorem witness_control_registers : allHold (
    let s := user base
    [bodyRuns base h0 (crPriv 0x100) [1] [5], !crWaits base 0x18, crUserRefused s 0xA0 5, !(me s).sv,
     !crUserRefused s 0x18 0, crPermits 0x18 0 && !crPermits 0x18 7, WellFormed (.cwr h0 5 0x18) && WellFormed (.crd h0 5 0x18),
     WellFormed (.cwr h0 5 0xA0)]) = true := by decide +kernel

/-- SystemInstructionResults: a running context with a handler and no loop; scope SYS; a write of class 3 that holds class 1
back, which an access of class 1 meets and one of class 3 does not. -/
theorem witness_system : allHold (
    let s := withMe (fun x => { x with out := [⟨3, 2, some 9, []⟩] }) handled
    let late := withMe (fun x => { x with out := [⟨0, 15, none, [(.spad 0 64, [2, 0, 0, 0])]⟩] }) handled
    [ready handled, (me handled).phase == .running, noLoop (me handled), handlerReady handled 0,
     nexts (exec (.trap h0 0xFFF) handled), decide ((4 : BitVec 3) ≤ 4), ready s, orderHeld s ⟨1, 0, 0⟩, !orderHeld s ⟨3, 0, 0⟩,
     ready late, (me late).out.any (fun w => !w.late.isEmpty)]) = true := by decide +kernel

/-- TrapEntrySavesAndEnters: a context that enters its handler, one without a handler, one with traps inhibited. -/
theorem witness_trap_entry : allHold [
    handlerReady handled 0, !handlerReady base 0, !handlerReady (withCr crEstat 2 handled) 0] = true := by decide +kernel


/-- A launch record of one context in user mode. -/
def rec1 : LaunchRec := { bootRec with lctl := 0 }
def recBytes (r : LaunchRec) : List Byte :=
  [r.entry, r.stack, r.argp, r.lctl, r.lres, r.cmask, r.sel0, r.sel1].flatMap (fun w => leBytes 8 w.toNat)

/-- ContextInstructionResults: a record that is accepted and one that is malformed; a wake of context 511, of 512, and
of another cohort's context by user mode; a park that a wake ends, and one whose time has come. -/
theorem witness_contexts : allHold (
    let s := withG [(1, sp 0), (2, sp 64), (3, 511), (4, 512)] (withSpad 64 [7] (withSpad 0 (recBytes rec1) base))
    let refused (p : Word) : Option (Option Nat) := (recordRead s p 64).map (fun r => launchRefusal r.1 (lrecOf r.2))
    let pend := withMe (fun x => { x with wakePend := true }) base
    let parked := withMe (fun x => { x with phase := .parked, parkEnd := some 0, parkD := 63, wakesIn := 1 }) base
    let v (r : BitVec 6) : Nat := (rg s r).toNat
    [ready s, !releaseHeld s, refused (rg s 1) == some none, refused (rg s 2) == some (some 2),
     (me pend).wakePend && ready pend, !(me s).wakePend, decide (v 3 < 512) && (me s).sv, decide (¬ v 4 < 512),
     !(me (user s)).sv && (getCtx (user s) (v 3)).coh != (me (user s)).coh,
     (getCtx parked 0).phase == .parked && (getCtx parked 0).parkEnd == some 0 && noLoop (getCtx parked 0) &&
       !dbgSs (getCtx parked 0),
     decide ((getCtx parked 0).wakesIn ≠ 0) && !ctxStopping parked 0,
     (let u := withCoh (fun x => { x with st := .stopping }) parked
      decide ((getCtx u 0).wakesIn ≠ 0) && (getCtx u 0).phase == .parked && ctxStopping u 0),
     (let y := getCtx (putCtx base 511 { ctxReset with wakesIn := 1 }) 511
      decide (y.wakesIn ≠ 0) && y.phase != .parked && !ctxHeld base 511 && ctxHeld base 0)]) = true := by decide +kernel

/-- CounterInstructionResults: sums at both ends of the range and past them, a faulted counter, a wait that ends and one
that goes on, and counter 31 of another cohort. -/
theorem witness_counters : allHold (
    let s := withG [(1, -5), (2, 0xFFFFFFFFFA), (3, 0xFFFFFFFFFB), (4, -6)] (counterIs 31 5 false base)
    let x := getCounter s (myCore s) 31
    let sum (r : BitVec 6) : Int := x.value + (rg s r).toInt
    [ready s, ownsCounter s 0 31, decide (sum 1 = 0), decide (sum 2 = 2 ^ 40 - 1), decide (sum 3 = 2 ^ 40), decide (sum 4 < 0),
     decide (x.value ≤ (rg s 2).toNat), decide ((rg s 0).toNat < x.value), !x.faulted,
     (getCounter (counterIs 31 5 true base) 0 31).faulted, !ownsCounter (withMask 0x7FFFFFFF base) 0 31]) = true := by decide +kernel

/-- The cohort has two barriers, the die's numbers 0 and 1, of which the second is as given. -/
def withBarrier (b : Barrier) (s : State) : State :=
  putBarrier (withCoh (fun x => { x with lrec := { x.lrec with lres := x.lrec.lres + 2 ^ 33 }, bars := [0, 1] }) s) 0 1 b

/-- BarrierInstructionResults: barrier 1 of two, number 2, counts of 1, 512, 0 and 513, a generation that has passed and
one that has not, a broken barrier, an arrival that is not the last, the last, and one at a broken barrier. -/
theorem witness_barriers : allHold (
    let st (b : Barrier) : State := withG [(1, 1), (2, 2), (3, 7)] (withBarrier b handled)
    let s := st ⟨2, 0, 7, false⟩
    let coming (b : Barrier) : State := withMe (fun x => { x with baraIn := some (1, 5) }) (st b)
    let c := coming ⟨1, 0, 7, false⟩
    let x := getCtx c 0
    [ready s, !releaseHeld s, barrierAt s (rg s 1) == some (0, 1), (barrierAt s (rg s 2)).isNone,
     !(getBarrier s 0 1).broken, (getBarrier s 0 1).gen == (rg s 3).setWidth 32, (getBarrier s 0 1).gen != (rg s 1).setWidth 32,
     (getBarrier (st ⟨2, 0, 7, true⟩) 0 1).broken, decide ((513 : Word).toNat > 512),
     x.baraIn == some (1, 5) && (cohortOf c 0).isSome && x.phase == .running && noLoop x && !dbgSs x,
     (getBarrier c 0 1).arr + 1 == (getBarrier c 0 1).exp, (getBarrier (coming ⟨2, 0, 7, false⟩) 0 1).arr + 1 != 2,
     (getBarrier (coming ⟨2, 0, 7, true⟩) 0 1).broken && handlerReady (coming ⟨2, 0, 7, true⟩) 0]) = true := by decide +kernel

/-- GateResults: gate 1023, the first number that is no gate, and a READY module. -/
theorem witness_gates : allHold (
    let s := withG [(1, 1023), (2, 1024)] base
    [ready s, !releaseHeld s, decide ((rg s 1).toNat < 1024), decide (1024 ≤ (rg s 2).toNat), s.modState == .ready]) = true := by
  decide

/-- A partition of the executing context on core 0, its number 0, of 16 quads and 64 entries. -/
def part0 : Part := partReset 0 0 0 16 0 64
def withPart (x : Part) (s : State) : State := withMe (fun y => { y with bind := some 0 }) (putPart s 0 0 x)

/-- A set of one dense group of one quad on two streams of ones; its mode is given. -/
def set1 (mode : Nat) : List Byte :=
  leBytes 64 (1 + 2 * 2 ^ 8 + 2 ^ 16 + 2 ^ 32) ++ leBytes 16 (3 * 2 ^ 30 + 2 ^ 34) ++ leBytes 16 (3 * 2 ^ 30 + 2 ^ 32 + 2 ^ 34)
    ++ leBytes 16 (2 ^ 12 + mode * 2 ^ 28 + 2 ^ 60)
def pset (mode : Nat) : PoolSet := ⟨false, 0x20000, set1 mode⟩
/-- A command of context 0 with the operation given, number n in its partition. -/
def cmdOf (op : PoolOp) (n : Nat) : PoolCmd := ⟨op, 0, true, 0x10000, 0x1000, 0, none, 0, n, false, 0⟩

/-- ReplyQueueResults: each oldest reply, no reply; a selector of each clause with and without a partition. -/
theorem witness_replies : allHold (
    let st (rs : List Reply) : State := withMe (fun x => { x with replies := rs }) base
    let b := withPart { part0 with shadow := .ready (cmdOf (.load 0x20000 false) 0) (pset 0), drRun := some (cmdOf (.clear 0 64) 0) } base
    let sel (n : Word) : State := withG [(1, n)] b
    [ready base, bodyRuns (sel 4) h0 false [1] [5], bodyRuns (sel 6) h0 false [1] [5],
     leaves (exec (.qstat h0 5 1) (sel 4)) (fun t => rg t 5 == 0x400010000), leaves (exec (.qstat h0 5 1) (sel 6)) (fun t => rg t 5 == 0x800010000),
     (me (st [.filled 7, .reserved 0])).replies.head? == some (.filled 7),
     (me (st [.faulted])).replies.head? == some .faulted, (me (st [.reserved 3])).replies.head? == some (.reserved 3),
     (me (st [])).replies.isEmpty, (boundPart b).isSome, (boundPart base).isNone]) = true := by decide +kernel

/-- A fault record of the layout engine for context 0. -/
def lateRec : FaultRec := { recBase cEcc 5 0 0x10000 with addr := sp 0 }

/-- FaultQueueResults: a queue without records of the cohort, one with a record and room for it at gA, and a record that
is delivered to context 0. -/
theorem witness_fault_queue : allHold (
    let s := withG [(1, sp 0x100)] (modCore handled 0 (fun q => { q with faultq := [lateRec] }))
    let due (e : FaultRec) : Bool := isAsync e && asyncTarget s e == some 0
    [ready s, ((getCore base 0).faultq.filter (fun r => recCohort base r == (me base).coh)).isEmpty,
     (getCore s 0).faultq.filter (fun r => recCohort s r == (me s).coh) == [lateRec], !orderHeld s o0,
     decide (ptrSpace (rg s 1) ≠ 4), okE (storesOk s (rg s 1) 8), (getCore s 0).faultq.find? due == some lateRec,
     asyncReady s 0, handlerReady s 0]) = true := by decide +kernel

/-- A record of a row-major FP32 tensor of 64 by 4 elements at offset 0x1000 of the scratchpad, valid, of index 1. -/
def rec0 : List Nat := [0x1101400100, 0, 0x400000040, 0, 256, 0, 0, 0, 0x1000000000001000, 0, 0, 0, 0, 0, 0, 0]
/-- Index 1 of the tensor table holds a record. -/
def withRec (r : List Nat) (s : State) : State := withWords 0x80 r s

/-- VectorInstructionsQueue: a vector form with nothing awaited; room for one more entry and reply; a handle of a tensor
that a vector form may access; descriptors of the routing forms. -/
theorem witness_vector_queue : allHold (
    let s := withG [(1, 1), (2, 0x0100800010000000), (3, 0x3FFFFC)] (withRec rec0 base)
    let full (n : Nat) : State := withMe (fun x => { x with replies := List.replicate n .faulted }) s
    let r := recAll s 1
    [vecRegister (.vcomb h0 1 2 3 4 0 0 false), hdrOf (.vadd h0 1 2 3 true 0 false 0) == some h0, nothingPending s,
     (me s).baraIn.isNone, waitDone s h0, guardRuns s h0, fpctlEnables (me s) == 0, decide ((me s).vq.length < 16),
     decide ((me (full 15)).replies.length < 16) && ready (full 15), !coreHeld s 0,
     errOf (checkHandle s (getCr s crXspace) (rg s 1)) == 0, !tPoisoned r && !(pairVal s 0).2.getLsbD 63,
     decide (tFmt r = 0x11) && !isSparse r && !tRo r, (rdescOf (rg s 2)).isSome, (dirOff (rg s 3)).isSome]) = true := by decide +kernel

/-- A state in which the vector unit of core 127 takes the head of context 511's queue. -/
def vecState (e : VEntry) : State :=
  modCore (putCtx base 511 { me base with vq := [e] }) 127 (fun q => { q with vlast := 2 })
def entryOf (i : Instr) : VEntry := ⟨i, 0x10000, 0, 0, 0, 0, none, false, 0⟩

/-- VectorIntegerLanes, VectorMoveLanes and VectorFloatAndMaskResults: the entry is the head that is taken, with no flag
enabled; VPSWAP's largest distance. -/
theorem witness_vector_turn : allHold (
    let s := vecState (entryOf (.viadd h0 1 2 3 false false false 0 false))
    let x := getCtx s 511
    [decide (4 * (511 / 4) + ((getCore s (511 / 4)).vlast + 1) % 4 = 511),
     x.vq == [entryOf (.viadd h0 1 2 3 false false false 0 false)], x.vrun.isEmpty, fpctlEnables x == 0,
     decide ((5 : BitVec 3).toNat < 6), WellFormed (.vcvt h0 1 2 0 true 3 0x14 0x12 0), decide ((10 : BitVec 4).toNat ≤ 10),
     decide ((5 : BitVec 3).toNat ≤ 5), !(entryOf (.mnot h0 1 2)).blocks]) = true := by decide +kernel

/-- VectorFloatAndMaskResults, the functions: a quiet and a signalling NaN; the largest operand whose reciprocal overflows and
the next one; minus infinity below zero; 128 and the largest finite number; the integers -149 and 127, 2^-149, and -3/2. -/
theorem witness_vector_functions : allHold (
    let fin (x : Nat) (neg : Bool) (num den : Nat) : Bool := match widen 0x11 x with
      | .fin s m e => s == neg && decide (m * 2 ^ (e + 200).toNat * den = num * 2 ^ 200)
      | _ => false
    let nan (x : Nat) : Bool := match widen 0x11 x with | .nan _ _ => true | _ => false
    [nan 0x7FC00000, nan 0xFF800001, decide (0x200000 < 0x200001 ∧ 0x200001 < 0x7F800000), fin 0x7F7FFFFF false ((2 ^ 24 - 1) * 2 ^ 104) 1,
     decide (0x43000000 < 0x7F7FFFFF), fin 0xC3150000 true 149 1, fin 0x42FE0000 false 127 1, fin 1 false 1 (2 ^ 149),
     (match widen 0x11 1 with | .fin _ m _ => m == 2 ^ 0 | _ => false), fin 0xBFC00000 true 3 2]) = true := by decide +kernel

/-- VectorStepsAndFrame: a started entry whose result is ready before an older one's; a core whose heads access no memory and
whose contexts all enter handlers; a head that names what it writes. -/
theorem witness_vector_steps : allHold (
    let e := { entryOf (.mpopc h0 1 2) with key := some 4 }
    let late := { e with due := 9 }
    let s := withMe (fun x => { x with vq := [e], vrun := [late, e] }) handled
    let t := [1, 2, 3].foldl (fun u c => putCtx u c (me handled)) s
    [(getCtx s 0).vrun.all (fun f => decide (e.due ≤ f.due)),
     leaves (exec (.vectorComplete 0) s) (fun u => (getCtx u 0).vrun == [late]), nexts (exec (.vectorStart 0) t),
     (vecOp e.instr).isSome,
     (ctxsOfCore 0).all (fun c => handlerReady t c && (match (getCtx t c).vq.head? with
       | some f => vecRegister f.instr
       | none => true))]) = true := by decide +kernel

/-- VectorLoadsReadTheScratchpad: the last 256 bytes of the scratchpad. -/
theorem witness_vector_loads : allHold (
    let e (i : Instr) : VEntry := ⟨i, 0x10000, sp 0x3FFF00, 0, 0, 0, none, true, 0⟩
    let i : Instr := .vld h0 1 2 3 0 false o0 0 false
    let s := withMe (fun x => { x with vq := [e i] }) (modCore base 0 (fun q => { q with vlast := 3 }))
    let x := getCtx s 0
    [decide ((((getCore s 0).vlast + 1) % 4) = 0), x.vq == [e i], x.vrun.isEmpty, sp 0x3FFF00 == BitVec.ofNat 64 (2 ^ 60 + 0x3FFF00),
     decide (0x3FFF00 % 4 = 0 ∧ 0x3FFF00 + 256 ≤ 2 ^ 22), inSpadWindow s 0 0x3FFF00 256, ctxCr x crVstart == 0, x.out.isEmpty,
     o0.ord == 0, (getCore s 0).badSpad.isEmpty, !(ctxCr x crEchkst).getLsbD 0,
     (List.range 4).all (fun n => !(ctxCr x (crBpc n)).getLsbD 0), groupsOk s, x.phase == .running, !dbgSs x, !hasCommands s 0]) = true := by decide +kernel

/-- VectorLoadsReadTheScratchpad, the tensor forms: lanes 62 and 63 of a load from x = 1 lie past the row's end but for one,
and the lanes in bounds lie within the window. -/
theorem witness_vector_tensor_lanes : allHold (
    let i : Instr := .vldt h0 5 1 2 true false o0 0 false
    let s := withMe (fun x => { x with vq := [⟨i, 0x10000, 1, 0x300000001, 0, 0, none, true, 0⟩] })
      (modCore (withRec rec0 base) 0 (fun q => { q with vlast := 3 }))
    let r := recAll s 1
    let w := coordOf 0x300000001 0
    let on (j : Nat) : Bool := decide (w.x + j < 2 ^ 32) && inBounds r { w with x := w.x + j }
    let p (j : Nat) : Word := tBase r + BitVec.ofNat 64 (4 * (w.x + j) + w.y * tPitch r 1)
    [errOf (checkHandle s (ctxCr (getCtx s 0) crXspace) 1) == 0, tLayout r == layRow, tFmt r == 0x11, !tPoisoned r, !tConv r,
     on 62 && !on 63, (List.range 63).all (fun j => inSpadWindow s 0 ((p j).toNat - 2 ^ 60) 4 && (p j).toNat % 4 == 0)]) = true := by
  decide +kernel


/-- The state after an instruction, or the one before where it answers none. -/
def after (o : Host.Outcome State Fault Refusal) (s : State) : State := match o with | .next t => t | _ => s

/-- TensorInstructionResults: a record image that is well formed for the free index 16383, a valid record, a handle that
names none, an element that is read and one that is written, groupings of each clause, and SPCFG that takes effect. -/
theorem witness_tensors : allHold (
    let img := rec0.map (fun w => w % 2 ^ 64)
    let free := [0x1101400000] ++ img.drop 1
    let s := withG [(1, 1), (2, sp 0), (3, 16383), (4, 16384), (6, 6)]
      (withSpad 0 (free.flatMap (fun w => leBytes 8 w)) (withRec rec0 base))
    let r := recAll s 1
    let c := coordOf 0 0
    let w := withMe (fun x => x) (modCore s 0 (fun q => { q with spcfgs := [(0, 5), (3, 1)] }))
    [ready s, !releaseHeld s, !orderHeld s o0, decide ((rg s 3).toNat < 16384), tValid r, !tValid (recAll s 16383),
     (match recordRead s (rg s 2) 128 with
      | some (_, bs) => recWellFormed (wordsOf 16 bs) && !tConv (wordsOf 16 bs) && !tPoisoned (wordsOf 16 bs) && tConvPtr (wordsOf 16 bs) == 0
      | none => false),
     errOf (checkHandle s (getCr s crXspace) (rg s 1)) == 0 && !tConv r, errOf (checkHandle s (getCr s crXspace) (rg s 4)) != 0,
     decide ((rg s 1).toNat < 2), decide (2 ≤ (rg s 3).toNat),
     recCause (openHandle s (rg s 1) 0 0) == 0 && !isSparse r && !tRo r,
     (match loadedElem s (mapFor s 1 r c) c false 64 with | .ok (_, ex, _) => !flagTraps (me s) ex | .error _ => false),
     (match mapElem s 1 r c true with
      | .use m => (match storedCode s m c false (tmode s false 0) 5 64 with
         | .ok (n, ex, u) => !flagTraps (me s) ex && okE (storeElem (promoteIf false (setMe u (applyExc (me u) ex)) 1 c) m c n 0)
         | .error _ => false)
      | _ => false),
     decide ((rg s 0).toNat ≤ 5) && (getCore s 0).spmapG == 0, decide ((rg s 1).toNat ≤ 5) && (getCore s 0).spmapG != 1,
     decide (5 < (rg s 6).toNat), (getCore w 0).spcfgs == [(0, 5), (3, 1)] && !spadBusy w 0 && noLoop (me w) && !dbgSs (me w) && (me w).phase == .running,
     (match recordRead s (rg s 2) 128 with | some (u, _) => !recBad u 16383 | none => false),
     decide ((getCr (withCr crXspace 0x5000000001000 s) crXspace).toNat / 2 ^ 48 ≠ tAsid r) && !recBad s 1,
     (mapFault s 1 r c false).isNone && (farBand (mapFor s 1 r c) c false).isNone && (openHandle s (rg s 4) 0 0 |> fun e => !okE e)]) = true := by decide +kernel

/-- TensorInstructionResults, the raw accesses: the last element of a row-major record of whole bytes in the scratchpad. -/
theorem witness_raw_elements : allHold (
    let s := withG [(1, 1), (2, 0x30000003F)] (withRec rec0 base)
    let c := coordOf 0x30000003F 0
    let m := recAll s 1
    let at_ := 0x1000 + c.x * 4 + c.y * tPitch m 1 + c.z2 * tPitch m 2 + c.z3 * tPitch m 3 + c.z4 * tPitch m 4
    [ready s, recCause (openHandle s (rg s 1) 0x30000003F 0) == 0, tLayout m == 0x01, tBits m == 32,
     (tBase m).toNat == 2 ^ 60 + 0x1000, (mapFault s 1 m c false).isNone, mapFor s 1 m c == m, (match mapElem s 1 m c true with | .use n => n == m | _ => false),
     inSpadWindow s 0 at_ 4, (watchBytes s (elemPtrs m c) false).isNone, (watchBytes s (elemPtrs m c) true).isNone,
     decide (at_ + 4 ≤ 2 ^ 22), (firstBad s 0 at_ 4).isNone, groupsOk s, !tRo m, !isSparse m]) = true := by decide +kernel

/-- A tensor of 4 by 1 elements at offset 0x1000, its new image at 0x3000 with the elements at 0x2000, and the operands of
RELAYOUT: the handle, the image and an area at 0x4000. -/
def rec4 : List Nat := [0x1101400100, 0, 0x100000004, 0, 16, 0, 0, 0, 0x1000000000001000, 0, 0, 0, 0, 0, 0, 0]
def img4 : List Nat := [0x1101400000, 0, 0x100000004, 0, 16, 0, 0, 0, 0x1000000000002000, 0, 0, 0, 0, 0, 0, 0]
def layState : State :=
  withG [(1, 1), (2, sp 0x3000), (3, sp 0x4000), (4, 1)] (withSpad 0x3000 (img4.flatMap (fun w => leBytes 8 w)) (withRec rec4 handled))
/-- After RELAYOUT, and after its unit is taken. -/
def converting : State := after (exec (.relayout h0 0 0 5 1 2 3) layState) layState
def inHand : State := after (execLayoutUnitTake 0 converting) converting
/-- The unit in hand meets an uncorrectable error, and after that it is HELD. -/
def badUnit : State := modCore inHand 0 (fun q => { q with badSpad := spadUnits q.spmapG 0x1000 1 })
def heldUnit : State := after (execLayoutUnitFault 0 badUnit) badUnit
/-- The area of the conversion has an error in its last words. -/
def badArea : State := modCore heldUnit 0 (fun q => { q with badSpad := spadUnits q.spmapG 0x4088 1 ++ spadUnits q.spmapG 0x40C0 1 })

/-- LayoutEngineResults: RELAYOUT, a unit taken, completed and met by a fault, RELAYOUT.RES of a HELD unit, and the states
TSYNC meets: CONV, POISONED and neither. -/
theorem witness_layout : allHold (
    let s := layState
    let old := recAll s 1
    let poisoned := withRec (0x1101400900 :: rec4.drop 1) base
    [ready s, errOf (checkHandle s (getCr s crXspace) (rg s 1)) == 0, decide ((getDie s 0).convs.length < 16), !coreHeld s 0,
     ownsCounter s 0 0, !tPoisoned old && !tConv old, classOpen s s.cur 3,
     (match recordRead s (rg s 2) 128 with
      | some (u, bs) => (areaCause u (rg s 3) (areaSize (unitCount old (wordsOf 16 bs)))).isNone && imageOk old (wordsOf 16 bs) &&
          decide ((getCounter s 0 0).value + unitCount old (wordsOf 16 bs) < 2 ^ 40)
      | none => false),
     (getDie converting 0).unit.isNone && (match nextUnit converting 0 with
       | some (i, _) => ((getDie converting 0).convs.find? (fun f => f.rec_ == i)).isSome
       | none => false),
     (match unitInHand inHand 0 with | some (e, n) => okE (convertUnit inHand e n) | none => false),
     (match unitInHand badUnit 0 with | some (e, n) => !okE (convertUnit badUnit e n) | none => false),
     decide ((getCore badUnit 0).faultq.length < 64), (findConv heldUnit 1).isSome && tConv (recAll heldUnit 1) && ready heldUnit,
     !ptrsBad heldUnit (areaWho heldUnit 1) (tstatPtrs heldUnit 1 1) && ptrsBad badArea (areaWho badArea 1) (tstatPtrs badArea 1 1),
     (tstatPtrs badArea 1 1).all (fun p => match rawLoc badArea (areaWho badArea 1) p with | some l => !spadHeld badArea l | none => true),
     mapFault badArea 1 (recAll badArea 1) (coordOf 0 0) false == some cEcc && recCause (openHandle badArea (rg badArea 1) 0 0) == 0,
     decide (rg heldUnit 0 = 0) && decide (rg heldUnit 4 = 1), tPoisoned (recAll poisoned 1) && !tConv (recAll poisoned 1)]) = true := by
  decide +kernel

/-- The program's cohort holds 3072 quads. -/
def withQuads (s : State) : State := withCoh (fun x => { x with lrec := { x.lrec with lres := x.lrec.lres + 3072 * 2 ^ 52 } }) s

/-- PoolInstructionResults: PPART of every quad and entry, the lowest free number, PPART.REL of an idle partition, and a
command for each queue: the last entry for PCLR, a sweep of one fold, an element rectangle of one. -/
theorem witness_pool_instructions : allHold (
    let t := withQuads base
    let ga : Word := 0x0C000000
    let gb : Word := 0x2000000000000
    let q := getCore t 0
    let d0 : List Nat := [0x1101400100, 0, 0x100000004, 0, 16, 0, 0, 0, 0x1000000000001000, 0, 0, 0, 0, 0, 0, 0]
    let s := withG [(1, 0), (2, 0), (3, 1), (4, 0), (6, 0x10000), (7, 63), (8, 0x100000000), (9, 0x10020000), (10, 1), (11, 0x1000000)]
      (withPart part0 (withRec d0 base))
    let ctl : CmdCtl := ⟨31, true, 0⟩
    let x := part0
    [ppartFieldsOk ga.toNat gb.toNat, (cohortOf t 0).isSome && (me t).coh.isSome, (me t).bind.isNone,
     (match cohortOf t 0 with | some c => decide (bitsOf ga.toNat 27 16 ≤ lrQuads c.lrec) | none => false),
     decide (bitsOf gb.toNat 16 0 + bitsOf gb.toNat 49 32 ≤ 131072), decide ((partNumbers q).length < 4),
     q.parts.isEmpty && q.kept.isEmpty && q.clearing.isEmpty,
     (boundPart s).isSome && x.gang.isNone && partIdle s 0 0 x, (boundPart base).isNone, !pexcWaits s 0 0 x,
     !coreHeld s 0, ownsCounter s 0 ctl.cnt.toNat, decide ((getCounter s 0 31).value + 1 < 2 ^ 40),
     !queueFull x .config && !queueFull x .operand && !queueFull x .drain,
     okE (pcfgPlan 6 s x), okE (pcfgPlcPlan 1 s x), okE (pclrPlan 7 3 s x), okE (psweepPlan 1 2 3 4 s x), okE (psweepsPlan 1 2 3 8 s x),
     okE (pscanPlan 1 2 s x), okE (ptopkPlan 1 11 3 false s x), okE (pdrainPlan 10 0 9 0 5 false false false s x), decide ((5 : BitVec 3).toNat < 6),
     (pstatItem 0 x 5).isSome]) = true := by decide +kernel

/-- PoolInstructionResults, a PDRAIN with an RM of 6 or 7: a stale handle, a POISONED record, one with its base outside SPAD
and one that passes. -/
theorem witness_pdrain_rm : allHold (
    let s (r : List Nat) : State := withG [(1, 1), (3, 0x10020000)] (withRec r base)
    let at_ (r : List Nat) : Bool := errOf (checkHandle (s r) (getCr (s r) crXspace) (BitVec.ofNat 64 ((rg (s r) 1).toNat % 2 ^ 32))) == 0
    let fits (r : List Nat) : Bool := drainRecordOk (recAll (s r) 1) (pairVal (s r) 2).1 (pairVal (s r) 2).2 (rg (s r) 3)
    let dev := rec4.set 8 0x1000
    let poisoned := 0x1101400900 :: rec4.drop 1
    [!ctxBlocked (me base), decide (6 ≤ (7 : BitVec 3).toNat), guardRuns base h0, !guardRuns base ⟨false, 1, false, 0⟩,
     !okE (checkHandle handled (getCr handled crXspace) 0x12345),
     at_ poisoned && tPoisoned (recAll (s poisoned) 1), at_ dev && !tPoisoned (recAll (s dev) 1) && !fits dev,
     at_ rec4 && !tPoisoned (recAll (s rec4) 1) && fits rec4]) = true := by decide +kernel

/-- A partition with a started command that has the folds given in flight. -/
def running (mode : Nat) (op : PoolOp) (begun : Nat) (fl : List FoldRun) : Part :=
  { part0 with active := some (pset mode), runs := [{ opRunOf (cmdOf op 0) none with begun := begun, flight := fl }] }

/-- PoolEngineSteps: each step of the shadow, of a drain and a clear, of the operand queue and of a freed window, on
partition 0 of core 0 and at the last entries of core 127. -/
theorem witness_pool_engine : allHold (
    let at_ (x : Part) : State := withPart x base
    let load := cmdOf (.load 0x20000 false) 0
    let clear := cmdOf (.clear 0 64) 0
    let drain := cmdOf (.drain 1 [] 0 0 0x10020000 none 0 false false) 0
    let sweep := cmdOf (.sweep 0 0 3 0 none) 0
    let wide := { part0 with active := some (pset 0), opq := [sweep] }
    let fold : FoldRun := ⟨0, [], 0⟩
    let freed := modCore base 127 (fun q => { q with clearing := [(131008, 64)] })
    let missing := at_ { part0 with shadow := .loading load none none }
    let inDev := { missing with hbm := (withWords 0x20000 (words16 14 (set1 0 ++ leBytes 112 0)) missing).hbm }
    let grp : Gang := ⟨0, 1, false, [(0, 0)], 1, 0, 0⟩
    let ganged := { at_ { wide with gang := some 0 } with gangs := [(0, grp)] }
    [(getCore freed 127).clearing.find? (fun v => v.1 == 131008) == some (131008, 64),
     ctxActive base 0 && classOpen base 0 0, !classOpen (withMe (fun x => { x with out := [⟨0, 0, none, []⟩] }) base) 0 0, (cacheFind base 0 0 0x20000).isNone,
     (match awaits 0x20000 { part0 with shadow := .loading load none none } with
      | some (c, arg) => okE (loadSet inDev 0 (poolWho c) arg)
      | none => false),
     setValid (setView (set1 0)) 16 64 false, !setValid (setView (set1 7)) 16 64 false,
     !updatesPending { part0 with drRun := some clear } clear, !drainWaits base ⟨1, [], 0, 0, 0x10020000, none, 0, false, false⟩,
     !updatesPending { part0 with drRun := some drain } drain, !updatesPending { part0 with drq := [drain] } drain,
     canStart (at_ wide) wide && (startBad (at_ wide) wide sweep).isNone && isSweep sweep && decide (0 < cmdNf sweep),
     (planFold (at_ { wide with opq := [], runs := [opRunOf sweep none] }) (0, 0)).1.isNone,
     (let c := cmdOf (.scan 0 0) 0
      let x := { part0 with active := some (pset 1), opq := [c] }
      canStart (at_ x) x && (startBad (at_ x) x c).isNone && !isSweep c),
     (let x := { part0 with opq := [sweep] }
      canStart (at_ x) x && (startBad (at_ x) x sweep).isSome),
     (let x := running 0 (.sweep 0 0 3 0 none) 0 []
      canBegin (at_ x) x && (planFold (at_ x) (0, 0)).1.isNone),
     (running 0 (.sweep 0 0 3 0 none) 2 [fold, fold]).runs.length == 1,
     (let x := running 1 (.scan 0 0) 0 []
      (frontRun x true).isSome),
     (frontRun (running 2 (.topk 0 0x1000000 none) 0 []) false).isSome,
     tabFind ganged.gangs 0 == some grp && allParts ganged grp.members (fun m z => canStart ganged z &&
       (headCmd ganged m).map (fun c => c.gno) == ((grp.members.head?).bind (headCmd ganged)).map (fun c => c.gno))]) = true := by
  decide +kernel

/-- CopyInstructionResults: each plan, on the last bytes of the scratchpad; a command that starts on core 127, and a beat. -/
theorem witness_copies : allHold (
    let s := withG [(1, sp 0x3FFFF0), (2, sp 0x1000), (3, 16), (4, 0x1000000010), (6, 1), (7, 0x1100001000010004), (8, 0x1101010000000001),
        (9, sp 0x2000), (10, 0x1000010010), (11, sp 0x3000), (12, 0x100000010)]
      (withRec rec4 base)
    let plain : CopyMods := ⟨false, none, false⟩
    let full : CopyMods := ⟨false, redOf true true true, true⟩
    let ok (p : Except Bad Planned) : Bool := match p with
      | .ok q => (rangesFail s (whoMe s) q.dsts).isNone && (rangesFail s (whoMe s) q.srcs).isNone
      | .error _ => false
    let cmd : CopyCmd := ⟨.fill (sp 0) 0 1 16, 508, true, 0x10000, 0x1000, 0, 0, 0, none, false, [], 16, none, []⟩
    let e : CopyEngine := { engineReset with queues := [(508, [cmd])] }
    let far0 := putCtx base 508 (me base)
    let t := putEngine far0 127 1 e
    let u := putEngine base 0 1 { engineReset with active := [(3, { runOf cmd with cmd := { cmd with ctx := 0 } })] }
    [ready s, decide ((tabGet [] (getEngine s 0 1).queues 0).length < 8), !coreHeld s 0, ownsCounter s 0 31,
     ok (cpyPlan 1 2 3 plain s), ok (cpyPlan 1 2 3 full s), ok (cpy2Plan 9 2 12 0 plain s), ok (cfillPlan 1 2 3 plain 3 s),
     ok (cpytPlan 6 0 9 7 plain true false false s), ok (cpytsPlan 6 0 9 7 false false 0 s), ok (cpygPlan 6 2 9 8 plain s),
     ok (cpyrPlan 9 2 11 10 plain false s), ok (cpysPlan 9 2 11 10 plain s),
     !heldElsewhere s 0 cmd,
     ctxActive t 508 && classOpen t 508 cmd.oc && (tabGet [] (getEngine t 127 1).queues 508).head? == some cmd && decide (unitEnd cmd.op ≠ 0) &&
       (tabFind (getEngine t 127 1).active 0).isNone && (waitingRun (getEngine t 127 1)).isNone,
     (let e : CopyEngine := { engineReset with active := [(4, runOf cmd)] }
      waitingRun e == some (runOf cmd, []) && (tabFind e.active 0).isNone),
     (match tabFind (getEngine u 0 1).active 3 with
      | some r => r.peer.isNone && !runHalts u r && (beat u 0 1 3 r).isSome
      | none => false)]) = true := by decide +kernel

/-- CopyInstructionResults, what a beat lands: the last bytes of the scratchpad, filled, and copied from an odd offset; a
copy that goes unit by unit, one that has read nothing, and one that has read all and keeps a byte of a word back. -/
def copyRun (op : CopyOp) (pos : Nat) : CopyRun :=
  { runOf ⟨op, 0, true, 0x10000, 0x1000, 0, 31, 0, none, false, [], 100, none, []⟩ with pos := pos, landed := pos }
def beatState (r : CopyRun) : State :=
  counterIs 31 100 false (putEngine (withSpad 0x2001 ((List.range 100).map (fun n => BitVec.ofNat 8 (3 * n + 1))) base) 0 1
    { engineReset with active := [(3, r)] })
theorem witness_beats : allHold (
    let dst := 0x3FFF9C
    let plain := copyRun (.linear (spadPtr dst) (spadPtr 0x2001) 1 100 0 0) 0
    let fill := copyRun (.fill (spadPtr dst) 0x55AA 2 100) 36
    let work (n k : Nat) : Work := ⟨0, 0, spadPtr (dst + n), (List.range k).map (fun i => BitVec.ofNat 8 (n + i)), 0⟩
    let held : CopyRun := { plain with loaded := true, kept := [work 97 1], works := [work 98 2] }
    let ok (r : CopyRun) : Bool :=
      let s := beatState r
      r.peer.isNone && !runHalts s r && r.cmd.red.isNone && r.cmd.targets.isEmpty && inSpadWindow s 0 dst 100 &&
        inSpadWindow s 0 0x2001 100 && (getCore s 0).badSpad.isEmpty && groupsOk s &&
        decide (100 ≤ (getCounter s 0 r.cmd.cnt).value)
    [ok plain, ok fill, ok held, decide (dst + 100 ≤ 2 ^ 22), !wordWise plain.cmd && !plain.loaded && plain.unit == 0,
     wordWise fill.cmd && fill.unit == 0, held.bad.isNone && held.bits % 32768 == 0,
     (held.kept ++ held.works).all (fun u => u.n == 0 && u.part == 0 && !u.bytes.isEmpty),
     (work 97 1).dst == spadPtr (dst + 97) && (work 98 2).dst == spadPtr (dst + 97 + 1) && decide (97 + 1 + 2 = 100)]) = true := by
  decide +kernel

/-- R411: a copy whose words are not alike lands each word whole: of 16 bytes from an odd offset to offset 2, with 8 bytes
to the end of a chunk, the first step lands 6, which end a word, and the next the rest. -/
theorem test_copy_whole_words : (
    let r := copyRun (.linear (spadPtr 2) (spadPtr 0x2001) 1 16 0 0) 0
    let s := beatState { r with bits := 32704, cmd := { r.cmd with size := 16 } }
    let t := after (exec (.copyBeatLand 0 1 3) s) s
    let u := after (exec (.copyBeatLand 0 1 3) t) t
    allHold [(getCounter t 0 31).value == 94, mySpad t 0 4 == 0x04010000, mySpad t 8 4 == 0, (getCounter u 0 31).value == 84,
      mySpad u 8 4 == 0x1C191613, (tabFind (getEngine u 0 1).active 3).isNone]) = true := by decide +kernel

/-- RoutingAndComposerResults: two bitmaps of one superblock with bits at both ends of it, a directory whose words are
current and one that is not, the last key; a PLACE, one that starts, one that completes and one that fails. -/
theorem witness_routing : allHold (
    let s := withG [(1, 0x0101000010000000), (2, 0x3FFFF0), (3, 0x101FF), (9, 2), (4, 0x20000), (6, 0x100000000), (7, 1), (8, 0x2000)]
      (withSpad 0x3FFFF0 [0, 0, 0, 0, 3, 0, 0, 0, 0, 0, 0, 0, 1] (withSpad 0 ([5] ++ List.replicate 62 0 ++ [0x80])
        (withSpad 127 [0x80] (withQuads (withPart part0 base)))))
    let ok (r : Rdesc) (o e n : Nat) : Bool :=
      (touchAll s (dirWord r o e (n / 512) :: wordsAt (sblockOff r e (n / 512)) 16) []).isNone &&
      okE (touch s (dirWord r o e (n / 512)) 4 .load) && (firstBad s 0 (sblockOff r e (n / 512)) 64).isNone
    let below (r : Rdesc) (e n : Nat) : Nat :=
      (List.range n).countP (fun i => (locByte s (.spad 0 (bitmapOff r e + i / 8)) 0).getLsbD (i % 8))
    let current (r : Rdesc) (o e : Nat) : Bool := locRead s (.spad 0 (dirWord r o e 0)) 4 == below r e 0
    let cmd : PlaceCmd := ⟨0, true, 0x1000, 0x10000, 0, 0, none, (0, 0, 0), 1, 0, 0x20000, 1, 0x2000⟩
    let q (t : State) : State := modDie t 0 (fun d => { d with placeq := [cmd] })
    let busy (t : State) : State := putSlot (modDie t 0 (fun d => { d with placing := some (cmd, 119) })) 0 119 ⟨5, some (0, 0, 0), []⟩
    let good := busy (withWords 0x20000 [0, 1 * 2 ^ 24 + 1, 0, 0] base)
    let bad := busy base
    let rest (t : State) : State := modDie t 0 (fun d => { d with placing := none })
    let r : Rdesc := (rdescOf (rg s 1)).getD ⟨0, 0, 0, 0⟩
    let o := (dirOff (rg s 2)).getD 0
    [ready s, !orderHeld s ⟨3, 0, 0⟩, groupsOk s, (rdescOf (rg s 1)).isSome && (dirOff (rg s 2)).isSome,
     r.ne == 2 && r.nsb == 1 && decide (bitmapOff r 1 + 64 ≤ 2 ^ 22), decide (o + 4 * ((r.nsb + 1) * r.ne) ≤ 2 ^ 22),
     (touchAll s [] (bitmapWords r)).isNone, (touchAll s (bitmapWords r) (wordsAt o ((r.nsb + 1) * r.ne))).isNone,
     (touchAll s (bitmapWords r) (wordsAt o r.ne)).isNone, (List.range 2).all (fun e => (firstBad s 0 (bitmapOff r e) 64).isNone),
     (match keyOf r false 0x101FF with | some (e, n) => e == 1 && n == 511 && okE (touch s (bitmapOff r e + n / 8) 1 .atomic) && ok r o e n | none => false),
     current r o 0 && current r o 1, !current r (o + 4) 0 && ok r (o + 4) 0 2, keyOf r true 2 == some (0, 2),
     decide (below r 0 512 = 3) && decide (below r 0 511 = 2) && decide (below r 1 512 ≤ 1),
     (List.range 8).all (fun i => okE (touch s (bitmapOff r 0 + 8 * i) 8 .load)),
     decide (placeLoad s 0 < 64) && decide ((me s).replies.length < 16) && ownsCounter s 0 31,
     (match boundPart s with | some (p, x) => (placeBad s p x (rg s 6) (rg s 4) (rg s 7) (rg s 8)).isNone | none => false),
     placeWaiting (q base) 0 == [cmd] && (getDie (q base) 0).placing.isNone && classOpen base 0 0 &&
       (slotIds.find? (fun n => (getSlot (q base) 0 n).held.isNone)).isSome,
     (getDie good 0).placing == some (cmd, 119) && (getSlot good 0 119).held == some cmd.holder && okE (composePlace (rest good) cmd),
     !okE (composePlace (rest bad) cmd)]) = true := by decide +kernel

/-- A context image at 0x40000 for the halted context 1. -/
def halted1 : State := withG [(1, 1), (2, 0x40000)] (putCtx base 1 { me base with phase := .halted })

/-- SupervisorAndLinkResults: CTXSAVE and CTXLOAD of context 1, an image that is valid and one that is not; each TLBINV; PREEMPT
of a placed, a queued and a restoring cohort and of none; a gang, an idle one that ends; windows 0 and 15, one that meets
another; items of LSTAT. -/
theorem witness_supervisor : allHold (
    let s := halted1
    let w := withWords 0x40000 [0x10001] s
    let rd (u : State) (pas : List Nat) (o : Nat) : Word := BitVec.ofNat 64 (memReadLe u.hbm (pageAddr pas o) 8)
    let valid (u : State) : Option Bool := match imageOpen 1 2 .load (fun _ => 4) u with
      | .ok (c, pas, v) => some (imageValid (rd v pas) c)
      | .error _ => none
    let other (st : CohState) : State := putCohort base 7 { bootCohort 7 0 with st := st }
    let two := putPart (withPart part0 (withCoh (fun x => { x with seats := x.seats ++ [⟨1, [4], 0, 0⟩] }) base)) 1 0 part0
    let grp : Gang := ⟨0, 1, false, [(0, 0), (1, 0)], 1, 0, 0⟩
    let ganged := { withPart { part0 with gang := some 0 } base with gangs := [(0, grp)] }
    let win : List Nat := [0x5000, 0x12001100000001 + 2 ^ 52 - 2 ^ 52, 0x6000, 0]
    let wr : Window := ⟨0, 0x0010121100000001, 0x6000, 0, ⟨0, 0, 0⟩, []⟩
    let taken := { base with windows := [(3, wr)] }
    [ready s, !orderHeld s o0, !releaseHeld s, okE (imageOpen 1 2 .store (fun c => 4 * imageFrames s c) s), valid s == some false,
     valid w == some true, bitsOf (0xFFFF000000000002 : Word).toNat 47 2 == 0, decide ((0xFFFFFFFFFFFFFFF : Word).toNat < 2 ^ 60),
     decide ((0xFFFFFFFF : Word).toNat < 2 ^ 32), !isRestoring base 7 && (getCohort base 7).isNone,
     (getCohort (other .queued) 7).isSome && !isRestoring (other .queued) 7, !isRestoring (other .preempted) 7, isRestoring (other .restoring) 7,
     (me base).coh == some 0 && !isRestoring base 0, !(getCtx s 1).bad && decide ((getCtx s 1).replies.length ≤ 16),
     !translatedLeft s,
     (let t := putCtx s 511 { ctxReset with out := [⟨3, 0, none, [(.mem 64, [1])]⟩] }
      translatedLeft t && !releaseHeld t && ready t),
     (match imageOpen 1 2 .store (fun c => 4 * imageFrames s c) s with
      | .ok (c, pas, _) => c == 1 && pas.length == 4 && (List.range 3).all (fun i => decide (pas.getD i 0 + 4096 ≤ pas.getD (i + 1) 0))
      | .error _ => false),
     (let t := putCtx (putPart base 0 0 { part0 with ctx := 1, active := some { pset 0 with composed := true } }) 1
        { me base with phase := .halted, bind := some 0 }
      match getPart t 0 0 with
      | some y => (y.active.map (fun v => v.composed && decide (v.bytes.length ≤ 28672))) == some true && imageFrames t 1 == 3
      | none => false),
     (getCohort (other .terminated) 7).isSome && s.cur ∉ members { bootCohort 7 0 with seats := [⟨1, [4], 0, 0⟩] }, (me base).coh != some 7, (gangPlan two 0x100 0).isSome, (gangPlan base 0x100 0).isNone,
     (match boundPart ganged with | some (_, x) => x.gang == some 0 | none => false) && tabFind ganged.gangs 0 == some grp &&
       grp.members.all (memberIdle ganged),
     (recordRead (withSpad 0 (win.flatMap (fun x => leBytes 8 x)) base) (sp 0) 32).isSome, windowOk wr, windowClash taken 15 wr,
     !windowClash base 15 wr, !windowOk { wr with d2 := 1 }, decide ((15 : Word).toNat < 16),
     (lstatItem base 3 63).isSome && (lstatItem base 3 64).isNone, decide ((0x3F0003 : Word).toNat < 2 ^ 26)]) = true := by decide +kernel

/-- LinkAndHostSteps: port 23 with its link up, a read that XPEER maps and one that it does not, an answer and a time-out that
a context waits for, the last bytes of device memory. -/
theorem witness_links : allHold (
    let s := { base with linkUp := 0x800000, xpeer := 0x1000 }
    let get (va : BitVec 48) : PeerRequest := ⟨va, .read 8, [(va.toNat, 8)]⟩
    let r : PeerReq := ⟨0, 0x10000, 0x4004000000010000, .read 8, 0, 0, .scalar⟩
    let w := withMe (fun x => { x with peerWait := some 9 }) { base with peers := [(9, r)], clk := 2 ^ 24 }
    [portUp s 23 && s.modState == .ready && clocked s, okE (performPeer s 23 (get 0x10000)), !okE (performPeer s 23 (get 0x400000000)),
     tabFind w.peers 9 == some r && (getCtx w 0).peerWait == some 9, decide (r.sent + w.ltmo.toNat ≤ w.clk),
     w.peers.all (fun k => k.2.port != 23), decide (hbmBytes - 1 + 1 ≤ hbmBytes), !withheldPa base (hbmBytes - 1)]) = true := by
  decide +kernel

/-- An empty module in which one cohort waits on die 1: 2 cores of 3 contexts each out of cores 60 to 63, of which 60 is out
of service, 2 barriers, 16 pages, 5 quads, a stack stride of 32 bytes. -/
def waitRec : LaunchRec :=
  ⟨0x20000, 0x90000, 0x1234, BitVec.ofNat 64 (2 * 2 ^ 46),
   BitVec.ofNat 64 (3 + 2 ^ 20 + 2 * 2 ^ 24 + 2 * 2 ^ 32 + 16 * 2 ^ 41 + 5 * 2 ^ 52), 0, 0xF000000000000000, 0⟩
def waitState : State :=
  modDie (modCore { State.reset with modState := .ready, cohorts := [(2 ^ 30 + 9, cohortNew waitRec 0 0x7000 0x8000)] } 60
    (fun q => { q with out := true })) 1 (fun d => { d with passDue := true })

/-- R167, R482: a terminated cohort keeps its gate until a write of its member is performed. -/
theorem test_terminate_releases : (
    let gate : Cohort → Cohort := fun x => { x with lrec := { x.lrec with lctl := x.lrec.lctl + 2 ^ 35 + 1023 * 2 ^ 36 } }
    let s := setGate (withMe (fun x => { x with out := [⟨0, 0, none, []⟩] }) (withCoh gate base)) 1023 1
    let t := after (exec (.firmwareTerminate 0) s) s
    let u := after (exec (.storePerformed 0 0) t) t
    allHold [getGate t 1023 == 1, (me t).phase == .exited, getGate (after (execAgentsStopped 0 t) t) 1023 == 1,
      getGate (after (execAgentsStopped 0 u) u) 1023 == 0]) = true := by decide +kernel

/-- SchedulerSteps: each clause: a settled cohort with a completion gate that is not zero, an expired quantum, a save and a
restoration that can end, a pass that is due, an expired head wait, a record in the window, a host's record. -/
theorem witness_scheduler : allHold (
    let gate : Cohort → Cohort := fun x => { x with lrec := { x.lrec with lctl := x.lrec.lctl + 2 ^ 35 + 1023 * 2 ^ 36 } }
    let share : Cohort → Cohort := fun x => { x with lrec := { x.lrec with lctl := x.lrec.lctl + 12 } }
    let done := setGate (withMe (fun x => { x with phase := .exited }) (withCoh gate base)) 1023 1
    let old := { withCoh share base with clk := 2 ^ 20 }
    let stopping := withCoh (fun x => { x with st := .stopping }) base
    let restoring := withCoh (fun x => { x with st := .restoring, saved := some ⟨[], [], [], [], [], [], [], [], []⟩ }) base
    let waiting := { withCoh (fun x => { x with st := .queued, headSince := some 0, hold := true }) base with clk := 2 ^ 20 }
    let due := modDie base 3 (fun d => { d with passDue := true })
    let level (n : Nat) : LaunchRec := { rec1 with lctl := BitVec.ofNat 64 (n * 2 ^ 8) }
    let win := modDie base 0 (fun d => { d with window := [level 7] })
    let coh (s : State) (f : Cohort → Bool) : Bool := match getCohort s 0 with | some x => f x | none => false
    [coh done (fun x => x.st == .placed && cohortSettled done 0 x && lrDoneEn x.lrec && decide (getGate done (lrDoneGate x.lrec) ≠ 0)),
     coh old (fun x => x.st == .placed && lrTshare x.lrec && !x.quantumOver && quantumRun old x),
     coh stopping (fun x => x.st == .stopping && !allExited stopping x && cohortQuiet stopping 0 x),
     coh restoring (fun x => x.st == .restoring && x.saved.isSome), (getDie due 3).passDue,
     (levelQueue waiting 0 0).find? (fun j => match getCohort waiting j with
        | some y => !y.headExpired && headWaited waiting j
        | none => false) == some 0,
     (getDie win 0).window.find? (fun e => lrPrio e == 7) == some (level 7) && decide (levelCount win 0 7 < 64),
     base.modState == .ready && (recBytes rec1).length == 64 && decide (960 % 64 = 0 ∧ 960 < 1024) &&
       decide ((getDie base 0).window.length < 16) && !malformed base (lrecOf (recBytes rec1)) && lrHome (lrecOf (recBytes rec1)) == 0,
     State.reset.modState != .ready, (members (bootCohort 0 0)).all (fun c => !(getCtx stopping c).bad),
     coh (withCoh (fun x => { x with st := .preempted, saved := some ⟨[], [], [], [], [], [], [], [], []⟩ }) base)
       (fun x => x.st == .preempted && x.saved.isSome),
     (getDie waitState 1).passDue && waitState.reserves.isEmpty && decide (handleDie (2 ^ 30 + 9) = 1),
     (match waitState.cohorts with | [(_, x)] => x.st == .queued && eligible waitState x && x.lrec == waitRec | _ => false),
     waitState.cores.all (fun kq => kq.2.kept.isEmpty), allowedCores waitState waitRec == [61, 62, 63],
     lrMode waitRec == 0 && lrNcore waitRec == 2 && lrCpc waitRec == 3 && lrQuads waitRec == 5 && lrSpadPg waitRec == 16 &&
       lrNbar waitRec == 2]) = true := by decide +kernel

/-- A request in the mailbox: its operation, its length and its first payload word. -/
def posted (op len w : Nat) : State :=
  { base with mbBusy := true, mbPost := putBytes [] 0 (leBytes 2 op ++ leBytes 2 len ++ leBytes 4 0 ++ leBytes 8 w) }

/-- ManagementSteps: the module's states, an image that is rejected with the flash not yet tried, limits that CONFIG_DONE
accepts at both ends, the last island, core and entry, a sample of 115 °C, and each request with caps at both limits and past
them. Whether an image is accepted is a free value of the model (log 11). -/
theorem witness_management : allHold (
    let loading := { base with modState := .loading }
    let mhz : List Nat := (List.range 32).map (fun n => if n % 8 < 4 then (if n % 2 = 0 then 800 else 3300) else 4095)
    let cfg : FirmwareConfig := ⟨0xFFFFE00000, [0xFFFFFFC000], [0xFFFFFFFF], 0x83FF, [], 0, 0, 0, [(201326591, 1)], mhz, [919, 0xFF00], [700]⟩
    let clock (c : FirmwareConfig) (n : Nat) : Bool := match c.mhz[n]? with
      | some f => decide (800 ≤ f ∧ f ≤ 3300 ∧ f % 100 = 0)
      | none => false
    let config := { base with modState := .config }
    [{ base with modState := .selftest }.modState == .selftest, !loading.flashBad && loading.modState == .loading,
     !(imageOf []).sig.length == 2420, decide (31 < 32), { base with modState := .config }.modState == .config,
     (List.range 32).all (fun n => decide (4 ≤ n % 8) || clock cfg n) && cfg.mhz.all (fun f => decide (f < 4096)) &&
       registersOk cfg && mapOk config cfg, !clock { cfg with mhz := mhz.take 27 } 27, !clock { cfg with mhz := [700] } 0,
     !registersOk { cfg with ttbase := 1 }, !mapOk config { cfg with withheld := [(0, 2), (1, 1)] }, cfg.throttle.all (fun p => decide (p.toInt < 920)),
     decide (127 < 128 ∧ 131071 < 131072), decide (800 ≤ 3300 ∧ 3300 ≤ 3300 ∧ 3300 % 100 = 0),
     base.modState != .off && base.modState != .held && computeClocked base, decide (920 ≤ (920 : BitVec 16).toInt),
     mbOp (posted 1 16 0) == 1 && mbLen (posted 1 16 0) == 16, mbOp (posted 2 32 0) == 2,
     mbOp (posted 3 8 300) == 3 && mbWord (posted 3 8 300) 0 == 300,
     mbWord (posted 3 8 2800) 0 == 2800 && mbLen (posted 3 8 2800) == 8, decide (¬ mbWord (posted 3 8 2801) 0 ≤ 2800), mbOp (posted 4 0 0) == 4,
     mbOp (posted 5 0 0) == 5, mbOp (posted 6 0 0) == 6 && (posted 6 0 0).mbBusy]) = true := by decide +kernel

/-- SynchronizationAndCommandFrame: a gate and a queued copy that answer next states. -/
theorem witness_sync_frame : allHold (
    let s := withG [(1, sp 0), (2, sp 0x100), (3, 16)] handled
    [handlerReady s 0, (syncDest (.gadd h0 5 3 3)).isSome, nexts (exec (.gadd h0 5 3 3) s), queuedCommand (.cpy h0 0 0 1 2 3 false false false false false),
     nexts (exec (.cpy h0 0 0 1 2 3 false false false false false) s)]) = true := by decide +kernel

/-- FillsAndReturnsComplete: the last core and the last context. StepKeepsMemoryForm and StepKeepsBankGroupings: a state with
memory and a grouping that waits, whose step answers a next state. -/
theorem witness_invariants : allHold (
    let s := modCore (withSpad 0 [7] base) 0 (fun q => { q with spmapG := 5, spcfgs := [(0, 5)] })
    [decide (127 < 128 ∧ 511 < 512), memOk s, groupsOk s, nexts (step s), !groupsOk (modCore s 0 (fun q => { q with spmapG := 6 }))]) = true := by
  decide +kernel

/-- FillsAndReturnsComplete and VectorStepsAndFrame: LOAD_RETURN and STORE_PERFORMED act on what a context awaits. -/
theorem witness_returns : allHold (
    let s := withMe (fun x => { x with loading := [7], out := [⟨0, 0, none, []⟩] }) base
    [leaves (exec (.loadReturn 0 7) s) (fun t => (me t).loading.isEmpty),
     leaves (exec (.storePerformed 0 0) s) (fun t => (me t).out.isEmpty)]) = true := by decide +kernel



end Sys2Proof.Tests
end

section
/-!
PROOFS. Writing a memory and reading it back, and the places of scratchpad offsets under a bank grouping (R3, R297).
-/
namespace Sys2Proof.Machine

/-- The bytes read back after a write are those written. -/
theorem memReadBytes_memWriteBytes (m : Mem) (a : Nat) (bs : List Byte) :
    memReadBytes (memWriteBytes m a bs) a bs.length = bs := by
  refine List.ext_getElem (by simp [memReadBytes]) fun i _ hi => ?_
  simp [memReadBytes, memRead_memWriteBytes, hi]

theorem memReadLe_memWriteLe (m : Mem) (a n v : Nat) : memReadLe (memWriteLe m a n v) a n = v % 2 ^ (8 * n) := by
  have h := memReadBytes_memWriteBytes m a (leBytes n v)
  rw [length_leBytes] at h
  rw [memReadLe, memWriteLe, h, leNat_leBytes]

theorem memRead_memWriteLe_outside (m : Mem) {a n b : Nat} (v : Nat) (h : b < a ∨ a + n ≤ b) :
    memRead (memWriteLe m a n v) b = memRead m b := by
  rw [memWriteLe, memRead_memWriteBytes, length_leBytes, if_neg (by omega)]

/-! ## The places of scratchpad offsets (R297) -/

/-- The bank of offset a where a group has k banks. -/
def bankOf (k a : Nat) : Nat := a / (131072 * k) * k + a % (131072 * k) / 64 % k
/-- The row of offset a where a group has k banks. -/
def rowOf (k a : Nat) : Nat := a % (131072 * k) / (64 * k)

/-- With 2^G groups of 32 / 2^G banks, a place is its bank, row and byte as one number. -/
theorem spadLoc_eq {g : Nat} (hg : g ≤ 5) :
    ∃ k, 0 < k ∧ k ∣ 32 ∧ ∀ a, spadLoc g a = (bankOf k a * 2048 + rowOf k a) * 64 + a % 64 := by
  have banks : ∀ g' ≤ 5, 0 < 32 / 2 ^ g' ∧ 32 / 2 ^ g' ∣ 32 := by decide
  refine ⟨32 / 2 ^ g, (banks g hg).1, (banks g hg).2, fun a => ?_⟩
  have hcases : g = 0 ∨ g = 1 ∨ g = 2 ∨ g = 3 ∨ g = 4 ∨ g = 5 := by omega
  rcases hcases with rfl | rfl | rfl | rfl | rfl | rfl <;> rfl

theorem rowOf_lt {k : Nat} (hk : 0 < k) (a : Nat) : rowOf k a < 2048 := by
  have := Nat.mod_lt a (show 0 < 131072 * k by omega)
  exact Nat.div_lt_of_lt_mul (by omega)

theorem bankOf_lt {k a : Nat} (hk : 0 < k) (hd : k ∣ 32) (ha : a < 4194304) : bankOf k a < 32 := by
  obtain ⟨n, hn⟩ := hd
  have hi : a / (131072 * k) < n := Nat.div_lt_of_lt_mul (by rw [Nat.mul_assoc, ← hn]; exact ha)
  have hc := Nat.mod_lt (a % (131072 * k) / 64) hk
  have : (a / (131072 * k) + 1) * k ≤ n * k := Nat.mul_le_mul_right k hi
  rw [Nat.add_mul, Nat.mul_comm n] at this
  unfold bankOf
  omega

/-- An offset is given by its bank, its row and its byte. -/
theorem offset_of_place {k : Nat} (hk : 0 < k) (a : Nat) :
    a = bankOf k a / k * (131072 * k) + (rowOf k a * k + bankOf k a % k) * 64 + a % 64 := by
  have hc := Nat.mod_lt (a % (131072 * k) / 64) hk
  have hgroup : bankOf k a / k = a / (131072 * k) := by
    rw [bankOf, Nat.add_comm, Nat.add_mul_div_right _ _ hk, Nat.div_eq_of_lt hc, Nat.zero_add]
  have hcol : bankOf k a % k = a % (131072 * k) / 64 % k := by
    rw [bankOf, Nat.add_comm, Nat.add_mul_mod_self_right, Nat.mod_mod]
  have hrow : rowOf k a = a % (131072 * k) / 64 / k := (Nat.div_div_eq_div_mul ..).symm
  have hbyte : a % (131072 * k) % 64 = a % 64 := Nat.mod_mod_of_dvd a ⟨2048 * k, by omega⟩
  rw [hgroup, hcol, hrow, Nat.div_add_mod', ← hbyte, Nat.add_assoc, Nat.div_add_mod', Nat.div_add_mod']

theorem spadLoc_lt {g a : Nat} (hg : g ≤ 5) (ha : a < 4194304) : spadLoc g a < 4194304 := by
  obtain ⟨k, hk, hd, h⟩ := spadLoc_eq hg
  have := rowOf_lt hk a
  have := bankOf_lt hk hd ha
  rw [h]
  omega

theorem spadLoc_injective {g : Nat} (hg : g ≤ 5) : Function.Injective (spadLoc g) := by
  intro a b hab
  obtain ⟨k, hk, -, h⟩ := spadLoc_eq hg
  rw [h, h] at hab
  have hra := rowOf_lt hk a
  have hrb := rowOf_lt hk b
  have hbank : bankOf k a = bankOf k b := by omega
  have hrow : rowOf k a = rowOf k b := by omega
  have hbyte : a % 64 = b % 64 := by omega
  calc a = _ := offset_of_place hk a
    _ = _ := by rw [hbank, hrow, hbyte]
    _ = b := (offset_of_place hk b).symm

/-- Settles O30: a memory reads back what was written and keeps its canonical form; the places of scratchpad offsets lie
in the scratchpad and apart. -/
theorem memoryReadsBackWhatIsWritten : Obligations.MemoryReadsBackWhatIsWritten :=
  ⟨fun m a n v => ⟨memReadLe_memWriteLe m a n v, fun _ h => memRead_memWriteLe_outside m v h,
      memWf_memWriteBytes (leBytes n v) m a⟩,
    fun _ _ _ hg ha _ => ⟨spadLoc_lt hg ha, fun h => spadLoc_injective hg h⟩⟩

end Sys2Proof.Machine
end

section
/-!
PROOFS. The relation that every step keeps between the state before and after: each canonical form of the memories
(R3, R154) and of the bank groupings (R301) that the first state has, the second has too. Both forms are carried by one
relation, so that the functions of the model are gone through once.
-/
namespace Sys2Proof.Machine
set_option autoImplicit true

/-! ## The relation -/

/-- The grouping of a core and those that wait are ones of R301. -/
def coreGroupsOk (q : Core) : Prop := q.spmapG ≤ 5 ∧ ∀ e ∈ q.spcfgs, e.2 ≤ 5

theorem groupsOk_iff (s : State) : groupsOk s = true ↔ ∀ e ∈ s.cores, coreGroupsOk e.2 := by
  simp [groupsOk, coreGroupsOk]

/-- Memories and cores that have each form which state r has. -/
def KeptParts (r : State) (hbm host : Mem) (cores : Tab Core) : Prop :=
  (memOk r = true → memWf hbm = true ∧ memWf host = true ∧ ∀ e ∈ cores, memWf e.2.spad = true) ∧
  (groupsOk r = true → ∀ e ∈ cores, coreGroupsOk e.2)

/-- State t has each form which state r has. -/
def Kept (r t : State) : Prop := KeptParts r t.hbm t.hostMem t.cores

/-- Core q' has each form which core q has. -/
def CoreKept (q q' : Core) : Prop :=
  (memWf q.spad = true → memWf q'.spad = true) ∧ (coreGroupsOk q → coreGroupsOk q')

theorem kept_refl (r : State) : Kept r r := ⟨(memOk_iff r).1, (groupsOk_iff r).1⟩

theorem Kept.memOk (h : Kept r t) (hr : memOk r = true) : memOk t = true := (memOk_iff t).2 (h.1 hr)

theorem Kept.groupsOk (h : Kept r t) (hr : groupsOk r = true) : groupsOk t = true := (groupsOk_iff t).2 (h.2 hr)

theorem CoreKept.refl (q : Core) : CoreKept q q := ⟨id, id⟩

theorem CoreKept.trans (h : CoreKept q q') (h' : CoreKept q' q'') : CoreKept q q'' := ⟨h'.1 ∘ h.1, h'.2 ∘ h.2⟩

/-! ## What writes a memory or a core -/

theorem kept_writeHbm (h : Kept r s) : Kept r (writeHbm s pa bs) :=
  ⟨fun hr => ⟨memWf_memWriteBytes bs s.hbm pa (h.1 hr).1, (h.1 hr).2⟩, h.2⟩

theorem memWf_filter {m : Mem} (f : Host.Cell → Bool) (h : memWf m = true) : memWf (m.filter f) = true := by
  simp only [memWf, Bool.and_eq_true] at h ⊢
  refine ⟨?_, List.all_eq_true.2 fun e he => List.all_eq_true.1 h.2 e (List.mem_filter.1 he).1⟩
  have hs := h.1
  clear h
  induction m with
  | nil => rfl
  | cons e m ih =>
    obtain ⟨hlt, hm⟩ := (tabSorted_cons e m).1 hs
    rw [List.filter_cons]
    split
    · exact (tabSorted_cons _ _).2 ⟨fun f hf => hlt f (List.mem_filter.1 hf).1, ih hm⟩
    · exact ih hm

theorem memWf_trippedMem (n i : Nat) : memWf (trippedMem n i) = true :=
  List.foldlRecOn (motive := fun m => memWf m = true) _ _ rfl fun m hm c _ => memWf_memWrite m (c.1 % n) c.2 hm

/-- What a core's entry reads as is a core of the table or the core after reset. -/
theorem kept_getCore (h : Kept r s) (k : Nat) :
    (memOk r = true → memWf (getCore s k).spad = true) ∧ (groupsOk r = true → coreGroupsOk (getCore s k)) := by
  rcases tabGet_mem coreReset s.cores k with hk | hk
  · rw [getCore, hk]
    exact ⟨fun _ => rfl, fun _ => ⟨by decide, by simp [coreReset]⟩⟩
  · exact ⟨fun hr => (h.1 hr).2.2 _ hk, fun hr => h.2 hr _ hk⟩

/-- A core that has each form of r, put in any place. -/
theorem kept_putCore_of_forms (h : Kept r s)
    (hx : (memOk r = true → memWf x.spad = true) ∧ (groupsOk r = true → coreGroupsOk x)) : Kept r (putCore s k x) := by
  constructor
  · refine fun hr => ⟨(h.1 hr).1, (h.1 hr).2.1, fun e he => ?_⟩
    rcases (mem_tabPut s.cores k x e).1 he with rfl | ⟨he, -⟩
    · exact hx.1 hr
    · exact (h.1 hr).2.2 e he
  · intro hr e he
    rcases (mem_tabPut s.cores k x e).1 he with rfl | ⟨he, -⟩
    · exact hx.2 hr
    · exact h.2 hr e he

/-- A core put in the place of one whose forms it has. -/
theorem kept_putCore (h : Kept r s) (hx : CoreKept (getCore s k) x) : Kept r (putCore s k x) :=
  kept_putCore_of_forms h ⟨fun hr => hx.1 ((kept_getCore h k).1 hr), fun hr => hx.2 ((kept_getCore h k).2 hr)⟩

theorem kept_modCore (h : Kept r s) (hf : CoreKept (getCore s k) (f (getCore s k))) : Kept r (modCore s k f) :=
  kept_putCore h hf

theorem kept_writeSpad (h : Kept r s) : Kept r (writeSpad s k off bs) :=
  kept_modCore h ⟨memWf_spadWriteGo _ bs _ off, id⟩

theorem kept_writeAcc (h : Kept r s) : Kept r (writeAcc s k off bs) := kept_modCore h (CoreKept.refl _)

theorem kept_locWrite (h : Kept r s) : Kept r (locWrite s l bs) := by
  cases l with
  | mem pa => exact kept_writeHbm h
  | spad k off => exact kept_writeSpad h
  | acc k off => exact kept_writeAcc h
  | peer d a => exact h
  | host a => exact ⟨fun hr => ⟨(h.1 hr).1, memWf_memWriteBytes bs s.hostMem a (h.1 hr).2.1, (h.1 hr).2.2⟩, h.2⟩

/-! ## What writes none of them -/

theorem kept_putCtx (h : Kept r s) : Kept r (putCtx s c x) := h
theorem kept_modCtx (h : Kept r s) : Kept r (modCtx s c f) := h
theorem kept_setMe (h : Kept r s) : Kept r (setMe s x) := h
theorem kept_setCr (h : Kept r s) : Kept r (setCr s n w) := h
theorem kept_wg (h : Kept r s) : Kept r (wg s i w) := h
theorem kept_wp (h : Kept r s) : Kept r (wp s i b) := h
theorem kept_modDie (h : Kept r s) : Kept r (modDie s d f) := h
theorem kept_putCohort (h : Kept r s) : Kept r (putCohort s c x) := h
theorem kept_passAll (h : Kept r s) : Kept r (passAll s) := h

/-! ## Repetition -/

/-- A loop keeps the forms when each of its rounds does. -/
theorem kept_foldl {f : State → α → State} (h : Kept r s) (hf : ∀ t a, Kept r t → Kept r (f t a)) (l : List α) :
    Kept r (l.foldl f s) := List.foldlRecOn l f h fun t ht a _ => hf t a ht

end Sys2Proof.Machine
end

section
/-!
PROOFS. The forms through the engines' bookkeeping, termination, traps, retirement and issue.
-/
namespace Sys2Proof.Machine
set_option autoImplicit true

/-! ## The answers of a body, of an instruction and of a vector entry -/

/-- The state that the answer of a body carries has the forms of r. -/
def KeptExe (r : State) : Exe → Prop
  | .retire t => Kept r t
  | .jump t _ _ => Kept r t
  | .stall t => Kept r t
  | .fault _ t => Kept r t
  | .retireTrap t _ => Kept r t

/-- The next state, if there is one, has the forms of r. -/
def KeptOut (r : State) : Out → Prop
  | .next t => Kept r t
  | .fault _ => True
  | .refused _ => True

/-- The state that a vector entry's execution leaves, if it leaves one, has the forms of r. -/
def KeptVec (r : State) : VOut → Prop
  | .done t => Kept r t
  | .answered t _ => Kept r t
  | .fault _ t => Kept r t
  | .wait => True
  | .stalled => True

theorem kept_ite [Decidable p] (ha : Kept r a) (hb : Kept r b) : Kept r (if p then a else b) := by
  split
  · exact ha
  · exact hb

/-! ## Updates of a core outside its scratchpad and its groupings -/

theorem kept_modCore_of_eq (h : Kept r s) (h1 : (f (getCore s k)).spad = (getCore s k).spad)
    (h2 : (f (getCore s k)).spmapG = (getCore s k).spmapG) (h3 : (f (getCore s k)).spcfgs = (getCore s k).spcfgs) :
    Kept r (modCore s k f) :=
  kept_modCore h ⟨by rw [h1]; exact id, by rw [coreGroupsOk, coreGroupsOk, h2, h3]; exact id⟩

theorem kept_putCore_of_eq (h : Kept r s) (h1 : x.spad = (getCore s k).spad)
    (h2 : x.spmapG = (getCore s k).spmapG) (h3 : x.spcfgs = (getCore s k).spcfgs) : Kept r (putCore s k x) :=
  kept_modCore_of_eq (f := fun _ => x) h h1 h2 h3

theorem kept_putCounter (h : Kept r s) : Kept r (putCounter s k i x) := kept_modCore_of_eq h rfl rfl rfl
theorem kept_putPart (h : Kept r s) : Kept r (putPart s k p x) := kept_modCore_of_eq h rfl rfl rfl
theorem kept_putEngine (h : Kept r s) : Kept r (putEngine s k e x) := kept_modCore_of_eq h rfl rfl rfl

theorem kept_dropSpcfg (h : Kept r s) : Kept r (dropSpcfg s c) :=
  kept_modCore h ⟨id, fun hg => ⟨hg.1, fun e he => hg.2 e (List.mem_filter.1 he).1⟩⟩

/-! ## Fault queues, counters, reply slots (R178, R222, R474) -/

theorem kept_pushFault (h : Kept r s) : Kept r (pushFault s k f) := by
  grind [pushFault, kept_putCore_of_eq]

theorem kept_markFaulted (h : Kept r s) : Kept r (markFaulted s k i) := kept_putCounter h

theorem kept_counterAdd (hok : counterAdd s k i n = some t) (h : Kept r s) : Kept r t := by
  grind [counterAdd, kept_putCounter]

theorem kept_counterSub (h : Kept r s) : Kept r (counterSub s k i n c pc) := by
  grind [counterSub, kept_putCounter, kept_pushFault]

theorem kept_counterSubOpt (h : Kept r s) : Kept r (counterSubOpt s k i n c pc) := by
  cases i with
  | none => exact h
  | some j => exact kept_counterSub h

theorem kept_counterDrop (h : Kept r s) : Kept r (counterDrop s k i n) := kept_putCounter h

theorem kept_counterDropOpt (h : Kept r s) : Kept r (counterDropOpt s k i n) := by
  cases i with
  | none => exact h
  | some j => exact kept_counterDrop h

theorem kept_fillReplyOpt (h : Kept r s) : Kept r (fillReplyOpt s c key x) := by cases key <;> exact h
theorem kept_releaseReply (h : Kept r s) : Kept r (releaseReply s c key) := by cases key <;> exact h
theorem kept_reserveReply (h : Kept r s) : Kept r (reserveReply s c).2 := h

/-! ## Discarded commands (R225, R273, R410, R460, R481) -/

theorem kept_discardCopies (h : Kept r s) (cs : List CopyCmd) : Kept r (discardCopies k s cs) := by
  induction cs generalizing s with
  | nil => exact h
  | cons c cs ih => exact ih (kept_releaseReply (kept_counterDrop h))

theorem kept_flushEngine (h : Kept r s) : Kept r (flushEngine s c e).2 := kept_discardCopies (kept_putEngine h) _

theorem kept_discardPool (h : Kept r s) (cs : List PoolCmd) : Kept r (discardPool k s cs) := by
  induction cs generalizing s with
  | nil => exact h
  | cons c cs ih => exact ih (kept_counterDropOpt h)

theorem kept_abortPool (h : Kept r s) (cs : List PoolCmd) : Kept r (abortPool k s cs) := by
  induction cs generalizing s with
  | nil => exact h
  | cons c cs ih =>
    refine ih ?_
    split
    · exact kept_markFaulted (kept_counterSubOpt h)
    · exact kept_counterSubOpt h

theorem kept_abortCopies (h : Kept r s) (rs : Tab CopyRun) : Kept r (abortCopies k c e s rs) := by
  induction rs generalizing s with
  | nil => exact h
  | cons x rs ih =>
    rw [abortCopies]
    split
    · exact ih (kept_markFaulted (kept_counterSub (kept_putEngine h)))
    · exact ih h

theorem kept_releaseSlot (h : Kept r s) : Kept r (releaseSlot s d i) := h

theorem kept_releaseSlotsOf (h : Kept r s) : Kept r (releaseSlotsOf s d holder) :=
  kept_foldl h (fun _ _ ht => kept_releaseSlot ht) _

theorem kept_discardPlaces (h : Kept r s) : Kept r (discardPlaces d which s) :=
  kept_foldl (s := modDie _ _ _) h (fun _ _ ht => kept_releaseReply (kept_counterDrop ht)) _

theorem kept_freePartition (h : Kept r s) : Kept r (freePartition s k p) := by
  unfold freePartition
  split
  · exact kept_modCtx (kept_modCore_of_eq (kept_releaseSlotsOf (kept_discardPlaces h)) rfl rfl rfl)
  · exact h

theorem kept_stopPartition (h : Kept r s) : Kept r (stopPartition s k p) := by
  unfold stopPartition
  split
  · exact kept_discardPool (kept_putPart h) _
  · exact h

theorem kept_abortPartition (h : Kept r s) : Kept r (abortPartition s k p) := by
  grind [abortPartition, kept_freePartition, kept_abortPool]

theorem kept_breakBarriers (h : Kept r s) : Kept r (breakBarriers s c) := by
  unfold breakBarriers
  split <;> exact h

theorem kept_setRecWord (h : Kept r s) : Kept r (setRecWord s i k w) := kept_writeHbm h

theorem kept_abandonConv (h : Kept r s) : Kept r (abandonConv s d c) := by
  grind [abandonConv, kept_setRecWord, kept_modDie, kept_putCohort, kept_markFaulted, kept_counterSub]

theorem kept_abandonConvsOf (h : Kept r s) : Kept r (abandonConvsOf s c) :=
  kept_foldl h (fun _ _ ht => kept_abandonConv ht) _

theorem kept_orphanConvs (h : Kept r s) : Kept r (orphanConvs s k coh) := by
  unfold orphanConvs
  split
  · exact h
  · exact kept_foldl h (fun _ _ ht => kept_abandonConv ht) _

theorem kept_pauseConvs (h : Kept r s) : Kept r (pauseConvs s c v) := kept_foldl h (fun _ _ ht => kept_modDie ht) _

theorem kept_stopLapses (h : Kept r s) : Kept r (stopLapses s coh) := by
  unfold stopLapses
  grind [kept_pauseConvs, kept_putCohort]

/-! ## Termination and traps (R470, R481) -/

theorem kept_stopAgents (h : Kept r s) : Kept r (stopAgents s c) := by
  have h3 := kept_discardPlaces (d := dieOfCtx c) (which := fun e => e.ctx == c)
    (kept_flushEngine (c := c) (e := 1) (kept_flushEngine (c := c) (e := 0) (kept_dropSpcfg (c := c) h)))
  refine kept_abandonConvsOf (kept_foldl ?_ (fun _ _ ht => kept_markFaulted ht) _)
  split
  · exact kept_stopPartition h3
  · exact h3

theorem kept_endStopped (h : Kept r s) : Kept r (endStopped s c) := by
  refine kept_modCtx ?_
  have h2 := fun k l l' => kept_abortCopies (k := k) (c := c) (e := 1)
    (kept_abortCopies (k := k) (c := c) (e := 0) h l) l'
  split
  · exact kept_abortPartition (h2 ..)
  · exact h2 ..

theorem kept_logTermination (h : Kept r s) : Kept r (logTermination s f) := by
  unfold logTermination
  split <;> exact h

theorem kept_terminateCtx (h : Kept r s) : Kept r (terminateCtx s c f) := by
  have h2 : Kept r (endStopped (modCtx (stopAgents s c) c stoppedCtx) c) :=
    kept_endStopped (kept_modCtx (kept_stopAgents h))
  unfold terminateCtx
  refine kept_stopLapses (kept_passAll (kept_logTermination ?_))
  cases (getCtx s c).coh with
  | none => exact kept_orphanConvs (kept_pushFault h2)
  | some coh =>
    have h5 := fun k f k' coh' => kept_orphanConvs (k := k') (coh := coh')
      (kept_pushFault (k := k) (f := f) (kept_breakBarriers (c := coh) h2))
    dsimp only
    split
    · exact kept_putCohort (h5 ..)
    · exact h5 ..

theorem kept_takeTrap (h : Kept r s) : Kept r (takeTrap s c f ret) := by
  grind [takeTrap, kept_terminateCtx, kept_putCtx]

theorem kept_raiseFault (h : Kept r s) : Kept r (raiseFault s c f ret) := by
  grind [raiseFault, haltMatch, kept_modCtx, kept_takeTrap]

/-! ## Retirement and issue (R33, R34, R36) -/

theorem kept_afterRetire (h : Kept r s) : Kept r (afterRetire x c s) := by
  grind [afterRetire, kept_raiseFault, kept_modCtx]

theorem kept_retireNext (h : Kept r s) : Kept r (retireNext x c len s) := by
  grind [retireNext, kept_afterRetire, kept_putCtx]

theorem kept_retireJump (h : Kept r s) : Kept r (retireJump x c target depth s) :=
  kept_afterRetire (kept_putCtx h)

theorem kept_settle (h : Kept r s) (he : KeptExe r e) : Kept r (settle s len e) := by
  cases e with
  | retire t => exact kept_retireNext he
  | jump t target depth => exact kept_retireJump he
  | stall t => exact he
  | fault f t => exact kept_ite h (kept_raiseFault he)
  | retireTrap t f => exact kept_takeTrap (kept_putCtx he)

theorem keptExe_waitField (hok : waitField s hd = some e) (h : Kept r s) : KeptExe r e := by
  grind [waitField, KeptExe]

theorem keptExe_issueExe (h : Kept r s) (hb : KeptExe r (body s)) : KeptExe r (issueExe hd priv srcs dsts body s) := by
  unfold issueExe
  grind [keptExe_waitField, KeptExe]

/-- An instruction's step keeps the forms when its body does. -/
theorem keptOut_issue (h : Kept r s) (hb : KeptExe r (body s)) : KeptOut r (issue hd len priv srcs dsts body s) :=
  kept_settle h (keptExe_issueExe h hb)

theorem keptOut_issue1 (h : Kept r s) (hb : KeptExe r (body s)) : KeptOut r (issue1 hd srcs dsts body s) :=
  keptOut_issue h hb

theorem kept_asCtx (h : Kept r s) (hf : ∀ u, Kept r u → Kept r (f u)) : Kept r (asCtx s c f) :=
  hf { s with cur := c } h

theorem keptExe_fpWrites (h : Kept r s) : KeptExe r (fpWrites d f s) := by
  unfold fpWrites
  dsimp only
  split <;> exact h

theorem keptExe_fpWritesP (h : Kept r s) : KeptExe r (fpWritesP d f s) := by
  unfold fpWritesP
  dsimp only
  split <;> exact h

end Sys2Proof.Machine
end

section
/-!
PROOFS. The forms through the checks of an access, tensor elements, peer requests, loads, stores and atomics.
-/
namespace Sys2Proof.Machine
set_option autoImplicit true

/-! ## The checks of an access (R125) -/

theorem kept_fillTlb (h : Kept r s) : Kept r (fillTlb s k d leaf) := by
  grind [fillTlb, kept_modDie, kept_modCore_of_eq]

theorem kept_translate (hok : translate s w va kind = .ok (pa, t)) (h : Kept r s) : Kept r t := by
  obtain ⟨leaf, -, -, -, -, rfl⟩ := translate_ok hok
  exact kept_fillTlb h

theorem kept_locate (hok : locate s w sp n kind = .ok (l, t)) (h : Kept r s) : Kept r t := by
  rcases locate_state hok with rfl | ⟨leaf, rfl⟩
  · exact h
  · exact kept_fillTlb h

theorem kept_checkAccess (hok : checkAccess s w p n kind plain = .ok (l, t)) (h : Kept r s) : Kept r t := by
  obtain ⟨sp, -, -, hl⟩ := checkAccess_ok hok
  exact kept_locate hl h

/-! ## Elements of tensors (R316-R330, R424) -/

theorem kept_rawWrite (h : Kept r s) (bs : List Byte) : Kept r (rawWrite s w p bs) := by
  induction bs generalizing s p with
  | nil => exact h
  | cons b bs ih =>
    refine ih ?_
    split
    · exact kept_locWrite h
    · exact h

theorem kept_setUnitState (h : Kept r s) : Kept r (setUnitState s w area u st) := kept_rawWrite h _

theorem kept_promote (h : Kept r s) : Kept r (promote s c i x) := by
  grind [promote, kept_modCtx, kept_modDie]

theorem kept_placeBytes (hok : placeBytes s w kind ps = .ok (ls, t)) (h : Kept r s) : Kept r t := by
  induction ps generalizing s ls with
  | nil => grind [placeBytes]
  | cons p ps ih => grind [placeBytes, kept_locate]

theorem kept_writeLocs (h : Kept r s) : Kept r (writeLocs s ls bs) := by
  induction ls generalizing s bs with
  | nil => exact h
  | cons l ls ih =>
    cases bs with
    | nil => exact h
    | cons b bs => exact ih (kept_locWrite h)

theorem kept_readPtr (hok : readPtr s w p n = .ok (v, t)) (h : Kept r s) : Kept r t := by
  grind [readPtr, kept_placeBytes]

theorem kept_readBand (hok : readBand s w m c band = .ok (v, t)) (h : Kept r s) : Kept r t := by
  cases band <;> grind [readBand, kept_readPtr]

theorem kept_readCode (hok : readCode s w m c = .ok (code, t)) (h : Kept r s) : Kept r t := by
  grind [readCode, kept_readPtr, kept_placeBytes]

theorem kept_readValue (hok : readValue s w m c code band = .ok (v, t)) (h : Kept r s) : Kept r t := by
  cases code <;> grind [readValue, kept_readPtr, kept_readBand]

theorem kept_writeCode (hok : writeCode s w m c code = .ok t) (h : Kept r s) : Kept r t := by
  grind [writeCode, kept_placeBytes, kept_writeLocs]

theorem kept_writeElem (hok : writeElem s w m c code = .ok t) (h : Kept r s) : Kept r t := by
  grind [writeElem, kept_writeCode, kept_readPtr, kept_placeBytes, kept_writeLocs]

theorem kept_readScales (hok : readScales s w m c band = .ok (x, t)) (h : Kept r s) : Kept r t := by
  grind [readScales, kept_readPtr, kept_readBand]

theorem kept_narrowElem (hok : narrowElem s w m c v int mode band = .ok (code, ex, t)) (h : Kept r s) : Kept r t := by
  grind [narrowElem, kept_readScales]

/-! ## Requests of and to other modules (R523-R537) -/

theorem kept_writePas (h : Kept r s) : Kept r (writePas s pas bs) := by
  cases pas with
  | nil => exact h
  | cons p pas => exact kept_ite (kept_writeHbm h) (kept_foldl h (fun _ _ ht => kept_writeHbm ht) _)

theorem kept_peerWriteBytes (hok : peerWriteBytes s port va bs = .ok t) (h : Kept r s) : Kept r t := by
  grind [peerWriteBytes, kept_writePas]

/-- A loop that stops at its first error keeps the forms when each of its rounds does. -/
theorem kept_foldlExcept {f : Except ε State → α → Except ε State} {l : List α}
    (hf : ∀ acc a, (∀ t, acc = .ok t → Kept r t) → ∀ t, f acc a = .ok t → Kept r t)
    (hok : l.foldl f (.ok s) = .ok t) (h : Kept r s) : Kept r t :=
  List.foldlRecOn (motive := fun acc => ∀ t, acc = .ok t → Kept r t) l f (fun _ he => Except.ok.inj he ▸ h)
    (fun acc hacc a _ => hf acc a hacc) t hok

theorem kept_winDrain (hok : winDrain s port i groups = .ok t) (h : Kept r s) : Kept r t := by
  induction groups generalizing s with
  | nil => grind [winDrain]
  | cons g gs ih =>
    unfold winDrain at hok
    dsimp only at hok
    split at hok
    · grind
    · split at hok
      · exact ih hok h
      · split at hok
        · cases hok
        · next hwrites =>
          refine ih hok (kept_foldlExcept ?_ hwrites h)
          grind [kept_peerWriteBytes]

theorem kept_winWrite (hok : winWrite s port i w va rows bs = .ok t) (h : Kept r s) : Kept r t := by
  unfold winWrite at hok
  dsimp only at hok
  split at hok
  · cases hok
  · exact kept_winDrain hok h

theorem kept_winReduce (hok : winReduce s port w wantMax va bs = .ok t) (h : Kept r s) : Kept r t := by
  refine kept_foldlExcept ?_ hok h
  grind [kept_peerWriteBytes]

theorem kept_overParts (hf : ∀ s va w bs t, f s va w bs = .ok t → Kept r s → Kept r t)
    (hok : overParts f ps s = .ok t) (h : Kept r s) : Kept r t := by
  induction ps generalizing s with
  | nil => grind [overParts]
  | cons p ps ih => grind [overParts]

theorem kept_partWrite (hok : partWrite port rows s va w bs = .ok t) (h : Kept r s) : Kept r t := by
  cases w <;> grind [partWrite, kept_winWrite, kept_peerWriteBytes]

theorem kept_partReduce (hok : partReduce port wantMax bf16 s va w bs = .ok t) (h : Kept r s) : Kept r t := by
  cases w <;> grind [partReduce, kept_winReduce, kept_writePas]

theorem kept_performPeer (hok : performPeer s port req = .ok (d, t)) (h : Kept r s) : Kept r t := by
  unfold performPeer at hok
  dsimp only at hok
  split at hok
  · grind
  · split at hok
    · cases hok
    · next hparts => cases hok; exact kept_overParts (fun _ _ _ _ _ => kept_partWrite) hparts h
  · grind [kept_writePas]
  · split at hok
    · cases hok
    · next hparts => cases hok; exact kept_overParts (fun _ _ _ _ _ => kept_partReduce) hparts h

theorem kept_sendPeer (hok : sendPeer s req dev rows = (answer, t)) (h : Kept r s) : Kept r t := by
  unfold sendPeer at hok
  dsimp only at hok
  split at hok
  · cases hok; exact h
  · split at hok
    · split at hok
      · next hperf => cases hok; exact kept_performPeer hperf h
      · cases hok; exact h
    · cases hok; exact h

theorem kept_peerStoreFailed (h : Kept r s) : Kept r (peerStoreFailed s req cause) := kept_pushFault h

/-! ## Scalar memory accesses (R124-R132) -/

theorem kept_noteWrite (h : Kept r s) : Kept r (noteWrite s l cls) := kept_ite h h
theorem kept_noteLoad (h : Kept r s) : Kept r (noteLoad s d) := kept_ite h h

theorem kept_rmwWrite (h : Kept r s) : Kept r (rmwWrite s l bs o holds) :=
  kept_ite h (kept_noteWrite (kept_locWrite h))

theorem kept_openWith (hok : openWith echk s p n kind plain = .ok (l, t)) (h : Kept r s) : Kept r t := by
  grind [openWith, kept_checkAccess]

theorem kept_openAccess (hok : openAccess s p n kind plain = .ok (l, t)) (h : Kept r s) : Kept r t :=
  kept_openWith hok h

theorem keptExe_peerScalar (h : Kept r s) (hfin : ∀ t d, Kept r t → KeptExe r (fin t d)) :
    KeptExe r (peerScalar s p dev n op fin) := by
  unfold peerScalar
  grind [kept_sendPeer, kept_setMe, KeptExe]

theorem keptExe_peerStore (h : Kept r s) : KeptExe r (peerStore s p dev bs cls) := by
  grind [peerStore, kept_sendPeer, kept_peerStoreFailed, kept_setMe, KeptExe]

theorem keptExe_loadBody (h : Kept r s) : KeptExe r (loadBody d p n sgn o s) := by
  unfold loadBody
  split
  · exact h
  · split
    · exact h
    · exact keptExe_peerScalar h fun _ _ ht => kept_wg ht
    · next hopen => exact kept_noteLoad (kept_wg (kept_openAccess hopen h))

theorem keptExe_storeBody (h : Kept r s) : KeptExe r (storeBody p n v o s) := by
  unfold storeBody
  split
  · exact h
  · split
    · exact h
    · next hopen => exact keptExe_peerStore (kept_openAccess hopen h)
    · next hopen => exact kept_noteWrite (kept_locWrite (kept_openAccess hopen h))

theorem keptExe_prefBody (h : Kept r s) : KeptExe r (prefBody p s) := by
  grind [prefBody, kept_translate, KeptExe]

theorem keptExe_atomicBody (h : Kept r s) : KeptExe r (atomicBody fn d a b c o dbl s) := by
  unfold atomicBody
  dsimp only
  split
  · exact h
  · split
    · exact h
    · exact keptExe_peerScalar h fun _ _ ht => kept_wg ht
    · next hopen =>
      refine kept_noteLoad (kept_wg ?_)
      split
      · exact kept_rmwWrite (kept_openAccess hopen h)
      · exact kept_openAccess hopen h

/-! ## Fetch and the loop instruction (R33, R37, R127) -/

theorem kept_fillLine (h : Kept r s) : Kept r (fillLine s k line) := by
  grind [fillLine, kept_modCore_of_eq]

theorem kept_fetch (hok : fetch s c a = .word w t) (h : Kept r s) : Kept r t := by
  grind [fetch, kept_translate]

theorem kept_fetchNow (hok : fetchNow s c a = .word w t) (h : Kept r s) : Kept r t := by
  grind [fetchNow, kept_fetch, kept_fillLine]

theorem keptExe_loopBody (h : Kept r s) : KeptExe r (loopBody n b len s) := by
  grind [loopBody, kept_setMe, kept_fetchNow, KeptExe]

end Sys2Proof.Machine
end

section
/-!
PROOFS. The forms through vector instructions, tensor loads and stores, and accesses through handles.
-/
namespace Sys2Proof.Machine
set_option autoImplicit true

/-! ## The results of vector entries (R191-R210) -/

theorem keptExe_vissueBody (h : Kept r s) : KeptExe r (vissueBody i k cap s) := by
  grind [vissueBody, kept_reserveReply, kept_setMe, KeptExe]

theorem kept_writeV (h : Kept r s) : Kept r (writeV d f s) := h
theorem kept_writeM (h : Kept r s) : Kept r (writeM d w s) := h
theorem kept_writeG (h : Kept r s) : Kept r (writeG d w s) := h
theorem kept_advanceDph (h : Kept r s) : Kept r (advanceDph s) := h

theorem keptVec_vecExc (h : Kept r s) (hw : ∀ t, Kept r t → Kept r (write t)) : KeptVec r (vecExc e xs write s) := by
  unfold vecExc
  dsimp only
  split
  · exact h
  · exact hw _ (kept_setMe h)

theorem keptVec_vecFlags (h : Kept r s) : KeptVec r (vecFlags e d msk zi f s) :=
  keptVec_vecExc h fun _ ht => kept_writeV ht

theorem keptVec_runVcvt (h : Kept r s) : KeptVec r (runVcvt d a c adv part dfmt sfmt rm e s) :=
  keptVec_vecExc h fun _ ht => kept_ite (kept_advanceDph (kept_setMe ht)) (kept_setMe ht)

theorem keptVec_runVcmp (h : Kept r s) : KeptVec r (runVcmp d a b bs cc msk zi e s) :=
  keptVec_vecExc h fun _ ht => kept_writeM ht

theorem keptVec_runVred (h : Kept r s) : KeptVec r (runVred d a op rm msk e s) :=
  keptVec_vecExc h fun _ ht => kept_writeG ht

theorem keptVec_runScan (h : Kept r s) : KeptVec r (runScan d a op rm msk zi excl e s) :=
  keptVec_vecExc h fun _ ht => kept_writeV ht

/-! ## Vector memory accesses (R213-R217) -/

theorem kept_setVstart (h : Kept r s) : Kept r (setVstart s j) := h
theorem kept_joinOut (h : Kept r s) : Kept r (joinOut x o s) := kept_ite h h

/-- The lanes of an access keep the forms when each of them does, wherever they stop. -/
theorem kept_lanesGo (hact : ∀ j s t, act j s = .ok t → Kept r s → Kept r t) (h : Kept r s) (js : List Nat) (sk : Nat) :
    match lanesGo skip covers act js sk s with
    | .ok (_, t) => Kept r t
    | .error (_, _, t) => Kept r t := by
  induction js generalizing sk s with
  | nil => exact h
  | cons j js ih =>
    rw [lanesGo]
    cases hj : act j s with
    | ok t => exact ih (hact _ _ _ hj h) _
    | error f =>
      dsimp only
      by_cases hskip : (skip && covers j s f) = true
      · rw [if_pos hskip]; exact ih h _
      · rw [if_neg hskip]; exact h

theorem kept_lanesGo_ok (hok : lanesGo skip covers act js sk s = .ok (n, t))
    (hact : ∀ j s t, act j s = .ok t → Kept r s → Kept r t) (h : Kept r s) : Kept r t := by
  have := kept_lanesGo (skip := skip) (covers := covers) hact h js sk
  rwa [hok] at this

theorem kept_lanesGo_error (herr : lanesGo skip covers act js sk s = .error (f, j, t))
    (hact : ∀ j s t, act j s = .ok t → Kept r s → Kept r t) (h : Kept r s) : Kept r t := by
  have := kept_lanesGo (skip := skip) (covers := covers) hact h js sk
  rwa [herr] at this

theorem keptVec_vecMem (h : Kept r s) (hact : ∀ j s t, act j s = .ok t → Kept r s → Kept r t) :
    KeptVec r (vecMem wr e o msk skip covers act s) := by
  unfold vecMem
  split
  · trivial
  · split
    · next hgo => exact kept_setVstart (kept_joinOut (kept_lanesGo_error hgo hact h))
    · next hgo => exact kept_setVstart (kept_joinOut (kept_lanesGo_ok hgo hact h))

theorem kept_laneOpen (hok : laneOpen s p kind plain = .ok (l, t)) (h : Kept r s) : Kept r t := by
  grind [laneOpen, kept_openAccess]

theorem kept_loadLane (hok : loadLane d plain p j s = .ok t) (h : Kept r s) : Kept r t := by
  grind [loadLane, kept_laneOpen, kept_setMe]

theorem kept_storeLane (hok : storeLane v o p j s = .ok t) (h : Kept r s) : Kept r t := by
  grind [storeLane, kept_laneOpen, kept_noteWrite, kept_locWrite]

theorem kept_rmwLane (hok : rmwLane fn v o p j s = .ok t) (h : Kept r s) : Kept r t := by
  grind [rmwLane, kept_laneOpen, kept_rmwWrite]

/-! ## Elements through handles (R324-R330, R424) -/

theorem kept_loadedElem (hok : loadedElem s m c raw bits band = .ok (v, ex, t)) (h : Kept r s) : Kept r t := by
  grind [loadedElem, kept_readCode, kept_readValue]

theorem kept_storedCode (hok : storedCode s m c raw mode g bits band = .ok (v, ex, t)) (h : Kept r s) : Kept r t := by
  grind [storedCode, kept_placeBytes, kept_narrowElem]

theorem kept_storeElem (hok : storeElem s m c code cls = .ok t) (h : Kept r s) : Kept r t := by
  grind [storeElem, kept_writeElem, kept_noteWrite]

theorem kept_promoteIf (h : Kept r s) : Kept r (promoteIf b s i c) := kept_ite (kept_promote h) h

theorem keptExe_withBytes (h : Kept r s) (hfin : ∀ t bs, Kept r t → KeptExe r (fin t bs)) :
    KeptExe r (withBytes s p n fin) := by
  unfold withBytes
  split
  · exact h
  · exact keptExe_peerScalar h fun _ _ ht => hfin _ _ ht
  · next hcheck => grind [kept_checkAccess, KeptExe]

theorem keptExe_withBand (h : Kept r s) (hfin : ∀ t band, Kept r t → KeptExe r (fin t band)) :
    KeptExe r (withBand s m c raw check fin) := by
  have hpeer := fun p dev n => keptExe_peerScalar (p := p) (dev := dev) (n := n) (op := .read n)
    (fin := fun t d => fin t (some (d.toNat % 65536))) h fun _ _ ht => hfin _ _ ht
  unfold withBand
  grind [KeptExe]

theorem kept_bandLane (hok : bandLane s m c raw ev1 = .ok (v, ex, t))
    (hev : ∀ band, ev1 band = .ok (v, ex, t) → Kept r t) : Kept r t := by
  grind [bandLane]

theorem kept_setRec (h : Kept r s) : Kept r (setRec s i m) := kept_writeHbm h

theorem keptExe_tregBody (h : Kept r s) : KeptExe r (tregBody d a b s) := by
  unfold tregBody
  dsimp only
  split
  · exact h
  · split
    · exact h
    · refine keptExe_withBytes h fun t bs ht => ?_
      grind [kept_wg, kept_setRec, KeptExe]

theorem keptExe_trelBody (h : Kept r s) : KeptExe r (trelBody a s) := by
  grind [trelBody, kept_setRecWord, KeptExe]

theorem keptExe_tinfoBody (h : Kept r s) : KeptExe r (tinfoBody d a k s) := by
  grind [tinfoBody, kept_wg, KeptExe]

theorem keptExe_taddrBody (h : Kept r s) : KeptExe r (taddrBody d a b prom s) := by
  grind [taddrBody, kept_wg, kept_promoteIf, KeptExe]

theorem keptExe_tldBody (h : Kept r s) : KeptExe r (tldBody d a b raw prom o s) := by
  unfold tldBody
  split
  · exact h
  · split
    · exact h
    · split
      · exact h
      · refine keptExe_withBand h fun t band ht => ?_
        dsimp only
        split
        · exact h
        · next hload =>
          split
          · exact h
          · exact kept_noteLoad (kept_wg (kept_promoteIf (kept_setMe (kept_loadedElem hload ht))))

theorem keptExe_tstBody (h : Kept r s) : KeptExe r (tstBody v a b raw prom rmen rm o s) := by
  unfold tstBody
  split
  · exact h
  · split
    · exact h
    · split
      · exact h
      · split
        · exact h
        · exact h
        · refine keptExe_withBand h fun t band ht => ?_
          grind [kept_storedCode, kept_storeElem, kept_promoteIf, kept_setMe, KeptExe]

theorem keptExe_vtensorIssue (h : Kept r s) : KeptExe r (vtensorIssue i a b store skip s) := by
  grind [vtensorIssue, keptExe_vissueBody, KeptExe]

theorem keptVec_vtensor (h : Kept r s) (hev : ∀ j s v ex t, ev1 j s = .ok (v, ex, t) → Kept r s → Kept r t)
    (hput : ∀ j v s t, put j v s = .ok t → Kept r s → Kept r t) :
    KeptVec r (vtensor wr e o msk skip covers m ev1 put s) := by
  unfold vtensor
  dsimp only
  split
  · exact h
  · split
    · trivial
    · have hact : ∀ j s t, (match ev1 j s with
          | .error x => .error x
          | .ok (v, ex, t1) => put j v (setMe t1 (applyExc (me t1) ex))) = Except.ok t → Kept r s → Kept r t := by
        grind [kept_setMe]
      split
      · next hgo => exact kept_setVstart (kept_joinOut (kept_lanesGo_error hgo hact h))
      · next hgo => exact kept_setVstart (kept_joinOut (kept_lanesGo_ok hgo hact h))

theorem keptVec_runVldt (h : Kept r s) : KeptVec r (runVldt d raw prom o msk skip e s) := by
  unfold runVldt
  split
  · exact h
  · refine keptVec_vtensor h (fun j s v ex t hok hs => ?_) (fun j v s t hok hs => ?_)
    · grind [kept_bandLane, kept_loadedElem]
    · grind [kept_promoteIf, kept_setMe]

theorem keptVec_runVstt (h : Kept r s) : KeptVec r (runVstt v raw prom rmen rm o msk skip e s) := by
  unfold runVstt
  split
  · exact h
  · dsimp only
    split
    · trivial
    · refine keptVec_vtensor h (fun j s v ex t hok hs => ?_) (fun j v s t hok hs => ?_)
      · grind [kept_bandLane, kept_storedCode]
      · grind [kept_storeElem, kept_promoteIf]

/-! ## SPCFG (R301) -/

/-- A grouping joins those that wait only if it is one of R301. -/
theorem keptExe_spcfgBody (h : Kept r s) : KeptExe r (spcfgBody a s) := by
  unfold spcfgBody
  dsimp only
  split
  · exact h
  · next hg =>
    split
    · exact h
    · split
      · exact h
      · refine kept_modCore h ⟨id, fun hq => ⟨hq.1, fun e he => ?_⟩⟩
        rcases List.mem_append.1 he with he | he
        · exact hq.2 e he
        · obtain rfl := List.mem_singleton.1 he
          omega

end Sys2Proof.Machine
end

section
/-!
PROOFS. The forms through the layout engine and the issue of copy commands.
-/
namespace Sys2Proof.Machine
set_option autoImplicit true

/-! ## Conversions of tensors (R417-R433) -/

theorem kept_startConv (h : Kept r s) : Kept r (startConv s d i img area nu cnt oc) :=
  kept_wg (kept_modDie (s := { setRecWord _ i 0 _ with lastConv := _ })
    (kept_setRecWord (kept_setRecWord (kept_rawWrite (kept_rawWrite h _) _))))

theorem keptExe_relayoutBody (h : Kept r s) : KeptExe r (relayoutBody cnt oc d a b c s) := by
  unfold relayoutBody
  split
  · exact h
  · split
    · exact h
    · split
      · exact h
      · dsimp only
        split
        · exact h
        · split
          · exact h
          · split
            · exact h
            · refine keptExe_withBytes h fun t bs ht => ?_
              grind [kept_counterAdd, kept_startConv, faultAt, KeptExe]

theorem kept_modConv (h : Kept r s) : Kept r (modConv s d i f) := h

theorem kept_retryHeld (h : Kept r s) : Kept r (retryHeld s d c) :=
  kept_modConv (kept_foldl h (fun _ _ ht => kept_setUnitState ht) _)

theorem keptExe_resBody (h : Kept r s) : KeptExe r (resBody a b s) := by
  grind [resBody, kept_passAll, kept_abandonConv, kept_retryHeld, KeptExe]

theorem keptExe_tstatBody (h : Kept r s) : KeptExe r (tstatBody d a sel s) := by
  grind [tstatBody, kept_wg, KeptExe]

theorem keptExe_tsyncBody (h : Kept r s) : KeptExe r (tsyncBody a s) := by
  grind [tsyncBody, KeptExe]

theorem kept_convCode (hok : convCode s w old new c = .ok (k, ex, t)) (h : Kept r s) : Kept r t := by
  grind [convCode, kept_readCode, kept_readValue]

theorem kept_putPtr (hok : putPtr s w p bs = .ok t) (h : Kept r s) : Kept r t := by
  grind [putPtr, kept_placeBytes, kept_writeLocs]

theorem kept_blockVals (hok : blockVals w old cs s = .ok (vs, t)) (h : Kept r s) : Kept r t := by
  induction cs generalizing s vs with
  | nil => grind [blockVals]
  | cons c cs ih => grind [blockVals, kept_readCode, kept_readValue]

theorem kept_putCodes (hok : putCodes w new cs s = .ok t) (h : Kept r s) : Kept r t := by
  induction cs generalizing s with
  | nil => grind [putCodes]
  | cons c cs ih => grind [putCodes, kept_writeCode]

theorem kept_underScale (hok : underScale s w old new x cs = .ok (t, ex)) (h : Kept r s) : Kept r t := by
  induction cs generalizing s ex with
  | nil => grind [underScale]
  | cons c cs ih => grind [underScale, kept_blockVals, kept_writeCode]

theorem kept_foldCodes (hok : foldCodes w old new cs s ex = .ok (ks, t, ex')) (h : Kept r s) : Kept r t := by
  induction cs generalizing s ks ex ex' with
  | nil => grind [foldCodes]
  | cons c cs ih => grind [foldCodes, kept_convCode]

/-- The state of a conversion that has not failed has the forms of r. -/
def KeptConv (r : State) (acc : ConvRes) : Prop := ∀ t ex, acc = .ok (t, ex) → Kept r t

theorem keptConv_convElem (h : KeptConv r acc) : KeptConv r (convElem w old new acc c) := by
  intro t ex hok
  unfold convElem at hok
  split at hok
  · cases hok
  · have hs := h _ _ rfl
    grind (gen := 20) [kept_convCode, kept_writeCode, kept_readPtr, kept_putPtr]

theorem keptConv_convBlock (h : KeptConv r acc) : KeptConv r (convBlock w old new isNew acc cs) := by
  intro t ex hok
  unfold convBlock at hok
  split at hok
  · cases hok
  · cases hok; exact h _ _ rfl
  · have hs := h _ _ rfl
    grind (gen := 20) [kept_blockVals, kept_readPtr, kept_putPtr, kept_underScale, kept_putCodes]

theorem keptConv_convSlot (h : KeptConv r acc) : KeptConv r (convSlot w old new acc cs) := by
  intro t ex hok
  unfold convSlot at hok
  split at hok
  · cases hok
  · cases hok; exact h _ _ rfl
  · have hs := h _ _ rfl
    grind [kept_foldCodes, kept_putPtr]

theorem keptConv_foldl {f : ConvRes → α → ConvRes} (h : Kept r s) (hf : ∀ acc a, KeptConv r acc → KeptConv r (f acc a))
    (l : List α) : KeptConv r (l.foldl f (.ok (s, ex))) :=
  List.foldlRecOn l f (fun _ _ he => by cases he; exact h) fun acc hacc a _ => hf acc a hacc

theorem kept_convertUnit (hok : convertUnit s c u = .ok (t, ex)) (h : Kept r s) : Kept r t := by
  unfold convertUnit at hok
  dsimp only at hok
  split at hok
  · cases hok
  · split at hok
    · exact keptConv_foldl h (fun _ _ => keptConv_convSlot) _ _ _ hok
    · split at hok
      · exact keptConv_foldl h (fun _ _ => keptConv_convBlock) _ _ _ hok
      · exact keptConv_foldl h (fun _ _ => keptConv_convElem) _ _ _ hok

theorem kept_endConv (h : Kept r s) : Kept r (endConv s d c) := kept_passAll (kept_modDie (kept_setRec h))

@[simp] theorem keptOut_execLayoutUnitTake (h : Kept r s) : KeptOut r (execLayoutUnitTake die s) := by
  grind [execLayoutUnitTake, noAgent, ev, kept_modDie, kept_setUnitState, KeptOut]

@[simp] theorem keptOut_execLayoutUnitComplete (h : Kept r s) : KeptOut r (execLayoutUnitComplete die s) := by
  unfold execLayoutUnitComplete
  split
  · trivial
  · split
    · exact h
    · split
      · exact h
      · next hconv =>
        have h6 := fun k i n c pc d i' f w area u w' p bs w'' p' bs' d' f' =>
          kept_counterSub (k := k) (i := i) (n := n) (c := c) (pc := pc) (kept_modConv (d := d) (i := i') (f := f)
            (kept_modDie (d := d') (f := f') (kept_rawWrite (w := w'') (p := p') (kept_rawWrite (w := w') (p := p)
              (kept_setUnitState (w := w) (area := area) (u := u) (st := 2) (kept_convertUnit hconv h)) bs) bs')))
        exact kept_ite (kept_endConv (h6 ..)) (h6 ..)

@[simp] theorem keptOut_execLayoutUnitFault (h : Kept r s) : KeptOut r (execLayoutUnitFault die s) := by
  unfold execLayoutUnitFault
  split
  · trivial
  · split
    · exact h
    · split
      · exact h
      · exact kept_orphanConvs (kept_pushFault (kept_modConv (kept_modDie (kept_setUnitState h))))

/-! ## The issue of copy commands (R387-R400) -/

theorem keptExe_copyIssue (h : Kept r s) : KeptExe r (copyIssue cnt oc eng m reply plan s) := by
  grind (gen := 20) (splits := 20) [copyIssue, kept_counterAdd, kept_reserveReply, kept_putEngine, faultAt, KeptExe]

theorem keptExe_echkBody (h : Kept r s) : KeptExe r (echkBody d a s) := by
  grind [echkBody, kept_wg, kept_setCr, faultAt, KeptExe]

end Sys2Proof.Machine
end

section
/-!
PROOFS. The forms through the copy engines.
-/
namespace Sys2Proof.Machine
set_option autoImplicit true

/-! ## What a command reads and writes (R391-R411) -/

theorem kept_byteLoc (hok : byteLoc s w p kind = .ok (l, t)) (h : Kept r s) : Kept r t := by
  grind [byteLoc, kept_locate]

theorem kept_byteLocs (hok : byteLocs s w kind ps = .ok (ls, t)) (h : Kept r s) : Kept r t := by
  induction ps generalizing s ls with
  | nil => grind [byteLocs]
  | cons p ps ih => grind [byteLocs, kept_byteLoc]

theorem kept_cmdRead (hok : cmdRead s w p n = .ok (bs, t)) (h : Kept r s) : Kept r t := by
  grind [cmdRead, kept_byteLocs]

theorem kept_putByte (h : Kept r s) : Kept r (putByte s l b) := by
  unfold putByte
  split
  · exact kept_writeAcc h
  · exact kept_locWrite h

theorem kept_putLocs (h : Kept r s) : Kept r (putLocs s ls bs) := by
  unfold putLocs
  split
  · exact h
  · exact kept_ite (kept_locWrite h) (kept_foldl h (fun _ _ ht => kept_putByte ht) _)

theorem kept_cmdPlaces (hok : cmdPlaces s cmd p n kind = .ok (places, t)) (h : Kept r s) : Kept r t := by
  grind [cmdPlaces, kept_byteLocs]

theorem kept_cmdWrite (hok : cmdWrite s cmd p bs part = .ok t) (h : Kept r s) : Kept r t := by
  unfold cmdWrite at hok
  split at hok
  · cases hok
  · next hplaces =>
    have h1 := kept_cmdPlaces hplaces h
    dsimp only at hok
    split at hok
    · split at hok
      · cases hok
      · cases hok; exact kept_foldl h1 (fun _ _ ht => kept_putLocs ht) _
    · split at hok
      · cases hok
      · cases hok; exact kept_putLocs h1

theorem kept_bagLanes (hok : bagLanes run got base list pitch rowb fuel n first acc s = .ok (sums, t)) (h : Kept r s) :
    Kept r t := by
  induction fuel generalizing s n first acc with
  | zero => grind [bagLanes]
  | succ fuel ih => grind (gen := 20) [bagLanes, kept_cmdRead]

theorem kept_outElem (hok : outElem s w i m xf c = .ok (k, t)) (h : Kept r s) : Kept r t := by
  grind [outElem, kept_readCode, kept_readValue]

theorem kept_outElems (hok : outElems s w i m xf prom cs = .ok (ks, t)) (h : Kept r s) : Kept r t := by
  induction cs generalizing s ks with
  | nil => grind [outElems]
  | cons c cs ih => cases c <;> grind [outElems, kept_outElem, kept_promote]

theorem kept_inElem (hok : inElem s w m m' sf mode c code = .ok (k, ex, t)) (h : Kept r s) : Kept r t := by
  grind [inElem, kept_narrowElem]

theorem kept_inElems (hok : inElems w i m sf mode prom cs s ex = .ok (t, ex')) (h : Kept r s) : Kept r t := by
  induction cs generalizing s ex with
  | nil => grind [inElems]
  | cons c cs ih => grind (gen := 20) [inElems, kept_inElem, kept_writeElem, kept_promote]

theorem kept_inCodes (hok : inCodes w m m' sf mode cs s ex = .ok (ks, t, ex')) (h : Kept r s) : Kept r t := by
  induction cs generalizing s ex ks ex' with
  | nil => grind [inCodes]
  | cons c cs ih => grind [inCodes, kept_inElem]

theorem kept_foldSlot (hok : foldSlot w i m sf mode cs s = .ok (some (p, bytes, done, t))) (h : Kept r s) :
    Kept r t := by
  cases cs <;> grind [foldSlot, kept_inCodes]

theorem kept_promoteFold (h : Kept r s) : Kept r (promoteFold prom w i cs s) := by
  cases cs with
  | nil => exact h
  | cons c cs => exact kept_ite (kept_promote h) h

theorem kept_inFold (hok : inFold w i m sf mode prom cs s = .ok (t, done)) (h : Kept r s) : Kept r t := by
  grind (gen := 20) [inFold, kept_foldSlot, kept_placeBytes, kept_promoteFold, kept_writeLocs, kept_inElems]

/-! ## The state of a running command (R178, R222, R387, R410) -/

theorem kept_modRun (h : Kept r s) : Kept r (modRun s k e slot f) := by
  grind [modRun, kept_putEngine]

theorem kept_dropRun (h : Kept r s) : Kept r (dropRun s k e slot) := kept_putEngine h
theorem kept_addCpyexc (h : Kept r s) : Kept r (addCpyexc s run) := h

theorem kept_finishRun (h : Kept r s) : Kept r (finishRun s k e slot run) :=
  kept_fillReplyOpt (kept_addCpyexc (kept_dropRun h))

theorem kept_failRun (h : Kept r s) : Kept r (failRun s k e slot run f) :=
  kept_pushFault (kept_fillReplyOpt (kept_markFaulted (kept_counterSub (kept_addCpyexc (kept_dropRun h)))))

theorem kept_failRunAt (h : Kept r s) : Kept r (failRunAt s k e slot run bad) := kept_failRun h
theorem kept_failRunLink (h : Kept r s) : Kept r (failRunLink s k e slot run p cause port) := kept_failRun h
theorem kept_credit (h : Kept r s) : Kept r (credit s k e slot n keys run) := kept_counterSub (kept_modRun h)

theorem kept_landUnit (h : Kept r s) : Kept r (landUnit s k e slot keys run) :=
  kept_ite (kept_finishRun (kept_credit h)) (kept_credit h)

theorem kept_endLoaded (h : Kept r s) : Kept r (endLoaded s k e slot) := by
  grind [endLoaded, kept_failRunAt, kept_finishRun]

/-! ## Units from and to other modules (R391, R523) -/

theorem kept_sendUnit (h : Kept r s) (hfin : ∀ t d, Kept r t → Kept r (fin t d)) :
    Kept r (sendUnit s k e slot run p op rows fin) := by
  unfold sendUnit
  grind [kept_sendPeer, kept_failRunLink, kept_modRun]

theorem kept_gotBytes (h : Kept r s) : Kept r (gotBytes k e slot n run s d) := kept_modRun h

theorem kept_sendBytes (h : Kept r s) (hfin : ∀ t, Kept r t → Kept r (fin t)) :
    Kept r (sendBytes s k e slot run p bs fin) := kept_sendUnit h fun _ _ ht => hfin _ ht

theorem kept_outWork (hok : outWork s run p xf prom = .ok (u, t)) (h : Kept r s) : Kept r t := by
  grind [outWork, kept_outElems]

theorem kept_unitWork (hok : unitWork s run bs = .ok (u, t)) (h : Kept r s) : Kept r t := by
  grind [unitWork, kept_outWork]

theorem kept_unitBytes (hok : unitBytes s run got = .ok (bs, n, t)) (h : Kept r s) : Kept r t := by
  unfold unitBytes at hok
  split at hok <;> grind [kept_bagLanes, kept_cmdRead]

theorem kept_readUnits (h : Kept r s) : Kept r (readUnits fuel run got s).2.2 := by
  induction fuel generalizing s run got with
  | zero => exact h
  | succ fuel ih =>
    unfold readUnits
    grind [kept_unitBytes, kept_unitWork]

theorem kept_putUnit (h : Kept r s) : Kept r (putUnit s k e slot run u) := by
  unfold putUnit
  split
  · exact kept_sendBytes h fun _ ht => kept_landUnit ht
  · grind [kept_cmdWrite, kept_failRunAt, kept_landUnit]

theorem kept_moveUnit (h : Kept r s) : Kept r (moveUnit s k e slot run got) := by
  grind [moveUnit, kept_unitBytes, kept_unitWork, kept_failRunAt, kept_putUnit]

/-! ## Landing (R387, R401-R411) -/

theorem kept_landTile (h : Kept r s) : Kept r (landTile s k e slot run p d mode cp prom u) := by
  unfold landTile
  grind [kept_inFold, kept_inElems, kept_failRunAt, kept_credit]

theorem kept_landWork (h : Kept r s) : Kept r (landWork s k e slot run u) := by
  grind [landWork, kept_landTile, kept_cmdWrite, kept_failRunAt, kept_credit]

theorem kept_landAll (h : Kept r s) (us : List Work) : Kept r (landAll k e slot us s) := by
  induction us generalizing s with
  | nil => exact h
  | cons u us ih =>
    unfold landAll
    split
    · exact h
    · exact ih (kept_landWork h)

theorem kept_landCut (h : Kept r s) : Kept r (landCut s k e slot n u) := by
  unfold landCut
  grind (gen := 20) [kept_foldSlot, kept_landTile, kept_cmdWrite, kept_failRunAt, kept_credit, kept_promoteFold]

theorem kept_landChunk (hok : landChunk s k e slot run = some t) (h : Kept r s) : Kept r t := by
  have hall := fun f us => kept_landAll (k := k) (e := e) (slot := slot)
    (kept_modRun (k := k) (e := e) (slot := slot) (f := f) h) us
  unfold landChunk at hok
  grind [kept_endLoaded, kept_landCut]

theorem kept_landSent (h : Kept r s) : Kept r (landSent s k e slot run) := kept_endLoaded (kept_credit h)

theorem kept_sendNext (h : Kept r s) : Kept r (sendNext s k e slot run) := by
  unfold sendNext
  split
  · exact kept_endLoaded h
  · exact kept_ite (kept_sendUnit h fun _ _ ht => kept_gotBytes ht) (kept_sendBytes h fun _ ht => kept_landSent ht)

theorem kept_landNext (hok : landNext s k e slot run = some t) (h : Kept r s) : Kept r t := by
  grind [landNext, kept_sendNext, kept_landChunk]

/-! ## Beats (R387) -/

theorem kept_sumUnit (h : Kept r s) : Kept r (sumUnit s k e slot run dst list rowb bs) := by
  grind [sumUnit, kept_failRunAt, kept_putUnit, kept_modRun]

theorem kept_fetchPiece (h : Kept r s) : Kept r (fetchPiece s k e slot run q n) := by
  unfold fetchPiece
  split
  · exact kept_sendUnit h fun _ _ ht => kept_gotBytes ht
  · grind [kept_cmdRead, kept_failRunAt, kept_modRun]

theorem kept_beatUnit (h : Kept r s) : Kept r (beatUnit s k e slot run) := by
  have hsend := fun p n rows n' => kept_sendUnit (k := k) (e := e) (slot := slot) (run := run) (p := p) (op := .read n)
    (rows := rows) (fin := gotBytes k e slot n' run) h fun _ _ ht => kept_gotBytes ht
  unfold beatUnit
  grind [kept_failRunAt, kept_moveUnit, kept_cmdRead, kept_sumUnit]

theorem kept_loadRun (hok : loadRun s k e slot run got = some t) (h : Kept r s) : Kept r t :=
  kept_landNext hok (kept_modRun (kept_readUnits h))

theorem kept_beat (hok : beat s k e slot run = some t) (h : Kept r s) : Kept r t := by
  grind [beat, kept_beatUnit, kept_landNext, kept_loadRun, kept_fetchPiece]

@[simp] theorem keptOut_execCopyCommandStart (h : Kept r s) : KeptOut r (execCopyCommandStart k e s) := by
  unfold execCopyCommandStart
  split
  · trivial
  · dsimp only
    split
    · exact kept_putEngine h
    · exact h
    · split
      · split
        · exact h
        · exact kept_ite (kept_finishRun (kept_putEngine h)) (kept_putEngine h)
      · exact h

@[simp] theorem keptOut_execCopyBeatLand (h : Kept r s) : KeptOut r (execCopyBeatLand k e slot s) := by
  unfold execCopyBeatLand
  grind [noAgent, ev, kept_beat, kept_modCore_of_eq, KeptOut]

theorem kept_landAnswered (h : Kept r s) : Kept r (landAnswered s k e slot run) :=
  kept_ite (kept_landSent h) (kept_landUnit h)

theorem kept_peerBeatAnswer (h : Kept r s) : Kept r (peerBeatAnswer s k e slot req a) := by
  unfold peerBeatAnswer
  grind [kept_failRunLink, kept_gotBytes, kept_landAnswered]

end Sys2Proof.Machine
end

section
/-!
PROOFS. The forms through synchronization, reply and fault queues.
-/
namespace Sys2Proof.Machine
set_option autoImplicit true

/-! ## Parking and waking (R179-R182) -/

theorem kept_endQuantum (h : Kept r s) : Kept r (endQuantum s) := by
  grind [endQuantum, kept_passAll, kept_putCohort]

theorem keptExe_yieldBody (h : Kept r s) : KeptExe r (yieldBody q s) :=
  kept_ite (kept_endQuantum (kept_ite (kept_setMe h) h)) (kept_ite (kept_setMe h) h)

theorem keptExe_parkBody (h : Kept r s) : KeptExe r (parkBody d a s) := by
  grind [parkBody, kept_wg, kept_setMe, KeptExe]

theorem kept_unpark (h : Kept r s) : Kept r (unpark s c v) :=
  kept_asCtx h fun _ hu => kept_retireNext (kept_setMe hu)

@[simp] theorem keptOut_execParkTimeout (h : Kept r s) : KeptOut r (execParkTimeout c s) := by
  grind [execParkTimeout, noAgent, ev, kept_unpark, KeptOut]

theorem keptExe_wakeBody (h : Kept r s) : KeptExe r (wakeBody a s) := by
  grind [wakeBody, kept_modCtx, KeptExe]

@[simp] theorem keptOut_execWakeArrival (h : Kept r s) : KeptOut r (execWakeArrival c s) := by
  unfold execWakeArrival
  grind [noAgent, ev, kept_modCtx, kept_putCtx, kept_unpark, KeptOut]

/-! ## Counters, barriers and gates (R176-R185, R535) -/

theorem keptExe_onCounter (h : Kept r s) (hf : ∀ x, KeptExe r (f s x)) : KeptExe r (onCounter c f s) := by
  unfold onCounter
  split
  · exact hf _
  · exact h

theorem keptExe_csetBody (h : Kept r s) : KeptExe r (csetBody c a s) :=
  keptExe_onCounter h fun _ => kept_putCounter h

theorem keptExe_caddBody (h : Kept r s) : KeptExe r (caddBody c a s) := by
  refine keptExe_onCounter h fun x => ?_
  grind [kept_putCounter, KeptExe]

theorem keptExe_cwaitBody (h : Kept r s) : KeptExe r (cwaitBody c a s) := by
  refine keptExe_onCounter h fun x => ?_
  grind [KeptExe]

theorem keptExe_crdcBody (h : Kept r s) : KeptExe r (crdcBody d c s) := keptExe_onCounter h fun _ => kept_wg h

theorem kept_putBarrier (h : Kept r s) : Kept r (putBarrier s d b x) := h

theorem keptExe_onBarrier (h : Kept r s) (hf : ∀ d b, KeptExe r (f s d b)) : KeptExe r (onBarrier a f s) := by
  unfold onBarrier
  split
  · exact h
  · exact hf _ _

theorem keptExe_barinitBody (h : Kept r s) : KeptExe r (barinitBody a b s) := by
  refine keptExe_onBarrier h fun d n => ?_
  grind [kept_putBarrier, KeptExe]

theorem keptExe_baraBody (h : Kept r s) : KeptExe r (baraBody d a s) := by
  refine keptExe_onBarrier h fun d n => ?_
  grind [kept_setMe, KeptExe]

theorem keptExe_barwBody (h : Kept r s) : KeptExe r (barwBody a b s) := by
  refine keptExe_onBarrier h fun d n => ?_
  grind [KeptExe]

@[simp] theorem keptOut_execBarrierArrival (h : Kept r s) : KeptOut r (execBarrierArrival c s) := by
  unfold execBarrierArrival
  split
  · trivial
  · split
    · exact kept_asCtx h fun _ ht =>
        kept_ite (kept_raiseFault (kept_setMe ht)) (kept_retireNext (kept_setMe (kept_putBarrier ht)))
    · exact h

theorem kept_setGate (h : Kept r s) : Kept r (setGate s n v) := kept_ite h h

theorem keptExe_onGate (h : Kept r s) (hf : ∀ n, KeptExe r (f s n)) : KeptExe r (onGate a rel f s) := by
  unfold onGate
  split
  · exact h
  · split
    · exact h
    · exact hf _

theorem keptExe_gsetBody (h : Kept r s) : KeptExe r (gsetBody a b s) := keptExe_onGate h fun _ => kept_setGate h
theorem keptExe_gaddBody (h : Kept r s) : KeptExe r (gaddBody d a b s) :=
  keptExe_onGate h fun _ => kept_wg (kept_setGate h)
theorem keptExe_grdBody (h : Kept r s) : KeptExe r (grdBody d a s) := keptExe_onGate h fun _ => kept_wg h

theorem kept_notifyGate (h : Kept r s) : Kept r (notifyGate s n) := kept_ite h h

theorem kept_doneGate (h : Kept r s) : Kept r (doneGate s n) :=
  kept_ite (kept_modDie h) (kept_notifyGate (kept_setGate h))

/-! ## Reply queues (R222-R225) -/

theorem kept_popReply (h : Kept r s) : Kept r (popReply s) := h

theorem keptExe_rpopBody (h : Kept r s) : KeptExe r (rpopBody d c nb s) := by
  grind [rpopBody, kept_wp, kept_wg, kept_popReply, KeptExe]

theorem kept_flushPool (hok : flushQueue.flushPool s sel = some (n, t)) (h : Kept r s) : Kept r t := by
  grind [flushQueue.flushPool, kept_discardPool, kept_putPart]

theorem kept_flushQueue (hok : flushQueue s sel = some (n, t)) (h : Kept r s) : Kept r t := by
  unfold flushQueue at hok
  split at hok
  · cases hok; exact kept_foldl (kept_setMe h) (fun _ _ ht => kept_releaseReply ht) _
  · cases hok; exact kept_setMe h
  · cases hok; exact kept_flushEngine h
  · cases hok; exact kept_flushEngine h
  · exact kept_flushPool hok h
  · exact kept_flushPool hok h
  · exact kept_flushPool hok h
  · cases hok

theorem keptExe_qflushBody (h : Kept r s) : KeptExe r (qflushBody d a s) := by
  grind [qflushBody, kept_flushQueue, kept_wg, KeptExe]

theorem keptExe_qstatBody (h : Kept r s) : KeptExe r (qstatBody d a s) := by
  grind [qstatBody, kept_wg, KeptExe]

/-! ## Fault records and asynchronous traps (R474-R476) -/

theorem kept_storeDword (h : Kept r s) : Kept r (storeDword s p v) := by
  unfold storeDword
  split
  · exact h
  · next hopen =>
    split
    · next dev _ u _ t hstore =>
      have hexe : KeptExe r (peerStore u p dev (leBytes 8 v.toNat) 0) := keptExe_peerStore (kept_openAccess hopen h)
      rwa [hstore] at hexe
    · exact kept_openAccess hopen h
  · next hopen => exact kept_noteWrite (kept_locWrite (kept_openAccess hopen h))

theorem kept_storeDwords (h : Kept r s) (vs : List Word) : Kept r (storeDwords s p vs) := by
  induction vs generalizing s p with
  | nil => exact h
  | cons v vs ih => exact ih (kept_storeDword h)

theorem kept_clearLost (h : Kept r s) : Kept r (clearLost s) := by
  grind [clearLost, kept_modCore_of_eq]

theorem keptExe_frpopBody (h : Kept r s) : KeptExe r (frpopBody d a s) := by
  unfold frpopBody
  dsimp only
  split
  · exact kept_wg (kept_clearLost h)
  · split
    · exact h
    · split
      · exact h
      · exact kept_wg (kept_clearLost (kept_storeDwords (kept_modCore_of_eq h rfl rfl rfl) _))

theorem kept_dropStalled (h : Kept r s) : Kept r (dropStalled s c) :=
  kept_ite (kept_foldl (kept_putCtx (kept_dropSpcfg h)) (fun _ _ ht => kept_releaseReply ht) _) (kept_dropSpcfg h)

@[simp] theorem keptOut_execAsyncTrapDeliver (h : Kept r s) : KeptOut r (execAsyncTrapDeliver c s) := by
  unfold execAsyncTrapDeliver
  split
  · trivial
  · dsimp only
    split
    · exact h
    · split
      · exact h
      · exact kept_takeTrap (kept_modCtx (kept_dropStalled (kept_modCore_of_eq h rfl rfl rfl)))

/-! ## Control registers, launches (R25, R156-R167, R499) -/

theorem keptExe_crdBody (h : Kept r s) : KeptExe r (crdBody d num s) := by
  grind [crdBody, kept_wg, KeptExe]

theorem keptExe_cwrBody (h : Kept r s) : KeptExe r (cwrBody a num s) := by
  grind [cwrBody, kept_setCr, KeptExe]

theorem kept_duePass (h : Kept r s) : Kept r (duePass s d) := h
theorem kept_nextAcc (h : Kept r s) : Kept r (nextAcc s d).2 := h
theorem kept_acceptCohort (h : Kept r s) : Kept r (acceptCohort s lr xspace tvec).2 := by
  unfold acceptCohort
  dsimp only
  exact kept_duePass (kept_putCohort (kept_nextAcc h))

theorem keptExe_launchRec (h : Kept r s) : KeptExe r (launchRec d s bs) := by
  unfold launchRec
  dsimp only
  split
  · exact h
  · exact kept_wg (kept_acceptCohort h)

theorem keptExe_launchBody (h : Kept r s) : KeptExe r (launchBody d a s) := by
  unfold launchBody
  split
  · exact h
  · exact keptExe_withBytes h fun _ _ ht => keptExe_launchRec ht

theorem keptExe_exitBody (h : Kept r s) : KeptExe r (exitBody s) := kept_stopLapses (kept_orphanConvs (kept_setMe h))

theorem kept_dropWindowWrite (h : Kept r s) : Kept r (dropWindowWrite s d) := h

@[simp] theorem keptOut_execHostLaunchWindowWrite (h : Kept r s) :
    KeptOut r (execHostLaunchWindowWrite die o data s) := by
  grind [execHostLaunchWindowWrite, noAgent, kept_dropWindowWrite, kept_modDie, KeptOut]

@[simp] theorem keptOut_execLaunchWindowAccept (h : Kept r s) : KeptOut r (execLaunchWindowAccept die level s) := by
  grind [execLaunchWindowAccept, noAgent, ev, kept_acceptCohort, kept_modDie, KeptOut]

end Sys2Proof.Machine
end

section
/-!
PROOFS. The forms through the accumulator pool: partitions, configurations, operand commands, drains.
-/
namespace Sys2Proof.Machine
set_option autoImplicit true

/-! ## Partitions and their commands (R264-R273) -/

theorem kept_modPart (h : Kept r s) : Kept r (modPart s k p f) := by
  grind [modPart, kept_putPart]

theorem keptExe_ppartBody (h : Kept r s) : KeptExe r (ppartBody d a b s) := by
  grind [ppartBody, kept_wg, kept_setMe, kept_putPart, KeptExe]

theorem keptExe_ppartRelBody (h : Kept r s) : KeptExe r (ppartRelBody s) := by
  grind [ppartRelBody, kept_passAll, kept_freePartition, KeptExe]

@[simp] theorem keptOut_execPartitionWindowCleared (h : Kept r s) : KeptOut r (execPartitionWindowCleared k b s) := by
  unfold execPartitionWindowCleared
  split
  · trivial
  · split
    · exact h
    · exact kept_passAll (kept_modCore_of_eq h rfl rfl rfl)

theorem keptExe_poolIssue (h : Kept r s) : KeptExe r (poolIssue e q plan s) := by
  unfold poolIssue
  dsimp only
  split
  · exact h
  · split
    · exact h
    · split
      · exact h
      · split
        · exact h
        · split
          · exact h
          · next u hcnt =>
            have hadd : Kept r u := by
              split at hcnt
              · exact kept_counterAdd hcnt h
              · exact Option.some.inj hcnt ▸ h
            split
            · exact h
            · exact kept_putPart hadd

@[simp] theorem keptOut_execPdrain (h : Kept r s) : KeptOut r (execPdrain hd e a b c d rm clr int bs s) := by
  unfold execPdrain
  split
  · exact kept_settle h h
  · exact keptOut_issue1 h (keptExe_poolIssue h)

theorem keptExe_pexcBody (h : Kept r s) : KeptExe r (pexcBody d a b s) := by
  grind [pexcBody, kept_wg, kept_putPart, KeptExe]

theorem keptExe_pprogBody (h : Kept r s) : KeptExe r (pprogBody d s) := by
  grind [pprogBody, kept_wg, KeptExe]

theorem keptExe_pstatBody (h : Kept r s) : KeptExe r (pstatBody d a s) := by
  grind [pstatBody, kept_wg, KeptExe]

/-! ## Configuration sets (R276-R279) -/

theorem kept_readDev (hok : readDev w f s p n bs sp = .ok (bs', sp', t)) (h : Kept r s) : Kept r t := by
  induction f generalizing s p n bs sp with
  | zero => grind [readDev]
  | succ f ih => grind [readDev, kept_translate]

theorem kept_readSet (hok : readSet s w p = .ok (bs, sp, t)) (h : Kept r s) : Kept r t := by
  grind [readSet, kept_readDev]

theorem kept_cachePut (h : Kept r s) : Kept r (cachePut s d e) := h

theorem kept_loadSet (hok : loadSet s d w p = .ok (bs, miss, t)) (h : Kept r s) : Kept r t := by
  grind [loadSet, kept_cachePut, kept_translate, kept_readSet]

theorem kept_endCmd (h : Kept r s) : Kept r (endCmd s k c f) := by
  cases f with
  | none => exact kept_counterSubOpt h
  | some f =>
    refine kept_pushFault ?_
    split
    · exact kept_markFaulted (kept_counterSubOpt h)
    · exact kept_counterSubOpt h

theorem keptOut_onPart (h : Kept r s) (hf : ∀ x, KeptOut r (f x s)) : KeptOut r (onPart k p s f) := by
  unfold onPart
  split
  · trivial
  · split
    · exact h
    · exact hf _

@[simp] theorem keptOut_execConfigLoadStart (h : Kept r s) : KeptOut r (execConfigLoadStart k p s) := by
  refine keptOut_onPart h fun x => ?_
  split
  · split
    · exact h
    · dsimp only
      split
      · split
        · exact kept_putPart h
        · exact kept_putPart h
      · split
        · exact kept_putPart h
        · split
          · exact kept_putPart h
          · next hload => exact kept_putPart (kept_loadSet hload h)
      · exact h
  · exact h

@[simp] theorem keptOut_execConfigCacheFill (h : Kept r s) : KeptOut r (execConfigCacheFill d addr s) := by
  grind [execConfigCacheFill, noAgent, kept_loadSet, kept_putPart, KeptOut, ev]

theorem kept_failLoad (h : Kept r s) : Kept r (failLoad s k p x c y f) := by
  cases y with
  | none => exact kept_endCmd (kept_putPart h)
  | some y => exact kept_endCmd (kept_ite (kept_releaseSlot (kept_putPart h)) (kept_putPart h))

@[simp] theorem keptOut_execConfigReady (h : Kept r s) : KeptOut r (execConfigReady k p s) := by
  refine keptOut_onPart h fun x => ?_
  grind [kept_failLoad, kept_putPart, KeptOut, ev]

@[simp] theorem keptOut_execConfigActivate (h : Kept r s) : KeptOut r (execConfigActivate k p s) := by
  refine keptOut_onPart h fun x => ?_
  grind [kept_putPart, kept_releaseSlot, kept_endCmd, KeptOut, ev]

/-! ## The entries of the accumulators -/

theorem coreKept_putEntry : CoreKept q (putEntry q e w) := .refl q
theorem coreKept_poisonEntries : CoreKept q (poisonEntries q es) := .refl q

theorem coreKept_landUpdates (q : Core) (us : List FoldUpdate) : CoreKept q (landUpdates q us).1 := by
  induction us generalizing q with
  | nil => exact .refl q
  | cons u us ih =>
    rw [landUpdates]
    split
    · exact ih q
    · exact coreKept_putEntry.trans (ih _)

theorem coreKept_scanChain (es : List Nat) (q : Core) (y : Option Nat) (bad : Bool) :
    CoreKept q (scanChain alpha q y bad es).1 := by
  induction es generalizing q y bad with
  | nil => exact .refl q
  | cons e es ih =>
    rw [scanChain]
    dsimp only
    split
    · exact coreKept_poisonEntries.trans (ih ..)
    · split <;> exact coreKept_putEntry.trans (ih ..)

theorem coreKept_scanChainsRun (q : Core) (cs : List (List Nat)) : CoreKept q (scanChainsRun alpha q cs).1 := by
  induction cs generalizing q with
  | nil => exact .refl q
  | cons c cs ih => exact (coreKept_scanChain c q none false).trans (ih _)

/-! ## Operand commands (R280-R286) -/

theorem kept_addCounts (h : Kept r s) : Kept r (addCounts s k p e).2 := by
  unfold addCounts
  split
  · exact h
  · dsimp only
    split
    · exact kept_foldl (kept_putPart h) (fun _ _ ht => kept_modPart ht) _
    · exact kept_putPart h

theorem kept_endRun (h : Kept r s) : Kept r (endRun s m run lead) := by
  unfold endRun
  split
  · exact h
  · exact kept_endCmd (kept_modCore (kept_putPart h) coreKept_poisonEntries)

theorem kept_endSet (h : Kept r s) : Kept r (endSet s ms) := by
  refine kept_foldl h (fun t m ht => ?_) _
  split
  · exact kept_endRun ht
  · exact ht

theorem kept_settleRuns (h : Kept r s) : Kept r (settleRuns ms n s) := by
  induction n generalizing s with
  | zero => exact h
  | succ n ih => exact kept_ite (ih (kept_endSet h)) h

theorem kept_settleAll (h : Kept r s) : Kept r (settleAll s ms) := kept_settleRuns h

theorem kept_startOne (h : Kept r s) : Kept r (startOne s m own lead) := by
  unfold startOne
  grind [kept_endCmd, kept_putPart]

theorem kept_startSet (h : Kept r s) : Kept r (startSet s ms all) := kept_foldl h (fun _ _ ht => kept_startOne ht) _

theorem kept_beginFold (h : Kept r s) : Kept r (beginFold s m us bsov) := kept_modPart h
theorem kept_stopFold (h : Kept r s) : Kept r (stopFold s m e) := kept_modPart h

theorem kept_beginFolds (h : Kept r s) : Kept r (beginFolds s ms ganged) :=
  kept_ite (kept_settleAll (kept_foldl h (fun _ _ ht => kept_stopFold ht) _))
    (kept_foldl h (fun _ _ ht => kept_beginFold ht) _)

@[simp] theorem keptOut_execFoldBegin (h : Kept r s) : KeptOut r (execFoldBegin k p s) := by
  refine keptOut_onPart h fun x => ?_
  grind [kept_beginFolds, KeptOut, ev]

theorem kept_startAndBegin (h : Kept r s) : Kept r (startAndBegin s ms ganged all) :=
  kept_ite (kept_beginFolds (kept_startSet h)) (kept_startSet h)

@[simp] theorem keptOut_execOperandCommandStart (h : Kept r s) : KeptOut r (execOperandCommandStart k p s) := by
  refine keptOut_onPart h fun x => ?_
  grind [kept_startAndBegin, KeptOut, ev]

@[simp] theorem keptOut_execGangSetStart (h : Kept r s) : KeptOut r (execGangSetStart g s) := by
  grind [execGangSetStart, kept_startAndBegin, KeptOut, ev]

theorem kept_landFold (h : Kept r s) : Kept r (landFold s m) := by
  unfold landFold
  split
  · exact h
  · dsimp only
    split
    · exact h
    · exact kept_addCounts (kept_putPart (kept_putCore h (coreKept_landUpdates ..)))

@[simp] theorem keptOut_execFoldLand (h : Kept r s) : KeptOut r (execFoldLand k p s) := by
  refine keptOut_onPart h fun x => ?_
  have hland : Kept r ((memberSet s k p).foldl landFold s) := kept_foldl h (fun _ _ ht => kept_landFold ht) _
  grind [kept_settleAll, KeptOut, ev]

theorem kept_scanOne (h : Kept r s) : Kept r (scanOne stopped s m) := by
  unfold scanOne
  split
  · exact h
  · split
    · exact h
    · refine kept_addCounts (kept_putPart (kept_putCore h ?_))
      split
      · exact coreKept_poisonEntries
      · exact coreKept_scanChainsRun ..

@[simp] theorem keptOut_execPscanComplete (h : Kept r s) : KeptOut r (execPscanComplete k p s) := by
  refine keptOut_onPart h fun x => ?_
  have hscan : ∀ b, Kept r ((memberSet s k p).foldl (scanOne b) s) :=
    fun b => kept_foldl h (fun _ _ ht => kept_scanOne ht) _
  grind [kept_settleAll, kept_endSet, KeptOut, ev]

theorem kept_topkGroup (h : Kept r s) : Kept r (topkGroup k c s gw) := by
  unfold topkGroup
  dsimp only
  split
  · exact kept_writeSpad h
  · exact kept_foldl (kept_writeSpad h) (fun _ _ ht => kept_writeSpad ht) _

theorem kept_topkOne (h : Kept r s) : Kept r (topkOne stopped s m) := by
  unfold topkOne
  split
  · exact h
  · exact kept_modPart (kept_foldl h (fun _ _ ht => kept_topkGroup ht) _)

@[simp] theorem keptOut_execPtopkComplete (h : Kept r s) : KeptOut r (execPtopkComplete k p s) := by
  refine keptOut_onPart h fun x => ?_
  have htop : ∀ b, Kept r ((memberSet s k p).foldl (topkOne b) s) :=
    fun b => kept_foldl h (fun _ _ ht => kept_topkOne ht) _
  grind [kept_settleAll, kept_endSet, KeptOut, ev]

/-! ## Clears and drains (R274, R287-R290) -/

theorem keptOut_startDrain (h : Kept r s) : KeptOut r (startDrain clear k p s) := by
  refine keptOut_onPart h fun x => ?_
  grind [kept_putPart, KeptOut, ev]

@[simp] theorem keptOut_execClearComplete (h : Kept r s) : KeptOut r (execClearComplete k p s) := by
  refine keptOut_onPart h fun x => ?_
  split
  · exact h
  · split
    · split
      · exact h
      · exact kept_endCmd (kept_putPart (kept_modCore_of_eq h rfl rfl rfl))
    · exact h

theorem kept_drainCode (hok : drainCode s w m c v poisoned md = .ok (k, ex, t)) (h : Kept r s) : Kept r t := by
  grind [drainCode, kept_narrowElem]

theorem kept_clearEntry (h : Kept r s) : Kept r (clearEntry clr k e s) :=
  kept_ite (kept_modCore_of_eq h rfl rfl rfl) h

/-- The state that a drain leaves, whether it ends or fails, has the forms of r. -/
def KeptDrain (r : State) : Except ((Nat × Word) × DrainRun) DrainRun → Prop
  | .ok t => Kept r t.s
  | .error e => Kept r e.2.s

theorem keptDrain_bind {k : DrainRun → Except ((Nat × Word) × DrainRun) DrainRun} (hx : KeptDrain r x)
    (hk : ∀ u, Kept r u.s → KeptDrain r (k u)) :
    KeptDrain r (match x with | .error e => .error e | .ok u => k u) := by
  cases x with
  | error e => exact hx
  | ok u => exact hk u hx

theorem keptDrain_drainElem (h : Kept r t.s) : KeptDrain r (drainElem w k phase d t el) := by
  unfold drainElem
  dsimp only
  split
  · exact kept_clearEntry h
  · split
    · exact h
    · split
      · exact h
      · next hcode =>
        split
        · exact h
        · next hwrite => exact kept_clearEntry (kept_writeElem hwrite (kept_drainCode hcode h))

theorem keptDrain_elemsOneByOne (h : Kept r t.s) (els : List (Nat × Nat × Nat)) :
    KeptDrain r (elemsOneByOne w k phase d t els) := by
  refine List.foldlRecOn els _ (motive := KeptDrain r) (show KeptDrain r (.ok t) from h) fun x hx el _ => ?_
  cases x with
  | ok u => exact keptDrain_drainElem hx
  | error e => exact hx

theorem keptDrain_drainBlock (h : Kept r t.s) : KeptDrain r (drainBlock w k phase d t els) := by
  unfold drainBlock
  split
  · exact h
  · dsimp only
    split
    · exact keptDrain_elemsOneByOne h _
    · split
      · exact h
      · next hput =>
        have hput := kept_foldlExcept (r := r) (fun acc _ hacc t hok => by
            cases acc with
            | error e => cases hok
            | ok u => exact kept_writeCode hok (hacc u rfl)) hput h
        split
        · exact h
        · next hplace =>
          exact keptDrain_elemsOneByOne
            (kept_foldl (kept_writeLocs (kept_placeBytes hplace hput)) (fun _ _ ht => kept_clearEntry ht) _) _

theorem keptDrain_drainFold (h : Kept r t.s) (gs : List (List (Nat × Nat × Nat))) :
    KeptDrain r (drainFold w k phase d t gs) := by
  induction gs generalizing t with
  | nil => exact h
  | cons g gs ih =>
    refine keptDrain_bind ?_ fun u hu => ih hu
    split
    · exact keptDrain_drainBlock h
    · split
      · exact keptDrain_drainElem h
      · exact h

theorem keptDrain_drainAll (h : Kept r s) : KeptDrain r (drainAll w k phase d x s) := keptDrain_drainFold h _

theorem kept_endDrain (h : Kept r s) : Kept r (endDrain s k p c ex met f) :=
  kept_endCmd (kept_settleAll (kept_addCounts (kept_modPart h)))

@[simp] theorem keptOut_execDrainComplete (h : Kept r s) : KeptOut r (execDrainComplete k p s) := by
  refine keptOut_onPart h fun x => ?_
  split
  · exact h
  · next c _ =>
    split
    · next hd rec c0 c1 rect band rm clr int _ =>
      dsimp only
      split
      · exact h
      · split
        · exact kept_endDrain h
        · have hall : KeptDrain r (drainAll (poolWho c) k x.phase ⟨hd, rec, c0, c1, rect, band, rm, clr, int⟩ x s) :=
            keptDrain_drainAll h
          split
          · next hj => rw [hj] at hall; exact kept_endDrain hall
          · next hj => rw [hj] at hall; exact kept_endDrain hall
    · exact h

end Sys2Proof.Machine
end

section
/-!
PROOFS. The forms through routing, placement and the vector unit.
-/
namespace Sys2Proof.Machine
set_option autoImplicit true

/-! ## Routing bitmaps and directories (R254-R263) -/

theorem kept_putMySpad (h : Kept r s) : Kept r (putMySpad s off bs) := kept_writeSpad h

theorem keptExe_onDesc (h : Kept r s) (hf : ∀ d, KeptExe r (f s d)) : KeptExe r (onDesc oc a f s) := by
  grind [onDesc, KeptExe]

theorem keptExe_onKey (h : Kept r s) (hf : ∀ d e i, KeptExe r (f s d e i)) : KeptExe r (onKey oc a c sel f s) := by
  refine keptExe_onDesc h fun d => ?_
  grind [KeptExe]

theorem kept_clearBitmaps (h : Kept r s) : Kept r (clearBitmaps d s) := kept_foldl h (fun _ _ ht => kept_putMySpad ht) _

theorem keptExe_rbsetClrBody (h : Kept r s) : KeptExe r (rbsetClrBody oc a s) := by
  refine keptExe_onDesc h fun d => ?_
  grind [kept_clearBitmaps, KeptExe]

theorem kept_putBit (hok : putBit d e i b s = .ok t) (h : Kept r s) : Kept r t := by
  grind [putBit, kept_putMySpad]

theorem keptExe_rbsetBitBody (h : Kept r s) : KeptExe r (rbsetBitBody oc a c b s) := by
  refine keptExe_onKey h fun d e i => ?_
  grind [kept_putBit, KeptExe]

/-- The state that a row of word writes leaves, whether it ends or fails, has the forms of r. -/
def KeptRun (r : State) : WordRun → Prop
  | .ok t => Kept r t
  | .error e => Kept r e.2

theorem sblockCount_error (herr : sblockCount s d e i = .error (f, t)) : t = s := by
  grind [sblockCount]

theorem keptRun_indexRow (h : Kept r s) : KeptRun r (indexRow d doff e n i acc s) := by
  induction n generalizing i acc s with
  | zero => exact h
  | succ n ih =>
    rw [indexRow]
    split
    · next f hc => cases sblockCount_error hc; exact h
    · exact ih (kept_putMySpad h)

theorem keptRun_buildIndex (h : Kept r s) (es : List Nat) : KeptRun r (buildIndex d doff es s) := by
  induction es generalizing s with
  | nil => exact h
  | cons e es ih =>
    have hrow : KeptRun r (indexRow d doff e d.nsb 0 0 (putMySpad s (dirWord d doff e 0) (leBytes 4 0))) :=
      keptRun_indexRow (kept_putMySpad h)
    rw [buildIndex]
    split
    · next hj => rw [hj] at hrow; exact hrow
    · next hj => rw [hj] at hrow; exact ih hrow

theorem keptExe_ridxBody (h : Kept r s) : KeptExe r (ridxBody oc a b s) := by
  refine keptExe_onDesc h fun d => ?_
  split
  · exact h
  · next doff _ =>
    split
    · exact h
    · have hrun : KeptRun r (buildIndex d doff (List.range d.ne) s) := keptRun_buildIndex h _
      split
      · next hj => rw [hj] at hrun; exact hrun
      · next hj => rw [hj] at hrun; exact hrun

theorem bitmapCount_error (herr : bitmapCount s d e n i = .error (f, t)) : t = s := by
  induction n generalizing i with
  | zero => grind [bitmapCount]
  | succ n ih => grind [bitmapCount, sblockCount_error]

/-- As KeptRun, for the run that writes a histogram. -/
def KeptHist (r : State) : Except (FaultRec × State) (Nat × State) → Prop
  | .ok t => Kept r t.2
  | .error e => Kept r e.2

theorem keptHist_writeHist (h : Kept r s) (es : List Nat) : KeptHist r (writeHist d coff es total s) := by
  induction es generalizing total s with
  | nil => exact h
  | cons e es ih =>
    rw [writeHist]
    split
    · next f hc => cases bitmapCount_error hc; exact h
    · exact ih (kept_putMySpad h)

theorem keptExe_rhistBody (h : Kept r s) : KeptExe r (rhistBody oc dst a c s) := by
  refine keptExe_onDesc h fun d => ?_
  split
  · exact h
  · next coff _ =>
    split
    · exact h
    · have hrun : KeptHist r (writeHist d coff (List.range d.ne) 0 s) := keptHist_writeHist h _
      split
      · next hj => rw [hj] at hrun; exact hrun
      · next hj => rw [hj] at hrun; exact kept_wg hrun

theorem keptExe_searchBody (h : Kept r s) : KeptExe r (searchBody oc dst a b c sel f s) := by
  refine keptExe_onDesc h fun d => ?_
  split
  · exact h
  · refine keptExe_onKey h fun _ e i => ?_
    split
    · exact h
    · exact kept_wg h

theorem keptExe_rvBody (h : Kept r s) : KeptExe r (rvBody i a dir skip cap s) := by
  unfold rvBody
  grind [keptExe_vissueBody, KeptExe]

theorem kept_bitLane (hok : bitLane e c b j s = .ok t) (h : Kept r s) : Kept r t := by
  grind [bitLane, kept_putBit]

theorem keptVec_runRbsetV (h : Kept r s) : KeptVec r (runRbsetV oc c msk skip b e s) :=
  keptVec_vecMem h fun _ _ _ => kept_bitLane

theorem kept_searchLane (hok : searchLane e dst src c sel f j s = .ok t) (h : Kept r s) : Kept r t := by
  grind [searchLane, kept_setMe]

theorem keptVec_runRrankV (h : Kept r s) : KeptVec r (runRrankV oc d c msk skip e s) :=
  keptVec_vecMem h fun _ _ _ => kept_searchLane

theorem keptVec_runRselV (h : Kept r s) : KeptVec r (runRselV oc d c msk skip e s) :=
  keptVec_vecMem h fun _ _ _ => kept_searchLane

/-! ## Placement (R291-R296) -/

theorem keptExe_placeBody (h : Kept r s) : KeptExe r (placeBody cnt oc a b c d s) := by
  unfold placeBody
  dsimp only
  split
  · exact h
  · split
    · exact h
    · split
      · exact h
      · split
        · exact h
        · split
          · exact h
          · next hcnt => exact kept_modDie (kept_reserveReply (kept_counterAdd hcnt h))

theorem kept_notePlaceMiss (h : Kept r s) : Kept r (notePlaceMiss s c) :=
  kept_modCtx (s := { modPart _ _ _ _ with freeCount := _ }) (kept_modPart h)

theorem kept_loadPartial (hok : loadPartial s c p = .ok (bs, t)) (h : Kept r s) : Kept r t := by
  grind [loadPartial, kept_loadSet, kept_notePlaceMiss]

theorem kept_loadPartial_error (herr : loadPartial s c p = .error (e, t)) (h : Kept r s) : Kept r t := by
  grind [loadPartial, kept_notePlaceMiss]

theorem composeAll_nil : composeAll c s acc [] = .ok (acc, s) := rfl

theorem composeAll_skip (hu : x.u = 0) : composeAll c s acc ((base, x) :: xs) = composeAll c s acc xs := if_pos hu

theorem composeAll_load (hu : x.u ≠ 0) : composeAll c s acc ((base, x) :: xs) =
    match loadPartial s c (w64 x.t.part) with
    | .error e => .error e
    | .ok (bs, s1) =>
      match appendPartial acc bs base x with
      | none => .error ((cConfig, w64 x.t.part), s1)
      | some acc2 => composeAll c s1 acc2 xs := if_neg hu

theorem kept_composeAll (hok : composeAll c s acc xs = .ok (comp, t)) (h : Kept r s) : Kept r t := by
  induction xs generalizing s acc with
  | nil => rw [composeAll_nil] at hok; cases hok; exact h
  | cons x xs ih =>
    obtain ⟨base, x⟩ := x
    by_cases hu : x.u = 0
    · exact ih (composeAll_skip hu ▸ hok) h
    · rw [composeAll_load hu] at hok
      split at hok
      · cases hok
      · next hload =>
        split at hok
        · cases hok
        · exact ih hok (kept_loadPartial hload h)

theorem kept_composeAll_error (herr : composeAll c s acc xs = .error (e, t)) (h : Kept r s) : Kept r t := by
  induction xs generalizing s acc with
  | nil => rw [composeAll_nil] at herr; cases herr
  | cons x xs ih =>
    obtain ⟨base, x⟩ := x
    by_cases hu : x.u = 0
    · exact ih (composeAll_skip hu ▸ herr) h
    · rw [composeAll_load hu] at herr
      split at herr
      · next hload => cases herr; exact kept_loadPartial_error hload h
      · next hload =>
        split at herr
        · cases herr; exact kept_loadPartial hload h
        · exact ih herr (kept_loadPartial hload h)

theorem kept_composePlace (hok : composePlace s c = .ok (es, comp, t)) (h : Kept r s) : Kept r t := by
  unfold composePlace at hok
  split at hok
  · cases hok
  · next hread =>
    dsimp only at hok
    split at hok
    · cases hok
    · split at hok
      · cases hok
      · split at hok
        · cases hok
        · split at hok
          · cases hok
          · next hall => cases hok; exact kept_composeAll hall (kept_readDev hread h)

theorem kept_composePlace_error (herr : composePlace s c = .error (e, t)) (h : Kept r s) : Kept r t := by
  unfold composePlace at herr
  split at herr
  · cases herr; exact h
  · next hread =>
    have h1 := kept_readDev hread h
    dsimp only at herr
    split at herr
    · cases herr; exact h1
    · split at herr
      · cases herr; exact h1
      · split at herr
        · cases herr; exact h1
        · split at herr
          · next hall => cases herr; exact kept_composeAll_error hall h1
          · cases herr

@[simp] theorem keptOut_execPlaceStart (h : Kept r s) : KeptOut r (execPlaceStart d s) := by
  unfold execPlaceStart
  split
  · trivial
  · split
    · split <;> exact h
    · exact h

@[simp] theorem keptOut_execPlaceComplete (h : Kept r s) : KeptOut r (execPlaceComplete d s) := by
  unfold execPlaceComplete
  split
  · trivial
  · split
    · exact h
    · next c i _ =>
      have h0 : Kept r (modDie s d (fun q => { q with placing := none })) := kept_modDie h
      dsimp only
      split
      · next e _ hj =>
        have h1 := kept_pushFault (k := coreOfCtx c.ctx) (f := placeRecord c i e) (kept_composePlace_error hj h0)
        exact kept_markFaulted (kept_counterSub (kept_fillReplyOpt (kept_ite (kept_releaseSlot h1) h1)))
      · next es _ _ hj =>
        have h2 := kept_writeSpad (k := coreOfCtx c.ctx) (off := c.aoff)
          (bs := es.flatMap (fun be => leBytes 4 (allocWord be))) (kept_composePlace hj h0)
        exact kept_counterSub (kept_fillReplyOpt (kept_ite h2 h2))

end Sys2Proof.Machine
end

section
/-!
PROOFS. The forms through the vector unit's start of an entry (R189-R196).
-/
namespace Sys2Proof.Machine
set_option autoImplicit true

/-! ## The vector operations -/

/-- Every vector operation keeps the forms. -/
theorem keptVec_vecOp (ho : vecOp i = some o) (h : Kept r s) : KeptVec r (o.run e s) := by
  cases i
  case vadd | vsub | vmul | vfma | vdiv | vsqrt | vrcp | vrsq | vmin | vmax | vexp2 | vlog2 | vsin | vcos | vsinpi
      | vcospi | viadd | visub | vcomb =>
    cases ho; exact keptVec_vecFlags h
  case vsgn | vimul | vand | vor | vxor | vshl | vshr | vsar | vimin | vimax | vpopc | vclmul | vicmp | mand | mor
      | mxor | mnot | mpopc | vmovVector | vmovLaneToGeneral | vmovGeneralToLane | vmovGeneralToMask | vmovMaskToGeneral
      | vbcast | vext | vperm | vpswap | vslide | vcompress | vexpand | vsel | viota | vconfl =>
    cases ho; exact h
  case vcvt => cases ho; exact keptVec_runVcvt h
  case vcmp => cases ho; exact keptVec_runVcmp h
  case vred => cases ho; exact keptVec_runVred h
  case vscan | vscanExcl => cases ho; exact keptVec_runScan h
  case vld | vgath => cases ho; exact keptVec_vecMem h fun _ _ _ => kept_loadLane
  case vst | vscat => cases ho; exact keptVec_vecMem h fun _ _ _ => kept_storeLane
  case vscatAdd | vscatIadd | vscatImin | vscatImax => cases ho; exact keptVec_vecMem h fun _ _ _ => kept_rmwLane
  case vldt => cases ho; exact keptVec_runVldt h
  case vstt => cases ho; exact keptVec_runVstt h
  case rbsetSetV | rbsetUnsetV => cases ho; exact keptVec_runRbsetV h
  case rrankV => cases ho; exact keptVec_runRrankV h
  case rselV => cases ho; exact keptVec_runRselV h
  all_goals cases ho

/-! ## Starting and ending an entry -/

/-- The groupings that wait are set aside while an entry runs and put back as they were. -/
theorem kept_restoreSpcfgs (h : Kept r s) (ht : Kept r t) :
    Kept r (modCore t k (fun q => { q with spcfgs := (getCore s k).spcfgs })) :=
  kept_putCore_of_forms ht
    ⟨(kept_getCore ht k).1, fun hr => ⟨((kept_getCore ht k).2 hr).1, ((kept_getCore h k).2 hr).2⟩⟩

theorem kept_dropSpcfgs (h : Kept r s) : Kept r (modCore s k (fun q => { q with spcfgs := [] })) :=
  kept_modCore h ⟨id, fun hg => ⟨hg.1, fun _ he => nomatch he⟩⟩

theorem keptVec_runEntry (ho : vecOp i = some o) (h : Kept r s) : KeptVec r (runEntry s c o e) := by
  have hrun : KeptVec r (o.run e (modCore { s with cur := c } (coreOfCtx c) (fun q => { q with spcfgs := [] }))) :=
    keptVec_vecOp ho (kept_dropSpcfgs (s := { s with cur := c }) h)
  have hback (t : State) (ht : Kept r t) : Kept r (modCore { t with cur := s.cur } (coreOfCtx c)
      (fun q => { q with spcfgs := (getCore s (coreOfCtx c)).spcfgs })) :=
    kept_restoreSpcfgs (t := { t with cur := s.cur }) h ht
  unfold runEntry
  dsimp only
  split
  · next hj => rw [hj] at hrun; exact hback _ hrun
  · next hj => rw [hj] at hrun; exact hback _ hrun
  · next hj =>
    split
    · trivial
    · rw [hj] at hrun; exact hback _ hrun
  · trivial
  · trivial

theorem kept_noteStart (h : Kept r t) : Kept r (noteStart x c e rest t) :=
  kept_ite (kept_retireNext (kept_modCtx h)) (kept_modCtx h)

theorem kept_startHead (hok : startHead s c = some t) (h : Kept r s) : Kept r t := by
  unfold startHead at hok
  dsimp only at hok
  split at hok
  · cases hok
  · next e rest _ =>
    split at hok
    · cases hok
    · next o ho =>
      have hrun : KeptVec r (runEntry s c o e) := keptVec_runEntry ho h
      split at hok
      · cases hok
      · split at hok
        · next hj => cases hok; rw [hj] at hrun; exact kept_noteStart hrun
        · next hj => cases hok; rw [hj] at hrun; exact kept_noteStart hrun
        · next hj =>
          cases hok; rw [hj] at hrun
          exact kept_raiseFault (kept_releaseReply (kept_modCtx hrun))
        · cases hok
        · split at hok
          · cases hok
          · cases hok; exact kept_putCtx h

theorem kept_vecStart (hok : vecStart s k = some t) (h : Kept r s) : Kept r t := by
  obtain ⟨i, -, hi⟩ := List.exists_of_findSome?_eq_some hok
  obtain ⟨u, hu, rfl⟩ := Option.map_eq_some_iff.1 hi
  have hk := kept_startHead hu h
  exact kept_ite hk (kept_modCore_of_eq hk rfl rfl rfl)

@[simp] theorem keptOut_execVectorStart (h : Kept r s) : KeptOut r (execVectorStart k s) := by
  unfold execVectorStart
  split
  · trivial
  · split
    · next hj => exact kept_vecStart hj h
    · exact h

@[simp] theorem keptOut_execVectorComplete (h : Kept r s) : KeptOut r (execVectorComplete c s) := by
  unfold execVectorComplete
  split
  · trivial
  · split
    · exact h
    · exact kept_fillReplyOpt (kept_modCtx h)

end Sys2Proof.Machine
end

section
/-!
PROOFS. The forms through scheduling: placing, saving, restoring, ending cohorts (R158-R172, R481-R499).
-/
namespace Sys2Proof.Machine
set_option autoImplicit true

/-- A loop over a state with a second value beside it keeps the forms when each of its rounds does. -/
theorem kept_foldl_fst {f : State × β → α → State × β} {x : State × β} (h : Kept r x.1)
    (hf : ∀ y a, Kept r y.1 → Kept r (f y a).1) (l : List α) : Kept r (l.foldl f x).1 :=
  List.foldlRecOn (motive := fun y => Kept r y.1) l f h fun y hy a _ => hf y a hy

/-- Memories and cores whose table is mapped by what keeps each core's forms. -/
theorem keptParts_mapCores {f : Core → Core} (h : Kept r s) (hf : ∀ q, CoreKept q (f q)) :
    KeptParts r s.hbm s.hostMem (s.cores.map (fun kv => (kv.1, f kv.2))) := by
  constructor
  · refine fun hr => ⟨(h.1 hr).1, (h.1 hr).2.1, fun e he => ?_⟩
    obtain ⟨kv, hkv, rfl⟩ := List.mem_map.1 he
    exact (hf kv.2).1 ((h.1 hr).2.2 kv hkv)
  · intro hr e he
    obtain ⟨kv, hkv, rfl⟩ := List.mem_map.1 he
    exact (hf kv.2).2 (h.2 hr kv hkv)

/-! ## Frames (R481-R498) -/

theorem kept_clearBytes (h : Kept r s) : Kept r (clearBytes n s pa) :=
  ⟨fun hr => ⟨memWf_filter _ (h.1 hr).1, (h.1 hr).2⟩, h.2⟩

theorem kept_clearFrame (h : Kept r s) : Kept r (clearFrame s pa) := kept_clearBytes h

theorem kept_putWords (h : Kept r s) : Kept r (putWords addr ws s) := kept_foldl h (fun _ _ ht => kept_writeHbm ht) _

theorem kept_contextImage (h : Kept r s) : Kept r (contextImage s c).2 := by
  unfold contextImage
  dsimp only
  split
  · split <;> exact h
  · exact h

theorem kept_loadCohortFrame (h : Kept r s) : Kept r (loadCohortFrame s c x k pa) := by
  have h1 := kept_foldl (l := (List.range 32).filter (fun i => (lrCmask x.lrec).testBit i)) (f := fun t i =>
    putCounter t k i ⟨(frameWord s [pa] (8 * i)).toNat % counterMax, (frameWord s [pa] (8 * i)).getLsbD 63⟩)
    h (fun _ _ ht => kept_putCounter ht)
  exact kept_foldl (kept_ite (kept_modCore_of_eq h1 rfl rfl rfl) h1) (fun _ _ ht => kept_pushFault ht) _

theorem kept_loadBarriers (h : Kept r s) : Kept r (loadBarriers s x pa) :=
  kept_foldl h (fun _ _ ht => kept_putBarrier ht) _

theorem kept_saveWindow (h : Kept r s) : Kept r (saveWindow s k abase asize pas) :=
  kept_foldl
    (kept_foldl (kept_foldl h (fun _ _ ht => kept_clearFrame ht) _) (fun _ _ ht => kept_writeHbm ht) _)
    (fun _ _ ht => kept_writeHbm ht) _

theorem coreKept_restoreByte : CoreKept q (restoreByte abase asize o b q) := by
  unfold restoreByte
  split
  · exact .refl q
  · split <;> exact .refl q

theorem kept_restoreWindow (h : Kept r s) : Kept r (restoreWindow s w) := by
  refine kept_modCore h (List.foldlRecOn (motive := CoreKept _) _ _ ?_ fun q hq ob _ => hq.trans coreKept_restoreByte)
  exact .refl (getCore s w.core)

theorem kept_saveKept (h : Kept r s) : Kept r (saveKept s k w) := by
  unfold saveKept
  split
  · split
    · exact kept_modCore_of_eq (kept_putCohort (kept_saveWindow h)) rfl rfl rfl
    · exact h
  · exact h

/-! ## Placing cohorts (R158-R172) -/

theorem kept_keepWake (h : Kept r s) : Kept r (keepWake s c) := kept_ite h h

theorem kept_endReservation (h : Kept r s) : Kept r (endReservation s c) := h

theorem kept_clearIcaches (h : Kept r s) : Kept r (clearIcaches s seats) :=
  kept_foldl h (fun _ _ ht => kept_modCore_of_eq ht rfl rfl rfl) _

theorem kept_placeQueued (h : Kept r s) : Kept r (placeQueued s c x p) :=
  kept_clearIcaches
    (kept_foldl (kept_foldl (kept_putCohort h) (fun _ _ ht => kept_putCtx (kept_keepWake ht)) _)
      (fun _ _ ht => kept_putBarrier ht) _)

theorem kept_placeReturned (h : Kept r s) : Kept r (placeReturned s c x) := by
  have h1 : Kept r ((members x).foldl keepWake s) := kept_foldl h (fun _ _ ht => kept_keepWake ht) _
  unfold placeReturned
  dsimp only
  split
  · exact kept_clearIcaches (kept_putCohort h1)
  · exact h1

theorem kept_placeCohort (h : Kept r s) : Kept r (placeCohort s c x p) := by
  have h1 := kept_foldl (f := fun t (kw : Nat × KeptWindow) => saveKept t kw.1 kw.2) h (fun _ _ ht => kept_saveKept ht)
  exact kept_endReservation (kept_ite (kept_placeReturned (h1 _)) (kept_placeQueued (h1 _)))

theorem kept_beginStop (h : Kept r s) : Kept r (beginStop s c x res take rot frames) :=
  kept_stopLapses (kept_pauseConvs (kept_putCohort h))

theorem kept_stopAll (hok : stopAll s c take rot vs = some t) (h : Kept r s) : Kept r t := by
  induction vs generalizing s with
  | nil => cases hok; exact h
  | cons v vs ih =>
    rw [stopAll] at hok
    split at hok
    · exact ih hok h
    · split at hok
      · cases hok
      · exact ih hok (kept_beginStop h)

theorem kept_findVictims (hok : findVictims s c x rot taken cands = some t) (h : Kept r s) : Kept r t := by
  induction cands generalizing taken with
  | nil => cases hok
  | cons v vs ih =>
    rw [findVictims] at hok
    dsimp only at hok
    split at hok
    · exact ih hok
    · split at hok
      · exact ih hok
      · split at hok
        · next hj => cases hok; exact kept_stopAll hj h
        · exact ih hok

theorem kept_tryPreempt (hok : tryPreempt s c x = some t) (h : Kept r s) : Kept r t := kept_findVictims hok h

theorem kept_tryRotate (hok : tryRotate s c x = some t) (h : Kept r s) : Kept r t := by
  unfold tryRotate at hok
  split at hok
  · cases hok
  · exact kept_findVictims hok h

theorem kept_markHeads (h : Kept r s) : Kept r (markHeads s d) := h

theorem kept_startHeadWait (h : Kept r s) : Kept r (startHeadWait s c) := by
  unfold startHeadWait
  split
  · split <;> exact h
  · exact h

theorem kept_walkLevel (h : Kept r s) (hs : List Nat) : Kept r (walkLevel s head hs).1 := by
  induction hs generalizing s head with
  | nil => exact h
  | cons c hs ih =>
    rw [walkLevel]
    split
    · exact ih h
    · split
      · exact ih h
      · split
        · exact ih h
        · split
          · exact ih (kept_placeCohort h)
          · split
            · exact ih h
            · have h1 : Kept r (startHeadWait s c) := kept_startHeadWait h
              dsimp only
              split
              · next hj => exact ih (kept_tryPreempt hj h1)
              · split
                · next hj => exact ih (kept_tryRotate hj h1)
                · split
                  · exact h1
                  · exact ih h1

theorem kept_walkLevels (h : Kept r s) (n : Nat) : Kept r (walkLevels d n s) := by
  induction n generalizing s with
  | zero => exact h
  | succ n ih =>
    have h1 : Kept r (walkLevel s true (levelQueue s d n)).1 := kept_walkLevel h _
    rw [walkLevels]
    split
    · next hj => rw [hj] at h1; exact h1
    · next hj => rw [hj] at h1; exact ih h1

theorem kept_beginStops (h : Kept r s) : Kept r (beginStops s d) := by
  refine kept_foldl h (fun t z ht => ?_) _
  split
  · exact ht
  · split
    · exact ht
    · exact kept_beginStop ht

theorem kept_pass (h : Kept r s) : Kept r (pass s d) :=
  kept_markHeads (kept_walkLevels (kept_markHeads (kept_beginStops h)) 8)

@[simp] theorem keptOut_execSchedulerPass (h : Kept r s) : KeptOut r (execSchedulerPass d s) := by
  unfold execSchedulerPass
  split
  · trivial
  · split
    · exact h
    · exact kept_pass (kept_modDie h)

@[simp] theorem keptOut_execQuantumExpiry (h : Kept r s) : KeptOut r (execQuantumExpiry c s) := by
  unfold execQuantumExpiry
  split
  · exact h
  · split
    · exact kept_passAll (kept_putCohort h)
    · exact h

@[simp] theorem keptOut_execHeadWaitExpiry (h : Kept r s) : KeptOut r (execHeadWaitExpiry d lv s) := by
  unfold execHeadWaitExpiry
  split
  · trivial
  · dsimp only
    split
    · exact h
    · split
      · exact h
      · exact kept_duePass (kept_putCohort h)

/-! ## Saving a cohort (R483-R495) -/

theorem kept_saveImage {x : State × SaveCursor} (h : Kept r x.1) : Kept r (saveImage frames c x).1 :=
  kept_putWords (kept_foldl (kept_contextImage (kept_modCtx (kept_dropStalled h))) (fun _ _ ht => kept_clearFrame ht) _)

theorem kept_saveCore {a : State × SaveCursor} (h : Kept r a.1) : Kept r (saveCore c x first seat a).1 := by
  have h2 := fun addr ws pa => kept_putWords (addr := addr) (ws := ws) (kept_clearFrame (pa := pa)
    (kept_foldl_fst (f := fun u c => saveImage x.frames c u) h (fun _ _ ht => kept_saveImage ht) seat.ctxs))
  unfold saveCore
  dsimp only
  split
  · exact kept_foldl_fst (h2 ..) (fun _ _ ht => kept_saveWindow ht) _
  · exact h2 ..

theorem kept_leaveCore (h : Kept r s) : Kept r (leaveCore c x s seat) := kept_modCore_of_eq h rfl rfl rfl

theorem kept_dropStruck (h : Kept r s) : Kept r (dropStruck s x) := kept_foldl h (fun _ _ ht => kept_terminateCtx ht) _

theorem kept_saveQuiet (h : Kept r s) : Kept r (saveQuiet s c x) := by
  have h1 := fun first cur => kept_foldl_fst (f := fun u t => saveCore c x first t u) (x := (s, cur)) h
    (fun _ _ ht => kept_saveCore ht) x.seats
  have h2 := fun first cur => kept_foldl (f := leaveCore c x) (h1 first cur)
    (fun _ _ ht => kept_leaveCore ht) x.seats
  have h3 := fun first cur f g => kept_foldl (f := fun t d => modDie t d f)
    (kept_foldl (f := fun t k => modCtx t k g) (h2 first cur) (fun _ _ ht => kept_modCtx ht) (members x))
    (fun _ _ ht => kept_modDie ht) [0, 1, 2, 3]
  refine kept_passAll (kept_putCohort ?_)
  split
  · exact kept_nextAcc (h3 ..)
  · exact h3 ..

theorem kept_saveCohort (h : Kept r s) : Kept r (saveCohort s c x) := by
  have h1 : Kept r (dropStruck s x) := kept_dropStruck h
  unfold saveCohort
  dsimp only
  split
  · exact kept_ite (kept_saveQuiet h1) h1
  · exact h1

@[simp] theorem keptOut_execCohortSaveComplete (h : Kept r s) : KeptOut r (execCohortSaveComplete c s) := by
  unfold execCohortSaveComplete
  split
  · exact h
  · split
    · exact kept_saveCohort h
    · exact h

/-! ## Restoring a cohort (R496-R498) -/

theorem kept_reloadActive (h : Kept r s) : Kept r (reloadActive s k p x) := by
  unfold reloadActive
  split
  · split
    · exact kept_putPart h
    · dsimp only
      split
      · next hj => exact kept_putPart (kept_loadSet hj h)
      · exact kept_putPart h
  · exact kept_putPart h

theorem kept_restoreEngine (h : Kept r s) : Kept r (restoreEngine v ms k e s) := kept_putEngine h

theorem kept_restoreCore (h : Kept r s) : Kept r (restoreCore c x v first s seat) := by
  have h1 := kept_foldl (f := restoreWindow) h (fun _ _ ht => kept_restoreWindow ht)
    (v.windows.filter (fun w => w.core == seat.core))
  have h2 : Kept r (modCore _ seat.core (fun q => { q with kept := q.kept.filter (fun w => w.coh != c) })) :=
    kept_modCore_of_eq h1 rfl rfl rfl
  refine kept_foldl (kept_foldl ?_ (fun _ _ ht => kept_reloadActive ht) _) (fun _ _ ht => kept_restoreEngine ht) _
  refine (fun h5 => kept_ite (kept_loadBarriers h5) h5) (kept_loadCohortFrame (kept_foldl h2 (fun t k ht => ?_) _))
  split
  · exact kept_putCtx ht
  · exact ht

theorem kept_settleOwed (h : Kept r s) (l : List (Nat × Nat × Nat × Nat × Word)) : Kept r (settleOwed s l) := by
  induction l generalizing s with
  | nil => exact h
  | cons e l ih => exact ih (kept_markFaulted (kept_counterSub h))

theorem kept_restoreCohort (h : Kept r s) : Kept r (restoreCohort s c x v) := by
  refine kept_passAll (kept_foldl (kept_foldl (kept_pauseConvs (kept_settleOwed ?_ _)) (fun _ _ ht => kept_modDie ht) _)
    (fun _ _ ht => kept_terminateCtx ht) _)
  exact kept_foldl (kept_putCohort h) (fun _ _ ht => kept_restoreCore ht) _

@[simp] theorem keptOut_execCohortRestoreComplete (h : Kept r s) : KeptOut r (execCohortRestoreComplete c s) := by
  unfold execCohortRestoreComplete
  split
  · exact h
  · split
    · exact kept_restoreCohort h
    · exact h

/-! ## Ending a cohort (R163, R166, R472) -/

theorem kept_freeCore (h : Kept r s) : Kept r (freeCore c x s seat) :=
  kept_modCore_of_eq (kept_foldl h (fun _ _ ht => kept_freePartition ht) _) rfl rfl rfl

theorem kept_finishCohort (h : Kept r s) : Kept r (finishCohort s c x) := by
  have h1 : Kept r (endReservation (dropCohort (dissolveGangs s c) c) c) := h
  have hdone : ∀ u, Kept r u → Kept r (passAll (if lrDoneEn x.lrec then doneGate u (lrDoneGate x.lrec) else u)) :=
    fun u hu => kept_passAll (kept_ite (kept_doneGate hu) hu)
  refine hdone _ ?_
  split <;> exact h1

theorem kept_freeCohort (h : Kept r s) : Kept r (freeCohort s c x) := by
  have h2 := kept_foldl (f := fun t k => modCtx t k freedCtx)
    (kept_foldl (f := freeCore c x) h (fun _ _ ht => kept_freeCore ht) x.seats)
    (fun _ _ ht => kept_modCtx ht) (members x)
  exact kept_finishCohort h2

@[simp] theorem keptOut_execCohortCompletion (h : Kept r s) : KeptOut r (execCohortCompletion c s) := by
  unfold execCohortCompletion
  split
  · exact h
  · split
    · exact kept_freeCohort h
    · exact h

theorem kept_terminateMember (h : Kept r s) : Kept r (terminateMember s x c) :=
  kept_ite (kept_ite h (kept_logTermination (kept_endStopped (kept_modCtx (kept_stopAgents h))))) (kept_terminateCtx h)

theorem kept_dropConv (h : Kept r s) : Kept r (dropConv s d c) := kept_modDie (kept_setRecWord h)

theorem kept_dropSaved (h : Kept r s) : Kept r (dropSaved s c x v) := by
  refine kept_foldl (kept_foldl (kept_foldl (kept_foldl (kept_foldl h ?_ _) (fun _ _ ht => kept_releaseSlotsOf ht) _)
    (fun _ _ ht => kept_foldl ht (fun _ _ hu => kept_dropConv hu) _) _)
    (fun _ _ ht => kept_modCore_of_eq ht rfl rfl rfl) _) (fun _ _ ht => kept_ite (kept_putCtx ht) ht) _
  intro t k ht
  split
  · exact kept_ite ht (kept_logTermination ht)
  · exact ht

theorem kept_settleTerminated (h : Kept r s) : Kept r (settleTerminated s c) := by
  unfold settleTerminated
  split
  · exact h
  · exact kept_ite (kept_putCohort h) (kept_freeCohort h)

theorem kept_terminateCohort (h : Kept r s) : Kept r (terminateCohort s c x) := by
  unfold terminateCohort
  split
  · exact kept_finishCohort (kept_foldl h (fun _ _ ht => kept_logTermination ht) _)
  · exact kept_finishCohort (kept_dropSaved h)
  · exact kept_finishCohort (kept_dropSaved h)
  · exact h
  · exact kept_settleTerminated (kept_foldl h (fun _ _ ht => kept_terminateMember ht) _)

@[simp] theorem keptOut_execAgentsStopped (h : Kept r s) : KeptOut r (execAgentsStopped c s) := by
  have h1 : Kept r (endStopped s c) := kept_endStopped h
  unfold execAgentsStopped
  split
  · trivial
  · split
    · exact h
    · dsimp only
      split
      · exact kept_ite (kept_settleTerminated h1) h1
      · exact h1

@[simp] theorem keptOut_execFirmwareTerminate (h : Kept r s) : KeptOut r (execFirmwareTerminate c s) := by
  unfold execFirmwareTerminate
  split
  · exact h
  · exact kept_terminateCohort h

/-! ## PREEMPT, TLBINV, CTXSAVE, CTXLOAD (R500-R508) -/

theorem kept_setHold (h : Kept r s) : Kept r (setHold s c x v) := h

theorem kept_preemptStopOp (h : Kept r s) : Kept r (preemptStopOp s c x) := kept_ite (kept_setHold h) h

theorem kept_preemptHaltOp (h : Kept r s) : Kept r (preemptHaltOp s c x) := by
  unfold preemptHaltOp
  split
  · exact h
  · exact h
  · exact kept_foldl h (fun _ _ ht => kept_modCtx ht) _

theorem kept_preemptResumeOp (h : Kept r s) : Kept r (preemptResumeOp s c x) :=
  kept_ite (kept_setHold h) (kept_foldl h (fun _ _ ht => kept_modCtx ht) _)

theorem kept_preemptOp (h : Kept r s) : Kept r (preemptOp s op c) := by
  unfold preemptOp
  split
  · exact h
  · split
    · exact h
    · exact kept_preemptStopOp h
    · exact kept_preemptHaltOp h
    · exact kept_preemptResumeOp h
    · exact kept_terminateCohort (kept_ite (kept_setMe h) h)

theorem keptExe_preemptBody (h : Kept r s) : KeptExe r (preemptBody d a b s) := by
  unfold preemptBody
  dsimp only
  split
  · exact h
  · split
    · exact h
    · exact kept_preemptOp (kept_wg h)

theorem kept_tlbInvalidate (h : Kept r s) : Kept r (tlbInvalidate op asid va s) :=
  keptParts_mapCores (f := fun q => { q with tlb := q.tlb.filter (fun e => !tlbDrops op asid va e) }) h
    fun q => CoreKept.refl q

theorem keptExe_tlbinvBody (h : Kept r s) : KeptExe r (tlbinvBody a b s) := by
  grind [tlbinvBody, faultAt, kept_tlbInvalidate, KeptExe]

/-- The state beside the pages of an image has the forms of r. -/
def KeptPages (r : State) (acc : Except FaultRec (List Nat × State)) : Prop := ∀ pas t, acc = .ok (pas, t) → Kept r t

theorem kept_imagePages (hok : imagePages s p kind n = .ok (pas, t)) (h : Kept r s) : Kept r t := by
  have hacc : KeptPages r (imagePages s p kind n) := by
    refine List.foldlRecOn (motive := KeptPages r) (List.range n) _ (fun pas t he => ?_) fun acc hacc i _ => ?_
    · cases he; exact h
    · unfold KeptPages at *
      grind [kept_translate]
  exact hacc pas t hok

theorem kept_imageOpen (hok : imageOpen a b kind pages s = .ok (c, pas, t)) (h : Kept r s) : Kept r t := by
  grind [imageOpen, kept_imagePages]

theorem keptExe_ctxsaveBody (h : Kept r s) : KeptExe r (ctxsaveBody a b s) := by
  unfold ctxsaveBody
  split
  · exact h
  · split
    · exact h
    · next hj =>
      have h1 := kept_imageOpen hj h
      split
      · exact h1
      · exact kept_noteWrite (kept_putWords (kept_foldl (kept_contextImage h1) (fun _ _ ht => kept_clearBytes ht) _))

theorem keptExe_ctxloadBody (h : Kept r s) : KeptExe r (ctxloadBody a b s) := by
  unfold ctxloadBody
  generalize imageValid = valid -- its 2048 double-words are not to be gone through
  split
  · exact h
  · split
    · exact h
    · next hj =>
      dsimp only
      split
      · exact h
      · exact kept_modCtx (kept_imageOpen hj h)

end Sys2Proof.Machine
end

section
/-!
PROOFS. The forms through gangs, links, the host's registers, bring-up and the agents that remain.
-/
namespace Sys2Proof.Machine
set_option autoImplicit true

/-! ## LCFG and LSTAT (R265, R517-R529) -/

theorem keptExe_lcfgGangBody (h : Kept r s) : KeptExe r (lcfgGangBody d a b s) := by
  unfold lcfgGangBody
  split
  · exact h
  · refine kept_wg (kept_foldl ?_ (fun _ _ ht => kept_modPart ht) _)
    exact h

theorem keptExe_lcfgUngangBody (h : Kept r s) : KeptExe r (lcfgUngangBody s) := by
  unfold lcfgUngangBody
  split
  · exact h
  · split
    · exact h
    · split
      · exact h
      · split
        · exact h
        · refine kept_foldl ?_ (fun _ _ ht => kept_modPart ht) _
          exact h

theorem keptExe_wsetRec (h : Kept r s) : KeptExe r (wsetRec i s bs) := by
  unfold wsetRec
  dsimp only
  split <;> exact h

theorem keptExe_lcfgWsetBody (h : Kept r s) : KeptExe r (lcfgWsetBody a b s) := by
  unfold lcfgWsetBody
  split
  · exact h
  · split
    · exact h
    · exact keptExe_withBytes h fun _ _ ht => keptExe_wsetRec ht

theorem keptExe_lcfgWclrBody (h : Kept r s) : KeptExe r (lcfgWclrBody b s) := by
  unfold lcfgWclrBody
  dsimp only
  split <;> exact h

theorem keptExe_lstatBody (h : Kept r s) : KeptExe r (lstatBody d a s) := by
  grind [lstatBody, kept_wg, KeptExe]

/-! ## Links and peers (R517-R529) -/

@[simp] theorem keptOut_execLinkRetry (h : Kept r s) : KeptOut r (execLinkRetry port s) := by
  unfold execLinkRetry
  split
  · trivial
  · split <;> exact h

@[simp] theorem keptOut_execPeerRequestReceive (h : Kept r s) : KeptOut r (execPeerRequestReceive port req s) := by
  unfold execPeerRequestReceive
  split
  · trivial
  · split
    · exact h
    · split
      · next hj =>
        have hk := kept_performPeer hj h
        exact hk
      · exact h

theorem kept_storeAnswered (h : Kept r s) : Kept r (storeAnswered s c key) := h

theorem kept_peerEnd (h : Kept r s) : Kept r (peerEnd s key req a) := by
  have h1 : Kept r { s with peers := tabErase s.peers key } := h
  unfold peerEnd
  dsimp only
  split
  · exact kept_ite h1 h1
  · split
    · exact kept_storeAnswered h1
    · exact kept_peerStoreFailed (kept_storeAnswered h1)
  · exact kept_peerBeatAnswer h1

@[simp] theorem keptOut_execPeerResponseReceive (h : Kept r s) : KeptOut r (execPeerResponseReceive key resp s) := by
  unfold execPeerResponseReceive
  split
  · exact h
  · exact kept_peerEnd h

@[simp] theorem keptOut_execPeerTimeout (h : Kept r s) : KeptOut r (execPeerTimeout key s) := by
  unfold execPeerTimeout
  split
  · exact h
  · split
    · exact kept_peerEnd h
    · exact h

@[simp] theorem keptOut_execLinkUp (h : Kept r s) : KeptOut r (execLinkUp port dev s) := by
  unfold execLinkUp
  split
  · trivial
  · split <;> exact h

@[simp] theorem keptOut_execLinkDown (h : Kept r s) : KeptOut r (execLinkDown port s) := by
  unfold execLinkDown
  split
  · trivial
  · split
    · exact h
    · refine kept_foldl ?_ (fun _ _ ht => kept_peerEnd ht) _
      exact h

/-! ## The host's registers and mailbox (R535-R548) -/

theorem kept_noteChange (h : Kept r t) : Kept r (noteChange s t) := kept_ite h h
theorem kept_addRead (h : Kept r s) : Kept r (addRead s bs) := h

@[simp] theorem keptOut_execHostGateRead (h : Kept r s) : KeptOut r (execHostGateRead n s) := by
  unfold execHostGateRead
  split
  · trivial
  · exact kept_addRead h

@[simp] theorem keptOut_execHostGateWrite (h : Kept r s) : KeptOut r (execHostGateWrite n v s) := by
  unfold execHostGateWrite
  split
  · trivial
  · split
    · exact kept_setGate h
    · exact h

theorem kept_dieRegWrite (h : Kept r s) : Kept r (dieRegWrite s d o size v) :=
  kept_ite (kept_dropWindowWrite h) (kept_ite (kept_modDie h) (kept_ite (kept_modDie h) h))

theorem kept_respond (h : Kept r s) : Kept r (respond s status payload) := h

theorem kept_doorbell (h : Kept r s) : Kept r (doorbell s) := by
  have h1 : Kept r { s with mbBusy := true, mbPost := s.mbReq } := h
  exact kept_ite h (kept_ite (kept_respond h1) h1)

theorem kept_mailboxWrite (h : Kept r s) : Kept r (mailboxWrite s o size v) :=
  kept_ite h (kept_ite (kept_doorbell h) h)

theorem kept_hnotifyWrite (h : Kept r s) : Kept r (hnotifyWrite s o size v) := h

theorem kept_bar0Write (h : Kept r s) : Kept r (bar0Write s o size v) :=
  kept_ite (kept_dieRegWrite h) (kept_ite (kept_mailboxWrite h) (kept_ite (kept_ite (kept_setGate h) h)
    (kept_ite (kept_hnotifyWrite h) h)))

@[simp] theorem keptOut_execBar0RegisterWrite (h : Kept r s) : KeptOut r (execBar0RegisterWrite o size v s) := by
  unfold execBar0RegisterWrite
  split
  · exact kept_dropWindowWrite h
  · split
    · exact kept_bar0Write h
    · exact h

@[simp] theorem keptOut_execBar0Read (h : Kept r s) : KeptOut r (execBar0Read o len s) := by
  unfold execBar0Read
  split
  · exact h
  · split <;> exact kept_addRead h

@[simp] theorem keptOut_execHostBar2Read (h : Kept r s) : KeptOut r (execHostBar2Read o len s) := kept_addRead h

@[simp] theorem keptOut_execHostBar2Write (h : Kept r s) : KeptOut r (execHostBar2Write o data s) :=
  kept_foldl h (fun _ _ ht => kept_ite (kept_writeHbm ht) ht) _

theorem keptOut_onRequest (h : Kept r s) (hf : Kept r (f s)) : KeptOut r (onRequest op f s) := by
  unfold onRequest
  split
  · exact hf
  · exact h

theorem kept_acceptImage (h : Kept r s) : Kept r (acceptImage s bs) := by
  refine kept_noteChange ?_
  exact h

@[simp] theorem keptOut_execFirmwareVerify (h : Kept r s) : KeptOut r (execFirmwareVerify image s) := by
  unfold execFirmwareVerify
  split
  · exact h
  · exact kept_ite (kept_acceptImage h) h

theorem kept_mailboxLoadOp (h : Kept r s) : Kept r (mailboxLoadOp s) :=
  kept_ite (kept_respond h) (kept_ite (kept_respond h) (kept_ite (kept_respond (kept_acceptImage h))
    (kept_respond (kept_noteChange (t := { s with modState := .held }) h))))

@[simp] theorem keptOut_execMailboxLoad (h : Kept r s) : KeptOut r (execMailboxLoad s) := by
  unfold execMailboxLoad
  split
  · exact h
  · exact keptOut_onRequest h (kept_mailboxLoadOp h)

@[simp] theorem keptOut_execMailboxAttest (h : Kept r s) : KeptOut r (execMailboxAttest s) :=
  keptOut_onRequest h (kept_ite (kept_respond h) (kept_respond h))

theorem kept_mailboxSetcapOp (h : Kept r s) : Kept r (mailboxSetcapOp s) := by
  unfold mailboxSetcapOp
  generalize mbWord s 0 = cap
  dsimp only
  split
  · exact kept_respond h
  · split
    · exact kept_respond h
    · refine kept_respond (kept_noteChange ?_)
      exact h

@[simp] theorem keptOut_execMailboxSetcap (h : Kept r s) : KeptOut r (execMailboxSetcap s) :=
  keptOut_onRequest h (kept_mailboxSetcapOp h)

@[simp] theorem keptOut_execMailboxTermlog (h : Kept r s) : KeptOut r (execMailboxTermlog s) :=
  keptOut_onRequest h (kept_respond (kept_noteChange (t := { s with termLog := [] }) h))

@[simp] theorem keptOut_execMailboxSvnset (h : Kept r s) : KeptOut r (execMailboxSvnset s) := keptOut_onRequest h h

@[simp] theorem keptOut_execMailboxSelftest (h : Kept r s) : KeptOut r (execMailboxSelftest s) :=
  keptOut_onRequest h (kept_respond h)

/-! ## Reset, bring-up, trips (R537-R544) -/

/-- Memories and cores that are as after a reset, but for the memory of the host. -/
theorem keptParts_reset (h : Kept r s) : KeptParts r [] s.hostMem [] :=
  ⟨fun hr => ⟨rfl, (h.1 hr).2.1, fun _ he => nomatch he⟩, fun _ _ he => nomatch he⟩

/-- A trip's reset keeps the memories and every scratchpad, and makes each grouping 0. -/
theorem kept_afterReset (h : Kept r s) : Kept r (afterReset s) := by
  unfold afterReset
  dsimp only
  split
  · refine keptParts_mapCores (s := s)
      (f := fun q => { coreReset with spad := q.spad, acc := q.acc, poison := q.poison, badAcc := q.badAcc }) h
      fun q => ⟨id, fun _ => ⟨Nat.zero_le 5, fun _ he => nomatch he⟩⟩
  · exact keptParts_reset (s := s) h

@[simp] theorem keptOut_execPowerOnReset (h : Kept r s) : KeptOut r (execPowerOnReset s) := kept_afterReset h

theorem kept_bringPortUp (h : Kept r s) : Kept r (bringPortUp s pd) := h

@[simp] theorem keptOut_execSelftestDone (h : Kept r s) : KeptOut r (execSelftestDone result s) := by
  unfold execSelftestDone
  split
  · exact h
  · have h1 : Kept r ((coresLost result).foldl (fun t k => modCore t k (fun q => { q with out := true })) s) :=
      kept_foldl h (fun _ _ ht => kept_modCore_of_eq ht rfl rfl rfl) _
    have h2 (t : State) (ht : Kept r t) : Kept r ((portsTrained result).foldl bringPortUp { t with linkUp := 0 }) :=
      kept_foldl (s := { t with linkUp := 0 }) ht (fun _ _ hu => kept_bringPortUp hu) _
    refine kept_noteChange ?_
    exact h2 _ h1

theorem kept_configDie (h : Kept r s) : Kept r (configDie cfg s d) := kept_modDie h
theorem kept_modIsland (h : Kept r s) : Kept r (modIsland s n f) := h
theorem kept_configIsland (h : Kept r s) : Kept r (configIsland cfg s n) := kept_modIsland h

@[simp] theorem keptOut_execConfigDone (h : Kept r s) : KeptOut r (execConfigDone cfg s) := by
  unfold execConfigDone
  split
  · exact h
  · have h2 : Kept r ((List.range 32).foldl (configIsland cfg) ([0, 1, 2, 3].foldl (configDie cfg) s)) :=
      kept_foldl (kept_foldl h (fun _ _ ht => kept_configDie ht) _) (fun _ _ ht => kept_configIsland ht) _
    refine kept_noteChange ?_
    unfold Kept at h2 ⊢
    dsimp only
    exact h2

/-- What a trip leaves in the memories is in canonical form; the groupings are as they were. -/
theorem kept_memoryLost (h : Kept r s) : Kept r (memoryLost s) := by
  constructor
  · refine fun hr => ⟨memWf_trippedMem .., (h.1 hr).2.1, fun e he => ?_⟩
    obtain ⟨k, -, rfl⟩ := List.mem_map.1 he
    exact memWf_trippedMem ..
  · intro hr e he
    obtain ⟨k, -, rfl⟩ := List.mem_map.1 he
    exact (kept_getCore h k).2 hr

theorem kept_tripped (h : Kept r s) : Kept r (tripped s) := by
  have h1 : Kept r (memoryLost s) := kept_memoryLost h
  exact kept_ite h h1

@[simp] theorem keptOut_execTrip (h : Kept r s) : KeptOut r (execTrip island s) := by
  unfold execTrip
  split
  · trivial
  · exact kept_noteChange (kept_tripped h)

@[simp] theorem keptOut_execCurrentLimitStretch (h : Kept r s) : KeptOut r (execCurrentLimitStretch island s) := by
  unfold execCurrentLimitStretch
  split
  · trivial
  · split <;> exact h

@[simp] theorem keptOut_execMonitorRefresh (h : Kept r s) : KeptOut r (execMonitorRefresh island sample s) := by
  unfold execMonitorRefresh
  split
  · trivial
  · split
    · exact h
    · have h1 : Kept r { modIsland s island (fun x => { x with
          rosc := sample.rosc, vmv := sample.vmv, temp := sample.temp, fresh := true })
        with modpwr := sample.modpwr } := h
      exact kept_noteChange (kept_ite (kept_tripped h1) h1)

@[simp] theorem keptOut_execIslandClockChange (h : Kept r s) : KeptOut r (execIslandClockChange island mhz s) := by
  unfold execIslandClockChange
  split
  · trivial
  · split <;> exact h

@[simp] theorem keptOut_execPatrolScrub (h : Kept r s) : KeptOut r (execPatrolScrub target s) := by
  unfold execPatrolScrub
  split
  · exact h
  · cases target with
    | clean => exact h
    | acc k e =>
      dsimp only
      split
      · trivial
      · exact kept_modCore_of_eq h rfl rfl rfl
    | spad k o =>
      dsimp only
      split
      · trivial
      · exact kept_modCore_of_eq h rfl rfl rfl
    | hbm pa =>
      dsimp only
      split
      · trivial
      · exact h
    | ctx c =>
      dsimp only
      split
      · trivial
      · exact kept_modCtx h

@[simp] theorem keptOut_execPowerOff (h : Kept r s) : KeptOut r (execPowerOff s) := h

/-! ## Groupings, loads and stores that complete (R125, R126, R301) -/

/-- The grouping that a core takes is one that waited, which has the form. -/
theorem kept_takeSpcfg (h : Kept r s) (hq : (getCore s k).spcfgs = e :: rest) :
    Kept r (modCore s k (fun q => { q with spmapG := e.2, spcfgs := rest })) :=
  kept_modCore h ⟨id, fun hg => ⟨hg.2 e (hq ▸ List.mem_cons_self), fun f hf => hg.2 f (hq ▸ List.mem_cons_of_mem e hf)⟩⟩

@[simp] theorem keptOut_execSpcfgApply (h : Kept r s) : KeptOut r (execSpcfgApply k s) := by
  unfold execSpcfgApply
  split
  · trivial
  · split
    · exact h
    · next c g rest hq =>
      split
      · exact h
      · have h1 := kept_takeSpcfg h hq
        exact kept_ite (kept_asCtx h1 fun _ => kept_retireNext) h1

@[simp] theorem keptOut_execLoadReturn (h : Kept r s) : KeptOut r (execLoadReturn c n s) := by
  unfold execLoadReturn
  split
  · trivial
  · exact kept_modCtx h

@[simp] theorem keptOut_execStorePerformed (h : Kept r s) : KeptOut r (execStorePerformed c i s) := by
  unfold execStorePerformed
  split
  · trivial
  · split
    · exact kept_foldl (kept_modCtx h) (fun _ _ ht => kept_locWrite ht) _
    · exact h

@[simp] theorem keptOut_execIcacheFill (h : Kept r s) : KeptOut r (execIcacheFill k line s) := by
  unfold execIcacheFill
  split
  · trivial
  · exact kept_fillLine h

end Sys2Proof.Machine
end

section
/-!
PROOFS. Every instruction, every agent's step and every step of the package keep the forms; the obligation.
-/
namespace Sys2Proof.Machine
set_option autoImplicit true

@[simp] theorem keptOut_execClearStart (h : Kept r s) : KeptOut r (execClearStart k p s) := keptOut_startDrain h
@[simp] theorem keptOut_execDrainStart (h : Kept r s) : KeptOut r (execDrainStart k p s) := keptOut_startDrain h

/-- Every instruction keeps the forms. -/
theorem keptOut_exec (i : Instr) (h : Kept r s) : KeptOut r (exec i s) := by
  cases i
  case add | sub | mul | mulh | mulhu | mulhsu | div | divu | rem | remu | and | or | xor | andn | orn | xnor | shl |
      shr | sar | rol | ror | min | max | minu | maxu | clz | ctz | popc | brev | bswap | exts | extz | bfx | bfi |
      sel | lea | addi | muli | andi | ori | xori | shli | shri | sari | movi | movhi | cmp | test | pand | por | pxor
      | pnot | pmov | cmpi | br | call | jmpr | callr | ret | fclass | fsgn | nop | trap | brk | fence =>
    exact keptOut_issue1 h h
  case loop => exact keptOut_issue1 h (keptExe_loopBody h)
  case ld => exact keptOut_issue1 h (keptExe_loadBody h)
  case pref => exact keptOut_issue1 h (keptExe_prefBody h)
  case st => exact keptOut_issue1 h (keptExe_storeBody h)
  case amoSwap | amoAdd | amoAnd | amoOr | amoXor | amoMin | amoMax | amoMinu | amoMaxu | amocas | amofadd =>
    exact keptOut_issue1 h (keptExe_atomicBody h)
  case fadd | fsub | fmul | ffma | fdiv | fsqrt | fmin | fmax | fcvt | fcvti | icvtf =>
    exact keptOut_issue1 h (keptExe_fpWrites h)
  case fcmp => exact keptOut_issue1 h (keptExe_fpWritesP h)
  case crd => exact keptOut_issue h (keptExe_crdBody h)
  case cwr => exact keptOut_issue h (keptExe_cwrBody h)
  case halt | eret | movx | brx | brxRel => exact keptOut_issue h h
  case launch => exact keptOut_issue1 h (keptExe_launchBody h)
  case exit => exact keptOut_issue1 h (keptExe_exitBody h)
  case yieldI => exact keptOut_issue1 h (keptExe_yieldBody h)
  case park => exact keptOut_issue1 h (keptExe_parkBody h)
  case wake => exact keptOut_issue1 h (keptExe_wakeBody h)
  case cset => exact keptOut_issue1 h (keptExe_csetBody h)
  case cadd => exact keptOut_issue1 h (keptExe_caddBody h)
  case cwait => exact keptOut_issue1 h (keptExe_cwaitBody h)
  case crdc => exact keptOut_issue1 h (keptExe_crdcBody h)
  case barinit => exact keptOut_issue1 h (keptExe_barinitBody h)
  case bara => exact keptOut_issue1 h (keptExe_baraBody h)
  case barw => exact keptOut_issue1 h (keptExe_barwBody h)
  case gset => exact keptOut_issue1 h (keptExe_gsetBody h)
  case gadd => exact keptOut_issue1 h (keptExe_gaddBody h)
  case grd => exact keptOut_issue1 h (keptExe_grdBody h)
  case vadd | vsub | vmul | vfma | vdiv | vsqrt | vrcp | vrsq | vmin | vmax | vsgn | vexp2 | vlog2 | vsin | vcos |
      vsinpi | vcospi | viadd | visub | vimul | vand | vor | vxor | vshl | vshr | vsar | vimin | vimax | vpopc |
      vclmul | vcvt | vcmp | vicmp | mand | mor | mxor | mnot | mpopc | vmovVector | vmovLaneToGeneral |
      vmovGeneralToLane | vmovGeneralToMask | vmovMaskToGeneral | vbcast | vext | vperm | vpswap | vslide | vcompress
      | vexpand | vsel | viota | vred | vscan | vscanExcl | vld | vst | vgath | vscat | vscatAdd | vscatIadd |
      vscatImin | vscatImax | vconfl | vcomb =>
    exact keptOut_issue1 h (keptExe_vissueBody h)
  case rpop => exact keptOut_issue1 h (keptExe_rpopBody h)
  case qflush => exact keptOut_issue1 h (keptExe_qflushBody h)
  case qstat => exact keptOut_issue1 h (keptExe_qstatBody h)
  case frpop => exact keptOut_issue1 h (keptExe_frpopBody h)
  case ppart => exact keptOut_issue1 h (keptExe_ppartBody h)
  case ppartRel => exact keptOut_issue1 h (keptExe_ppartRelBody h)
  case pcfg | pcfgPlc | pclr | psweep | psweeps | pscan | ptopk => exact keptOut_issue1 h (keptExe_poolIssue h)
  case pexcReadCounters | pexcReadThresholds | pexcSetThresholds | pexcReadClearCounters | pexcSetDitherPhase |
      pexcResume =>
    exact keptOut_issue1 h (keptExe_pexcBody h)
  case pdrain => exact keptOut_execPdrain h
  case pprog => exact keptOut_issue1 h (keptExe_pprogBody h)
  case pstat => exact keptOut_issue1 h (keptExe_pstatBody h)
  case spcfg => exact keptOut_issue h (keptExe_spcfgBody h)
  case treg => exact keptOut_issue h (keptExe_tregBody h)
  case trel => exact keptOut_issue h (keptExe_trelBody h)
  case tinfo => exact keptOut_issue1 h (keptExe_tinfoBody h)
  case taddr => exact keptOut_issue1 h (keptExe_taddrBody h)
  case tld => exact keptOut_issue1 h (keptExe_tldBody h)
  case tst => exact keptOut_issue1 h (keptExe_tstBody h)
  case vldt | vstt => exact keptOut_issue1 h (keptExe_vtensorIssue h)
  case echk => exact keptOut_issue1 h (keptExe_echkBody h)
  case cpy | cpy2 | cfill | cpyt | cpyts | cpyg | cpyr | cpys => exact keptOut_issue1 h (keptExe_copyIssue h)
  case relayout => exact keptOut_issue1 h (keptExe_relayoutBody h)
  case relayoutResRetry | relayoutResAbandon => exact keptOut_issue h (keptExe_resBody h)
  case tstat => exact keptOut_issue1 h (keptExe_tstatBody h)
  case tsync => exact keptOut_issue1 h (keptExe_tsyncBody h)
  case rbsetClr => exact keptOut_issue1 h (keptExe_rbsetClrBody h)
  case rbsetSet | rbsetUnset => exact keptOut_issue1 h (keptExe_rbsetBitBody h)
  case rbsetSetV | rbsetUnsetV | rrankV | rselV => exact keptOut_issue1 h (keptExe_rvBody h)
  case ridx => exact keptOut_issue1 h (keptExe_ridxBody h)
  case rrank | rsel => exact keptOut_issue1 h (keptExe_searchBody h)
  case rhist => exact keptOut_issue1 h (keptExe_rhistBody h)
  case place => exact keptOut_issue1 h (keptExe_placeBody h)
  case ctxsave => exact keptOut_issue h (keptExe_ctxsaveBody h)
  case ctxload => exact keptOut_issue h (keptExe_ctxloadBody h)
  case tlbinvAddress | tlbinvAsid | tlbinvAll => exact keptOut_issue h (keptExe_tlbinvBody h)
  case preemptStatus | preemptStop | preemptHalt | preemptResume | preemptTerminate =>
    exact keptOut_issue h (keptExe_preemptBody h)
  case lcfgGang => exact keptOut_issue1 h (keptExe_lcfgGangBody h)
  case lcfgUngang => exact keptOut_issue1 h (keptExe_lcfgUngangBody h)
  case lcfgWset => exact keptOut_issue h (keptExe_lcfgWsetBody h)
  case lcfgWclr => exact keptOut_issue h (keptExe_lcfgWclrBody h)
  case lstat => exact keptOut_issue1 h (keptExe_lstatBody h)
  all_goals simp [exec, h]

/-! ## The fetch and the choice of a context (R33, R153-R155) -/

theorem kept_fetchWords (hok : fetchWords s c = .words w0 w1 t) (h : Kept r s) : Kept r t := by
  unfold fetchWords at hok
  grind [kept_fetch]

theorem keptOut_runWords (h : Kept r s) : KeptOut r (runWords w0 w1 s) := by
  unfold runWords
  dsimp only
  split
  · exact kept_raiseFault h
  · split
    · exact keptOut_exec _ h
    · exact kept_raiseFault h

theorem keptOut_movePointer (ho : KeptOut r o) : KeptOut r (movePointer s c o) := by
  cases o with
  | next t => exact kept_ite (kept_modCore_of_eq ho rfl rfl rfl) ho
  | fault f => trivial
  | refused x => trivial

theorem kept_takeSlot (h : Kept r s) : Kept r (takeSlot s c) := h

theorem keptOut_runCtx (h : Kept r s) : KeptOut r (runCtx s c) := by
  have h1 : Kept r (takeSlot s c) := kept_takeSlot h
  refine keptOut_movePointer ?_
  split
  · next hj => exact keptOut_runWords (kept_fetchWords hj h1)
  · exact keptOut_execIcacheFill h1
  · exact kept_raiseFault h1

theorem kept_haltCtx (h : Kept r s) : Kept r (haltCtx s c) := kept_modCtx (kept_dropStalled h)

theorem keptOut_issueCtx (h : Kept r s) : KeptOut r (issueCtx s c) := by
  unfold issueCtx
  split
  · trivial
  · split
    · exact keptOut_execAsyncTrapDeliver h
    · split
      · exact kept_haltCtx h
      · split
        · exact keptOut_runCtx h
        · exact h

/-! ## The agents and the step (R539) -/

/-- Every move keeps the forms. -/
theorem keptOut_runMoveAny (m : Move) (h : Kept r s) : KeptOut r (runMoveAny m s) := by
  cases m
  case issue c => exact keptOut_issueCtx h
  all_goals simp [runMoveAny, h]

end Sys2Proof.Machine
end

section
/-!
PROOFS. Every step of the package keeps the forms, and with them the canonical form of the memories.
-/
namespace Sys2Proof.Machine
set_option autoImplicit true

theorem keptOut_runMove (h : Kept r s) : KeptOut r (runMove m s) := by
  unfold runMove
  split
  · exact h
  · exact keptOut_runMoveAny m h

theorem kept_firstStep (hok : firstStep s ms = some t) (h : Kept r s) : Kept r t := by
  obtain ⟨m, -, hm⟩ := firstStep_move hok
  have hrun : KeptOut r (runMove m s) := keptOut_runMove h
  rw [hm] at hrun
  exact hrun

theorem keptOut_ctxTry (hok : ctxTry s c = some o) (h : Kept r s) : KeptOut r o := by
  have hrun : KeptOut r (runCtx s c) := keptOut_runCtx h
  unfold ctxTry at hok
  split at hok
  · next hj =>
    split at hok
    · cases hok
    · cases hok; rw [hj] at hrun; exact hrun
  · cases hok; exact hrun

theorem keptOut_nextTurn (hok : nextTurn s = some o) (h : Kept r s) : KeptOut r o := by
  obtain ⟨c, -, hc⟩ := List.exists_of_findSome?_eq_some hok
  exact keptOut_ctxTry hc h

theorem keptOut_ctxTurn (hok : ctxTurn s = some o) (h : Kept r s) : KeptOut r o := by
  unfold ctxTurn at hok
  split at hok
  · cases hok; exact kept_haltCtx h
  · exact keptOut_nextTurn hok h

theorem kept_engineStep (hok : engineStep s = some t) (h : Kept r s) : Kept r t := by
  obtain ⟨u, hu, rfl⟩ := Option.map_eq_some_iff.1 hok
  have hk := kept_firstStep hu h
  exact hk

theorem kept_setPace (h : Kept r s) : Kept r { s with pace := p } := h

/-- The engines' step where there is one, else another answer. -/
theorem keptOut_else {x : Option State} {o : Out} : (∀ t, x = some t → Kept r t) → KeptOut r o →
    KeptOut r (match x with | some t => .next t | none => o) := by
  intro hx ho
  cases x with
  | none => exact ho
  | some t => exact hx t rfl

theorem keptOut_readyStep (h : Kept r s) : KeptOut r (readyStep s) := by
  refine keptOut_else (fun t hdue => ?_) ?_
  · obtain ⟨-, hstep⟩ := Option.ite_none_right_eq_some.1 hdue
    exact kept_engineStep hstep h
  · dsimp only
    split
    · next hj => exact keptOut_ctxTurn hj (kept_setPace h)
    · exact keptOut_else (fun t hstep => kept_engineStep hstep (kept_setPace h)) (kept_setPace h)

theorem keptOut_autoStep (h : Kept r s) : KeptOut r (autoStep s) := by
  unfold autoStep
  split
  · next hj => exact kept_firstStep hj h
  · split
    · exact h
    · split
      · exact h
      · exact keptOut_readyStep h

/-- Every step keeps the forms that the state has: those of the memories and those of the bank groupings. -/
theorem kept_step (hok : step s = .next t) : Kept s t := by
  have hkept (o : Out) (ho : KeptOut s o) (htick : tick o = .next t) : Kept s t := by
    obtain ⟨u, rfl, rfl⟩ := tick_next htick
    exact ho
  cases hin : s.inputs with
  | nil => exact hkept _ (keptOut_autoStep (kept_refl s)) (step_auto hin ▸ hok)
  | cons m rest =>
    exact hkept _ (keptOut_runMove (s := { s with inputs := rest }) (kept_refl s)) (step_input hin ▸ hok)

/-- Settles O59: the relation `Kept`, which every function of the state preserves, holds from a state to its next. -/
theorem stepKeepsMemoryForm : Obligations.StepKeepsMemoryForm := by
  unfold Obligations.StepKeepsMemoryForm
  exact fun _ _ hs hok => (kept_step hok).memOk hs

end Sys2Proof.Machine
end

section
/-!
PROOFS. Decoding the words of an instruction (R42, R46, R54, R56). The encoder lays an instruction's fields side by
side, and the decoder takes each of them out again by its place, so that every row of the opcode table is read back by
the rules on the fields of a concatenation below.
-/
namespace Sys2Proof.Machine

/-! ## The fields of a concatenation -/

section
variable {v w lo n k : Nat}

/-! The encoder's concatenations have a width that is a numeral, so the width in these statements is no index. -/

theorem extractLsb'_append_low (x : BitVec v) (y : BitVec w) (h : lo + n ≤ w) :
    (HAppend.hAppend (γ := no_index (BitVec (v + w))) x y).extractLsb' lo n = y.extractLsb' lo n :=
  BitVec.extractLsb'_append_eq_of_add_le h

theorem extractLsb'_append_high (x : BitVec v) (y : BitVec w) (h : w ≤ lo) :
    (HAppend.hAppend (γ := no_index (BitVec (v + w))) x y).extractLsb' lo n = x.extractLsb' (lo - w) n :=
  BitVec.extractLsb'_append_eq_of_le h

theorem getLsbD_append_low (x : BitVec v) (y : BitVec w) (h : k < w) :
    (HAppend.hAppend (γ := no_index (BitVec (v + w))) x y).getLsbD k = y.getLsbD k := by
  rw [BitVec.getLsbD_append, if_pos h]

theorem getLsbD_append_high (x : BitVec v) (y : BitVec w) (h : w ≤ k) :
    (HAppend.hAppend (γ := no_index (BitVec (v + w))) x y).getLsbD k = x.getLsbD (k - w) := by
  rw [BitVec.getLsbD_append, if_neg (Nat.not_lt.2 h)]

theorem getLsbD_zero_ofBool (b : Bool) : (BitVec.ofBool b).getLsbD 0 = b := by
  simp

/-- A field whose low bits are not those of a code is not that code, whatever its other bits are. -/
theorem extractLsb'_beq_false_of_low {x : BitVec w} {c : BitVec n} (hk : k ≤ n)
    (h : x.extractLsb' lo k ≠ c.extractLsb' 0 k) : (x.extractLsb' lo n == c) = false := by
  refine beq_eq_false_iff_ne.2 fun hc => h ?_
  subst hc
  ext j hj
  simp [Nat.lt_of_lt_of_le hj hk]

end

/-! ## The fields of a first word (R42) -/

section
variable (m : BitVec 6) (h : Hdr) (body : BitVec 48) {lo n k : Nat}

theorem extractLsb'_encWord (hn : lo + n ≤ 48) : (encWord m h body).extractLsb' lo n = body.extractLsb' lo n :=
  extractLsb'_append_low _ _ hn

theorem getLsbD_encWord (hk : k < 48) : (encWord m h body).getLsbD k = body.getLsbD k :=
  getLsbD_append_low _ _ hk

theorem major_encWord : (encWord m h body).extractLsb' 58 6 = m := by
  simp [encWord, extractLsb'_append_high]

theorem readHdr_encWord : readHdr (encWord m h body) = h := by
  simp only [readHdr, encWord, extractLsb'_append_low, extractLsb'_append_high, getLsbD_append_low,
    getLsbD_append_high, getLsbD_zero_ofBool, BitVec.extractLsb'_eq_self, Nat.reduceAdd, Nat.reduceSub,
    Nat.reduceLeDiff, Nat.reduceLT]

end

/-! ## From the fields of the words to the instruction (R5, R56) -/

/-- Forms that only an operand tells apart share their words. -/
theorem encode_wordForm (i : Instr) : encode (wordForm i) = encode i := by
  unfold wordForm
  split <;> rfl

theorem wellFormed_wordForm (i : Instr) : WellFormed (wordForm i) = WellFormed i := by
  unfold wordForm
  split <;> rfl

/-- The decoder refuses no word that the encoder writes, once the fields are read back. -/
theorem decode_of_readFields {i : Instr} {w w1 : Word} {ws : List Word} (hwf : WellFormed i = true)
    (henc : encode i = some (w :: ws)) (hread : readFields w w1 = .ok (wordForm i)) :
    decode w w1 = .ok (wordForm i) := by
  simp [decode, hread, wellFormed_wordForm, hwf, encode_wordForm, henc]

end Sys2Proof.Machine
end

section
/-!
PROOFS. The rows of every major are read back from their words: the scalar majors and those of two words, the vector
unit's, the engines'. In each, the cases are the instructions; those without an encoding and those of the other majors
fall away, and the readers of the majors that remain take the fields out of the concatenations.
-/
namespace Sys2Proof.Machine

section
variable {i : Instr} {w : Word} {ws : List Word}

/-- Majors below 0x10 and of two words. A word of CALL differs from those of BR in that its register is not g0. -/
theorem readFields_scalar (hwf : WellFormed i = true) (henc : encode i = some (w :: ws))
    (hm : (w.extractLsb' 58 6).toNat < 0x10 ∨ 0x38 ≤ (w.extractLsb' 58 6).toNat) :
    readFields w (ws.headD 0) = .ok (wordForm i) := by
  cases i <;> cases henc <;> simp [major_encWord] at hm
  case call h d off =>
    have hd : (d == 0#6) = false := by simpa [WellFormed] using (Bool.and_eq_true_iff.1 hwf).2
    simp [readFields, major_encWord, readBranch, extractLsb'_encWord, extractLsb'_append_low, extractLsb'_append_high,
      readHdr_encWord, hd, wordForm]
  all_goals
    simp only [readFields, readIalu, readIalui, readCmpPred, readBranch, readJump, readLoad, readStore, readAmo,
      readSync, readFpu, readFcvt, readSys, readQctl, readMovx, readBrx, wordForm, readOrd, encOrd,
      major_encWord, readHdr_encWord, extractLsb'_encWord, getLsbD_encWord, extractLsb'_append_low,
      extractLsb'_append_high, getLsbD_append_low, getLsbD_append_high, getLsbD_zero_ofBool,
      BitVec.extractLsb'_eq_self, BitVec.reduceExtractLsb', BitVec.reduceGetLsb, BitVec.reduceBEq, BitVec.reduceToNat,
      Nat.reduceAdd, Nat.reduceSub, Nat.reduceLeDiff, Nat.reduceLT, ↓reduceIte, beq_self_eq_true, Bool.false_eq_true,
      Bool.not_true, Bool.not_false, Bool.and_true, Bool.and_false, Bool.false_and,
      List.headD_cons]

/-- Majors 0x10 to 0x17. VCOMB's operation stands in the bits that VCONFL's longer function field takes. -/
theorem readFields_vector (henc : encode i = some (w :: ws))
    (hm : 0x10 ≤ (w.extractLsb' 58 6).toNat ∧ (w.extractLsb' 58 6).toNat < 0x18) :
    readFields w (ws.headD 0) = .ok (wordForm i) := by
  have hfn {n : Nat} {x : BitVec n} (hx : x.extractLsb' 0 4 = 3#4) : (x.extractLsb' 0 12 == 2#12) = false :=
    extractLsb'_beq_false_of_low (k := 4) (by decide) (by rw [hx]; decide)
  cases i <;> cases henc <;> simp [major_encWord] at hm
  all_goals
    simp only [readFields, readVfp, readVint, readVcvt, readVxf, readVperm, readVmask, readVmem, readVidx, hfn,
      wordForm, readOrd, encOrd,
      major_encWord, readHdr_encWord, extractLsb'_encWord, getLsbD_encWord, extractLsb'_append_low,
      extractLsb'_append_high, getLsbD_append_low, getLsbD_append_high, getLsbD_zero_ofBool,
      BitVec.extractLsb'_eq_self, BitVec.reduceExtractLsb', BitVec.reduceBEq, BitVec.reduceToNat,
      Nat.reduceAdd, Nat.reduceSub, Nat.reduceLeDiff, Nat.reduceLT, ↓reduceIte, beq_self_eq_true, Bool.false_eq_true,
      Bool.and_true, Bool.and_false, Bool.false_and]

/-- Majors 0x18 to 0x37. TSTAT's selection stands in the bit that the longer function fields of RELAYOUT take. -/
theorem readFields_engine (henc : encode i = some (w :: ws))
    (hm : 0x18 ≤ (w.extractLsb' 58 6).toNat ∧ (w.extractLsb' 58 6).toNat < 0x38) :
    readFields w (ws.headD 0) = .ok (wordForm i) := by
  have hfn {x : BitVec 48} {c : BitVec 5} (hc : c.extractLsb' 0 4 = 0#4) (hx : x.extractLsb' 0 4 = 1#4) :
      (x.extractLsb' 0 5 == c) = false :=
    extractLsb'_beq_false_of_low (k := 4) (by decide) (by rw [hx, hc]; decide)
  cases i <;> cases henc <;> simp [major_encWord] at hm
  all_goals
    simp only [readFields, readTens, readLayt, readSpad, readPoolc, readPools, readPoold, readRoute, readCopy,
      readCopyt, readCopyx, readLink, hfn, wordForm, readOrd, encOrd, readCtl, encCtl,
      major_encWord, readHdr_encWord, extractLsb'_encWord, getLsbD_encWord, extractLsb'_append_low,
      extractLsb'_append_high, getLsbD_append_low, getLsbD_append_high, getLsbD_zero_ofBool,
      BitVec.extractLsb'_eq_self, BitVec.reduceExtractLsb', BitVec.reduceGetLsb, BitVec.reduceBEq, BitVec.reduceToNat,
      Nat.reduceAdd, Nat.reduceSub, Nat.reduceLeDiff, Nat.reduceLT, ↓reduceIte, beq_self_eq_true, Bool.false_eq_true,
      Bool.not_true, Bool.not_false, Bool.and_true, Bool.and_false]

end

/-- Settles O11: the readers of the scalar majors give the fields back, and the decoder accepts the word. -/
theorem scalarFormsDecodeFromTheirWords : Obligations.ScalarFormsDecodeFromTheirWords := by
  unfold Obligations.ScalarFormsDecodeFromTheirWords
  exact fun _ _ _ hwf henc hm => decode_of_readFields hwf henc (readFields_scalar hwf henc hm)

/-- Settles O12: the readers of the vector unit's majors give the fields back, and the decoder accepts the word. -/
theorem vectorFormsDecodeFromTheirWords : Obligations.VectorFormsDecodeFromTheirWords := by
  unfold Obligations.VectorFormsDecodeFromTheirWords
  exact fun _ _ _ hwf henc hm => decode_of_readFields hwf henc (readFields_vector henc hm)

/-- Settles O13: the readers of the engines' majors give the fields back, and the decoder accepts the word. -/
theorem engineFormsDecodeFromTheirWords : Obligations.EngineFormsDecodeFromTheirWords := by
  unfold Obligations.EngineFormsDecodeFromTheirWords
  exact fun _ _ _ hwf henc hm => decode_of_readFields hwf henc (readFields_engine henc hm)

/-- Settles O10: the encoder writes the manual's four words, all of scalar majors, so the decoder reads them back. -/
theorem decodesTheWordsOfTheManual : Obligations.DecodesTheWordsOfTheManual := by
  unfold Obligations.DecodesTheWordsOfTheManual
  intro h is wi hwi
  have hwords : ∀ wi ∈ is, WellFormed wi.2 = true ∧ encode wi.2 = some [wi.1] ∧
      (wi.1.extractLsb' 58 6).toNat < 0x10 ∧ wordForm wi.2 = wi.2 := by
    decide
  obtain ⟨hwf, henc, hm, hform⟩ := hwords wi hwi
  have hdec := scalarFormsDecodeFromTheirWords wi.2 wi.1 [] hwf henc (.inl hm)
  exact ⟨hform ▸ hdec, henc⟩

end Sys2Proof.Machine
end
